-- ==== Sys2Proof/Word.lean ====
section
/-!
DEFINITION. The machine's word types: 8-bit bytes, 32-bit names, 64-bit pairs, addresses and instruction words.
-/
namespace Sys2Proof

/-- A byte, the smallest addressable unit (R8). -/
abbrev Byte := BitVec 8

/-- The contents of one name in one lane (R21). -/
abbrev Word := BitVec 32

/-- A pair, an address, a program counter, an instruction word. -/
abbrev DWord := BitVec 64

/-- The double word whose bits 31:0 are `lo` and whose bits 63:32 are `hi` (R160). -/
def pairOf (lo hi : Word) : DWord := hi ++ lo

/-- Bits 31:0 of a pair. -/
def loOf (d : DWord) : Word := d.setWidth 32

/-- Bits 63:32 of a pair. -/
def hiOf (d : DWord) : Word := (d >>> 32).setWidth 32

end Sys2Proof
end

