-- ==== Sys2Proof/Syntax.lean ====
section
/-!
DEFINITION. The instructions, events and host commands of the Itduvis 940: one constructor of `Instr` per row of
spec/opcode_table.json. Operand fields are decoded into names, types and scopes; no raw encoding is kept.
-/
namespace Sys2Proof

/-- An operand name (R18). Field 63 names nothing and has no constructor. -/
inductive Name where
  | v (n : Fin 48)
  | g (n : Fin 8)
  | s (n : Fin 4)
  | zr
  | lane
  | tix
  deriving DecidableEq, Repr

/-- A source name with its last-use bit (R25). -/
structure Src where
  name : Name
  last : Bool
  deriving DecidableEq, Repr

/-- The lane pattern on B (R52). -/
inductive Pat where
  | none
  | bc (n : Fin 32)
  | rot (n : Fin 32)
  | xor (n : Fin 32)
  | mir (n : Fin 32)
  | up (n : Fin 32)
  | dn (n : Fin 32)
  | qbc (n : Fin 32)
  deriving DecidableEq, Repr

/-- The B side: a name with its pattern, or the 22-bit immediate (R54). -/
inductive BSrc where
  | reg (src : Src) (pat : Pat)
  | imm (i : BitVec 22)
  deriving DecidableEq, Repr

/-- Guard and SETF of a word (R49): `neg` inverts predicate `sel` (7 is pt); `setf` is the flag named, if any. -/
structure Hdr where
  neg : Bool
  sel : Fin 8
  setf : Option (Fin 12)
  deriving DecidableEq, Repr

/-- Shapes of R64. -/
structure Dab where
  d : Name
  a : Src
  b : BSrc
  deriving DecidableEq, Repr

structure Dabc where
  d : Name
  a : Src
  b : Src
  pat : Pat
  c : Src
  deriving DecidableEq, Repr

structure Da where
  d : Name
  a : Src
  deriving DecidableEq, Repr

structure Ab where
  a : Src
  b : BSrc
  deriving DecidableEq, Repr

/-- Shape P: selector, predicate (7 discards), A and B (R64). -/
structure Pab where
  cc : Fin 8
  p : Fin 8
  a : Src
  b : BSrc
  deriving DecidableEq, Repr

/-- Integer types (R57). -/
inductive ITy where
  | n32 | s32 | n64 | s64 | n16x2 | s16x2 | n8x4 | s8x4
  deriving DecidableEq, Repr

/-- Floating types (R57). -/
inductive FTy where
  | f32 | f16x2 | bf16x2
  deriving DecidableEq, Repr

/-- Memory widths (R57). -/
inductive MTy where
  | n8 | s8 | n16 | s16 | b32 | b64 | b128
  deriving DecidableEq, Repr

/-- Rounding modes (R104). -/
inductive RM where
  | rne | rz | ru | rd
  deriving DecidableEq, Repr

/-- Order suffixes (R57). -/
inductive Ord where
  | plain | acq | rel | sc
  deriving DecidableEq, Repr

/-- Scopes (R58). -/
inductive Scope where
  | core | die | dev | pool | sys | stk | chn | bnk
  deriving DecidableEq, Repr

/-- MOD and XTRA of class 0x2 (R123). -/
structure FMod where
  ty : FTy
  rm : RM
  sat : Bool
  neg : Bool
  deriving DecidableEq, Repr

/-- Order, scope and hints of a memory form (R240). -/
structure MMod where
  ty : MTy
  ord : Ord
  scope : Scope
  bp : Bool
  ro : Bool
  st : Bool
  deriving DecidableEq, Repr

/-- Order, scope and hint of an atomic form (R240); `wide` is TY .b64. -/
structure AMod where
  wide : Bool
  ord : Ord
  scope : Scope
  st : Bool
  deriving DecidableEq, Repr

/-- Operations of ATOM, ATOMS and RED (R249). -/
inductive AtomOp where
  | add | minS | maxS | minN | maxN | and | or | xor | exch
  | addF32 | addF16x2 | addBf16x2 | minF32 | maxF32
  deriving DecidableEq, Repr

/-- Rows of R156 for REDX. -/
inductive RedOp where
  | addF32 | addF16x2 | addBf16x2 | addB32 | minS32 | maxS32 | minN32 | maxN32
  | minF32 | maxF32 | andB32 | orB32 | xorB32
  deriving DecidableEq, Repr

/-- Rows of R156 for SCAN. -/
inductive ScanOp where
  | addF32 | addF16x2 | addBf16x2 | addB32 | maxS32 | maxN32 | orB32 | maxF32
  deriving DecidableEq, Repr

/-- The address side of a memory form: A, and the byte offset in the immediate form (R241). -/
structure Addr where
  a : Src
  off : Option (BitVec 22)
  deriving DecidableEq, Repr

/-- Count or timeout of a barrier form: a name with its pattern, or an immediate (R255, R256). -/
abbrev Lim := BSrc

/-- An operand that is a name or an immediate number (R374). -/
inductive NumSrc where
  | reg (src : Src)
  | imm (i : BitVec 22)
  deriving DecidableEq, Repr

/-- A thread, wherever it lives: a lane of a core's warp slot, a lane of a core's proof slot, a Burin context of a core, a
thread of a Graver context (R10, R181, R272, R386). -/
inductive Tid where
  | core (c slot lane : Nat)
  | proof (c lane : Nat)
  | burin (c k : Nat)
  | graver (g tix : Nat)
  deriving DecidableEq, Repr

/-- The header of a host request (R370): the session it arrives on, and the fields of its 32 B header after the command code. -/
structure ReqHead where
  session : Nat
  flags : Byte
  reserved : BitVec 16
  ctxId : Word
  number : DWord
  length : Word
  zeros : BitVec 96
  deriving DecidableEq, Repr

/-- A host request: its header and the bytes of its body. -/
structure Req extends ReqHead where
  body : List Byte
  deriving DecidableEq, Repr

/-- Who writes a Graver control block from outside the Graver (R4, R273): a thread, or the host in a session. -/
inductive Writer where
  | thread (t : Tid)
  | session (number : Nat)
  deriving DecidableEq, Repr

/-- A control block with who writes it. -/
structure BlockRef where
  writer : Writer
  graver : Nat
  deriving DecidableEq, Repr

/-- Where an error correcting code finds an error (R402): a DRAM sector, a cell of a core by slot, quad and position (a global one
or a stack position), a 64 B piece of a Plate set of a core, or one of a Graver's local scratch. -/
inductive EccPlace where
  | dram (sector : Nat)
  | cell (core slot quad : Nat) (global : Bool) (index : Nat)
  | plate (core set piece : Nat)
  | graver (graver piece : Nat)
  deriving DecidableEq, Repr

/-- Which key a session's host proves (R369). -/
inductive Proof where
  | admin (digest : BitVec 256)
  | owner (ctx : Nat) (key : BitVec 512)
  | nothing
  deriving DecidableEq, Repr

/-- An image that boot or FWUPDATE verifies (R362): its digest, its security version, the digest of the key that signed it,
whether the signature verifies under that key, and the bytes of flash it takes (R2). -/
structure Image where
  digest : BitVec 256
  version : DWord
  signer : BitVec 256
  sigOk : Bool
  size : Nat
  deriving DecidableEq, Repr

/-- What training or the quick check of one stack's link finds (R411): the identity the base die gives, the codes of its
lanes, whether the stored codes pass the quick check, and whether full training succeeds within three attempts. -/
structure StackLink where
  identity : DWord
  codes : List (BitVec 16)
  quickOk : Bool
  fullOk : Bool
  deriving DecidableEq, Repr

/-- One constructor per row of spec/opcode_table.json. -/
inductive Instr where
  -- class 0x0, integer (R66, R164)
  | iadd (h : Hdr) (ty : ITy) (sat : Bool) (o : Dab)
  | isub (h : Hdr) (ty : ITy) (sat : Bool) (o : Dab)
  | imul (h : Hdr) (ty : ITy) (sat wide : Bool) (o : Dab)
  | imulh (h : Hdr) (ty : ITy) (o : Dab)
  | imad (h : Hdr) (ty : ITy) (sat wide : Bool) (o : Dabc)
  | imin (h : Hdr) (ty : ITy) (o : Dab)
  | imax (h : Hdr) (ty : ITy) (o : Dab)
  | iabs (h : Hdr) (ty : ITy) (sat : Bool) (o : Da)
  | icmp (h : Hdr) (signed : Bool) (o : Pab)
  | isel (h : Hdr) (o : Dabc)
  | popc (h : Hdr) (o : Da)
  | clz (h : Hdr) (o : Da)
  | brev (h : Hdr) (o : Da)
  | bfe (h : Hdr) (signed : Bool) (o : Dab)
  | bfi (h : Hdr) (o : Dabc)
  | idot4 (h : Hdr) (ty : ITy) (sat : Bool) (o : Dabc)
  | lea (h : Hdr) (signed : Bool) (o : Dab)
  | mov (h : Hdr) (o : Da)
  | movi (h : Hdr) (d : Name) (k : BitVec 22)
  | movk (h : Hdr) (d : Name) (half : Bool) (k : BitVec 16)
  -- class 0x1, logic and shift (R67, R175)
  | and (h : Hdr) (o : Dab)
  | or (h : Hdr) (o : Dab)
  | xor (h : Hdr) (o : Dab)
  | andn (h : Hdr) (o : Dab)
  | bmux (h : Hdr) (f1 f0 : BitVec 4) (d : Name) (a b c : Src)
  | shl (h : Hdr) (o : Dab)
  | shr (h : Hdr) (o : Dab)
  | sar (h : Hdr) (o : Dab)
  | rot (h : Hdr) (o : Dab)
  | fshf (h : Hdr) (o : Dabc)
  | plop (h : Hdr) (fn pd pa pb : Fin 8)
  | p2g (h : Hdr) (d : Name)
  | g2p (h : Hdr) (a : Src)
  -- class 0x2, floating (R68, R123)
  | fadd (h : Hdr) (m : FMod) (o : Dab)
  | fsub (h : Hdr) (m : FMod) (o : Dab)
  | fmul (h : Hdr) (m : FMod) (o : Dab)
  | ffma (h : Hdr) (m : FMod) (o : Dabc)
  | fmin (h : Hdr) (ty : FTy) (o : Dab)
  | fmax (h : Hdr) (ty : FTy) (o : Dab)
  | fcmp (h : Hdr) (o : Pab)
  | fclass (h : Hdr) (o : Da)
  | fscale (h : Hdr) (rm : RM) (sat : Bool) (d : Name) (a b : Src) (pat : Pat)
  | frnd (h : Hdr) (ty : FTy) (rm : RM) (o : Da)
  | fabs (h : Hdr) (ty : FTy) (o : Da)
  | fcpys (h : Hdr) (ty : FTy) (o : Dab)
  | fdiv (h : Hdr) (rm : RM) (sat neg : Bool) (o : Dab)
  | fsqrt (h : Hdr) (rm : RM) (o : Da)
  -- class 0x3, exact and double-word (R68, R133)
  | faddx (h : Hdr) (neg : Bool) (d : Name) (a b : Src) (pat : Pat)
  | fsubx (h : Hdr) (neg : Bool) (d : Name) (a b : Src) (pat : Pat)
  | fmulx (h : Hdr) (neg : Bool) (d : Name) (a b : Src) (pat : Pat)
  | dwadd (h : Hdr) (neg : Bool) (d : Name) (a b : Src) (pat : Pat)
  | dwsub (h : Hdr) (neg : Bool) (d : Name) (a b : Src) (pat : Pat)
  | dwmul (h : Hdr) (neg : Bool) (d : Name) (a b : Src) (pat : Pat)
  | dwaddf (h : Hdr) (neg : Bool) (d : Name) (a b : Src) (pat : Pat)
  | dwmulf (h : Hdr) (neg : Bool) (d : Name) (a b : Src) (pat : Pat)
  | dwnorm (h : Hdr) (o : Da)
  | dwcmp (h : Hdr) (cc p : Fin 8) (a b : Src) (pat : Pat)
  | cvtdw (h : Hdr) (o : Da)
  | cvtwd (h : Hdr) (o : Da)
  -- class 0x4, conversion and special functions (R69, R143)
  | cvt (h : Hdr) (ty : FTy) (fs : Fin 8) (d : Name) (a : NumSrc)
  | cvtp (h : Hdr) (ty : FTy) (fs : Fin 8) (d : Name) (a b : Src) (pat : Pat)
  | cvtu (h : Hdr) (ty : FTy) (fs : Fin 8) (o : Da)
  | cvts (h : Hdr) (fs : Fin 8) (o : Da)
  | frcp (h : Hdr) (ty : FTy) (o : Da)
  | frsq (h : Hdr) (ty : FTy) (o : Da)
  | fexp2 (h : Hdr) (ty : FTy) (o : Da)
  | flog2 (h : Hdr) (ty : FTy) (o : Da)
  | fsin (h : Hdr) (ty : FTy) (o : Da)
  | fcos (h : Hdr) (ty : FTy) (o : Da)
  | ftanh (h : Hdr) (ty : FTy) (o : Da)
  -- class 0x5, cross-lane (R69, R152)
  | shfl (h : Hdr) (d : Name) (a b : Src) (pat : Pat)
  | vote (h : Hdr) (cc : Fin 3) (p : Fin 8) (a : Src)
  | ballot (h : Hdr) (o : Da)
  | matchl (h : Hdr) (o : Da)
  | redx (h : Hdr) (op : RedOp) (rm : RM) (o : Da)
  | redxc (h : Hdr) (o : Da)
  | scan (h : Hdr) (op : ScanOp) (excl : Bool) (rm : RM) (o : Da)
  | lmask (h : Hdr) (live : Bool) (d : Name)
  -- class 0x6, control (R70, R322)
  | bra (h : Hdr) (off : BitVec 29)
  | brx (h : Hdr) (a : Src)
  | call (h : Hdr) (w : Fin 8) (off : BitVec 29)
  | calli (h : Hdr) (w : Fin 8) (a : Src)
  | ret (h : Hdr)
  | reform (h : Hdr)
  | exit (h : Hdr)
  | loopSet (h : Hdr) (lc : Fin 3) (n : BitVec 29)
  | loop (h : Hdr) (lc : Fin 3) (off : BitVec 29)
  | beod (h : Hdr) (out : Bool) (k : Fin 3) (sn : Fin 4) (off : BitVec 29)
  | yield (h : Hdr)
  | nop (h : Hdr)
  | spawn (h : Hdr) (o : Da)
  | join (h : Hdr) (o : Da)
  | cancel (h : Hdr) (a : Src)
  | trap (h : Hdr) (n : Fin 32)
  | bpt (h : Hdr)
  -- class 0x7, memory (R71, R240)
  | ld (h : Hdr) (m : MMod) (d : Name) (a : Addr)
  | st (h : Hdr) (m : MMod) (d : Name) (a : Addr)
  | lds (h : Hdr) (m : MMod) (d : Name) (a : Addr)
  | sts (h : Hdr) (m : MMod) (d : Name) (a : Addr)
  | ldt (h : Hdr) (m : MMod) (d : Name) (a : Addr)
  | stt (h : Hdr) (m : MMod) (d : Name) (a : Addr)
  | pref (h : Hdr) (bp ro st : Bool) (a : Addr)
  | cwb (h : Hdr) (st : Bool) (a : Addr)
  | cinv (h : Hdr) (st : Bool) (a : Addr)
  -- class 0x8, atomic (R71, R240)
  | atom (h : Hdr) (op : AtomOp) (m : AMod) (d : Name) (a b : Src) (pat : Pat)
  | atoms (h : Hdr) (op : AtomOp) (m : AMod) (d : Name) (a b : Src) (pat : Pat)
  | cas (h : Hdr) (m : AMod) (o : Dabc)
  | cass (h : Hdr) (m : AMod) (o : Dabc)
  | red (h : Hdr) (op : AtomOp) (m : AMod) (a b : Src) (pat : Pat)
  | fence (h : Hdr) (ord : Ord) (scope : Scope) (st : Bool) (a : Addr)
  -- class 0x9, barrier and wait (R71, R254)
  | bari (h : Hdr) (a : Src) (n : Lim)
  | bara (h : Hdr) (a : Src)
  | barw (h : Hdr) (p : Fin 8) (a : Src) (t : Lim)
  | baraw (h : Hdr) (p : Fin 8) (a : Src) (t : Lim)
  | tbar (h : Hdr)
  | gbar (h : Hdr)
  | waita (h : Hdr) (cc : Fin 8) (wide : Bool) (o : Dabc)
  -- classes 0xA to 0xC, engines, Gravers, collectives (R72, R260)
  | copy (h : Hdr) (a : Src)
  | copyr (h : Hdr) (a : Src)
  | copyq (h : Hdr) (o : Da)
  | strm (h : Hdr) (sn : Fin 4) (a b : Src) (pat : Pat)
  | strfIn (h : Hdr) (sn : Fin 4)
  | strfOut (h : Hdr) (sn : Fin 4)
  | strq (h : Hdr) (o : Da)
  | gred (h : Hdr) (o : Da)
  | gstart (h : Hdr) (a b : Src) (pat : Pat)
  | gstop (h : Hdr) (a : Src)
  | gattn (h : Hdr) (o : Da)
  | gmbox (h : Hdr) (d : Name) (a : Src) (b : Option (Src × Pat))
  | gid (h : Hdr) (d : Name)
  | mldred (h : Hdr) (d : Name) (a b : Src) (pat : Pat)
  | mstmc (h : Hdr) (wide : Bool) (d : Name) (a b : Src) (pat : Pat)
  | mgrp (h : Hdr) (a b : Src) (pat : Pat)
  | cfire (h : Hdr) (a : Src)
  | cstat (h : Hdr) (o : Da)
  -- class 0xD, tile (R73, R197)
  | tdset (h : Hdr) (t : Fin 16) (a b : Src)
  | tdget (h : Hdr) (hi : Bool) (d : Name) (t : Fin 16)
  | mma (h : Hdr) (acc : Fin 4) (ta tb tc : Fin 16)
  | mzero (h : Hdr) (s32 : Bool) (acc : Fin 4)
  | mldacc (h : Hdr) (s32 : Bool) (acc : Fin 4) (ta : Fin 16)
  | mdrain (h : Hdr) (raw z : Bool) (fs : Fin 8) (ta : Fin 16) (acc : Fin 4)
  | mdradd (h : Hdr) (raw : Bool) (fs : Fin 8) (a : Src) (tb : Fin 16) (acc : Fin 4)
  | marm (h : Hdr) (acc : Fin 4) (a : Src)
  | mstep (h : Hdr) (clr mask : Bool) (d : Name) (acc : Fin 4)
  | mfence (h : Hdr)
  -- class 0xE, system (R74)
  | sread (h : Hdr) (d : Name) (n : NumSrc)
  | swrite (h : Hdr) (a : Src) (n : BSrc)
  | plate (h : Hdr) (d : Name) (a b : Src)
  | plateq (h : Hdr) (o : Da)
  | psel (h : Hdr) (a : Src)
  | prdv (h : Hdr) (o : Da)
  | pwrv (h : Hdr) (a b : Src) (pat : Pat)
  | pret (h : Hdr)
  | clk (h : Hdr) (d : Name)
  | frec (h : Hdr) (o : Da)
  | frecList (h : Hdr) (o : Da)
  | capw (h : Hdr) (d : Name) (n : NumSrc)
  -- events of a core
  | quadrantIssue (c q : Nat)
  | ready256Promotion (c : Nat)
  | renameSpill (c : Nat)
  | variableLatencyComplete (t : Tid) (seq : Nat)
  | fixedLatencyComplete (t : Tid) (seq : Nat)
  | proofSlotStart (c : Nat)
  | binAgedDraw (c bin : Nat)
  -- events of the coordinator and the distributors
  | coordinatorArbitration
  | tokenRefill
  | tokenCharge
  | teamPlace (ctx launch : Nat)
  | plateSetMoveDone (c : Nat)
  | gangReserve (ctx launch : Nat)
  | gangCommit (ctx launch : Nat)
  | gangReservationRelease (ctx launch : Nat)
  | launchComplete (ctx launch : Nat)
  | spawnEnqueue (t : Tid)
  | coreHandover (c : Nat)
  | preqRaise (ctx queue : Nat)
  | forcedSave (c teamSlot : Nat)
  | teamSave (c teamSlot : Nat)
  | teamResume (ctx launch team : Nat)
  | residencyExchange (ctx launch : Nat)
  | clockStepApply (c : Nat)
  | clockDrift (c : Nat)
  -- waits
  | barrierTimeout (t : Tid)
  | waitaRecheck (t : Tid)
  | waitaTimeout (t : Tid)
  -- engines
  | copyElement (id : Nat)
  | copyComplete (id : Nat)
  | copyElementFault (id : Nat)
  | streamPrefetch (t : Tid) (n : Fin 4)
  | streamStorePerformed (t : Tid) (n : Fin 4)
  | startWrite (block : BlockRef) (value : DWord)
  | controlBlockWrite (block : BlockRef) (off : Nat) (value : DWord) (bytes8 : Bool)
  | graverExit (g : Nat)
  | gattnPage (id : Nat)
  | gattnComplete (id : Nat)
  | pressChunkReduce (ctx launch bind chunk : Nat)
  | mmaStep (c k : Nat)
  | drainAddHeaderAccept (c k : Nat)
  | drainAddApply (c k : Nat)
  | bankNoticeApply (bank : Nat)
  | cxlBackInvalidate (line : Nat)
  | tlbMissWalk (die : Nat)
  | dramScrub (place : EccPlace) (found : Fin 4)
  -- links, power, resets
  | linkReplay (die : Nat)
  | linkRetrain (die : Nat) (ok : Bool)
  | dieFence (die : Nat)
  | fatalError (code source : Nat)
  | thermalTrip
  | powerCeilingLower (die : Nat)
  | powerCeilingRaise (die : Nat)
  | referenceInputLoss
  | coldReset (images : List Image) (trained : List StackLink)
  | warmReset (images : List Image) (trained : List StackLink)
  | auditCheckpoint
  -- host sessions and commands (R369, R371): a command holds its header, and its body's bytes in the parts that its layout names
  | sessionOpen (number : Nat) (p : Proof)
  | sessionClose (number : Nat)
  | attest (r : ReqHead) (nonce : List Byte)
  | capread (r : ReqHead) (off len : List Byte)
  | create (r : ReqHead) (flags key : List Byte)
  | release (r : ReqHead)
  | grant (r : ReqHead) (pa size : List Byte)
  | setsched (r : ReqHead) (refill cap bcap age xthr : List Byte)
  | gravers (r : ReqHead) (first count : List Byte)
  | map (r : ReqHead) (va pa size page leaf : List Byte)
  | unmap (r : ReqHead) (va size : List Byte)
  | keyadd (r : ReqHead) (slot mode wrapped : List Byte)
  | keydel (r : ReqHead) (slot : List Byte)
  | extadd (r : ReqHead) (pa : List Byte)
  | extrel (r : ReqHead) (pa : List Byte)
  | ctxset (r : ReqHead) (handler queue : List Byte)
  | launch (r : ReqHead) (mode zero record : List Byte)
  | read (r : ReqHead) (va len : List Byte)
  | write (r : ReqHead) (place bytes : List Byte)
  | hostCancel (r : ReqHead) (id : List Byte)
  | logfetch (r : ReqHead) (first count : List Byte)
  | logack (r : ReqHead) (seq : List Byte)
  | impression (r : ReqHead) (off len : List Byte)
  | fwupdate (r : ReqHead) (number off total chunk : List Byte) (img : Image)
  -- other packages
  | remoteParticipantFiring (ctx coll part chunk : Nat) (values : List (Nat × Word)) (malformed : Bool)
  | remoteChunkResult (ctx coll chunk : Nat) (values : List Word) (flags : BitVec 7)
  | nodeLoss (node : Nat)
  | sealedPacketTagFailure (die ctx : Nat)
  deriving DecidableEq, Repr

end Sys2Proof
end

