-- ==== Sys2Proof/WellFormed.lean ====
section
/-!
DEFINITION. Which terms of `Instr` are instruction words of the spec (every field at a value its form lists, R60), and the
separate check of pairs and four-name operands (R20), which faults with 0x0A rather than 0x02.
-/
namespace Sys2Proof

/-- lane and tix are no destinations (R18). -/
def Name.dst : Name → Bool
  | .lane => false
  | .tix => false
  | _ => true

/-- mir takes 1 to 5 (R52). -/
def Pat.wf : Pat → Bool
  | .mir n => decide (1 ≤ n.val ∧ n.val ≤ 5)
  | _ => true

def BSrc.wf : BSrc → Bool
  | .reg _ p => p.wf
  | .imm _ => true

/-- A 16-bit immediate leaves bits 21:16 zero (R54). -/
def BSrc.wfF (ty : FTy) : BSrc → Bool
  | .reg _ p => p.wf
  | .imm i => match ty with
    | .f32 => true
    | _ => decide (i.toNat < 65536)

/-- The guard !pt is no guard (R50). -/
def Hdr.wf (h : Hdr) : Bool := !(h.neg && h.sel == 7)

def Dab.wf (o : Dab) : Bool := o.d.dst && o.b.wf
def Dabc.wf (o : Dabc) : Bool := o.d.dst && o.pat.wf
def Da.wf (o : Da) : Bool := o.d.dst

def ITy.is64 : ITy → Bool
  | .n64 => true
  | .s64 => true
  | _ => false

def ITy.is32 : ITy → Bool
  | .n32 => true
  | .s32 => true
  | _ => false

def ITy.is16 : ITy → Bool
  | .n16x2 => true
  | .s16x2 => true
  | _ => false

def ITy.is8 : ITy → Bool
  | .n8x4 => true
  | .s8x4 => true
  | _ => false

def ITy.signed : ITy → Bool
  | .s32 => true
  | .s64 => true
  | .s16x2 => true
  | .s8x4 => true
  | _ => false

/-- Widths a store takes (R240). -/
def MTy.store : MTy → Bool
  | .s8 => false
  | .s16 => false
  | _ => true

def Scope.code : Scope → Nat
  | .core => 0
  | .die => 1
  | .dev => 2
  | .pool => 3
  | .sys => 4
  | .stk => 5
  | .chn => 6
  | .bnk => 7

def Scope.memorySide (s : Scope) : Bool := decide (s.code ≥ 5)

/-- Scope 0 with plain; the form's scopes otherwise (R240). -/
def scopeOk (o : Ord) (s : Scope) (max : Nat) : Bool :=
  match o with
  | .plain => s == .core
  | _ => decide (s.code ≤ max)

/-- R240's rows of LD, ST, LDS, STS, LDT, STT. -/
def MMod.ldOk (m : MMod) : Bool :=
  (m.ord != .rel) && scopeOk m.ord m.scope 7 && (!m.ro || (m.ord == .plain && !m.bp))
def MMod.stOk (m : MMod) : Bool :=
  m.ty.store && (m.ord != .acq) && scopeOk m.ord m.scope 7 && !m.ro
def MMod.ldsOk (m : MMod) : Bool :=
  (m.ord == .plain || m.ord == .acq) && scopeOk m.ord m.scope 4 && !m.bp && !m.ro
def MMod.stsOk (m : MMod) : Bool :=
  m.ty.store && (m.ord == .plain || m.ord == .rel) && scopeOk m.ord m.scope 4 && !m.bp && !m.ro
def MMod.ldtOk (m : MMod) : Bool := m.ord == .plain && m.scope == .core && !m.bp && !m.ro
def MMod.sttOk (m : MMod) : Bool := m.ty.store && m.ldtOk

def AMod.atomOk (m : AMod) : Bool := scopeOk m.ord m.scope 7
def AMod.atomsOk (m : AMod) : Bool := m.ord != .sc && scopeOk m.ord m.scope 4
def AMod.redOk (m : AMod) : Bool := (m.ord == .plain || m.ord == .rel) && scopeOk m.ord m.scope 7

/-- Floating and packed operations take .b32 only (R249). -/
def AtomOp.wideOk : AtomOp → Bool
  | .addF32 => false
  | .addF16x2 => false
  | .addBf16x2 => false
  | .minF32 => false
  | .maxF32 => false
  | _ => true

def Src.isZero (s : Src) : Bool := s.name == .v 0 && !s.last

/-- At a compute scope A and the offset are zero (R252). -/
def fenceOk (o : Ord) (s : Scope) (a : Addr) : Bool :=
  (o != .plain) && (s.memorySide || (a.a.isZero && (a.off == none || a.off == some 0)))

/-- RM is zero outside the floating add rows (R156). -/
def RedOp.float : RedOp → Bool
  | .addF32 => true
  | .addF16x2 => true
  | .addBf16x2 => true
  | _ => false

def ScanOp.float : ScanOp → Bool
  | .addF32 => true
  | .addF16x2 => true
  | .addBf16x2 => true
  | _ => false

/-- An immediate register number is below 256 (R374). -/
def NumSrc.wf (max : Nat) : NumSrc → Bool
  | .reg _ => true
  | .imm i => decide (i.toNat < max)

/-- A CVT immediate follows R54's rows of class 0x4. -/
def NumSrc.wfF (ty : FTy) : NumSrc → Bool
  | .reg _ => true
  | .imm i => match ty with
    | .f32 => true
    | _ => decide (i.toNat < 65536)

/-- Shift codes 0 and 7 are no shifts (R55). -/
def shiftOk (w : Fin 8) : Bool := w != 0 && w != 7

/-- Is every field of this instruction word at a value that its form lists? Events and host commands are no words. -/
def Instr.wf : Instr → Bool
  | .iadd h _ _ o => h.wf && o.wf
  | .isub h _ _ o => h.wf && o.wf
  | .imul h ty sat w o => h.wf && o.wf && !ty.is64 && (!w || (ty.is32 && !sat))
  | .imulh h ty o => h.wf && o.wf && (ty.is32 || ty.is16)
  | .imad h ty _ w o => h.wf && o.wf && (ty.is32 || ty.is16) && (!w || ty.is32)
  | .imin h ty o => h.wf && o.wf && !ty.is64
  | .imax h ty o => h.wf && o.wf && !ty.is64
  | .iabs h ty _ o => h.wf && o.wf && (ty == .s32 || ty == .s16x2 || ty == .s8x4)
  | .icmp h _ o => h.wf && o.b.wf
  | .isel h o => h.wf && o.wf
  | .popc h o => h.wf && o.wf
  | .clz h o => h.wf && o.wf
  | .brev h o => h.wf && o.wf
  | .bfe h _ o => h.wf && o.wf
  | .bfi h o => h.wf && o.wf
  | .idot4 h ty _ o => h.wf && o.wf && (ty.is8 || ty.is16)
  | .lea h _ o => h.wf && o.wf
  | .mov h o => h.wf && o.wf
  | .movi h d _ => h.wf && d.dst
  | .movk h d _ _ => h.wf && d.dst
  | .and h o => h.wf && o.wf
  | .or h o => h.wf && o.wf
  | .xor h o => h.wf && o.wf
  | .andn h o => h.wf && o.wf
  | .bmux h _ _ d _ _ _ => h.wf && d.dst
  | .shl h o => h.wf && o.wf
  | .shr h o => h.wf && o.wf
  | .sar h o => h.wf && o.wf
  | .rot h o => h.wf && o.wf
  | .fshf h o => h.wf && o.wf
  | .plop h _ _ _ _ => h.wf
  | .p2g h d => h.wf && d.dst
  | .g2p h _ => h.wf
  | .fadd h m o => h.wf && o.d.dst && o.b.wfF m.ty
  | .fsub h m o => h.wf && o.d.dst && o.b.wfF m.ty
  | .fmul h m o => h.wf && o.d.dst && o.b.wfF m.ty
  | .ffma h _ o => h.wf && o.wf
  | .fmin h ty o => h.wf && o.d.dst && o.b.wfF ty
  | .fmax h ty o => h.wf && o.d.dst && o.b.wfF ty
  | .fcmp h o => h.wf && o.b.wf
  | .fclass h o => h.wf && o.wf
  | .fscale h _ _ d _ _ p => h.wf && d.dst && p.wf
  | .frnd h _ _ o => h.wf && o.wf
  | .fabs h _ o => h.wf && o.wf
  | .fcpys h ty o => h.wf && o.d.dst && o.b.wfF ty
  | .fdiv h _ _ _ o => h.wf && o.wf
  | .fsqrt h _ o => h.wf && o.wf
  | .faddx h _ d _ _ p => h.wf && d.dst && p.wf
  | .fsubx h _ d _ _ p => h.wf && d.dst && p.wf
  | .fmulx h _ d _ _ p => h.wf && d.dst && p.wf
  | .dwadd h _ d _ _ p => h.wf && d.dst && p.wf
  | .dwsub h _ d _ _ p => h.wf && d.dst && p.wf
  | .dwmul h _ d _ _ p => h.wf && d.dst && p.wf
  | .dwaddf h _ d _ _ p => h.wf && d.dst && p.wf
  | .dwmulf h _ d _ _ p => h.wf && d.dst && p.wf
  | .dwnorm h o => h.wf && o.wf
  | .dwcmp h _ _ _ _ p => h.wf && p.wf
  | .cvtdw h o => h.wf && o.wf
  | .cvtwd h o => h.wf && o.wf
  | .cvt h ty _ d a => h.wf && d.dst && a.wfF ty
  | .cvtp h _ _ d _ _ p => h.wf && d.dst && p.wf
  | .cvtu h _ _ o => h.wf && o.wf
  | .cvts h _ o => h.wf && o.wf
  | .frcp h _ o => h.wf && o.wf
  | .frsq h _ o => h.wf && o.wf
  | .fexp2 h _ o => h.wf && o.wf
  | .flog2 h _ o => h.wf && o.wf
  | .fsin h _ o => h.wf && o.wf
  | .fcos h _ o => h.wf && o.wf
  | .ftanh h _ o => h.wf && o.wf
  | .shfl h d _ _ p => h.wf && d.dst && p.wf
  | .vote h _ _ _ => h.wf
  | .ballot h o => h.wf && o.wf
  | .matchl h o => h.wf && o.wf
  | .redx h op rm o => h.wf && o.wf && (op.float || rm == .rne)
  | .redxc h o => h.wf && o.wf
  | .scan h op _ rm o => h.wf && o.wf && (op.float || rm == .rne)
  | .lmask h _ d => h.wf && d.dst
  | .bra h _ => h.wf
  | .brx h _ => h.wf
  | .call h w _ => h.wf && shiftOk w
  | .calli h w _ => h.wf && shiftOk w
  | .ret h => h.wf
  | .reform h => h.wf
  | .exit h => h.wf
  | .loopSet h _ _ => h.wf
  | .loop h _ _ => h.wf
  | .beod h _ _ _ _ => h.wf
  | .yield h => h.wf
  | .nop h => h.wf
  | .spawn h o => h.wf && o.wf
  | .join h o => h.wf && o.wf
  | .cancel h _ => h.wf
  | .trap h _ => h.wf
  | .bpt h => h.wf
  | .ld h m d _ => h.wf && d.dst && m.ldOk
  | .st h m _ _ => h.wf && m.stOk
  | .lds h m d _ => h.wf && d.dst && m.ldsOk
  | .sts h m _ _ => h.wf && m.stsOk
  | .ldt h m d _ => h.wf && d.dst && m.ldtOk
  | .stt h m _ _ => h.wf && m.sttOk
  | .pref h _ _ _ _ => h.wf
  | .cwb h _ _ => h.wf
  | .cinv h _ _ => h.wf
  | .atom h op m d _ _ p => h.wf && d.dst && p.wf && m.atomOk && (!m.wide || op.wideOk)
  | .atoms h op m d _ _ p => h.wf && d.dst && p.wf && m.atomsOk && (!m.wide || op.wideOk)
  | .cas h m o => h.wf && o.wf && m.atomOk
  | .cass h m o => h.wf && o.wf && m.atomsOk
  | .red h op m _ _ p => h.wf && p.wf && m.redOk && (!m.wide || op.wideOk)
  | .fence h o s _ a => h.wf && fenceOk o s a
  | .bari h _ n => h.wf && n.wf
  | .bara h _ => h.wf
  | .barw h _ _ t => h.wf && t.wf
  | .baraw h _ _ t => h.wf && t.wf
  | .tbar h => h.wf
  | .gbar h => h.wf
  | .waita h _ _ o => h.wf && o.wf
  | .copy h _ => h.wf
  | .copyr h _ => h.wf
  | .copyq h o => h.wf && o.wf
  | .strm h _ _ _ p => h.wf && p.wf
  | .strfIn h _ => h.wf
  | .strfOut h _ => h.wf
  | .strq h o => h.wf && o.wf
  | .gred h o => h.wf && o.wf
  | .gstart h _ _ p => h.wf && p.wf
  | .gstop h _ => h.wf
  | .gattn h o => h.wf && o.wf
  | .gmbox h d _ b => h.wf && d.dst && (match b with | some (_, p) => p.wf | none => true)
  | .gid h d => h.wf && d.dst
  | .mldred h d _ _ p => h.wf && d.dst && p.wf
  | .mstmc h _ _ _ _ p => h.wf && p.wf
  | .mgrp h _ _ p => h.wf && p.wf
  | .cfire h _ => h.wf
  | .cstat h o => h.wf && o.wf
  | .tdset h _ _ _ => h.wf
  | .tdget h _ d _ => h.wf && d.dst
  | .mma h _ _ _ _ => h.wf
  | .mzero h _ _ => h.wf
  | .mldacc h _ _ _ => h.wf
  | .mdrain h raw _ fs _ _ => h.wf && (!raw || fs == 0)
  | .mdradd h raw fs _ _ _ => h.wf && (!raw || fs == 0)
  | .marm h _ _ => h.wf
  | .mstep h _ _ d _ => h.wf && d.dst
  | .mfence h => h.wf
  | .sread h d n => h.wf && d.dst && n.wf 256
  | .swrite h _ n => h.wf && (match n with | .reg _ p => p.wf | .imm i => decide (i.toNat < 256))
  | .plate h d _ _ => h.wf && d.dst
  | .plateq h o => h.wf && o.wf
  | .psel h _ => h.wf
  | .prdv h o => h.wf && o.wf
  | .pwrv h _ _ p => h.wf && p.wf
  | .pret h => h.wf
  | .clk h d => h.wf && d.dst
  | .frec h o => h.wf && o.wf
  | .frecList h o => h.wf && o.wf
  | .capw h d n => h.wf && d.dst && n.wf 65536
  | _ => false

/-! ### Pairs and four-name operands (R20) -/

/-- May a group of w names begin on this name? w = 1, 2, 4, and 8 for GRED's destination (R72). -/
def Name.alignOk (n : Name) (w : Nat) : Bool :=
  match w with
  | 1 => true
  | 2 => match n with
    | .v k => k.val % 2 == 0
    | .g k => k.val % 2 == 0
    | .zr => true
    | _ => false
  | 4 => match n with
    | .v k => k.val % 4 == 0
    | .g k => k.val % 4 == 0
    | .zr => true
    | _ => false
  | _ => match n with
    | .v k => k.val % 8 == 0
    | _ => false

def MTy.names : MTy → Nat
  | .b64 => 2
  | .b128 => 4
  | _ => 1

/-- Width of a memory access in bytes (R246). -/
def MTy.bytes : MTy → Nat
  | .n8 => 1
  | .s8 => 1
  | .n16 => 2
  | .s16 => 2
  | .b32 => 4
  | .b64 => 8
  | .b128 => 16

/-- A source operand: the name with its last-use bit, how many names it covers, its lane pattern. -/
abbrev SrcOp := Src × Nat × Pat

def BSrc.ops (b : BSrc) (w : Nat) : List SrcOp :=
  match b with
  | .reg s p => [(s, w, p)]
  | .imm _ => []
def NumSrc.ops : NumSrc → List SrcOp
  | .reg s => [(s, 1, .none)]
  | .imm _ => []
def Dab.ops (o : Dab) (wa wb : Nat) : List SrcOp := (o.a, wa, .none) :: o.b.ops wb
def Dabc.ops (o : Dabc) (wa wb wc : Nat) : List SrcOp := [(o.a, wa, .none), (o.b, wb, o.pat), (o.c, wc, .none)]
def Pab.ops (o : Pab) : List SrcOp := (o.a, 1, .none) :: o.b.ops 1
def oneOp (a : Src) (w : Nat) : List SrcOp := [(a, w, .none)]
def twoOps (a : Src) (wa : Nat) (b : Src) (wb : Nat) (p : Pat) : List SrcOp := [(a, wa, .none), (b, wb, p)]
/-- D as the data a store reads: it carries no last-use bit (R247, R260). -/
def dataOp (d : Name) (w : Nat) : List SrcOp := [(⟨d, false⟩, w, .none)]
def pairIf (b : Bool) : Nat := if b then 2 else 1

/-- The source operands in the order A, B, C; the data of a store last. -/
def Instr.srcs : Instr → List SrcOp
  | .iadd _ ty _ o => o.ops (pairIf ty.is64) (pairIf ty.is64)
  | .isub _ ty _ o => o.ops (pairIf ty.is64) (pairIf ty.is64)
  | .imul _ _ _ _ o => o.ops 1 1
  | .imulh _ _ o => o.ops 1 1
  | .imad _ _ _ w o => o.ops 1 1 (pairIf w)
  | .imin _ _ o => o.ops 1 1
  | .imax _ _ o => o.ops 1 1
  | .iabs _ _ _ o => oneOp o.a 1
  | .icmp _ _ o => o.ops
  | .isel _ o => o.ops 1 1 1
  | .popc _ o => oneOp o.a 1
  | .clz _ o => oneOp o.a 1
  | .brev _ o => oneOp o.a 1
  | .bfe _ _ o => o.ops 1 1
  | .bfi _ o => o.ops 1 1 1
  | .idot4 _ _ _ o => o.ops 1 1 1
  | .lea _ _ o => o.ops 2 1
  | .mov _ o => oneOp o.a 1
  | .movk _ d _ _ => dataOp d 1
  | .and _ o => o.ops 1 1
  | .or _ o => o.ops 1 1
  | .xor _ o => o.ops 1 1
  | .andn _ o => o.ops 1 1
  | .bmux _ _ _ _ a b c => [(a, 1, .none), (b, 1, .none), (c, 1, .none)]
  | .shl _ o => o.ops 1 1
  | .shr _ o => o.ops 1 1
  | .sar _ o => o.ops 1 1
  | .rot _ o => o.ops 1 1
  | .fshf _ o => o.ops 1 1 1
  | .g2p _ a => oneOp a 1
  | .fadd _ _ o => o.ops 1 1
  | .fsub _ _ o => o.ops 1 1
  | .fmul _ _ o => o.ops 1 1
  | .ffma _ _ o => o.ops 1 1 1
  | .fmin _ _ o => o.ops 1 1
  | .fmax _ _ o => o.ops 1 1
  | .fcmp _ o => o.ops
  | .fclass _ o => oneOp o.a 1
  | .fscale _ _ _ _ a b p => twoOps a 1 b 1 p
  | .frnd _ _ _ o => oneOp o.a 1
  | .fabs _ _ o => oneOp o.a 1
  | .fcpys _ _ o => o.ops 1 1
  | .fdiv _ _ _ _ o => o.ops 1 1
  | .fsqrt _ _ o => oneOp o.a 1
  | .faddx _ _ _ a b p => twoOps a 1 b 1 p
  | .fsubx _ _ _ a b p => twoOps a 1 b 1 p
  | .fmulx _ _ _ a b p => twoOps a 1 b 1 p
  | .dwadd _ _ _ a b p => twoOps a 2 b 2 p
  | .dwsub _ _ _ a b p => twoOps a 2 b 2 p
  | .dwmul _ _ _ a b p => twoOps a 2 b 2 p
  | .dwaddf _ _ _ a b p => twoOps a 2 b 1 p
  | .dwmulf _ _ _ a b p => twoOps a 2 b 1 p
  | .dwnorm _ o => oneOp o.a 2
  | .dwcmp _ _ _ a b p => twoOps a 2 b 2 p
  | .cvtdw _ o => oneOp o.a 2
  | .cvtwd _ o => oneOp o.a 2
  | .cvt _ _ _ _ a => a.ops
  | .cvtp _ _ _ _ a b p => twoOps a 1 b 1 p
  | .cvtu _ _ _ o => oneOp o.a 1
  | .cvts _ _ o => oneOp o.a 1
  | .frcp _ _ o => oneOp o.a 1
  | .frsq _ _ o => oneOp o.a 1
  | .fexp2 _ _ o => oneOp o.a 1
  | .flog2 _ _ o => oneOp o.a 1
  | .fsin _ _ o => oneOp o.a 1
  | .fcos _ _ o => oneOp o.a 1
  | .ftanh _ _ o => oneOp o.a 1
  | .shfl _ _ a b p => twoOps a 1 b 1 p
  | .vote _ _ _ a => oneOp a 1
  | .ballot _ o => oneOp o.a 1
  | .matchl _ o => oneOp o.a 1
  | .redx _ _ _ o => oneOp o.a 1
  | .redxc _ o => oneOp o.a 2
  | .scan _ _ _ _ o => oneOp o.a 1
  | .brx _ a => oneOp a 2
  | .calli _ _ a => oneOp a 2
  | .spawn _ o => oneOp o.a 2
  | .join _ o => oneOp o.a 2
  | .cancel _ a => oneOp a 2
  | .ld _ _ _ a => oneOp a.a 2
  | .st _ m d a => oneOp a.a 2 ++ dataOp d m.ty.names
  | .lds _ _ _ a => oneOp a.a 1
  | .sts _ m d a => oneOp a.a 1 ++ dataOp d m.ty.names
  | .ldt _ _ _ a => oneOp a.a 1
  | .stt _ m d a => oneOp a.a 1 ++ dataOp d m.ty.names
  | .pref _ _ _ _ a => oneOp a.a 2
  | .cwb _ _ a => oneOp a.a 2
  | .cinv _ _ a => oneOp a.a 2
  | .atom _ _ m _ a b p => twoOps a 2 b (pairIf m.wide) p
  | .atoms _ _ m _ a b p => twoOps a 1 b (pairIf m.wide) p
  | .cas _ m o => o.ops 2 (pairIf m.wide) (pairIf m.wide)
  | .cass _ m o => o.ops 1 (pairIf m.wide) (pairIf m.wide)
  | .red _ _ m a b p => twoOps a 2 b (pairIf m.wide) p
  | .fence _ _ s _ a => if s.memorySide then oneOp a.a 2 else []
  | .bari _ a n => (a, 1, .none) :: n.ops 1
  | .bara _ a => oneOp a 1
  | .barw _ _ a t => (a, 1, .none) :: t.ops 1
  | .baraw _ _ a t => (a, 1, .none) :: t.ops 1
  | .waita _ _ w o => o.ops 2 (pairIf w) 1
  | .copy _ a => oneOp a 1
  | .copyr _ a => oneOp a 1
  | .copyq _ o => oneOp o.a 1
  | .strm _ _ a b p => twoOps a 1 b 1 p
  | .strq _ o => oneOp o.a 1
  | .gred _ o => oneOp o.a 2
  | .gstart _ a b p => twoOps a 2 b 1 p
  | .gstop _ a => oneOp a 2
  | .gattn _ o => oneOp o.a 1
  | .gmbox _ _ a b => (a, 1, .none) :: (match b with | some (s, p) => [(s, 1, p)] | none => [])
  | .mldred _ _ a b p => twoOps a 1 b 1 p
  | .mstmc _ _ d a b p => twoOps a 1 b 1 p ++ dataOp d 1
  | .mgrp _ a b p => twoOps a 1 b 1 p
  | .cfire _ a => oneOp a 1
  | .cstat _ o => oneOp o.a 1
  | .tdset _ _ a b => twoOps a 4 b 4 .none
  | .mdradd _ _ _ a _ _ => oneOp a 1
  | .marm _ _ a => oneOp a 1
  | .sread _ _ n => n.ops
  | .swrite _ a n => (a, 1, .none) :: n.ops 1
  | .plate _ _ a b => twoOps a 1 b 1 .none
  | .plateq _ o => oneOp o.a 1
  | .psel _ a => oneOp a 1
  | .prdv _ o => oneOp o.a 1
  | .pwrv _ a b p => twoOps a 1 b 1 p
  | .frec _ o => oneOp o.a 1
  | .frecList _ o => oneOp o.a 1
  | .capw _ _ n => n.ops
  | _ => []

/-- The destination operand with how many names it covers. -/
def Instr.dst : Instr → Option (Name × Nat)
  | .iadd _ ty _ o => some (o.d, pairIf ty.is64)
  | .isub _ ty _ o => some (o.d, pairIf ty.is64)
  | .imul _ _ _ w o => some (o.d, pairIf w)
  | .imulh _ _ o => some (o.d, 1)
  | .imad _ _ _ w o => some (o.d, pairIf w)
  | .imin _ _ o => some (o.d, 1)
  | .imax _ _ o => some (o.d, 1)
  | .iabs _ _ _ o => some (o.d, 1)
  | .isel _ o => some (o.d, 1)
  | .popc _ o => some (o.d, 1)
  | .clz _ o => some (o.d, 1)
  | .brev _ o => some (o.d, 1)
  | .bfe _ _ o => some (o.d, 1)
  | .bfi _ o => some (o.d, 1)
  | .idot4 _ _ _ o => some (o.d, 1)
  | .lea _ _ o => some (o.d, 2)
  | .mov _ o => some (o.d, 1)
  | .movi _ d _ => some (d, 1)
  | .movk _ d _ _ => some (d, 1)
  | .and _ o => some (o.d, 1)
  | .or _ o => some (o.d, 1)
  | .xor _ o => some (o.d, 1)
  | .andn _ o => some (o.d, 1)
  | .bmux _ _ _ d _ _ _ => some (d, 1)
  | .shl _ o => some (o.d, 1)
  | .shr _ o => some (o.d, 1)
  | .sar _ o => some (o.d, 1)
  | .rot _ o => some (o.d, 1)
  | .fshf _ o => some (o.d, 1)
  | .p2g _ d => some (d, 1)
  | .fadd _ _ o => some (o.d, 1)
  | .fsub _ _ o => some (o.d, 1)
  | .fmul _ _ o => some (o.d, 1)
  | .ffma _ _ o => some (o.d, 1)
  | .fmin _ _ o => some (o.d, 1)
  | .fmax _ _ o => some (o.d, 1)
  | .fclass _ o => some (o.d, 1)
  | .fscale _ _ _ d _ _ _ => some (d, 1)
  | .frnd _ _ _ o => some (o.d, 1)
  | .fabs _ _ o => some (o.d, 1)
  | .fcpys _ _ o => some (o.d, 1)
  | .fdiv _ _ _ _ o => some (o.d, 1)
  | .fsqrt _ _ o => some (o.d, 1)
  | .faddx _ _ d _ _ _ => some (d, 2)
  | .fsubx _ _ d _ _ _ => some (d, 2)
  | .fmulx _ _ d _ _ _ => some (d, 2)
  | .dwadd _ _ d _ _ _ => some (d, 2)
  | .dwsub _ _ d _ _ _ => some (d, 2)
  | .dwmul _ _ d _ _ _ => some (d, 2)
  | .dwaddf _ _ d _ _ _ => some (d, 2)
  | .dwmulf _ _ d _ _ _ => some (d, 2)
  | .dwnorm _ o => some (o.d, 2)
  | .cvtdw _ o => some (o.d, 2)
  | .cvtwd _ o => some (o.d, 2)
  | .cvt _ _ _ d _ => some (d, 1)
  | .cvtp _ _ _ d _ _ _ => some (d, 1)
  | .cvtu _ _ _ o => some (o.d, 2)
  | .cvts _ _ o => some (o.d, 1)
  | .frcp _ _ o => some (o.d, 1)
  | .frsq _ _ o => some (o.d, 1)
  | .fexp2 _ _ o => some (o.d, 1)
  | .flog2 _ _ o => some (o.d, 1)
  | .fsin _ _ o => some (o.d, 1)
  | .fcos _ _ o => some (o.d, 1)
  | .ftanh _ _ o => some (o.d, 1)
  | .shfl _ d _ _ _ => some (d, 1)
  | .ballot _ o => some (o.d, 1)
  | .matchl _ o => some (o.d, 1)
  | .redx _ _ _ o => some (o.d, 1)
  | .redxc _ o => some (o.d, 2)
  | .scan _ _ _ _ o => some (o.d, 1)
  | .lmask _ _ d => some (d, 1)
  | .spawn _ o => some (o.d, 2)
  | .join _ o => some (o.d, 4)
  | .ld _ m d _ => some (d, m.ty.names)
  | .lds _ m d _ => some (d, m.ty.names)
  | .ldt _ m d _ => some (d, m.ty.names)
  | .atom _ _ m d _ _ _ => some (d, pairIf m.wide)
  | .atoms _ _ m d _ _ _ => some (d, pairIf m.wide)
  | .cas _ m o => some (o.d, pairIf m.wide)
  | .cass _ m o => some (o.d, pairIf m.wide)
  | .waita _ _ w o => some (o.d, pairIf w)
  | .copyq _ o => some (o.d, 1)
  | .strq _ o => some (o.d, 1)
  | .gred _ o => some (o.d, 8)
  | .gattn _ o => some (o.d, 1)
  | .gmbox _ d _ _ => some (d, 1)
  | .gid _ d => some (d, 1)
  | .mldred _ d _ _ _ => some (d, 2)
  | .cstat _ o => some (o.d, 1)
  | .tdget _ _ d _ => some (d, 4)
  | .mstep _ _ _ d _ => some (d, 2)
  | .sread _ d _ => some (d, 1)
  | .plate _ d _ _ => some (d, 1)
  | .plateq _ o => some (o.d, 1)
  | .prdv _ o => some (o.d, 1)
  | .clk _ d => some (d, 2)
  | .frec _ o => some (o.d, 1)
  | .frecList _ o => some (o.d, 1)
  | .capw _ d _ => some (d, 1)
  | _ => none

/-- Every operand that is a name, with how many names it covers. -/
def Instr.operands (i : Instr) : List (Name × Nat) := i.dst.toList ++ i.srcs.map fun e => (e.1.name, e.2.1)

/-- A lane pattern, a class 0x5 form or GRED makes a word warp-whole (R53, R260). -/
def Instr.warpWhole (i : Instr) : Bool :=
  i.srcs.any (fun e => e.2.2 != .none) || match i with
    | .shfl _ _ _ _ _ => true
    | .vote _ _ _ _ => true
    | .ballot _ _ => true
    | .matchl _ _ => true
    | .redx _ _ _ _ => true
    | .redxc _ _ => true
    | .scan _ _ _ _ _ => true
    | .lmask _ _ _ => true
    | .gred _ _ => true
    | _ => false

/-- Every operand keeps R20 (else 0x0A). -/
def Instr.alignOk (i : Instr) : Bool := i.operands.all fun e => e.1.alignOk e.2

end Sys2Proof
end

