-- ==== Sys2Proof/Decode.lean ====
section
/-!
DEFINITION. Decoding 64-bit instruction words (R49–R60), total and rejecting by name, and the encoder written from the same
tables. Every rejection is fault 0x02 when the word is about to issue (R60).
-/
namespace Sys2Proof

/-- Why a word is no instruction (R60's rows). -/
inductive DecErr where
  /-- Class 0xF or a function number unassigned in its class. -/
  | unassigned
  /-- Guard 0b1111. -/
  | guard
  /-- SETF 12–14. -/
  | setf
  /-- A TY the form does not list. -/
  | type
  /-- A MOD or XTRA bit the form does not define. -/
  | modifier
  /-- A nonzero unused operand field or last-use bit. -/
  | unused
  /-- Operand field 63. -/
  | field63
  /-- A field that is no name, outside its range. -/
  | selector
  /-- The fields decode, but the form does not list the combination (`Instr.wf`). -/
  | notAForm
  deriving DecidableEq, Repr

/-- The fields of a word (R49): `low` is bits 37:16. -/
structure Fields where
  op : Nat
  gneg : Nat
  gsel : Nat
  d : Nat
  a : Nat
  la : Nat
  low : Nat
  mod : Nat
  setf : Nat
  xtra : Nat
  deriving DecidableEq, Repr

/-- R49's bit map. -/
def Fields.ofWord (w : Nat) : Fields :=
  { op := w / 2 ^ 55 % 512, gneg := w / 2 ^ 54 % 2, gsel := w / 2 ^ 51 % 8, d := w / 2 ^ 45 % 64, a := w / 2 ^ 39 % 64,
    la := w / 2 ^ 38 % 2, low := w / 2 ^ 16 % 2 ^ 22, mod := w / 2 ^ 8 % 256, setf := w / 2 ^ 4 % 16, xtra := w % 16 }

def Fields.toWord (f : Fields) : Nat :=
  f.op * 2 ^ 55 + f.gneg * 2 ^ 54 + f.gsel * 2 ^ 51 + f.d * 2 ^ 45 + f.a * 2 ^ 39 + f.la * 2 ^ 38 + f.low * 2 ^ 16
    + f.mod * 2 ^ 8 + f.setf * 2 ^ 4 + f.xtra

namespace Fields

def b (f : Fields) : Nat := f.low / 2 ^ 16
def lb (f : Fields) : Nat := f.low / 2 ^ 15 % 2
def c (f : Fields) : Nat := f.low / 2 ^ 9 % 64
def lc (f : Fields) : Nat := f.low / 2 ^ 8 % 2
def pat (f : Fields) : Nat := f.low / 2 ^ 5 % 8
def amt (f : Fields) : Nat := f.low % 32
/-- Bits 44:16, the branch form's field (R55). -/
def br (f : Fields) : Nat := f.a * 2 ^ 23 + f.la * 2 ^ 22 + f.low
/-- MOD bits 15, 14:12, 11:10, 9 and 8 (R56). -/
def imm (f : Fields) : Bool := f.mod / 128 == 1
def ty (f : Fields) : Nat := f.mod / 16 % 8
def rm (f : Fields) : Nat := f.mod / 4 % 4
def m9 (f : Fields) : Bool := f.mod / 2 % 2 == 1
def m8 (f : Fields) : Bool := f.mod % 2 == 1

end Fields

/-! ### Small codes -/

/-- R18's table; field 63 names nothing. -/
def Name.ofCode (k : Nat) : Except DecErr Name :=
  if h : k < 48 then .ok (.v ⟨k, h⟩)
  else if h : k - 48 < 8 then .ok (.g ⟨k - 48, h⟩)
  else if h : k - 56 < 4 then .ok (.s ⟨k - 56, h⟩)
  else match k with
    | 60 => .ok .zr
    | 61 => .ok .lane
    | 62 => .ok .tix
    | _ => .error .field63

def Name.code : Name → Nat
  | .v n => n.val
  | .g n => 48 + n.val
  | .s n => 56 + n.val
  | .zr => 60
  | .lane => 61
  | .tix => 62

/-- R52's PAT codes with AMT. -/
def Pat.ofCode (p n : Nat) : Except DecErr Pat :=
  if h : n < 32 then
    match p with
    | 0 => if n == 0 then .ok .none else .error .unused
    | 1 => .ok (.bc ⟨n, h⟩)
    | 2 => .ok (.rot ⟨n, h⟩)
    | 3 => .ok (.xor ⟨n, h⟩)
    | 4 => .ok (.mir ⟨n, h⟩)
    | 5 => .ok (.up ⟨n, h⟩)
    | 6 => .ok (.dn ⟨n, h⟩)
    | 7 => .ok (.qbc ⟨n, h⟩)
    | _ => .error .unused
  else .error .unused

/-- PAT and AMT together, bits 23:16. -/
def Pat.code : Pat → Nat
  | .none => 0
  | .bc n => 32 + n.val
  | .rot n => 64 + n.val
  | .xor n => 96 + n.val
  | .mir n => 128 + n.val
  | .up n => 160 + n.val
  | .dn n => 192 + n.val
  | .qbc n => 224 + n.val

/-- R57's TY columns. -/
def ITy.ofCode : Nat → Except DecErr ITy
  | 0 => .ok .n32
  | 1 => .ok .s32
  | 2 => .ok .n64
  | 3 => .ok .s64
  | 4 => .ok .n16x2
  | 5 => .ok .s16x2
  | 6 => .ok .n8x4
  | 7 => .ok .s8x4
  | _ => .error .type

def ITy.code : ITy → Nat
  | .n32 => 0
  | .s32 => 1
  | .n64 => 2
  | .s64 => 3
  | .n16x2 => 4
  | .s16x2 => 5
  | .n8x4 => 6
  | .s8x4 => 7

def FTy.ofCode : Nat → Except DecErr FTy
  | 0 => .ok .f32
  | 1 => .ok .f16x2
  | 2 => .ok .bf16x2
  | _ => .error .type

def FTy.code : FTy → Nat
  | .f32 => 0
  | .f16x2 => 1
  | .bf16x2 => 2

def MTy.ofCode : Nat → Except DecErr MTy
  | 0 => .ok .n8
  | 1 => .ok .s8
  | 2 => .ok .n16
  | 3 => .ok .s16
  | 4 => .ok .b32
  | 5 => .ok .b64
  | 6 => .ok .b128
  | _ => .error .type

def MTy.code : MTy → Nat
  | .n8 => 0
  | .s8 => 1
  | .n16 => 2
  | .s16 => 3
  | .b32 => 4
  | .b64 => 5
  | .b128 => 6

def RM.code : RM → Nat
  | .rne => 0
  | .rz => 1
  | .ru => 2
  | .rd => 3

def RM.ofBits : Nat → RM
  | 0 => .rne
  | 1 => .rz
  | 2 => .ru
  | _ => .rd

def Ord.code : Ord → Nat
  | .plain => 0
  | .acq => 1
  | .rel => 2
  | .sc => 3

def Ord.ofBits : Nat → Ord
  | 0 => .plain
  | 1 => .acq
  | 2 => .rel
  | _ => .sc

def Scope.ofBits : Nat → Scope
  | 0 => .core
  | 1 => .die
  | 2 => .dev
  | 3 => .pool
  | 4 => .sys
  | 5 => .stk
  | 6 => .chn
  | _ => .bnk

/-- R249's operation codes. -/
def AtomOp.ofCode : Nat → Except DecErr AtomOp
  | 0x00 => .ok .add
  | 0x01 => .ok .minS
  | 0x02 => .ok .maxS
  | 0x03 => .ok .minN
  | 0x04 => .ok .maxN
  | 0x05 => .ok .and
  | 0x06 => .ok .or
  | 0x07 => .ok .xor
  | 0x08 => .ok .exch
  | 0x10 => .ok .addF32
  | 0x11 => .ok .addF16x2
  | 0x12 => .ok .addBf16x2
  | 0x13 => .ok .minF32
  | 0x14 => .ok .maxF32
  | _ => .error .selector

def AtomOp.code : AtomOp → Nat
  | .add => 0x00
  | .minS => 0x01
  | .maxS => 0x02
  | .minN => 0x03
  | .maxN => 0x04
  | .and => 0x05
  | .or => 0x06
  | .xor => 0x07
  | .exch => 0x08
  | .addF32 => 0x10
  | .addF16x2 => 0x11
  | .addBf16x2 => 0x12
  | .minF32 => 0x13
  | .maxF32 => 0x14

/-- R156's rows by bit 8 and TY: 8 × bit 8 + TY. -/
def RedOp.ofCode : Nat → Except DecErr RedOp
  | 0 => .ok .addF32
  | 1 => .ok .addF16x2
  | 2 => .ok .addBf16x2
  | 3 => .ok .addB32
  | 4 => .ok .minS32
  | 5 => .ok .maxS32
  | 6 => .ok .minN32
  | 7 => .ok .maxN32
  | 8 => .ok .minF32
  | 9 => .ok .maxF32
  | 10 => .ok .andB32
  | 11 => .ok .orB32
  | 12 => .ok .xorB32
  | _ => .error .type

def RedOp.code : RedOp → Nat
  | .addF32 => 0
  | .addF16x2 => 1
  | .addBf16x2 => 2
  | .addB32 => 3
  | .minS32 => 4
  | .maxS32 => 5
  | .minN32 => 6
  | .maxN32 => 7
  | .minF32 => 8
  | .maxF32 => 9
  | .andB32 => 10
  | .orB32 => 11
  | .xorB32 => 12

def ScanOp.ofCode : Nat → Except DecErr ScanOp
  | 0 => .ok .addF32
  | 1 => .ok .addF16x2
  | 2 => .ok .addBf16x2
  | 3 => .ok .addB32
  | 4 => .ok .maxS32
  | 5 => .ok .maxN32
  | 6 => .ok .orB32
  | 7 => .ok .maxF32
  | _ => .error .type

def ScanOp.code : ScanOp → Nat
  | .addF32 => 0
  | .addF16x2 => 1
  | .addBf16x2 => 2
  | .addB32 => 3
  | .maxS32 => 4
  | .maxN32 => 5
  | .orB32 => 6
  | .maxF32 => 7

/-- A number below n as a Fin, or the error. -/
def finOf (n k : Nat) : Except DecErr (Fin n) := if h : k < n then .ok ⟨k, h⟩ else .error .selector

/-- Passes when the condition holds. -/
def need (c : Bool) (e : DecErr) : Except DecErr Unit := if c then .ok () else .error e

/-! ### Fields to operands -/

namespace Fields

/-- Guard and SETF (R49, R50). -/
def hdr (f : Fields) : Except DecErr Hdr :=
  if f.gneg == 1 && f.gsel == 7 then .error .guard
  else if h : f.setf < 12 then .ok ⟨f.gneg == 1, Fin.ofNat 8 f.gsel, some ⟨f.setf, h⟩⟩
  else if f.setf == 15 then .ok ⟨f.gneg == 1, Fin.ofNat 8 f.gsel, none⟩
  else .error .setf

def dn (f : Fields) : Except DecErr Name := Name.ofCode f.d
def as (f : Fields) : Except DecErr Src := do return ⟨← Name.ofCode f.a, f.la == 1⟩
def bs (f : Fields) : Except DecErr Src := do return ⟨← Name.ofCode f.b, f.lb == 1⟩
def cs (f : Fields) : Except DecErr Src := do return ⟨← Name.ofCode f.c, f.lc == 1⟩
def bpat (f : Fields) : Except DecErr Pat := Pat.ofCode f.pat f.amt

def noC (f : Fields) : Except DecErr Unit := need (f.c == 0 && f.lc == 0) .unused
def noA (f : Fields) : Except DecErr Unit := need (f.a == 0 && f.la == 0) .unused
def noD (f : Fields) : Except DecErr Unit := need (f.d == 0) .unused
/-- Bits 37:16 zero. -/
def noLow (f : Fields) : Except DecErr Unit := need (f.low == 0) .unused
def noXtra (f : Fields) : Except DecErr Unit := need (f.xtra == 0) .modifier

/-- Which MOD fields may be nonzero: I, TY, RM, bit 9, bit 8. -/
def mods (f : Fields) (i t r s w : Bool) : Except DecErr Unit :=
  need ((i || !f.imm) && (t || f.ty == 0) && (r || f.rm == 0) && (s || !f.m9) && (w || !f.m8)) .modifier

/-- The B side of a form that takes an immediate. -/
def bsrc (f : Fields) : Except DecErr BSrc :=
  if f.imm then .ok (.imm (BitVec.ofNat 22 f.low))
  else do
    let s ← f.bs
    let p ← f.bpat
    f.noC
    return .reg s p

def dab (f : Fields) : Except DecErr Dab := do return ⟨← f.dn, ← f.as, ← f.bsrc⟩
def dabc (f : Fields) : Except DecErr Dabc := do return ⟨← f.dn, ← f.as, ← f.bs, ← f.bpat, ← f.cs⟩
def da (f : Fields) : Except DecErr Da := do
  let d ← f.dn
  let a ← f.as
  f.noLow
  return ⟨d, a⟩
def pab (f : Fields) : Except DecErr Pab := do
  let a ← f.as
  let b ← f.bsrc
  return ⟨Fin.ofNat 8 (f.d / 8), Fin.ofNat 8 f.d, a, b⟩
def onlyA (f : Fields) : Except DecErr Src := do
  f.noD
  let a ← f.as
  f.noLow
  return a
def onlyD (f : Fields) : Except DecErr Name := do
  let d ← f.dn
  f.noA
  f.noLow
  return d
def nothing (f : Fields) : Except DecErr Unit := do
  f.noD
  f.noA
  f.noLow
/-- B as a name with its pattern, C unused. -/
def bp (f : Fields) : Except DecErr (Src × Pat) := do
  let b ← f.bs
  let p ← f.bpat
  f.noC
  return (b, p)
/-- B as a name without a pattern, C unused. -/
def bname (f : Fields) : Except DecErr Src := do
  let b ← f.bs
  need (f.pat == 0 && f.amt == 0) .unused
  f.noC
  return b
/-- The address side of a memory form (R241). -/
def addr (f : Fields) : Except DecErr Addr := do
  let a ← f.as
  if f.imm then return ⟨a, some (BitVec.ofNat 22 f.low)⟩
  else
    f.noLow
    return ⟨a, none⟩
/-- A name or an immediate in place of A. -/
def num (f : Fields) : Except DecErr NumSrc :=
  if f.imm then do
    f.noA
    return .imm (BitVec.ofNat 22 f.low)
  else do
    let a ← f.as
    f.noLow
    return .reg a
/-- A, B and the slot bits of class 0xD as plain numbers: their last-use bits are zero (R51). -/
def aIdx (f : Fields) (n : Nat) : Except DecErr (Fin n) := do
  need (f.la == 0) .unused
  finOf n f.a
def bIdx (f : Fields) (n : Nat) : Except DecErr (Fin n) := do
  need (f.lb == 0 && f.pat == 0 && f.amt == 0) .unused
  finOf n f.b
def cIdx (f : Fields) (n : Nat) : Except DecErr (Fin n) := do
  need (f.lc == 0) .unused
  finOf n f.c
def slot (f : Fields) : Except DecErr (Fin 8) := finOf 8 f.xtra

def fmod (f : Fields) : Except DecErr FMod := do return ⟨← FTy.ofCode f.ty, RM.ofBits f.rm, f.m9, f.m8⟩
def mmod (f : Fields) : Except DecErr MMod := do
  return ⟨← MTy.ofCode f.ty, Ord.ofBits f.rm, Scope.ofBits (f.xtra % 8), f.m9, f.m8, f.xtra / 8 == 1⟩
def amod (f : Fields) : Except DecErr AMod := do
  f.mods false true true false false
  need (f.ty == 4 || f.ty == 5) .type
  return ⟨f.ty == 5, Ord.ofBits f.rm, Scope.ofBits (f.xtra % 8), f.xtra / 8 == 1⟩
/-- The operation code in C (R249). -/
def aop (f : Fields) : Except DecErr AtomOp := do
  need (f.lc == 0) .unused
  AtomOp.ofCode f.c
/-- The branch offset (R55). -/
def off (f : Fields) : BitVec 29 := BitVec.ofNat 29 f.br

/-! ### The classes -/

def class0 (f : Fields) (h : Hdr) (fn : Nat) : Except DecErr Instr :=
  match fn with
  | 0x00 => do f.mods true true false true false; return .iadd h (← ITy.ofCode f.ty) f.m9 (← f.dab)
  | 0x01 => do f.mods true true false true false; return .isub h (← ITy.ofCode f.ty) f.m9 (← f.dab)
  | 0x02 => do f.mods true true false true true; return .imul h (← ITy.ofCode f.ty) f.m9 f.m8 (← f.dab)
  | 0x03 => do f.mods true true false false false; return .imulh h (← ITy.ofCode f.ty) (← f.dab)
  | 0x04 => do f.mods false true false true true; return .imad h (← ITy.ofCode f.ty) f.m9 f.m8 (← f.dabc)
  | 0x05 => do f.mods true true false false false; return .imin h (← ITy.ofCode f.ty) (← f.dab)
  | 0x06 => do f.mods true true false false false; return .imax h (← ITy.ofCode f.ty) (← f.dab)
  | 0x07 => do f.mods false true false true false; return .iabs h (← ITy.ofCode f.ty) f.m9 (← f.da)
  | 0x08 => do f.mods true true false false false; need (f.ty == 0 || f.ty == 1) .type; return .icmp h (f.ty == 1) (← f.pab)
  | 0x09 => do f.mods false false false false false; return .isel h (← f.dabc)
  | 0x0A => do f.mods false false false false false; return .popc h (← f.da)
  | 0x0B => do f.mods false false false false false; return .clz h (← f.da)
  | 0x0C => do f.mods false false false false false; return .brev h (← f.da)
  | 0x0D => do f.mods true true false false false; need (f.ty == 0 || f.ty == 1) .type; return .bfe h (f.ty == 1) (← f.dab)
  | 0x0E => do f.mods false false false false false; return .bfi h (← f.dabc)
  | 0x0F => do f.mods false true false true false; return .idot4 h (← ITy.ofCode f.ty) f.m9 (← f.dabc)
  | 0x10 => do f.mods true true false false false; need (f.ty == 0 || f.ty == 1) .type; return .lea h (f.ty == 1) (← f.dab)
  | 0x11 => do f.mods false false false false false; return .mov h (← f.da)
  | 0x12 => do
    f.mods true false false false false
    need f.imm .modifier
    f.noA
    return .movi h (← f.dn) (BitVec.ofNat 22 f.low)
  | 0x13 => do
    f.mods true false false false false
    need f.imm .modifier
    f.noA
    need (f.low / 2 ^ 17 == 0) .unused
    return .movk h (← f.dn) (f.low / 2 ^ 16 % 2 == 1) (BitVec.ofNat 16 f.low)
  | _ => .error .unassigned

def class1 (f : Fields) (h : Hdr) (fn : Nat) : Except DecErr Instr :=
  match fn with
  | 0x00 => do f.mods true false false false false; return .and h (← f.dab)
  | 0x01 => do f.mods true false false false false; return .or h (← f.dab)
  | 0x02 => do f.mods true false false false false; return .xor h (← f.dab)
  | 0x03 => do f.mods true false false false false; return .andn h (← f.dab)
  | 0x04 => do
    f.mods false false false false false
    let d ← f.dn
    let a ← f.as
    let b ← f.bs
    let c ← f.cs
    return .bmux h (BitVec.ofNat 4 (f.low / 16)) (BitVec.ofNat 4 f.low) d a b c
  | 0x05 => do f.mods true false false false false; return .shl h (← f.dab)
  | 0x06 => do f.mods true false false false false; return .shr h (← f.dab)
  | 0x07 => do f.mods true true false false false; need (f.ty == 1) .type; return .sar h (← f.dab)
  | 0x08 => do f.mods true false false false false; return .rot h (← f.dab)
  | 0x09 => do f.mods false false false false false; return .fshf h (← f.dabc)
  | 0x0A => do
    f.mods false false false false false
    need (f.la == 0 && f.lb == 0 && f.pat == 0 && f.amt == 0) .unused
    f.noC
    let pa ← finOf 8 f.a
    let pb ← finOf 8 f.b
    return .plop h (Fin.ofNat 8 (f.d / 8)) (Fin.ofNat 8 f.d) pa pb
  | 0x0B => do f.mods false false false false false; return .p2g h (← f.onlyD)
  | 0x0C => do f.mods false false false false false; return .g2p h (← f.onlyA)
  | _ => .error .unassigned

def class2 (f : Fields) (h : Hdr) (fn : Nat) : Except DecErr Instr :=
  match fn with
  | 0x00 => do return .fadd h (← f.fmod) (← f.dab)
  | 0x01 => do return .fsub h (← f.fmod) (← f.dab)
  | 0x02 => do return .fmul h (← f.fmod) (← f.dab)
  | 0x03 => do f.mods false true true true true; return .ffma h (← f.fmod) (← f.dabc)
  | 0x04 => do f.mods true true false false false; return .fmin h (← FTy.ofCode f.ty) (← f.dab)
  | 0x05 => do f.mods true true false false false; return .fmax h (← FTy.ofCode f.ty) (← f.dab)
  | 0x06 => do f.mods true false false false false; return .fcmp h (← f.pab)
  | 0x07 => do f.mods false false false false false; return .fclass h (← f.da)
  | 0x08 => do
    f.mods false false true true false
    let d ← f.dn
    let a ← f.as
    let (b, p) ← f.bp
    return .fscale h (RM.ofBits f.rm) f.m9 d a b p
  | 0x09 => do f.mods false true true false false; return .frnd h (← FTy.ofCode f.ty) (RM.ofBits f.rm) (← f.da)
  | 0x0A => do f.mods false true false false false; return .fabs h (← FTy.ofCode f.ty) (← f.da)
  | 0x0B => do f.mods true true false false false; return .fcpys h (← FTy.ofCode f.ty) (← f.dab)
  | 0x0C => do f.mods true false true true true; return .fdiv h (RM.ofBits f.rm) f.m9 f.m8 (← f.dab)
  | 0x0D => do f.mods false false true false false; return .fsqrt h (RM.ofBits f.rm) (← f.da)
  | _ => .error .unassigned

/-- Shape DAB without an immediate and with NEG, of class 0x3. -/
def xdab (f : Fields) (mk : Bool → Name → Src → Src → Pat → Instr) : Except DecErr Instr := do
  f.mods false false false false true
  let d ← f.dn
  let a ← f.as
  let (b, p) ← f.bp
  return mk f.m8 d a b p

def class3 (f : Fields) (h : Hdr) (fn : Nat) : Except DecErr Instr :=
  match fn with
  | 0x00 => f.xdab (.faddx h)
  | 0x01 => f.xdab (.fsubx h)
  | 0x02 => f.xdab (.fmulx h)
  | 0x03 => f.xdab (.dwadd h)
  | 0x04 => f.xdab (.dwsub h)
  | 0x05 => f.xdab (.dwmul h)
  | 0x06 => f.xdab (.dwaddf h)
  | 0x07 => f.xdab (.dwmulf h)
  | 0x08 => do f.mods false false false false false; return .dwnorm h (← f.da)
  | 0x09 => do
    f.mods false false false false false
    let a ← f.as
    let (b, p) ← f.bp
    return .dwcmp h (Fin.ofNat 8 (f.d / 8)) (Fin.ofNat 8 f.d) a b p
  | 0x0A => do f.mods false false false false false; return .cvtdw h (← f.da)
  | 0x0B => do f.mods false false false false false; return .cvtwd h (← f.da)
  | _ => .error .unassigned

def class4 (f : Fields) (h : Hdr) (fn : Nat) : Except DecErr Instr :=
  match fn with
  | 0x00 => do f.mods true true false false false; return .cvt h (← FTy.ofCode f.ty) (← f.slot) (← f.dn) (← f.num)
  | 0x01 => do
    f.mods false true false false false
    let t ← FTy.ofCode f.ty
    let fs ← f.slot
    let d ← f.dn
    let a ← f.as
    let (b, p) ← f.bp
    return .cvtp h t fs d a b p
  | 0x02 => do f.mods false true false false false; return .cvtu h (← FTy.ofCode f.ty) (← f.slot) (← f.da)
  | 0x03 => do f.mods false false false false false; return .cvts h (← f.slot) (← f.da)
  | 0x04 => do f.mods false true false false false; f.noXtra; return .frcp h (← FTy.ofCode f.ty) (← f.da)
  | 0x05 => do f.mods false true false false false; f.noXtra; return .frsq h (← FTy.ofCode f.ty) (← f.da)
  | 0x06 => do f.mods false true false false false; f.noXtra; return .fexp2 h (← FTy.ofCode f.ty) (← f.da)
  | 0x07 => do f.mods false true false false false; f.noXtra; return .flog2 h (← FTy.ofCode f.ty) (← f.da)
  | 0x08 => do f.mods false true false false false; f.noXtra; return .fsin h (← FTy.ofCode f.ty) (← f.da)
  | 0x09 => do f.mods false true false false false; f.noXtra; return .fcos h (← FTy.ofCode f.ty) (← f.da)
  | 0x0A => do f.mods false true false false false; f.noXtra; return .ftanh h (← FTy.ofCode f.ty) (← f.da)
  | _ => .error .unassigned

def class5 (f : Fields) (h : Hdr) (fn : Nat) : Except DecErr Instr :=
  match fn with
  | 0x00 => do
    f.mods false false false false false
    let d ← f.dn
    let a ← f.as
    let (b, p) ← f.bp
    return .shfl h d a b p
  | 0x01 => do
    f.mods false false false false false
    let cc ← finOf 3 (f.d / 8)
    let a ← f.as
    f.noLow
    return .vote h cc (Fin.ofNat 8 f.d) a
  | 0x02 => do f.mods false false false false false; return .ballot h (← f.da)
  | 0x03 => do f.mods false false false false false; return .matchl h (← f.da)
  | 0x04 => do
    f.mods false true true false true
    return .redx h (← RedOp.ofCode (f.mod % 2 * 8 + f.ty)) (RM.ofBits f.rm) (← f.da)
  | 0x05 => do f.mods false false false false false; return .redxc h (← f.da)
  | 0x06 => do f.mods false true true false true; return .scan h (← ScanOp.ofCode f.ty) f.m8 (RM.ofBits f.rm) (← f.da)
  | 0x07 => do f.mods false false false false true; return .lmask h f.m8 (← f.onlyD)
  | _ => .error .unassigned

def class6 (f : Fields) (h : Hdr) (fn : Nat) : Except DecErr Instr :=
  match fn with
  | 0x00 => do f.mods false false false false false; f.noD; return .bra h f.off
  | 0x01 => do f.mods false false false false false; return .brx h (← f.onlyA)
  | 0x02 => do f.mods false true false false false; f.noD; return .call h (Fin.ofNat 8 f.ty) f.off
  | 0x03 => do f.mods false true false false false; return .calli h (Fin.ofNat 8 f.ty) (← f.onlyA)
  | 0x04 => do f.mods false false false false false; f.nothing; return .ret h
  | 0x05 => do f.mods false false false false false; f.nothing; return .reform h
  | 0x06 => do f.mods false false false false false; f.nothing; return .exit h
  | 0x07 => do
    f.mods false false false false true
    let lc ← finOf 3 f.d
    if f.m8 then return .loopSet h lc f.off else return .loop h lc f.off
  | 0x08 => do
    f.mods false true false false false
    need (56 ≤ f.d) .selector
    let sn ← finOf 4 (f.d - 56)
    let k ← finOf 3 (f.ty % 4)
    return .beod h (f.ty / 4 == 1) k sn f.off
  | 0x09 => do f.mods false false false false false; f.nothing; return .yield h
  | 0x0A => do f.mods false false false false false; f.nothing; return .nop h
  | 0x0B => do f.mods false false false false false; return .spawn h (← f.da)
  | 0x0C => do f.mods false false false false false; return .join h (← f.da)
  | 0x0D => do f.mods false false false false false; return .cancel h (← f.onlyA)
  | 0x0E => do
    f.mods false false false false false
    f.noD
    f.noA
    return .trap h (← finOf 32 f.low)
  | 0x0F => do f.mods false false false false false; f.nothing; return .bpt h
  | _ => .error .unassigned

def class7 (f : Fields) (h : Hdr) (fn : Nat) : Except DecErr Instr :=
  match fn with
  | 0x00 => do return .ld h (← f.mmod) (← f.dn) (← f.addr)
  | 0x01 => do return .st h (← f.mmod) (← f.dn) (← f.addr)
  | 0x02 => do return .lds h (← f.mmod) (← f.dn) (← f.addr)
  | 0x03 => do return .sts h (← f.mmod) (← f.dn) (← f.addr)
  | 0x04 => do return .ldt h (← f.mmod) (← f.dn) (← f.addr)
  | 0x05 => do return .stt h (← f.mmod) (← f.dn) (← f.addr)
  | 0x06 => do
    f.mods true false false true true
    need (f.xtra % 8 == 0) .modifier
    f.noD
    return .pref h f.m9 f.m8 (f.xtra / 8 == 1) (← f.addr)
  | 0x07 => do
    f.mods true false false false false
    need (f.xtra % 8 == 0) .modifier
    f.noD
    return .cwb h (f.xtra / 8 == 1) (← f.addr)
  | 0x08 => do
    f.mods true false false false false
    need (f.xtra % 8 == 0) .modifier
    f.noD
    return .cinv h (f.xtra / 8 == 1) (← f.addr)
  | _ => .error .unassigned

def class8 (f : Fields) (h : Hdr) (fn : Nat) : Except DecErr Instr :=
  match fn with
  | 0x00 => do return .atom h (← f.aop) (← f.amod) (← f.dn) (← f.as) (← f.bs) (← f.bpat)
  | 0x01 => do return .atoms h (← f.aop) (← f.amod) (← f.dn) (← f.as) (← f.bs) (← f.bpat)
  | 0x02 => do return .cas h (← f.amod) (← f.dabc)
  | 0x03 => do return .cass h (← f.amod) (← f.dabc)
  | 0x04 => do f.noD; return .red h (← f.aop) (← f.amod) (← f.as) (← f.bs) (← f.bpat)
  | 0x05 => do
    f.mods true false true false false
    f.noD
    return .fence h (Ord.ofBits f.rm) (Scope.ofBits (f.xtra % 8)) (f.xtra / 8 == 1) (← f.addr)
  | _ => .error .unassigned

def class9 (f : Fields) (h : Hdr) (fn : Nat) : Except DecErr Instr :=
  match fn with
  | 0x00 => do f.mods true false false false false; f.noD; return .bari h (← f.as) (← f.bsrc)
  | 0x01 => do f.mods false false false false false; return .bara h (← f.onlyA)
  | 0x02 => do f.mods true false false false false; return .barw h (← finOf 8 f.d) (← f.as) (← f.bsrc)
  | 0x03 => do f.mods true false false false false; return .baraw h (← finOf 8 f.d) (← f.as) (← f.bsrc)
  | 0x04 => do f.mods false false false false false; f.nothing; return .tbar h
  | 0x05 => do f.mods false false false false false; f.nothing; return .gbar h
  | 0x06 => do f.mods false true false false true; return .waita h (Fin.ofNat 8 f.ty) f.m8 (← f.dabc)
  | _ => .error .unassigned

/-- D naming a stream register (R260). -/
def dstream (f : Fields) : Except DecErr (Fin 4) := do
  need (56 ≤ f.d) .selector
  finOf 4 (f.d - 56)

def classA (f : Fields) (h : Hdr) (fn : Nat) : Except DecErr Instr :=
  match fn with
  | 0x00 => do f.mods false false false false false; return .copy h (← f.onlyA)
  | 0x01 => do f.mods false false false false false; return .copyr h (← f.onlyA)
  | 0x02 => do f.mods false false false false false; return .copyq h (← f.da)
  | 0x03 => do
    f.mods false false false false false
    let sn ← f.dstream
    let a ← f.as
    let (b, p) ← f.bp
    return .strm h sn a b p
  | 0x04 => do
    f.mods false false false false true
    let sn ← f.dstream
    f.noA
    f.noLow
    if f.m8 then return .strfOut h sn else return .strfIn h sn
  | 0x05 => do f.mods false false false false false; return .strq h (← f.da)
  | _ => .error .unassigned

def classB (f : Fields) (h : Hdr) (fn : Nat) : Except DecErr Instr :=
  match fn with
  | 0x00 => do f.mods false false false false false; return .gred h (← f.da)
  | 0x01 => do
    f.mods false false false false false
    f.noD
    let a ← f.as
    let (b, p) ← f.bp
    return .gstart h a b p
  | 0x02 => do f.mods false false false false false; return .gstop h (← f.onlyA)
  | 0x03 => do f.mods false false false false false; return .gattn h (← f.da)
  | 0x04 => do
    f.mods false false false false true
    let d ← f.dn
    let a ← f.as
    if f.m8 then
      f.noLow
      return .gmbox h d a none
    else return .gmbox h d a (some (← f.bp))
  | 0x05 => do f.mods false false false false false; return .gid h (← f.onlyD)
  | _ => .error .unassigned

def classC (f : Fields) (h : Hdr) (fn : Nat) : Except DecErr Instr :=
  match fn with
  | 0x00 => do
    f.mods false false false false false
    let d ← f.dn
    let a ← f.as
    let (b, p) ← f.bp
    return .mldred h d a b p
  | 0x01 => do
    f.mods false true false false false
    need (f.ty == 2 || f.ty == 4) .type
    let d ← f.dn
    let a ← f.as
    let (b, p) ← f.bp
    return .mstmc h (f.ty == 4) d a b p
  | 0x02 => do
    f.mods false false false false false
    f.noD
    let a ← f.as
    let (b, p) ← f.bp
    return .mgrp h a b p
  | 0x03 => do f.mods false false false false false; return .cfire h (← f.onlyA)
  | 0x04 => do f.mods false false false false false; return .cstat h (← f.da)
  | _ => .error .unassigned

def classD (f : Fields) (h : Hdr) (fn : Nat) : Except DecErr Instr :=
  match fn with
  | 0x00 => do
    f.mods false false false false false
    f.noXtra
    let t ← finOf 16 f.d
    let a ← f.as
    let b ← f.bname
    return .tdset h t a b
  | 0x01 => do
    f.mods false false false false true
    f.noXtra
    let d ← f.dn
    let t ← f.aIdx 16
    f.noLow
    return .tdget h f.m8 d t
  | 0x02 => do
    f.mods false false false false false
    f.noXtra
    return .mma h (← finOf 4 f.d) (← f.aIdx 16) (← f.bIdx 16) (← f.cIdx 16)
  | 0x03 => do
    f.mods false false false false true
    f.noXtra
    let acc ← finOf 4 f.d
    f.noA
    f.noLow
    return .mzero h f.m8 acc
  | 0x04 => do
    f.mods false false false false true
    f.noXtra
    let acc ← finOf 4 f.d
    let t ← f.aIdx 16
    f.noLow
    return .mldacc h f.m8 acc t
  | 0x05 => do
    f.mods false false false true true
    let fs ← f.slot
    let acc ← finOf 4 f.d
    let t ← f.aIdx 16
    f.noLow
    return .mdrain h f.m8 f.m9 fs t acc
  | 0x06 => do
    f.mods false false false false true
    let fs ← f.slot
    let acc ← finOf 4 f.d
    let a ← f.as
    let t ← f.bIdx 16
    f.noC
    return .mdradd h f.m8 fs a t acc
  | 0x07 => do
    f.mods false false false false false
    f.noXtra
    let acc ← finOf 4 f.d
    let a ← f.as
    f.noLow
    return .marm h acc a
  | 0x08 => do
    f.mods false false false true true
    f.noXtra
    let d ← f.dn
    let acc ← f.aIdx 4
    f.noLow
    return .mstep h f.m8 f.m9 d acc
  | 0x09 => do
    f.mods false false false false false
    f.noXtra
    f.nothing
    return .mfence h
  | _ => .error .unassigned

def classE (f : Fields) (h : Hdr) (fn : Nat) : Except DecErr Instr :=
  match fn with
  | 0x00 => do f.mods true false false false false; return .sread h (← f.dn) (← f.num)
  | 0x01 => do f.mods true false false false false; f.noD; return .swrite h (← f.as) (← f.bsrc)
  | 0x02 => do
    f.mods false false false false false
    let d ← f.dn
    let a ← f.as
    let b ← f.bname
    return .plate h d a b
  | 0x03 => do f.mods false false false false false; return .plateq h (← f.da)
  | 0x04 => do f.mods false false false false false; return .psel h (← f.onlyA)
  | 0x05 => do f.mods false false false false false; return .prdv h (← f.da)
  | 0x06 => do
    f.mods false false false false false
    f.noD
    let a ← f.as
    let (b, p) ← f.bp
    return .pwrv h a b p
  | 0x07 => do f.mods false false false false false; f.nothing; return .pret h
  | 0x08 => do f.mods false false false false false; return .clk h (← f.onlyD)
  | 0x09 => do
    f.mods false false false false true
    let o ← f.da
    if f.m8 then return .frecList h o else return .frec h o
  | 0x0A => do f.mods true false false false false; return .capw h (← f.dn) (← f.num)
  | _ => .error .unassigned

/-- XTRA is zero in every class but 0x4, 0x7, 0x8 and 0xD, whose forms check it themselves (R58). -/
def xtraOwn (cls : Nat) : Bool := cls == 4 || cls == 7 || cls == 8 || cls == 13

/-- The fields as an instruction, before the form's own combinations are checked. -/
def instr (f : Fields) : Except DecErr Instr := do
  let h ← f.hdr
  need (xtraOwn (f.op / 32) || f.xtra == 0) .modifier
  match f.op / 32 with
  | 0x0 => f.class0 h (f.op % 32)
  | 0x1 => f.class1 h (f.op % 32)
  | 0x2 => f.class2 h (f.op % 32)
  | 0x3 => f.class3 h (f.op % 32)
  | 0x4 => f.class4 h (f.op % 32)
  | 0x5 => f.class5 h (f.op % 32)
  | 0x6 => f.class6 h (f.op % 32)
  | 0x7 => f.class7 h (f.op % 32)
  | 0x8 => f.class8 h (f.op % 32)
  | 0x9 => f.class9 h (f.op % 32)
  | 0xA => f.classA h (f.op % 32)
  | 0xB => f.classB h (f.op % 32)
  | 0xC => f.classC h (f.op % 32)
  | 0xD => f.classD h (f.op % 32)
  | 0xE => f.classE h (f.op % 32)
  | _ => .error .unassigned

end Fields

/-- The instruction in a word, or why there is none. -/
def decode (w : Nat) : Except DecErr Instr := do
  let i ← (Fields.ofWord w).instr
  need i.wf .notAForm
  return i

/-- Eight bytes, lowest address first, as a word (R8). -/
def wordOfBytes : List Byte → Nat
  | [] => 0
  | b :: bs => b.toNat + 256 * wordOfBytes bs

/-- The bytes of a word as the hardware stores it: n bytes, little-endian. -/
def bytesOfWord : Nat → Nat → List Byte
  | 0, _ => []
  | n + 1, w => BitVec.ofNat 8 w :: bytesOfWord n (w / 256)

/-- What the decoder reads from the n bits w, laid out as 64-bit instruction memory. -/
def decodeTableWord (nbits w : Nat) : Option Instr :=
  (decode (wordOfBytes (bytesOfWord 8 (w % 2 ^ nbits)))).toOption

/-! ### The encoder -/

def Src.lastN (s : Src) : Nat := if s.last then 1 else 0
def boolN (b : Bool) : Nat := if b then 1 else 0

/-- Bits 37:16 from a B name with pattern and a C name. -/
def lowOf (b : Src) (patamt : Nat) (c lc : Nat) : Nat := b.name.code * 2 ^ 16 + b.lastN * 2 ^ 15 + c * 2 ^ 9 + lc * 2 ^ 8 + patamt
def BSrc.low : BSrc → Nat
  | .reg s p => lowOf s p.code 0 0
  | .imm i => i.toNat
def BSrc.isImm : BSrc → Bool
  | .reg _ _ => false
  | .imm _ => true
/-- MOD from I, TY, RM, bit 9, bit 8. -/
def modOf (i : Bool) (t r : Nat) (s w : Bool) : Nat := boolN i * 128 + t * 16 + r * 4 + boolN s * 2 + boolN w

/-- A word's fields from its header. -/
def Hdr.fields (h : Hdr) (op d a la low mod xtra : Nat) : Fields :=
  { op := op, gneg := boolN h.neg, gsel := h.sel.val, d := d, a := a, la := la, low := low, mod := mod,
    setf := match h.setf with | some k => k.val | none => 15, xtra := xtra }

def Hdr.fDab (h : Hdr) (op : Nat) (o : Dab) (t r : Nat) (s w : Bool) : Fields :=
  h.fields op o.d.code o.a.name.code o.a.lastN o.b.low (modOf o.b.isImm t r s w) 0
def Hdr.fDabc (h : Hdr) (op : Nat) (o : Dabc) (t r : Nat) (s w : Bool) (x : Nat) : Fields :=
  h.fields op o.d.code o.a.name.code o.a.lastN (lowOf o.b o.pat.code o.c.name.code o.c.lastN) (modOf false t r s w) x
def Hdr.fDa (h : Hdr) (op : Nat) (o : Da) (t r : Nat) (s w : Bool) (x : Nat) : Fields :=
  h.fields op o.d.code o.a.name.code o.a.lastN 0 (modOf false t r s w) x
def Hdr.fPab (h : Hdr) (op : Nat) (o : Pab) (t : Nat) : Fields :=
  h.fields op (o.cc.val * 8 + o.p.val) o.a.name.code o.a.lastN o.b.low (modOf o.b.isImm t 0 false false) 0
def Hdr.fDabp (h : Hdr) (op d : Nat) (a b : Src) (p : Pat) (t r : Nat) (s w : Bool) (x : Nat) : Fields :=
  h.fields op d a.name.code a.lastN (lowOf b p.code 0 0) (modOf false t r s w) x
def Hdr.fA (h : Hdr) (op d : Nat) (a : Src) (t : Nat) : Fields := h.fields op d a.name.code a.lastN 0 (modOf false t 0 false false) 0
def Hdr.fD (h : Hdr) (op d : Nat) (w : Bool) : Fields := h.fields op d 0 0 0 (modOf false 0 0 false w) 0
def Hdr.fBr (h : Hdr) (op d : Nat) (off : BitVec 29) (t : Nat) (w : Bool) : Fields :=
  h.fields op d (off.toNat / 2 ^ 23) (off.toNat / 2 ^ 22 % 2) (off.toNat % 2 ^ 22) (modOf false t 0 false w) 0
def Hdr.fMem (h : Hdr) (op d : Nat) (a : Addr) (t r : Nat) (s w : Bool) (x : Nat) : Fields :=
  h.fields op d a.a.name.code a.a.lastN (match a.off with | some i => i.toNat | none => 0) (modOf a.off.isSome t r s w) x
def Hdr.fM (h : Hdr) (op : Nat) (m : MMod) (d : Name) (a : Addr) : Fields :=
  h.fMem op d.code a m.ty.code m.ord.code m.bp m.ro (boolN m.st * 8 + m.scope.code)
def AMod.tyCode (m : AMod) : Nat := if m.wide then 5 else 4
def AMod.xtra (m : AMod) : Nat := boolN m.st * 8 + m.scope.code
def Hdr.fAtom (h : Hdr) (opc d : Nat) (op : AtomOp) (m : AMod) (a b : Src) (p : Pat) : Fields :=
  h.fields opc d a.name.code a.lastN (lowOf b p.code op.code 0) (modOf false m.tyCode m.ord.code false false) m.xtra
def Hdr.fNum (h : Hdr) (op d : Nat) (n : NumSrc) (t x : Nat) : Fields :=
  match n with
  | .reg s => h.fields op d s.name.code s.lastN 0 (modOf false t 0 false false) x
  | .imm i => h.fields op d 0 0 i.toNat (modOf true t 0 false false) x
/-- TL: D, A as numbers, B and C as numbers. -/
def Hdr.fTl (h : Hdr) (op d a b c : Nat) (s w : Bool) (x : Nat) : Fields :=
  h.fields op d a 0 (b * 2 ^ 16 + c * 2 ^ 9) (modOf false 0 0 s w) x

/-- The fields of an instruction's word; none for events and host commands, which are no words. -/
def Instr.fields : Instr → Option Fields
  | .iadd h t s o => some (h.fDab 0x000 o t.code 0 s false)
  | .isub h t s o => some (h.fDab 0x001 o t.code 0 s false)
  | .imul h t s w o => some (h.fDab 0x002 o t.code 0 s w)
  | .imulh h t o => some (h.fDab 0x003 o t.code 0 false false)
  | .imad h t s w o => some (h.fDabc 0x004 o t.code 0 s w 0)
  | .imin h t o => some (h.fDab 0x005 o t.code 0 false false)
  | .imax h t o => some (h.fDab 0x006 o t.code 0 false false)
  | .iabs h t s o => some (h.fDa 0x007 o t.code 0 s false 0)
  | .icmp h g o => some (h.fPab 0x008 o (boolN g))
  | .isel h o => some (h.fDabc 0x009 o 0 0 false false 0)
  | .popc h o => some (h.fDa 0x00A o 0 0 false false 0)
  | .clz h o => some (h.fDa 0x00B o 0 0 false false 0)
  | .brev h o => some (h.fDa 0x00C o 0 0 false false 0)
  | .bfe h g o => some (h.fDab 0x00D o (boolN g) 0 false false)
  | .bfi h o => some (h.fDabc 0x00E o 0 0 false false 0)
  | .idot4 h t s o => some (h.fDabc 0x00F o t.code 0 s false 0)
  | .lea h g o => some (h.fDab 0x010 o (boolN g) 0 false false)
  | .mov h o => some (h.fDa 0x011 o 0 0 false false 0)
  | .movi h d i => some (h.fields 0x012 d.code 0 0 i.toNat (modOf true 0 0 false false) 0)
  | .movk h d hf k => some (h.fields 0x013 d.code 0 0 (boolN hf * 2 ^ 16 + k.toNat) (modOf true 0 0 false false) 0)
  | .and h o => some (h.fDab 0x020 o 0 0 false false)
  | .or h o => some (h.fDab 0x021 o 0 0 false false)
  | .xor h o => some (h.fDab 0x022 o 0 0 false false)
  | .andn h o => some (h.fDab 0x023 o 0 0 false false)
  | .bmux h f1 f0 d a b c =>
    some (h.fields 0x024 d.code a.name.code a.lastN (lowOf b (f1.toNat * 16 + f0.toNat) c.name.code c.lastN) 0 0)
  | .shl h o => some (h.fDab 0x025 o 0 0 false false)
  | .shr h o => some (h.fDab 0x026 o 0 0 false false)
  | .sar h o => some (h.fDab 0x027 o 1 0 false false)
  | .rot h o => some (h.fDab 0x028 o 0 0 false false)
  | .fshf h o => some (h.fDabc 0x029 o 0 0 false false 0)
  | .plop h fn pd pa pb => some (h.fields 0x02A (fn.val * 8 + pd.val) pa.val 0 (pb.val * 2 ^ 16) 0 0)
  | .p2g h d => some (h.fD 0x02B d.code false)
  | .g2p h a => some (h.fA 0x02C 0 a 0)
  | .fadd h m o => some (h.fDab 0x040 o m.ty.code m.rm.code m.sat m.neg)
  | .fsub h m o => some (h.fDab 0x041 o m.ty.code m.rm.code m.sat m.neg)
  | .fmul h m o => some (h.fDab 0x042 o m.ty.code m.rm.code m.sat m.neg)
  | .ffma h m o => some (h.fDabc 0x043 o m.ty.code m.rm.code m.sat m.neg 0)
  | .fmin h t o => some (h.fDab 0x044 o t.code 0 false false)
  | .fmax h t o => some (h.fDab 0x045 o t.code 0 false false)
  | .fcmp h o => some (h.fPab 0x046 o 0)
  | .fclass h o => some (h.fDa 0x047 o 0 0 false false 0)
  | .fscale h r s d a b p => some (h.fDabp 0x048 d.code a b p 0 r.code s false 0)
  | .frnd h t r o => some (h.fDa 0x049 o t.code r.code false false 0)
  | .fabs h t o => some (h.fDa 0x04A o t.code 0 false false 0)
  | .fcpys h t o => some (h.fDab 0x04B o t.code 0 false false)
  | .fdiv h r s n o => some (h.fDab 0x04C o 0 r.code s n)
  | .fsqrt h r o => some (h.fDa 0x04D o 0 r.code false false 0)
  | .faddx h n d a b p => some (h.fDabp 0x060 d.code a b p 0 0 false n 0)
  | .fsubx h n d a b p => some (h.fDabp 0x061 d.code a b p 0 0 false n 0)
  | .fmulx h n d a b p => some (h.fDabp 0x062 d.code a b p 0 0 false n 0)
  | .dwadd h n d a b p => some (h.fDabp 0x063 d.code a b p 0 0 false n 0)
  | .dwsub h n d a b p => some (h.fDabp 0x064 d.code a b p 0 0 false n 0)
  | .dwmul h n d a b p => some (h.fDabp 0x065 d.code a b p 0 0 false n 0)
  | .dwaddf h n d a b p => some (h.fDabp 0x066 d.code a b p 0 0 false n 0)
  | .dwmulf h n d a b p => some (h.fDabp 0x067 d.code a b p 0 0 false n 0)
  | .dwnorm h o => some (h.fDa 0x068 o 0 0 false false 0)
  | .dwcmp h cc p a b q => some (h.fDabp 0x069 (cc.val * 8 + p.val) a b q 0 0 false false 0)
  | .cvtdw h o => some (h.fDa 0x06A o 0 0 false false 0)
  | .cvtwd h o => some (h.fDa 0x06B o 0 0 false false 0)
  | .cvt h t fs d a => some (h.fNum 0x080 d.code a t.code fs.val)
  | .cvtp h t fs d a b p => some (h.fDabp 0x081 d.code a b p t.code 0 false false fs.val)
  | .cvtu h t fs o => some (h.fDa 0x082 o t.code 0 false false fs.val)
  | .cvts h fs o => some (h.fDa 0x083 o 0 0 false false fs.val)
  | .frcp h t o => some (h.fDa 0x084 o t.code 0 false false 0)
  | .frsq h t o => some (h.fDa 0x085 o t.code 0 false false 0)
  | .fexp2 h t o => some (h.fDa 0x086 o t.code 0 false false 0)
  | .flog2 h t o => some (h.fDa 0x087 o t.code 0 false false 0)
  | .fsin h t o => some (h.fDa 0x088 o t.code 0 false false 0)
  | .fcos h t o => some (h.fDa 0x089 o t.code 0 false false 0)
  | .ftanh h t o => some (h.fDa 0x08A o t.code 0 false false 0)
  | .shfl h d a b p => some (h.fDabp 0x0A0 d.code a b p 0 0 false false 0)
  | .vote h cc p a => some (h.fA 0x0A1 (cc.val * 8 + p.val) a 0)
  | .ballot h o => some (h.fDa 0x0A2 o 0 0 false false 0)
  | .matchl h o => some (h.fDa 0x0A3 o 0 0 false false 0)
  | .redx h op r o => some (h.fDa 0x0A4 o (op.code % 8) r.code false (op.code / 8 == 1) 0)
  | .redxc h o => some (h.fDa 0x0A5 o 0 0 false false 0)
  | .scan h op x r o => some (h.fDa 0x0A6 o op.code r.code false x 0)
  | .lmask h live d => some (h.fD 0x0A7 d.code live)
  | .bra h off => some (h.fBr 0x0C0 0 off 0 false)
  | .brx h a => some (h.fA 0x0C1 0 a 0)
  | .call h w off => some (h.fBr 0x0C2 0 off w.val false)
  | .calli h w a => some (h.fA 0x0C3 0 a w.val)
  | .ret h => some (h.fD 0x0C4 0 false)
  | .reform h => some (h.fD 0x0C5 0 false)
  | .exit h => some (h.fD 0x0C6 0 false)
  | .loopSet h lc n => some (h.fBr 0x0C7 lc.val n 0 true)
  | .loop h lc off => some (h.fBr 0x0C7 lc.val off 0 false)
  | .beod h out k sn off => some (h.fBr 0x0C8 (56 + sn.val) off (boolN out * 4 + k.val) false)
  | .yield h => some (h.fD 0x0C9 0 false)
  | .nop h => some (h.fD 0x0CA 0 false)
  | .spawn h o => some (h.fDa 0x0CB o 0 0 false false 0)
  | .join h o => some (h.fDa 0x0CC o 0 0 false false 0)
  | .cancel h a => some (h.fA 0x0CD 0 a 0)
  | .trap h n => some (h.fields 0x0CE 0 0 0 n.val 0 0)
  | .bpt h => some (h.fD 0x0CF 0 false)
  | .ld h m d a => some (h.fM 0x0E0 m d a)
  | .st h m d a => some (h.fM 0x0E1 m d a)
  | .lds h m d a => some (h.fM 0x0E2 m d a)
  | .sts h m d a => some (h.fM 0x0E3 m d a)
  | .ldt h m d a => some (h.fM 0x0E4 m d a)
  | .stt h m d a => some (h.fM 0x0E5 m d a)
  | .pref h bp ro sm a => some (h.fMem 0x0E6 0 a 0 0 bp ro (boolN sm * 8))
  | .cwb h sm a => some (h.fMem 0x0E7 0 a 0 0 false false (boolN sm * 8))
  | .cinv h sm a => some (h.fMem 0x0E8 0 a 0 0 false false (boolN sm * 8))
  | .atom h op m d a b p => some (h.fAtom 0x100 d.code op m a b p)
  | .atoms h op m d a b p => some (h.fAtom 0x101 d.code op m a b p)
  | .cas h m o => some (h.fDabc 0x102 o m.tyCode m.ord.code false false m.xtra)
  | .cass h m o => some (h.fDabc 0x103 o m.tyCode m.ord.code false false m.xtra)
  | .red h op m a b p => some (h.fAtom 0x104 0 op m a b p)
  | .fence h o s sm a => some (h.fMem 0x105 0 a 0 o.code false false (boolN sm * 8 + s.code))
  | .bari h a n => some (h.fields 0x120 0 a.name.code a.lastN n.low (modOf n.isImm 0 0 false false) 0)
  | .bara h a => some (h.fA 0x121 0 a 0)
  | .barw h p a t => some (h.fields 0x122 p.val a.name.code a.lastN t.low (modOf t.isImm 0 0 false false) 0)
  | .baraw h p a t => some (h.fields 0x123 p.val a.name.code a.lastN t.low (modOf t.isImm 0 0 false false) 0)
  | .tbar h => some (h.fD 0x124 0 false)
  | .gbar h => some (h.fD 0x125 0 false)
  | .waita h cc w o => some (h.fDabc 0x126 o cc.val 0 false w 0)
  | .copy h a => some (h.fA 0x140 0 a 0)
  | .copyr h a => some (h.fA 0x141 0 a 0)
  | .copyq h o => some (h.fDa 0x142 o 0 0 false false 0)
  | .strm h sn a b p => some (h.fDabp 0x143 (56 + sn.val) a b p 0 0 false false 0)
  | .strfIn h sn => some (h.fD 0x144 (56 + sn.val) false)
  | .strfOut h sn => some (h.fD 0x144 (56 + sn.val) true)
  | .strq h o => some (h.fDa 0x145 o 0 0 false false 0)
  | .gred h o => some (h.fDa 0x160 o 0 0 false false 0)
  | .gstart h a b p => some (h.fDabp 0x161 0 a b p 0 0 false false 0)
  | .gstop h a => some (h.fA 0x162 0 a 0)
  | .gattn h o => some (h.fDa 0x163 o 0 0 false false 0)
  | .gmbox h d a b => match b with
    | some (s, p) => some (h.fDabp 0x164 d.code a s p 0 0 false false 0)
    | none => some (h.fDa 0x164 ⟨d, a⟩ 0 0 false true 0)
  | .gid h d => some (h.fD 0x165 d.code false)
  | .mldred h d a b p => some (h.fDabp 0x180 d.code a b p 0 0 false false 0)
  | .mstmc h w d a b p => some (h.fDabp 0x181 d.code a b p (if w then 4 else 2) 0 false false 0)
  | .mgrp h a b p => some (h.fDabp 0x182 0 a b p 0 0 false false 0)
  | .cfire h a => some (h.fA 0x183 0 a 0)
  | .cstat h o => some (h.fDa 0x184 o 0 0 false false 0)
  | .tdset h t a b => some (h.fDabp 0x1A0 t.val a b .none 0 0 false false 0)
  | .tdget h hi d t => some (h.fTl 0x1A1 d.code t.val 0 0 false hi 0)
  | .mma h acc ta tb tc => some (h.fTl 0x1A2 acc.val ta.val tb.val tc.val false false 0)
  | .mzero h s acc => some (h.fTl 0x1A3 acc.val 0 0 0 false s 0)
  | .mldacc h s acc ta => some (h.fTl 0x1A4 acc.val ta.val 0 0 false s 0)
  | .mdrain h raw z fs ta acc => some (h.fTl 0x1A5 acc.val ta.val 0 0 z raw fs.val)
  | .mdradd h raw fs a tb acc =>
    some (h.fields 0x1A6 acc.val a.name.code a.lastN (tb.val * 2 ^ 16) (modOf false 0 0 false raw) fs.val)
  | .marm h acc a => some (h.fA 0x1A7 acc.val a 0)
  | .mstep h clr mask d acc => some (h.fTl 0x1A8 d.code acc.val 0 0 mask clr 0)
  | .mfence h => some (h.fD 0x1A9 0 false)
  | .sread h d n => some (h.fNum 0x1C0 d.code n 0 0)
  | .swrite h a n => some (h.fields 0x1C1 0 a.name.code a.lastN n.low (modOf n.isImm 0 0 false false) 0)
  | .plate h d a b => some (h.fDabp 0x1C2 d.code a b .none 0 0 false false 0)
  | .plateq h o => some (h.fDa 0x1C3 o 0 0 false false 0)
  | .psel h a => some (h.fA 0x1C4 0 a 0)
  | .prdv h o => some (h.fDa 0x1C5 o 0 0 false false 0)
  | .pwrv h a b p => some (h.fDabp 0x1C6 0 a b p 0 0 false false 0)
  | .pret h => some (h.fD 0x1C7 0 false)
  | .clk h d => some (h.fD 0x1C8 d.code false)
  | .frec h o => some (h.fDa 0x1C9 o 0 0 false false 0)
  | .frecList h o => some (h.fDa 0x1C9 o 0 0 false true 0)
  | .capw h d n => some (h.fNum 0x1CA d.code n 0 0)
  | _ => none

/-- The word of a well-formed instruction. -/
def encode (i : Instr) : Option Nat := i.fields.map Fields.toWord

end Sys2Proof
end

