-- ==== Sys2Proof/Machine/Num.lean ====
section
/-!
DEFINITION. Number formats, rounding and FPST bits (05_number_formats.md). A floating value is read into an exact dyadic
number, computed with exactly, and rounded once.
-/
namespace Sys2Proof.Machine

/-- FPST bits 6:0 (R114). -/
abbrev Flags := BitVec 7
def fIV : Flags := 1
def fDZ : Flags := 2
def fOF : Flags := 4
def fUF : Flags := 8
def fNX : Flags := 16
def fXO : Flags := 32
def fXU : Flags := 64

/-- What a format's all-ones exponent means (R97, R98). -/
inductive Specials where
  | ieee | e4m3 | none
  deriving DecidableEq, Repr

/-- A floating format: exponent width, fraction width, bias, specials (R97, R98). -/
structure Fmt where
  ew : Nat
  mw : Nat
  bias : Nat
  sp : Specials
  deriving DecidableEq, Repr

def Fmt.f32 : Fmt := ⟨8, 23, 127, .ieee⟩
def Fmt.f16 : Fmt := ⟨5, 10, 15, .ieee⟩
def Fmt.bf16 : Fmt := ⟨8, 7, 127, .ieee⟩
def Fmt.f64 : Fmt := ⟨11, 52, 1023, .ieee⟩
def Fmt.e4m3 : Fmt := ⟨4, 3, 7, .e4m3⟩
def Fmt.e5m2 : Fmt := ⟨5, 2, 15, .ieee⟩
def Fmt.e3m2 : Fmt := ⟨3, 2, 3, .none⟩
def Fmt.e2m3 : Fmt := ⟨2, 3, 1, .none⟩
def Fmt.e2m1 : Fmt := ⟨2, 1, 1, .none⟩

/-- Position of the sign bit. -/
def Fmt.sb (f : Fmt) : Nat := f.ew + f.mw

/-- A floating value: NaN (signalling or quiet), an infinity, or (−1)^neg × m × 2^e. -/
inductive FVal where
  | nan (sig : Bool)
  | inf (neg : Bool)
  | fin (neg : Bool) (m : Nat) (e : Int)
  deriving DecidableEq, Repr

def FVal.isNan : FVal → Bool
  | .nan _ => true
  | _ => false

def FVal.isSig : FVal → Bool
  | .nan s => s
  | _ => false

def FVal.isInf : FVal → Bool
  | .inf _ => true
  | _ => false

def FVal.isFin : FVal → Bool
  | .fin .. => true
  | _ => false

def FVal.isZero : FVal → Bool
  | .fin _ m _ => m == 0
  | _ => false

def FVal.neg? : FVal → Bool
  | .nan _ => false
  | .inf n => n
  | .fin n _ _ => n

/-- Flips the sign exactly (R124). -/
def FVal.flip : FVal → FVal
  | .nan s => .nan s
  | .inf n => .inf (!n)
  | .fin n m e => .fin (!n) m e

/-- The value of a code (R97, R98). -/
def Fmt.val (f : Fmt) (code : Nat) : FVal :=
  let neg := code / 2 ^ f.sb % 2 == 1
  let e := code / 2 ^ f.mw % 2 ^ f.ew
  let m := code % 2 ^ f.mw
  let top := e == 2 ^ f.ew - 1
  match f.sp, top with
  | .ieee, true =>
    if m == 0 then .inf neg else .nan (m / 2 ^ (f.mw - 1) == 0)
  | .e4m3, true =>
    if m == 2 ^ f.mw - 1 then .nan false
    else .fin neg (2 ^ f.mw + m) ((e : Int) - f.bias - f.mw)
  | _, _ =>
    if e == 0 then .fin neg m (1 - (f.bias : Int) - f.mw)
    else .fin neg (2 ^ f.mw + m) ((e : Int) - f.bias - f.mw)

/-- The canonical NaN (R97, R98). -/
def Fmt.nan (f : Fmt) : Nat :=
  match f.sp with
  | .ieee => (2 ^ f.ew - 1) * 2 ^ f.mw + 2 ^ (f.mw - 1)
  | .e4m3 => 2 ^ f.sb - 1
  | .none => 0

/-- Magnitude code of infinity (formats that have one). -/
def Fmt.infc (f : Fmt) : Nat := (2 ^ f.ew - 1) * 2 ^ f.mw

/-- Magnitude code of the largest finite value (R97, R98). -/
def Fmt.maxc (f : Fmt) : Nat :=
  match f.sp with
  | .ieee => f.infc - 1
  | .e4m3 => 2 ^ f.sb - 2
  | .none => 2 ^ f.sb - 1

def Fmt.sign (f : Fmt) (neg : Bool) : Nat := if neg then 2 ^ f.sb else 0

/-- A code with the FPST bits its computation raised. -/
structure FR where
  bits : Nat
  fl : Flags
  deriving DecidableEq, Repr

/-- Number of bits of a natural number. -/
def bitLen (m : Nat) : Nat := if m == 0 then 0 else Nat.log2 m + 1

/-- m × 2^e rounded to a multiple of 2^lsb in mode rm: the multiple, and whether it is inexact (R104). -/
def quant (rm : RM) (neg : Bool) (m : Nat) (e lsb : Int) : Nat × Bool :=
  if e ≥ lsb then (m * 2 ^ (e - lsb).toNat, false)
  else
    let k := Nat.min (lsb - e).toNat (bitLen m + 2)
    let q := m / 2 ^ k
    let r := m % 2 ^ k
    let half := 2 ^ (k - 1)
    let up :=
      match rm with
      | .rne => decide (r > half) || (r == half && q % 2 == 1)
      | .rz => false
      | .ru => decide (r ≠ 0) && !neg
      | .rd => decide (r ≠ 0) && neg
    (if up then q + 1 else q, decide (r ≠ 0))

/-- What becomes of a finite value that overflows: R104's columns, or a saturated result. -/
inductive Over where
  | ieee | sat
  deriving DecidableEq, Repr

/-- m × 2^e, not zero, rounded into f (R104, R106, R110): OF, UF, NX as they occur. -/
def Fmt.roundNZ (f : Fmt) (rm : RM) (ov : Over) (neg : Bool) (m : Nat) (e : Int) : FR :=
  let ex : Int := e + bitLen m - 1
  let emin : Int := 1 - f.bias
  let (qU, _) := quant rm neg m e (ex - f.mw)
  let exU := if qU == 2 ^ (f.mw + 1) then ex + 1 else ex
  let tiny := decide (exU < emin)
  let lsb := max (ex - f.mw) (emin - f.mw)
  let (q, inex) := quant rm neg m e lsb
  let mag := ((lsb + f.mw + f.bias - 1) * (2 ^ f.mw : Nat)).toNat + q
  if mag > f.maxc then
    let toInf :=
      match rm with
      | .rne => true
      | .rz => false
      | .ru => !neg
      | .rd => neg
    let c :=
      match ov, f.sp with
      | .ieee, .ieee => if toInf then f.infc else f.maxc
      | .ieee, .e4m3 => if toInf then f.nan else f.maxc
      | _, _ => f.maxc
    -- E4M3's NaN has no sign (R98)
    let isNan := ov == .ieee && f.sp == .e4m3 && toInf
    ⟨(if isNan then 0 else f.sign neg) + c, fOF ||| fNX⟩
  else
    ⟨f.sign neg + mag, (if tiny && inex then fUF else 0) ||| (if inex then fNX else 0)⟩

/-- A signed dyadic rounded into f; a zero keeps the sign given. -/
def Fmt.round (f : Fmt) (rm : RM) (ov : Over) (neg : Bool) (m : Nat) (e : Int) : FR :=
  if m == 0 then ⟨f.sign neg, 0⟩ else f.roundNZ rm ov neg m e

def Fmt.mkNan (f : Fmt) (fl : Flags) : FR := ⟨f.nan, fl⟩
def Fmt.mkInf (f : Fmt) (neg : Bool) (fl : Flags) : FR := ⟨f.sign neg + f.infc, fl⟩

/-- IV when an operand is a signalling NaN (R107). -/
def sigFl (xs : List FVal) : Flags := if xs.any FVal.isSig then fIV else 0

/-! ### Exact sums and products -/

/-- The signed integer value of a finite number at exponent e. -/
def scaleTo (neg : Bool) (m : Nat) (e : Int) (t : Int) : Int :=
  let x : Int := (m * 2 ^ (e - t).toNat : Nat)
  if neg then -x else x

/-- x + y of two finite values with the zero-sign rule of R104. -/
def addFin (rm : RM) (n1 : Bool) (m1 : Nat) (e1 : Int) (n2 : Bool) (m2 : Nat) (e2 : Int) : Bool × Nat × Int :=
  let e := min e1 e2
  let s := scaleTo n1 m1 e1 e + scaleTo n2 m2 e2 e
  if s == 0 then
    let neg := if n1 == n2 then n1 else rm == .rd
    (neg, 0, e)
  else (decide (s < 0), s.natAbs, e)

/-- R125's cases for a sum of two values that are already exact. `fl` are flags raised by the operands. -/
def Fmt.sum (f : Fmt) (rm : RM) (ov : Over) (x y : FVal) (fl : Flags) : FR :=
  match x, y with
  | .nan _, _ => f.mkNan fl
  | _, .nan _ => f.mkNan fl
  | .inf a, .inf b => if a == b then f.mkInf a fl else f.mkNan (fl ||| fIV)
  | .inf a, .fin .. => f.mkInf a fl
  | .fin .., .inf b => f.mkInf b fl
  | .fin n1 m1 e1, .fin n2 m2 e2 =>
    let (n, m, e) := addFin rm n1 m1 e1 n2 m2 e2
    let r := f.round rm ov n m e
    ⟨r.bits, fl ||| r.fl⟩

/-- The exact product of two values, and whether it is the invalid 0 × ∞ (R107). -/
def mulVal (x y : FVal) : FVal × Bool :=
  match x, y with
  | .nan _, _ => (.nan false, false)
  | _, .nan _ => (.nan false, false)
  | .inf a, .inf b => (.inf (a != b), false)
  | .inf a, .fin n m _ => if m == 0 then (.nan false, true) else (.inf (a != n), false)
  | .fin n m _, .inf b => if m == 0 then (.nan false, true) else (.inf (n != b), false)
  | .fin n1 m1 e1, .fin n2 m2 e2 => (.fin (n1 != n2) (m1 * m2) (e1 + e2), false)

/-- A value rounded once into f: NaN, infinity or the rounded dyadic. -/
def Fmt.put (f : Fmt) (rm : RM) (ov : Over) (x : FVal) (fl : Flags) : FR :=
  match x with
  | .nan _ => f.mkNan fl
  | .inf n => f.mkInf n fl
  | .fin n m e => let r := f.round rm ov n m e; ⟨r.bits, fl ||| r.fl⟩

/-! ### R125, R126, R127, R132: the arithmetic of one element -/

def Fmt.add (f : Fmt) (rm : RM) (ov : Over) (a b : FVal) : FR := f.sum rm ov a b (sigFl [a, b])
def Fmt.sub (f : Fmt) (rm : RM) (ov : Over) (a b : FVal) : FR := f.sum rm ov a b.flip (sigFl [a, b])

def Fmt.mul (f : Fmt) (rm : RM) (ov : Over) (np : Bool) (a b : FVal) : FR :=
  let (p, bad) := mulVal a b
  if bad then f.mkNan fIV
  else f.put rm ov (if np then p.flip else p) (sigFl [a, b])

/-- FFMA: 0 × ∞ is invalid even when c is a quiet NaN (R125). -/
def Fmt.fma (f : Fmt) (rm : RM) (ov : Over) (np : Bool) (a b c : FVal) : FR :=
  let (p, bad) := mulVal a b
  if bad then f.mkNan fIV
  else f.sum rm ov (if np then p.flip else p) c (sigFl [a, b, c])

/-- The order of R108 on non-NaN values: is x before y, −0 before +0? -/
def FVal.lt108 (x y : FVal) : Bool :=
  match x, y with
  | .inf a, .inf b => a && !b
  | .inf a, _ => a
  | _, .inf b => !b
  | .fin n1 m1 e1, .fin n2 m2 e2 =>
    let e := min e1 e2
    let s := scaleTo n1 m1 e1 e
    let t := scaleTo n2 m2 e2 e
    if s == t then s == 0 && n1 && !n2 else decide (s < t)
  | _, _ => false

/-- FMIN and FMAX on codes: a non-NaN result is an operand bit for bit (R108, R126). -/
def Fmt.minMax (f : Fmt) (isMax : Bool) (a b : Nat) : FR :=
  let x := f.val a
  let y := f.val b
  let fl := sigFl [x, y]
  if x.isNan && y.isNan then f.mkNan fl
  else if x.isNan then ⟨b, fl⟩
  else if y.isNan then ⟨a, fl⟩
  else if isMax then ⟨if x.lt108 y then b else a, fl⟩
  else ⟨if y.lt108 x then b else a, fl⟩

/-- Comparison on values, −0 equal to +0; none when unordered (R127). -/
def FVal.cmp (x y : FVal) : Option Ordering :=
  match x, y with
  | .nan _, _ => none
  | _, .nan _ => none
  | .inf a, .inf b => some (if a == b then .eq else if a then .lt else .gt)
  | .inf a, .fin .. => some (if a then .lt else .gt)
  | .fin .., .inf b => some (if b then .gt else .lt)
  | .fin n1 m1 e1, .fin n2 m2 e2 =>
    let e := min e1 e2
    let s := scaleTo n1 m1 e1 e
    let t := scaleTo n2 m2 e2 e
    some (if s == t then .eq else if s < t then .lt else .gt)

/-- The condition selectors of R127 on a comparison. -/
def condF (cc : Nat) (c : Option Ordering) : Bool :=
  match cc, c with
  | 0, some o => o == .eq
  | 1, some o => o != .eq
  | 1, none => true
  | 2, some o => o == .lt
  | 3, some o => o != .gt
  | 4, some o => o == .gt
  | 5, some o => o != .lt
  | 6, some _ => true
  | 7, none => true
  | _, _ => false

/-- m1 / m2 as a dyadic with its remainder kept as one low bit, wide enough to round into any format. -/
def divJam (m1 m2 : Nat) (bits : Nat) : Nat × Int :=
  let k := bits + bitLen m2
  let n := m1 * 2 ^ k
  let q := n / m2
  (2 * q + (if n % m2 == 0 then 0 else 1), -(k : Int) - 1)

def Fmt.div (f : Fmt) (rm : RM) (ov : Over) (a b : FVal) : FR :=
  let fl := sigFl [a, b]
  match a, b with
  | .nan _, _ => f.mkNan fl
  | _, .nan _ => f.mkNan fl
  | .inf _, .inf _ => f.mkNan fIV
  | .inf x, .fin y _ _ => f.mkInf (x != y) 0
  | .fin x _ _, .inf y => ⟨f.sign (x != y), 0⟩
  | .fin x m1 e1, .fin y m2 e2 =>
    if m2 == 0 then (if m1 == 0 then f.mkNan fIV else f.mkInf (x != y) fDZ)
    else if m1 == 0 then ⟨f.sign (x != y), 0⟩
    else
      let (q, k) := divJam m1 m2 (f.mw + 4)
      f.round rm ov (x != y) q (k + e1 - e2)

/-- Integer square root by binary digits from bit `fuel` down. -/
def isqrtGo (n : Nat) : Nat → Nat → Nat
  | 0, r => r
  | k + 1, r =>
    let t := r + 2 ^ k
    isqrtGo n k (if t * t ≤ n then t else r)

def isqrt (n : Nat) : Nat := isqrtGo n (bitLen n / 2 + 1) 0

/-- √(m × 2^e), m > 0, as a dyadic with the remainder kept as one low bit. -/
def sqrtJam (m : Nat) (e : Int) (bits : Nat) : Nat × Int :=
  let k := 2 * bits + (if e % 2 == 0 then 0 else 1)
  let n := m * 2 ^ k
  let r := isqrt n
  (2 * r + (if r * r == n then 0 else 1), (e - k) / 2 - 1)

def Fmt.sqrt (f : Fmt) (rm : RM) (a : FVal) : FR :=
  match a with
  | .nan s => f.mkNan (if s then fIV else 0)
  | .inf true => f.mkNan fIV
  | .inf false => f.mkInf false 0
  | .fin n m e =>
    if m == 0 then ⟨f.sign n, 0⟩
    else if n then f.mkNan fIV
    else
      let (r, k) := sqrtJam m e (f.mw + 4)
      f.round rm .ieee false r k

/-- a × 2^n in one rounding (R129). Beyond ±1000 the result no longer depends on n. -/
def Fmt.scale (f : Fmt) (rm : RM) (ov : Over) (a : Nat) (n : Int) : FR :=
  match f.val a with
  | .nan s => f.mkNan (if s then fIV else 0)
  | .inf _ => ⟨a, 0⟩
  | .fin neg m e =>
    if m == 0 then ⟨a, 0⟩
    else
      let n := max (-1000) (min 1000 n)
      f.round rm ov neg m (e + n)

/-- Rounding to an integral value; NX is never raised (R130). -/
def Fmt.rint (f : Fmt) (rm : RM) (a : Nat) : FR :=
  match f.val a with
  | .nan s => f.mkNan (if s then fIV else 0)
  | .inf _ => ⟨a, 0⟩
  | .fin neg m e =>
    if m == 0 || e ≥ 0 then ⟨a, 0⟩
    else
      let (q, _) := quant rm neg m e 0
      ⟨(f.round rm .ieee neg q 0).bits, 0⟩

/-- FCLASS's bit number (R128). -/
def Fmt.classOf (f : Fmt) (a : Nat) : Nat :=
  match f.val a with
  | .nan s => if s then 8 else 9
  | .inf n => if n then 0 else 7
  | .fin n m _ =>
    let norm := decide (m ≥ 2 ^ f.mw)
    if m == 0 then (if n then 3 else 4)
    else if norm then (if n then 1 else 6)
    else (if n then 2 else 5)

/-! ### FP32 helpers of R9, on 32-bit codes -/

def f32v (x : Word) : FVal := Fmt.f32.val x.toNat
def FR.word (r : FR) : Word := BitVec.ofNat 32 r.bits

/-- A result that no operation of R105 has touched: a NaN is the canonical one here too (R107). -/
def Fmt.canonNan (f : Fmt) (x : Nat) : Nat := if (f.val x).isNan then f.nan else x
def canonNan (x : Word) : Word := BitVec.ofNat 32 (Fmt.f32.canonNan x.toNat)

/-- RN(a + b), RN(a · b), RN(fma(a, b, c)) in FP32 (R9). -/
def rnAdd (a b : Word) : Word × Flags := let r := Fmt.f32.add .rne .ieee (f32v a) (f32v b); (r.word, r.fl)
def rnMul (a b : Word) : Word × Flags := let r := Fmt.f32.mul .rne .ieee false (f32v a) (f32v b); (r.word, r.fl)
def rnFma (a b c : Word) : Word × Flags :=
  let r := Fmt.f32.fma .rne .ieee false (f32v a) (f32v b) (f32v c); (r.word, r.fl)

def f32Inf (neg : Bool) : Word := BitVec.ofNat 32 (Fmt.f32.sign neg + Fmt.f32.infc)
def f32Zero (neg : Bool) : Word := BitVec.ofNat 32 (Fmt.f32.sign neg)
def negW (x : Word) : Word := x ^^^ 0x8000_0000

/-- x − s of two finite values, exactly, and then RN: the code of the error term and whether it was rounded. A zero is +0
when the difference is zero, else keeps its sign (R120, R121). -/
def errTerm (n : Bool) (m : Nat) (e : Int) (s : Word) : Word × Bool :=
  match f32v s with
  | .fin ns ms es =>
    let (nd, md, ed) := addFin .rne n m e (!ns) ms es
    if md == 0 then (0, false)
    else
      let r := Fmt.f32.roundNZ .rne .ieee nd md ed
      (r.word, decide (r.fl &&& fNX ≠ 0))
  | _ => (0, false)

/-- TwoSum (R120). -/
def twoSum (a b : Word) : Word × Word × Flags :=
  let (s, fl) := rnAdd a b
  match f32v s with
  | .nan _ => (s, 0, fl)
  | .inf n => (s, f32Zero n, if (f32v a).isFin && (f32v b).isFin then fl ||| fXO else fl)
  | .fin .. =>
    match f32v a, f32v b with
    | .fin n1 m1 e1, .fin n2 m2 e2 =>
      let (n, m, e) := addFin .rne n1 m1 e1 n2 m2 e2
      (s, (errTerm n m e s).1, fl)
    | _, _ => (s, 0, fl)

/-- TwoProd (R121). -/
def twoProd (a b : Word) : Word × Word × Flags :=
  let (s, fl) := rnMul a b
  match f32v s with
  | .nan _ => (s, 0, fl)
  | .inf n => (s, f32Zero n, if (f32v a).isFin && (f32v b).isFin then fl ||| fXO else fl)
  | .fin .. =>
    match mulVal (f32v a) (f32v b) with
    | (.fin n m e, _) =>
      let (e', lost) := errTerm n m e s
      (s, e', if lost then fl ||| fXU else fl)
    | _ => (s, 0, fl)

/-- The class 0x3 step lists (R135–R138): a pair and the union of the bits every step raises (R122). -/
def dwAdd (xh xl yh yl : Word) : Word × Word × Flags :=
  let (sh, sl, f1) := twoSum xh yh
  let (th, tl, f2) := twoSum xl yl
  let (c, f3) := rnAdd sl th
  let (vh, vl, f4) := twoSum sh c
  let (w, f5) := rnAdd tl vl
  let (h, l, f6) := twoSum vh w
  (h, l, f1 ||| f2 ||| f3 ||| f4 ||| f5 ||| f6)

def dwMul (xh xl yh yl : Word) : Word × Word × Flags :=
  let (ch, c1, f1) := twoProd xh yh
  let (t0, f2) := rnMul xl yl
  let (t1, f3) := rnFma xh yl t0
  let (c2, f4) := rnFma xl yh t1
  let (c3, f5) := rnAdd c1 c2
  let (h, l, f6) := twoSum ch c3
  (h, l, f1 ||| f2 ||| f3 ||| f4 ||| f5 ||| f6)

def dwAddF (xh xl y : Word) : Word × Word × Flags :=
  let (sh, sl, f1) := twoSum xh y
  let (v, f2) := rnAdd xl sl
  let (h, l, f3) := twoSum sh v
  (h, l, f1 ||| f2 ||| f3)

def dwMulF (xh xl y : Word) : Word × Word × Flags :=
  let (ch, c1, f1) := twoProd xh y
  let (c3, f2) := rnFma xl y c1
  let (h, l, f3) := twoSum ch c3
  (h, l, f1 ||| f2 ||| f3)

/-- V of a pair (R139). -/
def dwVal (h l : Word) : FVal :=
  match f32v h, f32v l with
  | .nan _, _ => .nan false
  | _, .nan _ => .nan false
  | .inf a, .inf b => if a == b then .inf a else .nan false
  | .inf a, _ => .inf a
  | _, .inf b => .inf b
  | .fin n1 m1 e1, .fin n2 m2 e2 => let (n, m, e) := addFin .rne n1 m1 e1 n2 m2 e2; .fin n m e

/-- CVTDW by the steps of R140, also where they leave a pair that R119 does not call normalised (DEDUCED, log entry 80). -/
def cvtDW (d : DWord) : Word × Word × Flags :=
  let x := Fmt.f64.val d.toNat
  let r := Fmt.f32.put .rne .ieee x (sigFl [x])
  let hi := r.word
  match f32v hi, x with
  | .nan _, _ => (hi, 0, r.fl)
  | .inf n, _ => (hi, f32Zero n, if x.isFin then r.fl ||| fXO else r.fl)
  | .fin nh mh eh, .fin n m e =>
    let (nd, md, ed) := addFin .rne n m e (!nh) mh eh
    let q := Fmt.f32.round .rne .ieee nd md ed
    (hi, q.word, r.fl ||| q.fl)
  | _, _ => (hi, 0, r.fl)

/-- CVTWD (R140). -/
def cvtWD (h l : Word) : DWord × Flags :=
  match dwVal h l with
  | .nan _ =>
    let opp := (f32v h).isInf && (f32v l).isInf
    (BitVec.ofNat 64 Fmt.f64.nan, if opp then fIV else sigFl [f32v h, f32v l])
  | v => let r := Fmt.f64.put .rne .ieee v 0; (BitVec.ofNat 64 r.bits, r.fl)

/-! ### Element formats and format slots (R100, R110–R113) -/

/-- ELEM codes 0–11 (R112). -/
inductive Elem where
  | flt (f : Fmt)
  | int (w : Nat) (signed : Bool)
  | tern
  deriving DecidableEq, Repr

def Elem.ofCode : Nat → Option Elem
  | 0 => some (.flt .f32)
  | 1 => some (.flt .f16)
  | 2 => some (.flt .bf16)
  | 3 => some (.flt .e4m3)
  | 4 => some (.flt .e5m2)
  | 5 => some (.flt .e3m2)
  | 6 => some (.flt .e2m3)
  | 7 => some (.flt .e2m1)
  | 8 => some (.int 8 true)
  | 9 => some (.int 8 false)
  | 10 => some (.int 4 true)
  | 11 => some .tern
  | _ => none

def Elem.width : Elem → Nat
  | .flt f => f.ew + f.mw + 1
  | .int w _ => w
  | .tern => 2

/-- The named fields of a format slot word (R112). -/
structure Slot where
  elem : Elem
  code : Nat
  scale : Nat
  block : Nat
  sat : Bool
  round : RM
  deriving DecidableEq, Repr

def RM.ofCode : Nat → RM
  | 0 => .rne
  | 1 => .rz
  | 2 => .ru
  | _ => .rd

/-- A slot word that keeps the rules of R112 and the first two of R113; none faults with 0x0D at use. -/
def Slot.ofWord (w : Word) : Option Slot :=
  let n := w.toNat
  let ec := n % 16
  let sc := n / 16 % 4
  let bl := n / 64 % 4
  if n / 2048 ≠ 0 ∨ bl = 3 ∨ sc = 3 then none
  else
    match Elem.ofCode ec with
    | none => none
    | some el =>
      if (sc ≠ 0 ∧ (ec ≤ 2 ∨ ec ≥ 8)) ∨ (bl ≠ 0 ∧ sc = 0) then none
      else some ⟨el, ec, sc, 16 * 2 ^ bl, n / 256 % 2 == 1, RM.ofCode (n / 512 % 4)⟩

/-- Conversion of a value into a floating element format (R110). -/
def Fmt.conv (f : Fmt) (rm : RM) (sat : Bool) (x : FVal) : FR :=
  match x with
  | .nan s => f.mkNan (if f.sp == .none then fIV else if s then fIV else 0)
  | .inf n =>
    if sat then ⟨f.sign n + f.maxc, 0⟩
    else
      match f.sp with
      | .ieee => f.mkInf n 0
      | .e4m3 => f.mkNan fIV
      | .none => ⟨f.sign n + f.maxc, fIV⟩
  | .fin n m e => f.round rm (if sat then .sat else .ieee) n m e

/-- Conversion into an integer range (R111): the integer and the bits raised. -/
def convInt (lo hi : Int) (rm : RM) (x : FVal) : Int × Flags :=
  match x with
  | .nan _ => (0, fIV)
  | .inf n => (if n then lo else hi, fIV)
  | .fin n m e =>
    let e := max (-4000) (min 4000 e)
    let (q, inex) := quant rm n m e 0
    let i : Int := if n then -(q : Int) else q
    let nx := if inex then fNX else 0
    if i < lo then (lo, nx ||| fIV) else if i > hi then (hi, nx ||| fIV) else (i, nx)

/-- An integer as a w-bit two's complement code. -/
def codeOf (w : Nat) (i : Int) : Nat := (i % (2 ^ w : Nat)).toNat

/-- Any value into an element format. -/
def Elem.conv (el : Elem) (rm : RM) (sat : Bool) (x : FVal) : FR :=
  match el with
  | .flt f => f.conv rm sat x
  | .int w true => let (i, fl) := convInt (-(2 ^ (w - 1) : Nat)) ((2 ^ (w - 1) : Nat) - 1) rm x; ⟨codeOf w i, fl⟩
  | .int w false => let (i, fl) := convInt 0 ((2 ^ w : Nat) - 1) rm x; ⟨codeOf w i, fl⟩
  | .tern => let (i, fl) := convInt (-1) 1 rm x; ⟨codeOf 2 i, fl⟩

/-- A w-bit code read as signed. -/
def sext (w : Nat) (c : Nat) : Int := if c / 2 ^ (w - 1) % 2 == 1 then (c : Int) - (2 ^ w : Nat) else c

def intVal (i : Int) : FVal := .fin (decide (i < 0)) i.natAbs 0

/-- The value of an element code (R97–R100); the second component is the ternary code 0b10, which reads as 0. -/
def Elem.val (el : Elem) (c : Nat) : FVal × Bool :=
  match el with
  | .flt f => (f.val c, false)
  | .int w s => (intVal (if s then sext w c else c), false)
  | .tern => if c == 2 then (.fin false 0 0, true) else (intVal (sext 2 c), false)

/-- The value of a scale code (R102): format 1 is E8M0, 2 is positive E4M3. -/
def scaleVal (fmt c : Nat) : FVal :=
  if fmt == 1 then (if c == 255 then .nan false else .fin false 1 ((c : Int) - 127))
  else if c ≥ 127 then .nan false else Fmt.e4m3.val c

/-! ### CVTS (R148) -/

/-- Does m × 2^e fit under M × s? -/
def fits (m : Nat) (e : Int) (big : FVal) (sc : FVal) : Bool :=
  match mulVal big sc with
  | (.fin _ m2 e2, _) => let t := min e e2; decide (scaleTo false m e t ≤ scaleTo false m2 e2 t)
  | _ => false

/-- The least code from `c` on, `fuel` codes, whose scale fits. -/
def leastScale (fmt : Nat) (m : Nat) (e : Int) (big : FVal) : Nat → Nat → Option Nat
  | 0, _ => none
  | fuel + 1, c => if fits m e big (scaleVal fmt c) then some c else leastScale fmt m e big fuel (c + 1)

def cvtS (fmt : Nat) (f : Fmt) (a : Word) : Nat × Flags :=
  let e8 := fmt == 1
  match f32v a with
  | .nan s => (if e8 then 0xFF else 0x7F, if s then fIV else 0)
  | .inf _ => (if e8 then 0xFE else 0x7E, fOF)
  | .fin _ m e =>
    match leastScale fmt m e (f.val f.maxc) (if e8 then 255 else 126) (if e8 then 0 else 1) with
    | some c => (c, 0)
    | none => (if e8 then 0xFE else 0x7E, fOF)

end Sys2Proof.Machine
end

