-- ==== Sys2Proof/Machine/Flags.lean ====
section
/-!
DEFINITION. Flags and conditions: trap tests on FPST bits (R114, R116), the selectors of ICMP, WAITA and PLOP, clamps of the
integer forms (R163–R168, R179, R259).
-/
namespace Sys2Proof.Machine

/-- Does an instruction that raised these bits fault with 0x1F under these enables? (R116) -/
def fpTraps (enables raised : Flags) : Bool := (enables &&& raised) != 0

/-- ICMP's selectors (R168). -/
def condI (cc : Nat) (signed : Bool) (a b : Word) : Bool :=
  match cc with
  | 0 => a == b
  | 1 => a != b
  | 2 => if signed then a.slt b else a.ult b
  | 3 => if signed then a.sle b else a.ule b
  | 4 => if signed then b.slt a else b.ult a
  | 5 => if signed then b.sle a else b.ule a
  | 6 => (a &&& b) != 0
  | _ => (a &&& b) == 0

/-- WAITA's conditions on w-bit values (R259). -/
def condW {w : Nat} (cc : Nat) (x b : BitVec w) : Bool :=
  match cc with
  | 0 => x == b
  | 1 => x != b
  | 2 => b.ule x
  | 3 => x.ult b
  | 4 => b.sle x
  | 5 => x.slt b
  | 6 => (x &&& b) != 0
  | _ => (x &&& b) == 0

/-- PLOP's functions (R179). -/
def plopFn (fn : Nat) (a b : Bool) : Bool :=
  match fn with
  | 0 => a && b
  | 1 => a || b
  | 2 => a != b
  | 3 => a && !b
  | 4 => a || !b
  | 5 => !(a && b)
  | 6 => !(a || b)
  | _ => a == b

/-- The range of a w-bit type (R164's Clamp). -/
def loOfTy (w : Nat) (signed : Bool) : Int := if signed then -(2 ^ (w - 1) : Nat) else 0
def hiOfTy (w : Nat) (signed : Bool) : Int := if signed then (2 ^ (w - 1) : Nat) - 1 else (2 ^ w : Nat) - 1
def clampTo (w : Nat) (signed : Bool) (x : Int) : Int := max (loOfTy w signed) (min (hiOfTy w signed) x)

/-- An exact result as a w-bit code, clamped or wrapped (R163). -/
def placeInt (w : Nat) (signed sat : Bool) (x : Int) : BitVec w :=
  BitVec.ofInt w (if sat then clampTo w signed x else x)

end Sys2Proof.Machine
end

