-- ==== Sys2Proof/Config.lean ====
section
/-!
DEFINITION. What one 940 fixes (numbers the spec gives the part) and the free values (constants with no body: values the
spec leaves open, of which nothing can be proved).
-/
namespace Sys2Proof.Config

/-- Cores of a compute die and of the package (R2, R5). -/
def coresPerDie : Nat := 40
def cores : Nat := 320
def dies : Nat := 8
/-- Warp slots of a core, 16 in each of 4 quadrants (R12). -/
def warpSlots : Nat := 64
def warpsPerQuadrant : Nat := 16
/-- Teams a core may hold (R10). -/
def teamSlots : Nat := 16
/-- Cells of one register set for one quad index (R22), lines of one cache set (R14). -/
def cellsPerSet : Nat := 256
def linesPerSet : Nat := 64
/-- Bytes of one Plate set: 256 rows of 128 B (R14). -/
def setBytes : Nat := 32768
/-- Bins (R310), armed barrier objects (R253), copy commands (R12) of a core. -/
def bins : Nat := 64
def barrierObjects : Nat := 64
def copyCommands : Nat := 32
/-- Largest queue of launches (R293), queues of a context (R293), contexts (R345). -/
def queueDepth : Nat := 256
def queues : Nat := 8
def contexts : Nat := 64
/-- Kernels in a die's entry cache (R296). -/
def entryCache : Nat := 64
/-- Graver contexts (R272), Graver local scratch in bytes (R78). -/
def gravers : Nat := 8192
def graverLocal : Nat := 16384
/-- Lines of 512 B that a die's 96 MiB of L2 hold (R2, R212), and bytes of the flash (R2). -/
def l2Lines : Nat := 196608
def flashBytes : Nat := 67108864
/-- Misses that a die's miss table holds (R351). -/
def missEntries : Nat := 4096
/-- Completed units the coordinator remembers (R341). -/
def unitsKept : Nat := 4096
/-- Free audit records below which commands that log are refused (R367); records of the recovery buffer (R368). -/
def auditReserve : Nat := 256
def recoveryRecords : Nat := 256
/-- Records the audit ring holds. DESIGN CHOICE (log entry 12): the size is fixed at boot and the spec gives no number. -/
def auditRecords : Nat := 1048576
/-- Physical base of the audit region and of its checkpoint ring. DESIGN CHOICE (log entry 12). -/
def auditBase : Nat := 0x00F0_0000_0000
def ckptBase : Nat := 0x00F4_0000_0000
/-- Physical base of the page tables, 256 MiB for each context. DESIGN CHOICE (log entry 48): boot places the page-table region
(R409) and the spec gives no address. -/
def tableBase : Nat := 0x00F8_0000_0000
def tableSpan : Nat := 0x1000_0000
/-- First physical address that firmware keeps for tables, save areas, audit log and impression, up to the end of HBM4E.
DESIGN CHOICE (log entry 12): the spec says such memory exists and is never granted, not where it lies. -/
def firmwareBase : Nat := 0x00F0_0000_0000
def firmwareEnd : Nat := 0x0100_0000_0000
/-- Size of the audit region, checkpoint ring included. DESIGN CHOICE (log entry 12). -/
def auditSize : Nat := 0x8_0000_0000
/-- The impression region, below firmware's memory (R403, R413). DESIGN CHOICE (log entry 12). -/
def impressionBase : Nat := 0x00EF_FFFF_0000
/-- Size of the impression region: one 64 KiB unit. DESIGN CHOICE (log entry 12). -/
def impressionSize : Nat := 0x1_0000
/-- Core cycles of one microsecond at the nominal 4.0 GHz clock (R5). -/
def cyclesPerUs : Nat := 4000

/-- Free values. The attestation key pair's signature (R363, R366) over a digest, by draw number: ECDSA chooses it at random. -/
opaque signature : Nat → BitVec 256 → BitVec 512
/-- The attestation certificate (R363), as DER bytes, by the digest of M0 to M4. -/
opaque certificate : BitVec 256 → List (BitVec 8)
/-- A word the spec gives no value for, by draw number: what PRDV reads of a spilled name whose slot fails its check (R389). -/
opaque freeWord : Nat → BitVec 32
/-- What SREAD in a proof slot reads at a register that the spec gives a launch, a team or a thread of one (R373, R386), by
register number. -/
opaque proofReg : Nat → BitVec 32
/-- The status of a command that a 940 in recovery mode does not accept (R362), by command code. -/
opaque recoveryStatus : Nat → Nat
/-- The bytes of a section of the impression (R404), by section type, of the numbers that the section reports: the spec gives the
contents of types 2 to 5 and no layout. -/
opaque impressionLayout : Nat → List (List Nat) → List (BitVec 8)
/-- The fatal code of an internal cause (R404), less 0x80, by cause. -/
opaque internalCode : Nat → BitVec 7
/-- The time a release took, in ns (R365 event 0x0011). -/
opaque releaseTime : Nat → BitVec 64

end Sys2Proof.Config
end

