-- ==== Sys2Proof/Machine/State.lean ====
section
/-!
DEFINITION. The state of one Itduvis 940 as plain data, its reasons to stop, and the state after reset.
Every structure below names the rules of spec/ that give the machine that piece of state (INVENTORY.md lists them all).
-/
namespace Sys2Proof.Machine

/-- Bytes by address, in one canonical form: addresses strictly rising and no entry equal to 0, which is what an unlisted
address reads as (log entry 3). Used for physical memory, scratch, tile bytes, Graver local scratch, Burin areas. -/
abbrev Memory := List Host.Cell

/-- Which AES key a key slot holds (R354): the n-th that Lemermay drew, or one imported in a session from wrapped bytes. -/
inductive KeyRef where
  | drawn (n : Nat)
  | imported (session : Nat) (wrapped : BitVec 320)
  deriving DecidableEq, Repr

/-- The four kinds of page (R208). -/
inductive Kind where
  | normal | bs | pw | device
  deriving DecidableEq, Repr

/-- A checked access's physical address, the kind of its page, the key its page names. -/
structure Phys where
  pa : Nat
  kind : Kind
  key : KeyRef
  deriving DecidableEq, Repr

/-- A switch address group (R289). -/
structure SwGroup where
  mask : BitVec 8
  dies : List Nat
  bases : List DWord
  deriving DecidableEq, Repr

/-- Plain association list. -/
abbrev Tab (κ α : Type) := List (κ × α)

/-! ### Names, cells, outstanding instructions (R22–R30, R41, R45) -/

/-- What a v or g name denotes: a stack position, or one of eight fixed global positions (R23). -/
inductive Pos where
  | v (p : Nat)
  | g (k : Nat)
  deriving DecidableEq, Repr

/-- One lane of a cell: its value, its release bit, and, while a producer is outstanding, that producer's number with the
value the name held before it issued (none: void), which an early read takes (R24, R45). -/
structure LaneCell where
  val : Word
  rel : Bool
  pend : Option (Nat × Option Word)
  deriving DecidableEq, Repr

/-- A cell: four lanes of one quad (R22). `spilled`: the name lives in its name-spill slots (R29, R30); `poison`: its row has an
uncorrectable error (R402); `set`: the register set that holds it (R22, R315). -/
structure Cell where
  l0 : LaneCell
  l1 : LaneCell
  l2 : LaneCell
  l3 : LaneCell
  spilled : Bool
  poison : Bool
  set : Nat
  deriving DecidableEq, Repr

/-- Key of a cell: core, warp slot, quad index, position (R23). -/
structure CellKey where
  core : Nat
  slot : Nat
  quad : Nat
  pos : Pos
  deriving DecidableEq, Repr

/-- A fault record (R380). `ext` is what a bitmap longer than 128 bits adds (R382). -/
structure FRec where
  code : Nat
  level : Nat
  engine : Nat
  flags : Nat
  ctx : Nat
  launch : DWord
  team : Word
  thread : Word
  pc : DWord
  addr : DWord
  progress : BitVec 128
  time : DWord
  ext : List Bool
  deriving DecidableEq, Repr

/-- Issue pipes (R59); NOP uses none. -/
inductive Pipe where
  | int | fma | xl | sfu | mem | ctl | none
  deriving DecidableEq, Repr

/-- What an outstanding instruction has still to hear from a die, in case that die is lost: a reply with its data (R378, R399),
or the acknowledgement of a switch member's store (R291). -/
inductive Await where
  | reply (die : Nat) (addr : DWord)
  | ack (die member : Nat) (addr : DWord)
  deriving DecidableEq, Repr

/-- What an outstanding instruction has still to do at memory before its results are fixed: the read of a plain load or the write of a
plain store that is performed only now (R239), by address, width and value; the reads of an MLDRED, with the members left, the sum so
far, whether none has been read, and the absent members (R290, R426); the stores of an MSTMC, with the members left and the absent
ones, and then its record (R291, R425). -/
inductive Todo where
  | load (p : Phys) (va : DWord) (ty : MTy) (bp ro : Bool)
  | store (p : Phys) (va : DWord) (n v : Nat) (bp : Bool)
  | reduce (g : SwGroup) (b : Nat) (left : List Nat) (sum : Word) (first : Bool) (absent : List Nat)
  | multi (g : SwGroup) (b w v : Nat) (left absent : List Nat)
  deriving DecidableEq, Repr

/-- An instruction that has issued in a lane and not completed (R41): its number and its slot's PC, the cycle its results become
readable (for a variable-latency form, the earliest cycle), the latest cycle it completes in where R59 bounds it, whether
something else completes it (a wait, a copy, a queued tile form), its flag, the names it will write with their values, the store
stream that its D names with the value that goes there at completion, where it has not gone there at issue, the fault its data raised
(R378), the dies it still waits for, what it has still to do at memory, and whether it ends with an acquire (R245). -/
structure Out where
  seq : Nat
  pc : DWord
  ready : Nat
  last : Option Nat
  held : Bool
  flag : Option (Fin 12)
  names : List (Pos × Word)
  push : Option (Fin 4)
  value : Word
  preds : List (Fin 8 × Bool)
  fpst : BitVec 7
  late : Option FRec
  awaits : List Await
  todo : Option Todo
  acq : Bool
  tile : Bool
  deriving DecidableEq, Repr

/-- A stream walker (R267–R270): its descriptor, the next element to fetch and to pop or push, elements fetched and not
popped (a value or the code that faulted), elements pushed and not performed (address, value, and the outstanding instruction that
has still to give the value), end-of-dimension bits. -/
structure Walker where
  base : DWord
  ty : MTy
  bp : Bool
  counts : List Nat
  strides : List Word
  next : Nat
  fetched : List (Word × Nat)
  pushed : List (DWord × Word × Option Nat)
  eod : BitVec 3
  deriving DecidableEq, Repr

/-- A barrier object: the team whose scratch holds it and its byte offset there (R253). -/
structure BarKey where
  ctx : Nat
  launch : Nat
  team : Nat
  off : Nat
  deriving DecidableEq, Repr

/-- A thread's last arrival on a barrier object: pending in a phase, or how that phase ended (R256). -/
inductive Arrival where
  | pending (phase : Nat)
  | ended (completed : Bool)
  deriving DecidableEq, Repr

/-- What a waiting thread waits for; `seq` is the outstanding instruction that completes when the wait ends. A WAITA keeps the bytes
that its word's sector had at its home when it was read, and the cycle in which it reads again at the latest (R259). -/
inductive Wait where
  | waita (seq : Nat) (cc : Fin 8) (wide : Bool) (addr : DWord) (cmp : DWord) (limit : Option Nat)
      (seen : BitVec 512) (next : Nat)
  | barrier (seq : Nat) (obj : BarKey) (wide : Bool) (p : Fin 8) (limit : Option Nat)
  | tbar (seq : Nat)
  | gbar (seq : Nat)
  | join (seq : Nat) (id : DWord)
  | spawn (seq : Nat) (record : List Byte) (addr : DWord)
  deriving DecidableEq, Repr

/-- Where a thread stands (R310, R313, R337, R377, R336). -/
inductive Status where
  | running
  | inBin
  | inWarpBin
  | waiting (w : Wait)
  | yielded
  | stopped
  | exited
  deriving DecidableEq, Repr

/-- A thread (R21, R42, R325). `hold`: the outstanding instruction whose completion its fetch waits for (R117). `entered`: its
slot was entered by a control transfer (R43). `spillBad`: a name-spill write that failed its checks, code and slot address
(R430). `stoppedAt`: the cycle in which it stopped (R386). `packet`: the packet it is in, as it was fetched (R48). -/
structure Thread where
  ctx : Nat
  launch : Nat
  team : Nat
  tix : Nat
  gtid : Nat
  status : Status
  pc : DWord
  fb : Nat
  lo : Nat
  nrec : Nat
  wtop : Nat
  links : List DWord
  preds : BitVec 7
  predPend : Tab (Fin 8) Nat
  lcs : Word × Word × Word
  fpst : BitVec 7
  voidSt : Bool
  lastIssue : Option Nat
  hold : Option Nat
  entered : Bool
  outs : List Out
  fixedNames : Tab Pos LaneCell
  loads : Tab Nat Walker
  stores : Tab Nat Walker
  arrivals : Tab BarKey Arrival
  deferred : Option FRec
  spillBad : Option (Nat × DWord)
  stoppedAt : Nat
  act : Bool
  pcWritten : Bool
  stop : Option FRec
  stopMates : Nat
  sel : Option Tid
  packet : Option (DWord × BitVec 256)
  deriving DecidableEq, Repr

/-- An issue group (R310–R314): its threads in slot order, its quadrant, whether a warp bin released it as warp-whole
(R313), whether its next slot may not chain (R43), since when it has been ready, the 256-cycle promotion, the cycle of its last
slot that had the yield hint, the cycle in which its next slot was last found stalled, the cycle in which its next slot began a
read over two cycles (R315), the groups of its warp that a warp bin releases after this one has issued (R313). -/
structure Group where
  mem : List Tid
  quadrant : Nat
  whole : Bool
  fresh : Bool
  readyAt : Option Nat
  promoted : Bool
  yld : Option Nat
  stalled : Option Nat
  reading : Option Nat
  rest : List (List Tid)
  deriving DecidableEq, Repr

/-- The slot that is being issued: its group. -/
structure Issue where
  grp : Group
  deriving DecidableEq, Repr

/-! ### Cores (R12, R14, R209, R253, R303–R317) -/

inductive Role where
  | register | scratch | cache | tile
  deriving DecidableEq, Repr

/-- One quad's threads filed in a bin together (R310). -/
structure BinEntry where
  slot : Nat
  quad : Nat
  fb : Nat
  mem : List Tid
  filed : Nat
  deriving DecidableEq, Repr

structure Bin where
  launch : Nat
  pc : DWord
  entries : List BinEntry
  deriving DecidableEq, Repr

/-- A 64 B sector of a cache line: valid bit, bytes, dirty bits (R209), and whether its row has an uncorrectable error (R402). -/
structure Sector where
  valid : Bool
  data : BitVec 512
  dirty : BitVec 64
  bad : Bool
  deriving DecidableEq, Repr

/-- A 512 B line: physical line number, context tag, the key its page names, read-only mark, eight sectors, the cache set that
holds it (R209). -/
structure Line where
  num : Nat
  ctx : Nat
  key : KeyRef
  ro : Bool
  secs : List Sector
  set : Nat
  deriving DecidableEq, Repr

/-- An armed barrier object; `cores` lists the core of each arrival of the phase, oldest first (R253, R317). -/
structure BarObj where
  key : BarKey
  trap : Bool
  count : Nat
  arrived : Nat
  phase : Nat
  cores : List Nat
  deriving DecidableEq, Repr

/-- A PLATE or distributor move in progress, or the last one (R305–R309): sets still to give, and what was asked. `issuer`
is the thread and instruction whose D waits for the end. -/
structure Move where
  from_ : Role
  to_ : Role
  given : List Nat
  used : List Nat
  total : Nat
  moved : Nat
  issuer : Option (Tid × Nat)
  deriving DecidableEq, Repr

/-- What a TLB caches: a leaf by context and virtual page (R351). -/
structure TlbEnt where
  ctx : Nat
  va : Nat
  size : Nat
  leaf : DWord
  deriving DecidableEq, Repr

/-- A core. `cycAcc` with `cycAt`: its cycles since it took the context, in units of 1/4000 of a cycle of R407's clock, up to a
cycle of `State.now` (R373). `badRows`: 64 B pieces of its scratch and tile sets with an uncorrectable error, by set and
piece (R402). `turn`: the quadrants that have chosen in that cycle, each with the register sets that its choice reads (R315). -/
structure Core where
  ctx : Nat
  since : Nat
  roles : List Role
  tile : Memory
  lines : List Line
  bins : Tab Nat Bin
  barriers : List BarObj
  stopList : List Tid
  proofOn : Bool
  clk : Nat
  clkNext : Option Nat
  cycAcc : Nat
  cycAt : Nat
  lastPhase : Nat
  scClock : Nat
  tlb : List TlbEnt
  lastAlloc : Nat
  stall : Option Nat
  move : Option Move
  lastMove : Option (Move × Nat)
  tileTurn : Nat
  badRows : List (Nat × Nat)
  turn : Nat × List (Nat × List Nat)
  deriving DecidableEq, Repr

/-- A resident team (R10, R299, R421, R373 TSTAT, R393). `start`: when it first started (R314); `resident`: when it last became
resident (R29); `saving`: a forced save has stopped its threads (R394). -/
structure Team where
  ctx : Nat
  launch : Nat
  lin : Nat
  warps : List Nat
  scratch : Memory
  map : List Nat
  brk : Bool
  preq : Option Nat
  start : Nat
  resident : Nat
  saving : Bool
  blocked : Option Nat
  deriving DecidableEq, Repr

/-! ### The matrix engine and the Burin (R182–R204) -/

/-- An accumulator: elements that are not zero by 64 × row + column, its status word's fields, the tag and armed state that
the queued forms will leave (R199), masks of MARM, steps done and S of the last MMA. -/
structure Acc where
  elems : Tab Nat Word
  sticky : BitVec 7
  tag : Bool
  armed : Bool
  complete : Bool
  tagNext : Bool
  expect : Word
  recv : Word
  applied : Word
  step : Nat
  steps : Nat
  armSeq : Option Nat
  deriving DecidableEq, Repr

/-- A tile descriptor's eight words (R184). -/
abbrev Desc := List Word

/-- A queued class 0xD form with what it captured at issue (R193, R198). -/
inductive TileOp where
  | mma (acc : Nat) (ta tb : Desc) (step : Nat)
  | mzero (acc : Nat) (s32 : Bool)
  | mldacc (acc : Nat) (s32 : Bool) (ta : Desc)
  | mdrain (acc : Nat) (raw z : Bool) (fs : Nat) (ta : Desc)
  | mdradd (acc : Nat) (raw : Bool) (fs : Nat) (rows cols : Nat) (core pacc idx : Nat) (pk : Nat)
  deriving DecidableEq, Repr

/-- A drain-add contribution that a peer accepted and has not applied (R203): its target accumulator with the MARM that armed
it, its index, the tag its header matched, whether its elements have been sent and those elements, and the sender's context, by its
number in the model, and instruction. -/
structure Contribution where
  acc : Nat
  arm : Option Nat
  idx : Nat
  tag : Bool
  sent : Bool
  elems : List (Nat × Word)
  sender : Nat
  seq : Nat
  deriving DecidableEq, Repr

structure Burin where
  id : Nat
  ctx : Nat
  launch : Nat
  desc : List Desc
  accs : List Acc
  queue : List (Nat × TileOp)
  inbox : List Contribution
  header : Option (Nat × TileOp)
  area : Memory
  saveReq : Bool
  deriving DecidableEq, Repr

/-! ### Engines, Gravers, collectives -/

/-- An outstanding copy command: captured fields, where it is, and whom it tells (R261–R264). -/
structure Copy where
  id : Nat
  core : Nat
  issuer : Tid
  tix : Nat
  seq : Nat
  ctx : Nat
  launch : Nat
  team : Nat
  blk : Word
  src : DWord
  dst : DWord
  esize : Nat
  flags : Nat
  counts : List Nat
  sstr : List Word
  dstr : List Word
  cval : Word
  caddr : DWord
  iter : List Nat
  rel : Bool
  done : Nat
  deriving DecidableEq, Repr

/-- A running GATTN sequence (R280–R282). -/
structure Gattn where
  id : Nat
  issuer : Tid
  tix : Nat
  seq : Nat
  ctx : Nat
  launch : Nat
  team : Nat
  bank : Nat
  table : DWord
  query : DWord
  record : DWord
  n : Nat
  dim : Nat
  tpg : Nat
  sigma : Word
  fp16 : Bool
  cont : Bool
  page : Nat
  m : Word
  l : Word
  o : List Word
  deriving DecidableEq, Repr

/-- A Graver context (R272–R275). `badRows`: 64 B pieces of its local scratch with an uncorrectable error (R402). -/
structure Graver where
  owner : Nat
  start : DWord
  state : Nat
  refused : Bool
  code : Nat
  cptr : DWord
  cval : Word
  mbox : List Word
  stack : DWord
  stackSz : Word
  local_ : Memory
  icache : List (DWord × BitVec 256)
  scClock : Nat
  began : Nat
  badRows : List Nat
  deriving DecidableEq, Repr

/-- A chunk of a bound collective on this node (R285–R288): which participants fired it, by which teams, the thread that fired
last (its core, team and tix), contributions from other nodes, its outcome. -/
structure Chunk where
  ctx : Nat
  launch : Nat
  bind : Nat
  coll : Nat
  chunk : Nat
  fired : List Nat
  teams : List Nat
  issuer : Option (Nat × Nat × Nat)
  remote : List (Nat × List (Nat × Word))
  done : Bool
  code : Nat
  flags : BitVec 7
  deriving DecidableEq, Repr

/-! ### Launches and contexts (R34, R297, R318, R345) -/

/-- A launch record's fields (R34). -/
structure LRec where
  entry : DWord
  burin : DWord
  gx : Nat
  gy : Nat
  gz : Nat
  threads : Nat
  gang : Nat
  qp : Nat
  flags : BitVec 16
  depth16 : Nat
  regMin : Nat
  tileMin : Nat
  cacheMin : Nat
  scratch : Nat
  stackBase : DWord
  stackBytes : Nat
  deadline : Nat
  fslots : List Word
  binds : List (BitVec 128)
  counter : DWord
  faultQ : DWord
  graph : Nat
  phase : Nat
  job : Nat
  ctx : Nat
  args : DWord
  argSize : Nat
  deriving DecidableEq, Repr

/-- A launch. `preds`: the units that its graph edges name (R294). `burinCores`: cores whose first team of it has started (R37).
`committing`: its gang is past the commit point (R301). `yieldTo`: the head for which its gang gave up its reservations (R302). -/
structure Launch where
  rcd : LRec
  next : Nat
  live : Nat
  ended : List Nat
  faults : Nat
  marked : Bool
  first : DWord
  cancelled : Bool
  killed : Bool
  severed : Option (List Nat)
  done : Option Nat
  reserve : List (Nat × Nat)
  ineligible : Option Nat
  preds : List DWord
  burinCores : List Nat
  committing : Bool
  yieldTo : Option (Nat × Nat)
  deriving DecidableEq, Repr

/-- A completed unit the coordinator remembers (R341, R342). -/
structure UnitDone where
  level : Nat
  id : Nat
  status : Nat
  faults : Nat
  first : DWord
  deriving DecidableEq, Repr

/-- Fault records reported for a graph, a phase or a job: their number and the first whose code is not 0x1C (R342). -/
structure UnitFaults where
  level : Nat
  id : Nat
  faults : Nat
  first : DWord
  deriving DecidableEq, Repr

/-- A context (R345). `owed`: cycles that cores have served it and that are not charged yet (R297). `table`: table entries by
physical address, from the table at `root` down; `nextTable` is where the next table goes (R348, R349). `counters`: the
completion counters of its open graphs, phases and jobs, by level and id (R318). -/
structure Ctx where
  sealed_ : Bool
  key : BitVec 512
  refill : Nat
  cap : Nat
  bcap : Nat
  age : Nat
  xthr : Nat
  bal : Int
  owed : Nat
  debt : Nat
  keys : List (Option KeyRef)
  granted : List (Nat × Nat)
  table : Tab Nat DWord
  root : Nat
  nextTable : Nat
  handler : DWord
  faultQ : DWord
  dropped : Nat
  queues : List (List Nat)
  nextLaunch : Nat
  doneUnits : List UnitDone
  unitFaults : List UnitFaults
  counters : Tab (Nat × Nat) DWord
  groups : Tab Nat SwGroup
  deriving DecidableEq, Repr

/-! ### Saved state (R395) -/

/-- A saved team; `since`: the cycle in which it was saved (R316); `broken`: barrier objects that a write to its saved scratch has broken,
and whose waiters learn of it when it resumes (R258); `bad`: 64 B pieces of its scratch with an uncorrectable error, by place in its map
and piece (R402). -/
structure SavedTeam where
  since : Nat
  team : Team
  burin : Option Nat
  threads : List (Nat × Nat × Thread)
  cells : List (Nat × Nat × Pos × Cell)
  barriers : List BarObj
  broken : List BarObj
  bad : List (Nat × Nat)
  deriving DecidableEq, Repr

/-- A saved Burin context with the tile bytes it covers, and the pieces of them with an uncorrectable error (R395, R402). -/
structure SavedBurin where
  thread : Thread
  burin : Burin
  tile : List (Nat × Byte)
  bad : List (Nat × Nat)
  deriving DecidableEq, Repr

/-! ### The package (R206–R215, R360–R376, R399–R413) -/

/-- A sector held by the home L2 (R212): physical sector number, bytes, dirty, the key its page names. -/
structure L2Sec where
  sec : Nat
  data : BitVec 512
  dirty : Bool
  key : KeyRef
  deriving DecidableEq, Repr

/-- A compute die. `ecc`: corrected errors that firmware has counted (R402); `replays`, `retrains`, `failed`: of its link (R399);
`miss`: the miss table, by context and 64 KiB page, with whether the die and whether its base dies asked (R351); `entry`: the
entry packets it holds, by context and physical address (R346). -/
structure Die where
  fenced : Bool
  ecc : Nat
  replays : Nat
  retrains : Nat
  failed : Nat
  ceiling : Nat
  skew : Nat
  l2 : List L2Sec
  tlb : List TlbEnt
  walk : List (Nat × Nat × Nat)
  miss : List (Nat × Nat × Bool × Bool)
  baseTlb : List TlbEnt
  entry : List (Nat × Nat)
  deriving DecidableEq, Repr

/-- An audit record (R364). -/
structure AuditRec where
  seq : Nat
  time : Nat
  event : Nat
  source : Nat
  ctx : Nat
  detail : DWord
  chain : BitVec 256
  deriving DecidableEq, Repr

structure Checkpoint where
  seq : Nat
  time : Nat
  chain : BitVec 256
  sig : BitVec 512
  deriving DecidableEq, Repr

/-- The audit log (R364–R368). `last`: the latest record, whether or not it has been freed. -/
structure Audit where
  placed : Bool
  ring : List AuditRec
  recovery : List AuditRec
  next : Nat
  last : Option AuditRec
  chain : BitVec 256
  ckpts : List Checkpoint
  sinceCkpt : Nat
  lastCkpt : Nat
  deriving DecidableEq, Repr

/-- The role of a session; `released`: its owner's context has been released (R370). -/
inductive SessRole where
  | admin
  | owner (ctx : Nat)
  | released
  deriving DecidableEq, Repr

/-- A message the device has sent (R370): a response or a notice, with its body as bytes. -/
structure Msg where
  session : Nat
  code : Nat
  status : Nat
  ctx : Nat
  number : DWord
  body : List Byte
  deriving DecidableEq, Repr

/-- A training record (R410), with the CRC-32C it was written with. -/
structure TrainRec where
  stack : Word
  seqNo : Word
  identity : DWord
  codes : List (BitVec 16)
  crc : Word
  deriving DecidableEq, Repr

inductive Mode where
  | off
  | ready
  | recovery
  | fatal (code : Nat)
  deriving DecidableEq, Repr

/-- A boot in progress (R408, R409): its kind, the links that it finds, the next of the seven steps, and in step 4 the stacks whose
new training records stand in flash but for their CRCs (R410). -/
structure Booting where
  cold : Bool
  links : List StackLink
  step : Nat
  writing : Option (List Nat)
  deriving DecidableEq, Repr

/-- The package. `flash`: the images that FWUPDATE wrote; `found`: those that the last reset found in flash (R2, R409). `secret`: the OTP
secret of the device identity key (R360). `updates`: digests of the updates applied since cold reset (R361). `links`: what each stack
link was last found to be (R404, R411). -/
structure Pkg where
  mode : Mode
  boot : Option Booting
  secret : BitVec 256
  updates : List (BitVec 256)
  links : List StackLink
  meas : List (BitVec 256)
  vendor1 : BitVec 256
  vendor2 : BitVec 256
  revoked2 : Bool
  admin : BitVec 256
  secVer : DWord
  upload : List Byte
  uploadImg : Nat
  flash : Tab Nat Image
  found : List Image
  audit : Audit
  sessions : Tab Nat SessRole
  outbox : List Msg
  impression : Option (List Byte)
  impFetched : Bool
  train : List (List TrainRec)
  node : Nat
  stepping : Nat
  serial : Nat
  deriving DecidableEq, Repr

/-- The whole machine. `agenda`, `issuing` and `ctr` are the model's own (log entries 1 and 2), and so is `delays`: which of the coming
plain loads and stores, MLDREDs and MSTMCs are performed only after they have issued (log entry 72). `pipes`: the first cycle in which an issue
agent's pipe accepts a new instruction (R59). `taken`: the cycle in which the coordinator last took a head (R294). `orphans`: the
MSTMCs of threads that have exited, which wait for acknowledgements (R336, R425). -/
structure State where
  agenda : List Instr
  issuing : Option Issue
  ctr : Nat
  delays : List Bool
  now : Nat
  pkg : Pkg
  mem : Memory
  sectorKeys : Tab Nat KeyRef
  poison : List Nat
  badCrc : List Nat
  notices : List (Nat × Nat)
  homeClocks : Tab Nat Nat
  dies : Tab Nat Die
  cores : Tab Nat Core
  teams : Tab (Nat × Nat) Team
  threads : Tab Tid Thread
  cells : Tab CellKey Cell
  groups : List Group
  pipes : Tab (Nat × Nat × Pipe) Nat
  burins : Tab (Nat × Nat) Burin
  gravers : Tab Nat Graver
  copies : List Copy
  gattns : List Gattn
  chunks : List Chunk
  ctxs : Tab Nat Ctx
  pool : Nat
  refills : Nat
  launches : Tab (Nat × Nat) Launch
  chosen : List (Nat × Nat)
  taken : Option Nat
  saved : List SavedTeam
  savedBurins : List SavedBurin
  orphans : List (Tid × Thread × Out)
  extents : List Nat
  deriving DecidableEq, Repr

/-- Why the machine may stop with a fault. The faults of R379 are no stops: the machine takes them (a stopped lane, a
record, the handler), and they are next states. -/
inductive Fault where
  /-- Raised by `step` when a fatal error has stopped the package and the agenda holds no reset: only a reset resumes
  service (R403). Safe: the hardware does nothing either. -/
  | packageStopped
  deriving DecidableEq, Repr

/-- Why an instruction may be refused. -/
inductive Refusal where
  /-- Raised by an arm of `exec` for an instruction that has no meaning yet. Safe: nothing is claimed of it. -/
  | notModelled (mnemonic : String)
  deriving DecidableEq, Repr

/-! ### Reset -/

def Audit.reset : Audit :=
  { placed := false, ring := [], recovery := [], next := 0, last := none, chain := 0, ckpts := [], sinceCkpt := 0, lastCkpt := 0 }

/-- The package after power-on, before boot (R361, R408). The OTP contents, flash and numbers are DESIGN CHOICES (log
entries 12 and 13). -/
def Pkg.reset : Pkg :=
  { mode := .off, boot := none, secret := 0, updates := [], links := [], meas := List.replicate 8 0,
    vendor1 := 0, vendor2 := 0, revoked2 := false, admin := 0, secVer := 0,
    upload := [], uploadImg := 0, flash := [], found := [], audit := Audit.reset, sessions := [], outbox := [], impression := none,
    impFetched := false, train := List.replicate 24 [], node := 0, stepping := 1, serial := 0 }

/-- The machine right after a cold reset, before boot has run: no context, no session, no team, nothing in flight
(R345, R408); the first default step runs the boot sequence (R409, log entry 4). -/
def State.reset : State :=
  { agenda := [], issuing := none, ctr := 0, delays := [], now := 0, pkg := Pkg.reset, mem := [], sectorKeys := [], poison := [], badCrc := [],
    notices := [], homeClocks := [], dies := [], cores := [], teams := [], threads := [], cells := [], groups := [],
    pipes := [], burins := [], gravers := [], copies := [], gattns := [], chunks := [], ctxs := [], pool := 0, refills := 0, launches := [],
    chosen := [], taken := none, saved := [], savedBurins := [], orphans := [], extents := [] }

end Sys2Proof.Machine
end

