-- ==== Sys2Proof/Machine/Access.lean ====
section
/-!
DEFINITION. Plain reads and updates of State: tables, the byte memory in its canonical form, threads, cores, contexts.
-/
namespace Sys2Proof.Machine

/-! ### Tables -/

namespace Tab
variable {κ α : Type} [DecidableEq κ]

def get : Tab κ α → κ → Option α
  | [], _ => none
  | (k, v) :: t, q => if k = q then some v else get t q

/-- Replaces the entry of a key in place, or adds one at the end. -/
def set : Tab κ α → κ → α → Tab κ α
  | [], q, x => [(q, x)]
  | (k, v) :: t, q, x => if k = q then (q, x) :: t else (k, v) :: set t q x

def del (t : Tab κ α) (q : κ) : Tab κ α := t.filter fun e => decide (e.1 ≠ q)

def has (t : Tab κ α) (q : κ) : Bool := (get t q).isSome

def getD (t : Tab κ α) (q : κ) (d : α) : α := (get t q).getD d

end Tab

/-! ### The byte memory -/

namespace Memory

/-- The canonical form: addresses strictly rising, no entry 0. -/
def wfFrom (lo : Nat) : Memory → Bool
  | [] => true
  | (a, b) :: m => decide (lo ≤ a) && b != 0 && wfFrom (a + 1) m

def wf (m : Memory) : Bool := wfFrom 0 m

/-- One byte; 0 where nothing is listed (log entry 3). -/
def get : Memory → Nat → Byte
  | [], _ => 0
  | (a, b) :: m, q => if a = q then b else get m q

/-- Writes one byte and keeps the canonical form. -/
def put : Memory → Nat → Byte → Memory
  | [], q, x => if x = 0 then [] else [(q, x)]
  | (a, b) :: m, q, x =>
    if a < q then (a, b) :: put m q x
    else if a = q then (if x = 0 then m else (q, x) :: m)
    else if x = 0 then (a, b) :: m
    else (q, x) :: (a, b) :: m

/-- n bytes from an address, as a little-endian number (R8). -/
def load (m : Memory) : Nat → Nat → Nat
  | _, 0 => 0
  | a, n + 1 => (get m a).toNat + 256 * load m (a + 1) n

/-- n bytes of a number from an address, little-endian. -/
def store (m : Memory) : Nat → Nat → Nat → Memory
  | _, 0, _ => m
  | a, n + 1, v => store (put m a (BitVec.ofNat 8 v)) (a + 1) n (v / 256)

/-- Zeros n bytes from an address on. -/
def clear (m : Memory) (a n : Nat) : Memory := m.filter fun c => decide (c.1 < a ∨ a + n ≤ c.1)

end Memory

/-! ### Bytes and numbers -/

/-- Bytes, lowest address first, as a number. -/
def natOf : List Byte → Nat
  | [] => 0
  | b :: bs => b.toNat + 256 * natOf bs

/-- n bytes of a number, lowest first. -/
def bytesOf : Nat → Nat → List Byte
  | 0, _ => []
  | n + 1, v => BitVec.ofNat 8 v :: bytesOf n (v / 256)

def bitAt (n i : Nat) : Bool := n / 2 ^ i % 2 == 1
/-- Bits hi:lo of a number. -/
def bits (n hi lo : Nat) : Nat := n / 2 ^ lo % 2 ^ (hi + 1 - lo)
def w32 (n : Nat) : Word := BitVec.ofNat 32 n
def w64 (n : Nat) : DWord := BitVec.ofNat 64 n
def orAll (l : List (BitVec 7)) : BitVec 7 := l.foldl (· ||| ·) 0
def ceilDiv (a b : Nat) : Nat := (a + b - 1) / b
/-- The number whose bit i is the i-th entry. -/
def natOfBits : List Bool → Nat
  | [] => 0
  | b :: bs => (if b then 1 else 0) + 2 * natOfBits bs

/-- Replaces entry i of a list, if there is one. -/
def setAt {α : Type} (l : List α) (i : Nat) (x : α) : List α := l.set i x

/-! ### Cores -/

/-- R303: the layout of a core that takes a context. -/
def startRoles : List Role :=
  List.replicate 16 .tile ++ List.replicate 16 .register ++ List.replicate 24 .scratch ++ List.replicate 8 .cache

/-- A core that serves no context (R346): what an unlisted core is. -/
def Core.free : Core :=
  { ctx := 0, since := 0, roles := startRoles, tile := [], lines := [], bins := [], barriers := [], stopList := [],
    proofOn := false, clk := 4000, clkNext := none, cycAcc := 0, cycAt := 0, lastPhase := 0, scClock := 0, tlb := [],
    lastAlloc := 0, stall := none, move := none, lastMove := none, tileTurn := 3, badRows := [], turn := (0, []) }

/-- A die after reset: what an unlisted die is. `skew` 2 is no skew (log entry 13). -/
def Die.reset : Die :=
  { fenced := false, ecc := 0, replays := 0, retrains := 0, failed := 0, ceiling := 4400, skew := 2, l2 := [], tlb := [], walk := [], miss := [],
    baseTlb := [], entry := [] }

/-- A Graver context that was never started (R273). -/
def Graver.idle : Graver :=
  { owner := 0, start := 0, state := 0, refused := false, code := 0, cptr := 0, cval := 0, mbox := List.replicate 8 0,
    stack := 0, stackSz := 0, local_ := [], icache := [], scClock := 0, began := 0, badRows := [] }

/-- An accumulator at its start value (R182, R191). -/
def Acc.zero : Acc :=
  { elems := [], sticky := 0, tag := false, armed := false, complete := false, tagNext := false, expect := 0, recv := 0,
    applied := 0, step := 0, steps := 0, armSeq := none }

namespace State

def core (s : State) (c : Nat) : Core := s.cores.getD c Core.free
def setCore (s : State) (c : Nat) (x : Core) : State := { s with cores := s.cores.set c x }
def modCore (s : State) (c : Nat) (f : Core → Core) : State := s.setCore c (f (s.core c))

def die (s : State) (d : Nat) : Die := s.dies.getD d Die.reset
def setDie (s : State) (d : Nat) (x : Die) : State := { s with dies := s.dies.set d x }
def modDie (s : State) (d : Nat) (f : Die → Die) : State := s.setDie d (f (s.die d))

def thread (s : State) (t : Tid) : Option Thread := s.threads.get t
def setThread (s : State) (t : Tid) (x : Thread) : State := { s with threads := s.threads.set t x }
/-- Changes a thread that exists. -/
def modThread (s : State) (t : Tid) (f : Thread → Thread) : State :=
  match s.thread t with
  | some th => s.setThread t (f th)
  | none => s

def ctx (s : State) (k : Nat) : Option Ctx := s.ctxs.get k
def setCtx (s : State) (k : Nat) (x : Ctx) : State := { s with ctxs := s.ctxs.set k x }
def modCtx (s : State) (k : Nat) (f : Ctx → Ctx) : State :=
  match s.ctx k with
  | some x => s.setCtx k (f x)
  | none => s

def launchOf (s : State) (c l : Nat) : Option Launch := s.launches.get (c, l)
def setLaunch (s : State) (c l : Nat) (x : Launch) : State := { s with launches := s.launches.set (c, l) x }
def modLaunch (s : State) (c l : Nat) (f : Launch → Launch) : State :=
  match s.launchOf c l with
  | some x => s.setLaunch c l (f x)
  | none => s

def burin (s : State) (c k : Nat) : Option Burin := s.burins.get (c, k)
def setBurin (s : State) (c k : Nat) (x : Burin) : State := { s with burins := s.burins.set (c, k) x }
def modBurin (s : State) (c k : Nat) (f : Burin → Burin) : State :=
  match s.burin c k with
  | some x => s.setBurin c k (f x)
  | none => s

def graver (s : State) (g : Nat) : Graver := s.gravers.getD g Graver.idle
def setGraver (s : State) (g : Nat) (x : Graver) : State := { s with gravers := s.gravers.set g x }
def modGraver (s : State) (g : Nat) (f : Graver → Graver) : State := s.setGraver g (f (s.graver g))

def setTeam (s : State) (k : Nat × Nat) (x : Team) : State := { s with teams := s.teams.set k x }
def modTeam (s : State) (k : Nat × Nat) (f : Team → Team) : State :=
  match s.teams.get k with
  | some x => s.setTeam k (f x)
  | none => s

/-- A fresh number: for outstanding instructions, engine operations and free values. -/
def fresh (s : State) : Nat × State := (s.ctr, { s with ctr := s.ctr + 1 })

/-- The CLK time at a die, in ns since the last cold reset, within 2 ns of the reference (R375). -/
def clkAt (s : State) (d : Nat) : Nat := s.now / 4 + (s.die d).skew - 2

end State

/-! ### Where a thread lives -/

end Sys2Proof.Machine

namespace Sys2Proof.Tid

/-- The core a thread uses for Plate accesses; none for a Graver thread. -/
def core? : Tid → Option Nat
  | .core c _ _ => some c
  | .proof c _ => some c
  | .burin c _ => some c
  | .graver _ _ => none

/-- Home lane (R11, R76, R77). -/
def lane : Tid → Nat
  | .core _ _ l => l
  | .proof _ l => l
  | .burin _ _ => 0
  | .graver _ x => x % 8

def quad (t : Tid) : Nat := t.lane / 4

/-- Slot order inside a group: quad slot, then lane. -/
def isGraver : Tid → Bool
  | .graver _ _ => true
  | _ => false
def isProof : Tid → Bool
  | .proof _ _ => true
  | _ => false
def isBurin : Tid → Bool
  | .burin _ _ => true
  | _ => false
def isCore : Tid → Bool
  | .core _ _ _ => true
  | _ => false

/-- Width of the warp: 8 lanes in a Graver (R77). -/
def width : Tid → Nat
  | .graver _ _ => 8
  | _ => 32

/-- The thread in lane j of the same warp. -/
def mate : Tid → Nat → Tid
  | .core c s _, j => .core c s j
  | .proof c _, j => .proof c j
  | .burin c k, _ => .burin c k
  | .graver g x, j => .graver g (x / 8 * 8 + j)

/-- Do two threads share a warp? -/
def sameWarp : Tid → Tid → Bool
  | .core c s _, .core c' s' _ => c == c' && s == s'
  | .proof c _, .proof c' _ => c == c'
  | .burin c k, .burin c' k' => c == c' && k == k'
  | .graver g x, .graver g' x' => g == g' && x / 8 == x' / 8
  | _, _ => false

/-- The die a thread runs on: its core's, or its Graver's stack's home (R206). -/
def die : Tid → Nat
  | .graver g _ => g / 2 / 512
  | .core c _ _ => c / Config.coresPerDie
  | .proof c _ => c / Config.coresPerDie
  | .burin c _ => c / Config.coresPerDie

end Sys2Proof.Tid

namespace Sys2Proof.Machine

/-- Ascending global thread number within a context's launch; other kinds by lane (R244). -/
def Thread.order (a b : Thread) : Bool := a.gtid ≤ b.gtid

namespace State

/-- The team of a core thread: its key and the team. -/
def teamAt (s : State) (c ctx launch lin : Nat) : Option ((Nat × Nat) × Team) :=
  s.teams.find? fun e => e.1.1 == c && e.2.ctx == ctx && e.2.launch == launch && e.2.lin == lin

/-- The team a thread belongs to; none for Burin, proof slot and Graver. -/
def teamOf (s : State) (t : Tid) : Option ((Nat × Nat) × Team) :=
  match t, s.thread t with
  | .core c _ _, some th => s.teamAt c th.ctx th.launch th.team
  | _, _ => none

/-- The launch record a thread runs under. -/
def recOf (s : State) (th : Thread) : Option LRec := (s.launchOf th.ctx th.launch).map (·.rcd)

/-- Window depth in names: 16 × the record's field; 64 for Burin and Graver (R31, R330). -/
def depthOf (s : State) (t : Tid) (th : Thread) : Nat :=
  match t with
  | .core _ _ _ => ((s.recOf th).map (·.depth16)).getD 4 * 16
  | _ => 64

/-- The launch flags: trap enables and VOIDTRAP (R35); zero where no launch governs. -/
def flagsOf (s : State) (t : Tid) (th : Thread) : BitVec 16 :=
  match t with
  | .core _ _ _ => ((s.recOf th).map (·.flags)).getD 0
  | .burin _ _ => ((s.recOf th).map (·.flags)).getD 0
  | _ => 0

/-- FPST trap enables as FPST bits (R114: bit n has its enable at bit n + 2). -/
def enables (s : State) (t : Tid) (th : Thread) : BitVec 7 := (s.flagsOf t th >>> 2).setWidth 7
def voidTrap (s : State) (t : Tid) (th : Thread) : Bool := (s.flagsOf t th).getLsbD 1

end State
end Sys2Proof.Machine
end

