-- ==== Sys2Proof/Machine/Mem.lean ====
section
/-!
DEFINITION. Physical memory and its levels: regions and homes (R206, R207, R432), page kinds (R208), translation (R348–R352),
DRAM with keys, check values and poison (R354, R401, R402), L2 (R212), the Plate cache role (R209, R210), notices (R214),
the actions of a release and an acquire (R217), the SC clocks (R229).
-/
namespace Sys2Proof.Machine

/-! ### Regions, homes, banks -/

inductive Region where
  | hbm (n : Nat)
  | deep (n : Nat)
  | deepBank (n : Nat)
  | device
  | pool
  | remote
  deriving DecidableEq, Repr

/-- R206's table; none outside it. -/
def regionOf (pa : Nat) : Option Region :=
  if pa < 0x0100_0000_0000 then some (.hbm (pa / 0x10_0000_0000))
  else if pa < 0x0200_0000_0000 then some (.deep ((pa - 0x0100_0000_0000) / 0x20_0000_0000))
  else if pa < 0x0300_0000_0000 then some (.deepBank ((pa - 0x0200_0000_0000) / 0x20_0000_0000))
  else if pa < 0x0F00_0000_0000 then none
  else if pa < 0x1000_0000_0000 then some .device
  else if pa < 0x4000_0000_0000 then none
  else if pa < 0x8000_0000_0000 then some .pool
  else if pa < 0x1_0000_0000_0000 then some .remote
  else none

/-- Pages of the device region (R432). -/
inductive DevPage where
  | graver (i : Nat)
  | press (d : Nat)
  | switch
  deriving DecidableEq, Repr

def devPage (pa : Nat) : Option DevPage :=
  let o := pa - 0x0F00_0000_0000
  if pa < 0x0F00_0000_0000 then none
  else if o < 0x2000_0000 then some (.graver (o / 0x1_0000))
  else if o < 0x2008_0000 then some (.press ((o - 0x2000_0000) / 0x1_0000))
  else if o < 0x2009_0000 then some .switch
  else none

/-- Home(addr) of R9 by R206's last column; none for the switch page and for no memory. -/
def homeDie (pa : Nat) : Option Nat :=
  match regionOf pa with
  | some (.hbm n) => some (n / 2)
  | some (.deep n) => some n
  | some (.deepBank n) => some n
  | some .pool => some (pa / 0x20_0000 % 8)
  | some .remote => some (pa / 0x20_0000 % 8)
  | some .device => match devPage pa with
    | some (.graver i) => some (i / 1024)
    | some (.press d) => some d
    | _ => none
  | none => none

/-- The offset in a Deep stack's interleaved window of the byte at bank-linear offset o (R207). -/
def linearToInter (o : Nat) : Nat :=
  let ch := o / 2 ^ 33 % 16
  let bk := o / 2 ^ 28 % 32
  let off := o % 2 ^ 28
  off / 512 * 2 ^ 18 + ch * 2 ^ 14 + bk * 2 ^ 9 + off % 512

/-- One address per byte of DRAM: the bank-linear window is mapped onto the interleaved one. -/
def canonPa (pa : Nat) : Nat :=
  match regionOf pa with
  | some (.deepBank n) => 0x0100_0000_0000 + n * 0x20_0000_0000 + linearToInter (pa % 2 ^ 37)
  | _ => pa

/-- The offset in the bank-linear window of the byte at interleaved offset o (R207). -/
def interToLinear (o : Nat) : Nat :=
  o / 2 ^ 14 % 16 * 2 ^ 33 + o / 2 ^ 9 % 32 * 2 ^ 28 + o / 2 ^ 18 * 512 + o % 512

/-- The other address of a Deep stack's byte; any other address is its own. -/
def aliasPa (pa : Nat) : Nat :=
  match regionOf pa with
  | some (.deep n) => 0x0200_0000_0000 + n * 0x20_0000_0000 + interToLinear (pa % 2 ^ 37)
  | _ => canonPa pa

/-- BankOf(addr): 512 × stack + 32 × channel + bank; none outside the Deep stacks (R9, R207). -/
def bankOf (pa : Nat) : Option Nat :=
  match regionOf pa with
  | some (.deep n) => some (512 * n + 32 * (pa / 2 ^ 14 % 16) + pa / 2 ^ 9 % 32)
  | some (.deepBank n) => some (512 * n + 32 * (pa / 2 ^ 33 % 16) + pa / 2 ^ 28 % 32)
  | _ => none

/-- Are two addresses in one stack, channel or bank? (R216) -/
def samePart (s : Scope) (pa q : Nat) : Bool :=
  match bankOf pa, bankOf q with
  | some a, some b => match s with
    | .stk => a / 512 == b / 512
    | .chn => a / 32 == b / 32
    | .bnk => a == b
    | _ => false
  | _, _ => false

def Kind.ofCode : Nat → Kind
  | 0 => .normal
  | 1 => .bs
  | 2 => .pw
  | _ => .device

/-- R208's column "Regions allowed". -/
def Kind.allowed (k : Kind) (r : Region) : Bool :=
  match k, r with
  | .normal, .hbm _ => true
  | .normal, .deep _ => true
  | .normal, .pool => true
  | .bs, .deepBank _ => true
  | .pw, .pool => true
  | .pw, .remote => true
  | .device, .device => true
  | _, _ => false

/-- The kind of a cached line that holds dirty bytes: BS in the bank-linear window, normal elsewhere (R208). -/
def dirtyKind (pa : Nat) : Kind :=
  match regionOf pa with
  | some (.deepBank _) => .bs
  | _ => .normal

/-! ### Graver control blocks (R272, R273) -/

/-- STATUS (R273). -/
def Graver.status (x : Graver) : Nat := x.state + (if x.refused then 16 else 0) + 256 * x.code

/-- The 4 B word at an offset of a control block. -/
def controlWord (x : Graver) (off : Nat) : Word :=
  match off with
  | 0x00 => loOf x.start
  | 0x04 => hiOf x.start
  | 0x08 => w32 x.status
  | 0x10 => loOf x.cptr
  | 0x14 => hiOf x.cptr
  | 0x18 => x.cval
  | 0x40 => loOf x.stack
  | 0x44 => hiOf x.stack
  | 0x48 => x.stackSz
  | o => if 0x20 ≤ o && o < 0x40 then x.mbox.getD ((o - 0x20) / 4) 0 else 0

def controlRead (s : State) (g off n : Nat) : Nat :=
  let lo := (controlWord (s.graver g) off).toNat
  if n == 8 then lo + 2 ^ 32 * (controlWord (s.graver g) (off + 4)).toNat else lo

/-- The Graver context whose control block holds a physical address. -/
def graverOf (pa : Nat) : Option Nat :=
  match devPage pa with
  | some (.graver g) => some g
  | _ => none

/-- Writes to control blocks on their way to the unit. -/
def unitEvent : Instr → Bool
  | .startWrite _ _ => true
  | .controlBlockWrite _ _ _ _ => true
  | _ => false

/-- A 4 B store to a control block that a stream or a name spill sends: after those sent before, it is the next event (log
entry 55). -/
def controlSend (s : State) (t : Tid) (g off : Nat) (v : Word) : State :=
  let e : Instr := if off == 0 then .startWrite ⟨.thread t, g⟩ (pairOf v (hiOf (s.graver g).start))
    else if off == 4 then .startWrite ⟨.thread t, g⟩ (pairOf (loOf (s.graver g).start) v)
    else .controlBlockWrite ⟨.thread t, g⟩ off (v.setWidth 64) false
  { s with agenda := s.agenda.takeWhile unitEvent ++ e :: s.agenda.dropWhile unitEvent }

/-! ### Translation (R348–R352) -/

/-- Low VA bit of each level (R348). -/
def vaShift : Nat → Nat
  | 0 => 16
  | 1 => 21
  | 2 => 30
  | 3 => 39
  | _ => 48

/-- Bits 63:57 equal bit 56 (R32). -/
def canonicalVa (va : Nat) : Bool := va / 2 ^ 56 == 0 || va / 2 ^ 56 == 2 ^ 8 - 1

/-- Entries of a table of each level (R348). -/
def tableEntries : Nat → Nat
  | 0 => 32
  | _ => 512

/-- The address of the entry for a virtual address in a table of level l. -/
def entryAt (tbl va l : Nat) : Nat := tbl + 8 * (va / 2 ^ vaShift l % tableEntries l)

/-- NEXT of a table entry (R349). -/
def nextOf (e : Nat) : Nat := bits e 47 8 * 256

/-- The walk of R350's first row from a table of some level down: the leaf with its level, none for 0x06. -/
def walkGo (tab : Tab Nat DWord) (va : Nat) : Nat → Nat → Option (Nat × Nat)
  | 0, tbl =>
    let e := (tab.getD (entryAt tbl va 0) 0).toNat
    if bitAt e 0 && bitAt e 1 && bits e 63 48 == 0 && bits e 15 11 == 0 then some (0, e) else none
  | l + 1, tbl =>
    let e := (tab.getD (entryAt tbl va (l + 1)) 0).toNat
    if !bitAt e 0 || bits e 63 48 != 0 then none
    else if bitAt e 1 then
      if l + 1 ≤ 2 && bits e 15 11 == 0 && bits e (vaShift (l + 1) - 1) 16 == 0 then some (l + 1, e) else none
    else if bits e 7 2 == 0 then walkGo tab va l (nextOf e)
    else none

/-- A leaf found for a virtual address: page size and entry. -/
def walk (s : State) (ctx va : Nat) : Option (Nat × DWord) :=
  match s.ctx ctx with
  | none => none
  | some x =>
    if canonicalVa va then (walkGo x.table (va % 2 ^ 57) 4 x.root).map fun (l, e) => (2 ^ vaShift l, w64 e)
    else none

/-- A leaf of a context's tables: its virtual address, level, entry, and where the entry stands. -/
structure Leaf where
  va : Nat
  level : Nat
  entry : DWord
  place : Nat
  deriving DecidableEq, Repr

/-- Entries of the table at an address, with their numbers. -/
def entriesOf (tab : Tab Nat DWord) (l tbl : Nat) : List (Nat × DWord) :=
  (tab.filter fun e => decide (tbl ≤ e.1) && decide (e.1 < tbl + 8 * tableEntries l)).map fun e => ((e.1 - tbl) / 8, e.2)

/-- Valid leaves from a table of some level down, for the virtual addresses from `va` on. -/
def leavesGo (tab : Tab Nat DWord) : Nat → Nat → Nat → List Leaf
  | 0, tbl, va => ((entriesOf tab 0 tbl).filter fun e => bitAt e.2.toNat 0 && bitAt e.2.toNat 1).map fun e =>
      ⟨va + e.1 * 2 ^ vaShift 0, 0, e.2, tbl + 8 * e.1⟩
  | l + 1, tbl, va => (entriesOf tab (l + 1) tbl).flatMap fun e =>
      let a := va + e.1 * 2 ^ vaShift (l + 1)
      if !bitAt e.2.toNat 0 then []
      else if bitAt e.2.toNat 1 then [⟨a, l + 1, e.2, tbl + 8 * e.1⟩]
      else leavesGo tab l (nextOf e.2.toNat) a

/-- A 57-bit address as a canonical one (R32). -/
def signedVa (va : Nat) : Nat := if va < 2 ^ 56 then va else va + 2 ^ 64 - 2 ^ 57

/-- Every valid leaf of a context, at canonical addresses. -/
def leavesOf (x : Ctx) : List Leaf := (leavesGo x.table 4 x.root 0).map fun e => { e with va := signedVa e.va }

/-- Physical base and size of a leaf's page. -/
def Leaf.base (e : Leaf) : Nat := bits e.entry.toNat 47 16 * 2 ^ 16
def Leaf.size (e : Leaf) : Nat := 2 ^ vaShift e.level

/-- What an access needs of a page (R243 check 5). -/
inductive Need where
  | read | write | both | exec | none
  deriving DecidableEq, Repr

def Need.allowed (n : Need) (e : Nat) : Bool :=
  match n with
  | .read => bitAt e 2
  | .write => bitAt e 3
  | .both => bitAt e 2 && bitAt e 3
  | .exec => bitAt e 4
  | .none => true

/-- Key slot k of a context. -/
def State.keySlot (s : State) (ctx k : Nat) : Option KeyRef :=
  match s.ctx ctx with
  | some x => (x.keys[k]?).join
  | none => none

/-- The checks a leaf makes after it is found, in R350's order: 0x16, 0x07, 0x08; 0x06 where R206 has no region. -/
def leafCheck (s : State) (ctx va size : Nat) (leaf : DWord) (need : Need) : Except Nat Phys :=
  let e := leaf.toNat
  let pa := bits e 47 16 * 2 ^ 16 + va % size
  let kind := Kind.ofCode (bits e 6 5)
  if bitAt e 10 then .error 0x16
  else if !need.allowed e then .error 0x07
  else match s.keySlot ctx (bits e 9 7) with
    | none => .error 0x07
    | some key => match regionOf pa with
      | none => .error 0x06
      | some r =>
        if kind.allowed r then
          (if kind == .device && (devPage pa).isNone then .error 0x06 else .ok ⟨pa, kind, key⟩)
        else .error 0x08

/-- A lookup in a TLB. -/
def tlbFind (l : List TlbEnt) (ctx va : Nat) : Option TlbEnt := l.find? fun e => e.ctx == ctx && e.va == va / e.size

/-- Keeps the newest n entries (R351's sizes). -/
def keepNewest {α : Type} (n : Nat) (l : List α) : List α := l.take n

/-- Puts a leaf into a core's TLB. -/
def fillCoreTlb (s : State) (c : Nat) (e : TlbEnt) : State := s.modCore c fun x => { x with tlb := keepNewest 256 (e :: x.tlb) }

/-- The entry of a miss table for one 64 KiB page of a context. -/
def missFor (ctx va : Nat) (e : Nat × Nat × Bool × Bool) : Bool := e.1 == ctx && e.2.1 == va / 0x1_0000

/-- TLB_MISS_WALK: a walker of a die serves the oldest entry of its miss table; only a valid leaf is cached. -/
def serveMiss (s : State) (d : Nat) : State :=
  match (s.die d).miss with
  | [] => s
  | (ctx, page, die, base) :: rest =>
    let s := s.modDie d fun x => { x with miss := rest }
    let va := page * 0x1_0000
    match walk s ctx va with
    | none => s
    | some (size, leaf) =>
      let e : TlbEnt := { ctx := ctx, va := va / size, size := size, leaf := leaf }
      s.modDie d fun x =>
        let x := { x with walk := keepNewest 4096 ((((List.range 4).map fun k => (ctx, 4 - k, va % 2 ^ 57 / 2 ^ vaShift (4 - k))) ++ x.walk).eraseDups) }
        { x with tlb := if die then keepNewest 16384 (e :: x.tlb) else x.tlb,
                 baseTlb := if base then keepNewest 1024 (e :: x.baseTlb) else x.baseTlb }

/-- A miss that finds room in the die's miss table, or the entry of its page, enters: the entry says whether the die and whether a base
die asked. -/
def putMiss (s : State) (d ctx va : Nat) (base : Bool) : State :=
  s.modDie d fun x =>
    if x.miss.any (missFor ctx va) then
      { x with miss := x.miss.map fun e => if missFor ctx va e then (e.1, e.2.1, e.2.2.1 || !base, e.2.2.2 || base) else e }
    else { x with miss := x.miss ++ [(ctx, va / 0x1_0000, !base, base)] }

/-- A miss enters the die's miss table: all misses to one 64 KiB page of one context share an entry. One that finds the table full
waits until the walkers have served the oldest entry; an instruction's access or fetch stalls before it comes to that. -/
def enterMiss (s : State) (d ctx va : Nat) (base : Bool) : State :=
  let x := s.die d
  putMiss (if x.miss.any (missFor ctx va) || decide (x.miss.length < Config.missEntries) then s else serveMiss s d) d ctx va base

/-- The leaf for an address (R351): from the core TLB and the die TLB for a core, from the base-die TLB for a Graver. A miss
enters the die's miss table; the access itself is served by the walk of this step (log entry 15). -/
def leafFor (s : State) (t : Tid) (ctx va : Nat) : State × Option (Nat × DWord) :=
  let d := t.die
  let ok (e : TlbEnt) : Option (Nat × DWord) := if canonicalVa va then some (e.size, e.leaf) else none
  match t.core? with
  | some c => match tlbFind (s.core c).tlb ctx va with
    | some e => (s, ok e)
    | none => match tlbFind (s.die d).tlb ctx va with
      | some e => (fillCoreTlb s c e, ok e)
      | none => (enterMiss s d ctx va false, walk s ctx va)
  | none => match tlbFind (s.die d).baseTlb ctx va with
    | some e => (s, ok e)
    | none => (enterMiss s d ctx va true, walk s ctx va)

/-- Do accesses of a thread miss every TLB for more pages without an entry than the miss table has room for? They then stall (R351). -/
def missFull (s : State) (t : Tid) (ctx : Nat) (vas : List Nat) : Bool :=
  let x := s.die t.die
  let misses (va : Nat) : Bool := !x.miss.any (missFor ctx va) && match t.core? with
    | some c => (tlbFind (s.core c).tlb ctx va).isNone && (tlbFind x.tlb ctx va).isNone
    | none => (tlbFind x.baseTlb ctx va).isNone
  let pages := ((vas.filter misses).map (· / 0x1_0000)).eraseDups
  !pages.isEmpty && decide (Config.missEntries < x.miss.length + pages.length)

/-- Does one access stall so? -/
def missStall (s : State) (t : Tid) (ctx va : Nat) : Bool := missFull s t ctx [va]

/-- Firmware's invalidation of a context's entries in every TLB and walk cache (R352). -/
def invalidate (s : State) (ctx : Nat) : State :=
  let out (l : List TlbEnt) : List TlbEnt := l.filter fun e => e.ctx != ctx
  let clearDie (x : Die) : Die :=
    { x with tlb := out x.tlb, baseTlb := out x.baseTlb, walk := x.walk.filter (fun e => e.1 != ctx),
             miss := x.miss.filter (fun e => e.1 != ctx) }
  { s with cores := s.cores.map fun e => (e.1, { e.2 with tlb := out e.2.tlb }),
           dies := s.dies.map fun e => (e.1, clearDie e.2) }

/-- Is the home of this address on a fenced die? (R399) -/
def fencedHome (s : State) (pa : Nat) : Bool :=
  match homeDie pa with
  | some d => (s.die d).fenced
  | none => false

/-- Graver bounds on a translated address (R78): its own bank, or its stack region. -/
def graverStack (s : State) (g va : Nat) : Bool :=
  let x := s.graver g
  decide (x.stack.toNat ≤ va ∧ va < x.stack.toNat + 32 * x.stackSz.toNat)

/-- Checks 1 to 6 of R243 for one access of w bytes by thread t, then 0x15 for a fenced home (R399). `atomic` rejects PW and
device pages (R251). -/
def checkAccess (s : State) (t : Tid) (ctx va w : Nat) (need : Need) (atomic : Bool) : State × Except Nat Phys :=
  if va % w != 0 then (s, .error 0x05)
  else
    let (s, lf) := leafFor s t ctx va
    match lf with
    | none => (s, .error 0x06)
    | some (size, leaf) =>
      let pa := bits leaf.toNat 47 16 * 2 ^ 16 + va % size
      let out := match t with
        | .graver g _ => bankOf pa != some (g / 2) && !graverStack s g va
        | _ => false
      if out then (s, .error 0x04)
      else match leafCheck s ctx va size leaf need with
        | .error e => (s, .error e)
        | .ok p =>
          let badWrite := t.isGraver && (need == .write || need == .both) && p.kind != .bs
          if badWrite || (atomic && (p.kind == .pw || p.kind == .device)) then (s, .error 0x08)
          else if fencedHome s p.pa then (s, .error 0x15)
          else (s, .ok p)

/-! ### Sectors -/

/-- Byte i of 64. -/
def secByte (d : BitVec 512) (i : Nat) : Byte := (d >>> (8 * i)).setWidth 8

/-- n bytes from byte i, little-endian. -/
def secLoad (d : BitVec 512) (i n : Nat) : Nat := d.toNat / 2 ^ (8 * i) % 2 ^ (8 * n)

/-- Bits i to i + n − 1. -/
def maskOf (i n : Nat) : BitVec 64 := BitVec.ofNat 64 ((2 ^ n - 1) * 2 ^ i)

/-- A byte mask spread over 512 bits. -/
def spread (m : BitVec 64) : BitVec 512 :=
  BitVec.ofNat 512 (natOf ((List.range 64).map fun i => if m.getLsbD i then 0xFF else 0))

/-- The bytes of `new` where the mask is set, of `old` elsewhere. -/
def mergeBytes (old new : BitVec 512) (m : BitVec 64) : BitVec 512 :=
  let k := spread m
  (old &&& ~~~k) ||| (new &&& k)

/-- A value placed at byte i of a sector. -/
def placed (i v : Nat) : BitVec 512 := BitVec.ofNat 512 (v * 2 ^ (8 * i))

def fullMask : BitVec 64 := BitVec.allOnes 64

/-! ### DRAM (R354, R401, R402) -/

/-- The sector's number, one per 64 bytes of DRAM. -/
def canonSec (sec : Nat) : Nat := canonPa (sec * 64) / 64

/-- Is an address, or its other address in a Deep stack, in a context's granted ranges? -/
def ownsPa (x : Ctx) (pa : Nat) : Bool :=
  x.granted.any fun (b, n) => (b ≤ pa && pa < b + n) || (b ≤ aliasPa pa && aliasPa pa < b + n)

/-- The context that owns a physical address (R355). -/
def ownerOf (s : State) (pa : Nat) : Option Nat := (s.ctxs.find? fun e => ownsPa e.2 pa).map (·.1)

/-- The key a sector was last written under: as listed, or else its owner's slot 0 (R355). -/
def sectorKey (s : State) (cs : Nat) : Option KeyRef :=
  (s.sectorKeys.get cs).orElse fun _ => match ownerOf s (cs * 64) with
    | some c => s.keySlot c 0
    | none => none

/-- Is this a sector of one of the package's own stacks? -/
def stackSec (cs : Nat) : Bool := decide (cs * 64 < 0x0300_0000_0000)

/-- Does the check value of a sector fail under this key? A sector of a stack that no living context owns or has written was last
written under a key that is gone, or never written (R354, R413). -/
def crcBad (s : State) (cs : Nat) (key : KeyRef) : Bool :=
  s.badCrc.contains cs || (match sectorKey s cs with | some k => k != key | none => stackSec cs)

def dramData (s : State) (sec : Nat) : BitVec 512 := BitVec.ofNat 512 (s.mem.load (canonSec sec * 64) 64)

/-- A read of a sector at its bank: its bytes, and 0, 0x18 or 0x17. -/
def dramRead (s : State) (sec : Nat) (key : KeyRef) : BitVec 512 × Nat :=
  let cs := canonSec sec
  if s.poison.contains cs then (0, 0x18)
  else if crcBad s cs key then (0, 0x17)
  else (dramData s sec, 0)

/-- Poison and check value of a sector after a write with this mask: a full write clears them, a merge that finds a
mismatch poisons (R401, R402). -/
def markWrite (s : State) (cs : Nat) (key : KeyRef) (m : BitVec 64) : State :=
  if m == fullMask then
    { s with poison := s.poison.filter (· != cs), badCrc := s.badCrc.filter (· != cs) }
  else if crcBad s cs key then { s with poison := cs :: s.poison.filter (· != cs) }
  else s

def setSectorKey (s : State) (cs : Nat) (key : KeyRef) : State :=
  let t := { s with sectorKeys := s.sectorKeys.del cs }
  if sectorKey t cs == some key then t else { t with sectorKeys := (cs, key) :: t.sectorKeys }

/-- A full sector written with its poison as it stands: what L2 holds of a sector, written back with a new check value (R401,
R402). -/
def dramPut (s : State) (sec : Nat) (key : KeyRef) (d : BitVec 512) : State :=
  let cs := canonSec sec
  let s := setSectorKey { s with badCrc := s.badCrc.filter (· != cs) } cs key
  { s with mem := s.mem.store (cs * 64) 64 d.toNat }

def dramWrite (s : State) (sec : Nat) (key : KeyRef) (m : BitVec 64) (d : BitVec 512) : State :=
  if m == 0 then s else
  let cs := canonSec sec
  let s := setSectorKey (markWrite s cs key m) cs key
  { s with mem := s.mem.store (cs * 64) 64 (mergeBytes (dramData s sec) d m).toNat }

/-! ### L2 (R212) -/

def l2Find (s : State) (d sec : Nat) : Option L2Sec := (s.die d).l2.find? (·.sec == sec)
def l2Drop (s : State) (d sec : Nat) : State :=
  s.modDie d fun x => { x with l2 := x.l2.filter (·.sec != sec) }

/-- Puts a sector at the most recently used end. -/
def l2Keep (s : State) (d : Nat) (e : L2Sec) : State :=
  s.modDie d fun x => { x with l2 := e :: x.l2.filter (·.sec != e.sec) }

/-- Lines of 512 B that hold some sector. -/
def l2LinesOf (l : List L2Sec) : List Nat := (l.map fun e => e.sec / 8).eraseDups

/-- Has a line no place in L2: the slice holds its 96 MiB of other lines (R212)? -/
def l2Full (s : State) (d sec : Nat) : Bool :=
  let l := (s.die d).l2
  decide (Config.l2Lines ≤ l.length) && decide (Config.l2Lines ≤ (l2LinesOf l).length) && !l.any fun e => e.sec / 8 == sec / 8

/-- A line leaves L2: its dirty sectors are written back (R212). -/
def l2Evict (s : State) (d line : Nat) : State :=
  let mine := (s.die d).l2.filter fun e => e.sec / 8 == line
  let s := s.modDie d fun x => { x with l2 := x.l2.filter fun e => e.sec / 8 != line }
  mine.foldl (fun s e => if e.dirty then dramPut s e.sec e.key e.data else s) s

/-- Puts a sector into L2. R212 gives the capacity alone: the slice takes any line in any place, and for a line that has no place the
line of the sector least recently put leaves first (DESIGN CHOICE, log entry 78). -/
def l2Put (s : State) (d : Nat) (e : L2Sec) : State :=
  let s := if l2Full s d e.sec then match (s.die d).l2.getLast? with
      | some v => l2Evict s d (v.sec / 8)
      | none => s
    else s
  l2Keep s d e

def homeOf (pa : Nat) : Nat := (homeDie pa).getD 0

/-- A sector read at its home L2, filled from memory on a miss. -/
def homeRead (s : State) (sec : Nat) (key : KeyRef) : State × BitVec 512 × Nat :=
  let d := homeOf (sec * 64)
  if s.poison.contains (canonSec sec) then (s, 0, 0x18)
  else match l2Find s d sec with
    | some e => (s, e.data, 0)
    | none =>
      let (v, code) := dramRead s sec key
      if code == 0 then (l2Put s d { sec := sec, data := v, dirty := false, key := key }, v, 0) else (s, 0, code)

/-- A masked write at the home: into L2 for normal pages, through L2 to memory for BS and PW (R208, R212). -/
def homeWrite (s : State) (sec : Nat) (kind : Kind) (key : KeyRef) (m : BitVec 64) (v : BitVec 512) : State :=
  if m == 0 then s else
  let d := homeOf (sec * 64)
  match kind with
  | .normal => match l2Find s d sec with
    | some e =>
      let s := if m == fullMask then markWrite s (canonSec sec) key m else s
      l2Put s d { e with data := mergeBytes e.data v m, dirty := true, key := key }
    | none =>
      let s := markWrite s (canonSec sec) key m
      l2Put s d { sec := sec, data := mergeBytes (dramData s sec) v m, dirty := true, key := key }
  | _ =>
    let s := dramWrite s sec key m v
    match l2Find s d sec with
    | some e => l2Put s d { e with data := mergeBytes e.data v m }
    | none => s

/-- Writes back a dirty L2 sector to memory; the copy stays clean. -/
def l2WriteBack (s : State) (d : Nat) (e : L2Sec) : State :=
  if e.dirty then l2Keep (dramPut s e.sec e.key e.data) d { e with dirty := false } else s

/-! ### Notices (R214) -/

/-- The home L2 applies a bank's notices, oldest first; all banks' when `bank` is none. -/
def applyNotices (s : State) (bank : Option Nat) : State :=
  let mine := s.notices.filter fun e => match bank with | some b => e.1 == b | none => true
  let s := { s with notices := s.notices.filter fun e => match bank with | some b => e.1 != b | none => false }
  mine.foldl (fun s e => match l2Find s (homeOf (e.2 * 64)) e.2 with
    | some x => if x.dirty then s else l2Drop s (homeOf (e.2 * 64)) e.2
    | none => s) s

/-- A Graver's masked write at its bank, with the notice it sends for a BS row (R214). -/
def bankWrite (s : State) (pa : Nat) (key : KeyRef) (n v : Nat) : State :=
  let sec := pa / 64
  let s := dramWrite s sec key (maskOf (pa % 64) n) (placed (pa % 64) v)
  match bankOf pa with
  | some b => { s with notices := s.notices ++ [(b, sec)] }
  | none => s

/-! ### The cache role (R209, R210) -/

def Sector.absent : Sector := { valid := false, data := 0, dirty := 0, bad := false }

/-- Is this sector holding nothing? -/
def Sector.isAbsent (x : Sector) : Bool := !x.valid && x.dirty == 0

/-- Sets of a role, ascending. -/
def Core.setsOf (x : Core) (r : Role) : List Nat := (List.range 64).filter fun m => x.roles[m]? == some r

/-- The next set of a move (R307): the set that joins the new role and the given set used; none when no set is left to give. -/
def Core.moveStep (x : Core) (mv : Move) : Option (Nat × Nat) :=
  if mv.to_ == .tile then
    let t := (x.setsOf .tile).length
    if mv.given.contains t then some (t, t)
    else
      let last := t + (mv.total - mv.moved)
      let free := mv.given.filter fun g => !mv.used.contains g && !(decide (t ≤ g) && decide (g < last))
      (free.foldl (fun a g => match a with | some x => some (min x g) | none => some g) none).map fun g => (t, g)
  else (mv.given[mv.moved]?).map fun m => (m, m)

/-- The sets that are moving now: the set whose contents leave or go elsewhere, and the given set that receives them. -/
def Core.moving (x : Core) : List Nat :=
  match x.move.bind x.moveStep with
  | some (m, g) => if m == g then [m] else [m, g]
  | none => []

/-- The cache set in its handshake (R307, R308): the given set of a move that takes sets from the cache role. -/
def Core.leaving (x : Core) : Option Nat :=
  match x.move with
  | some mv => if mv.from_ == .cache then (x.moveStep mv).map (·.2) else none
  | none => none

def cacheSets (c : Core) : Nat := (c.roles.filter (· == .cache)).length

def lineOf (c : Core) (num : Nat) : Option Line := c.lines.find? (·.num == num)

def lineSec (l : Line) (i : Nat) : Sector := l.secs.getD i Sector.absent
def lineSetSec (l : Line) (i : Nat) (x : Sector) : Line := { l with secs := setAt l.secs i x }

/-- Puts a line at the most recently used end. -/
def putLine (s : State) (c : Nat) (l : Line) : State :=
  s.modCore c fun x => { x with lines := l :: x.lines.filter (·.num != l.num) }

/-- Replaces a line where it stands in the LRU order. -/
def keepLine (s : State) (c : Nat) (l : Line) : State :=
  s.modCore c fun x => { x with lines := x.lines.map fun y => if y.num == l.num then l else y }

def dropLine (s : State) (c num : Nat) : State :=
  s.modCore c fun x => { x with lines := x.lines.filter (·.num != num) }

/-- Is a sector's row still bad after a write of these bytes? A write of a sector that holds nothing, or of all of it, replaces what is
there (R402). -/
def Sector.staysBad (x : Sector) (m : BitVec 64) : Bool := x.bad && !x.isAbsent && m != fullMask

/-- A sector with an uncorrectable error at its home (R402). -/
def poisonSec (s : State) (cs : Nat) : State := { s with poison := if s.poison.contains cs then s.poison else cs :: s.poison }

/-- Dirty bytes of one sector written to their home; in a valid sector they stay as clean bytes (R248). Bytes homed on a
fenced die are lost, and the answer is 0x15. Bytes of a row with an uncorrectable error take the error with them (DESIGN CHOICE, log
entry 77: R402 does not treat a write-back). -/
def writeBackSec (s : State) (c : Nat) (l : Line) (i : Nat) : State × Line × Nat :=
  let x := lineSec l i
  if x.dirty == 0 then (s, l, 0)
  else
    let sec := l.num * 8 + i
    let lost := fencedHome s (sec * 64)
    let s := if lost then s else homeWrite s sec (dirtyKind (sec * 64)) l.key x.dirty x.data
    let s := if lost || !x.bad then s else poisonSec s (canonSec sec)
    let l := lineSetSec l i { x with dirty := 0 }
    (keepLine s c l, l, if lost then 0x15 else 0)

/-- Every sector of a line. -/
def writeBackLine (s : State) (c : Nat) (l : Line) : State × Nat :=
  let r := (List.range 8).foldl (fun (a : State × Line × Nat) i =>
    let (s, l, e) := writeBackSec a.1 c a.2.1 i
    (s, l, max e a.2.2)) (s, l, 0)
  (r.1, r.2.2)

/-- Eviction: writes back and drops (R209). -/
def evictLine (s : State) (c : Nat) (l : Line) : State := dropLine (writeBackLine s c l).1 c l.num

/-- A cache set with a free place. -/
def freePlace (c : Core) : Option Nat :=
  (List.range 64).find? fun m => c.roles[m]? == some .cache && c.leaving != some m
    && decide ((c.lines.filter (·.set == m)).length < Config.linesPerSet)

/-- The line that leaves when no place is free: the least recently used, but for those of a set in its handshake (R209, R308). -/
def victimLine (c : Core) : Option Line := c.lines.reverse.find? fun l => c.leaving != some l.set

/-- The line, allocated if it is absent; the least recently used line leaves when no place is free. -/
def ensureLine (s : State) (c : Nat) (num ctx : Nat) (key : KeyRef) : State × Line :=
  match lineOf (s.core c) num with
  | some l => (s, l)
  | none =>
    let (s, set) := match freePlace (s.core c) with
      | some m => (s, m)
      | none => match victimLine (s.core c) with
        | some v => (evictLine s c v, v.set)
        | none => (s, 0)
    let l : Line := { num := num, ctx := ctx, key := key, ro := false, secs := List.replicate 8 Sector.absent, set := set }
    (putLine s c l, l)

/-- Do accesses to a line behave as BP accesses: its set is in its handshake (R308), or the line is absent and no cache set but that one
could take it (R209)? -/
def Core.bpLine (x : Core) (num : Nat) : Bool :=
  match lineOf x num with
  | some l => x.leaving == some l.set
  | none => (freePlace x).isNone && (victimLine x).isNone

/-- Are these bytes dirty or clean? -/
def Sector.present (x : Sector) (i n : Nat) : Bool := x.valid || (x.dirty &&& maskOf i n) == maskOf i n

/-- Does a read take dirty bytes from a row with an uncorrectable error (R402)? -/
def Sector.readsBad (x : Sector) (i n : Nat) : Bool := x.bad && x.dirty &&& maskOf i n != 0

/-- A BP load's bytes: dirty ones from the Plate, the rest from the home (R210). -/
def bpLoad (s : State) (c : Nat) (p : Phys) (n : Nat) : State × Nat × Nat :=
  let sec := p.pa / 64
  let x := match lineOf (s.core c) (p.pa / 512) with
    | some l => lineSec l (sec % 8)
    | none => Sector.absent
  let (s, v, code) := homeRead s sec p.key
  if x.readsBad (p.pa % 64) n then (s, 0, 0x18)
  else if code != 0 && !((x.dirty &&& maskOf (p.pa % 64) n) == maskOf (p.pa % 64) n) then (s, 0, code)
  else (s, secLoad (mergeBytes v x.data x.dirty) (p.pa % 64) n, 0)

/-- Fills one sector of a line from its home, dirty bytes kept (R209). `ro`: the read-only mark it leaves. -/
def fillSec (s : State) (c ctx : Nat) (p : Phys) (sec : Nat) (ro : Bool) : State × Nat :=
  let (s, v, code) := homeRead s sec p.key
  if code != 0 then (s, code)
  else
    let (s, l) := ensureLine s c (sec / 8) ctx p.key
    let x := lineSec l (sec % 8)
    let l := lineSetSec l (sec % 8) { x with valid := true, data := mergeBytes v x.data x.dirty,
                                             bad := x.bad && x.dirty != 0 }
    (putLine s c { l with ro := ro }, 0)

/-- A plain load, or one with RO. -/
def plateLoad (s : State) (c ctx : Nat) (p : Phys) (n : Nat) (ro : Bool) : State × Nat × Nat :=
  if cacheSets (s.core c) == 0 || (s.core c).bpLine (p.pa / 512) then bpLoad s c p n
  else
    let sec := p.pa / 64
    let go (s : State) : State × Nat × Nat := match lineOf (s.core c) (p.pa / 512) with
      | some l =>
        if (lineSec l (sec % 8)).bad then (putLine s c l, 0, 0x18)
        else (putLine s c l, secLoad (lineSec l (sec % 8)).data (p.pa % 64) n, 0)
      | none => (s, 0, 0)
    match lineOf (s.core c) (p.pa / 512) with
    | some l =>
      if (lineSec l (sec % 8)).present (p.pa % 64) n then go (keepLine s c { l with ro := l.ro || ro })
      else
        let (s, code) := fillSec s c ctx p sec ro
        if code != 0 then (s, 0, code) else go s
    | none =>
      let (s, code) := fillSec s c ctx p sec ro
      if code != 0 then (s, 0, code) else go s

/-- What a store sent to the home leaves in the Plate: replaced and clean in a valid sector, dropped elsewhere (R210). -/
def plateReplace (s : State) (c pa n v : Nat) : State :=
  match lineOf (s.core c) (pa / 512) with
  | none => s
  | some l =>
    let i := pa / 64 % 8
    let x := lineSec l i
    let m := maskOf (pa % 64) n
    let x := { x with dirty := x.dirty &&& ~~~m, data := if x.valid then mergeBytes x.data (placed (pa % 64) v) m else x.data,
                      bad := x.staysBad m }
    keepLine s c (lineSetSec { l with ro := false } i x)

/-- A store performed at the home. -/
def bpStore (s : State) (c : Nat) (p : Phys) (n v : Nat) : State :=
  plateReplace (homeWrite s (p.pa / 64) p.kind p.key (maskOf (p.pa % 64) n) (placed (p.pa % 64) v)) c p.pa n v

/-- A plain store: allocates without fetching on normal and BS pages, goes through on PW pages (R209). -/
def plateStore (s : State) (c ctx : Nat) (p : Phys) (n v : Nat) : State :=
  if cacheSets (s.core c) == 0 || p.kind == .pw || (s.core c).bpLine (p.pa / 512) then bpStore s c p n v
  else
    let (s, l) := ensureLine s c (p.pa / 512) ctx p.key
    let i := p.pa / 64 % 8
    let x := lineSec l i
    let m := maskOf (p.pa % 64) n
    let x := { x with dirty := x.dirty ||| m, data := mergeBytes x.data (placed (p.pa % 64) v) m, bad := x.staysBad m }
    putLine s c { lineSetSec l i x with ro := false, key := p.key }

/-- R231: before an atomic, the core writes back its dirty bytes in the sector and makes the sector absent. -/
def atomPrep (s : State) (c pa : Nat) : State :=
  match lineOf (s.core c) (pa / 512) with
  | none => s
  | some l =>
    let (s, l, _) := writeBackSec s c l (pa / 64 % 8)
    keepLine s c (lineSetSec l (pa / 64 % 8) Sector.absent)

/-- The read half of an atomic at the home of its location (R251). -/
def atomRead (s : State) (p : Phys) (n : Nat) : State × Nat × Nat :=
  match p.kind with
  | .bs =>
    let (v, code) := dramRead s (p.pa / 64) p.key
    (l2Drop s (homeOf p.pa) (p.pa / 64), secLoad v (p.pa % 64) n, code)
  | _ =>
    let (s, v, code) := homeRead s (p.pa / 64) p.key
    (s, secLoad v (p.pa % 64) n, code)

/-- The write half. -/
def atomWrite (s : State) (p : Phys) (n v : Nat) : State :=
  homeWrite s (p.pa / 64) p.kind p.key (maskOf (p.pa % 64) n) (placed (p.pa % 64) v)

/-! ### Release and acquire (R217–R219) -/

/-- Writes back every dirty byte of the lines that `sel` takes: the state, and 0x15 if some home is fenced. -/
def writeBackLines (s : State) (c : Nat) (sel : Nat → Bool) : State × Nat :=
  ((s.core c).lines.filter fun l => sel l.num).foldl (fun a l =>
    let (s, e) := writeBackLine a.1 c l
    (s, max e a.2)) (s, 0)

/-- Every dirty L2 sector of a part goes to its bank. -/
def l2WriteBackPart (s : State) (sc : Scope) (pa : Nat) : State :=
  let d := homeOf pa
  ((s.die d).l2.filter fun e => e.dirty && samePart sc pa (e.sec * 64)).foldl (fun s e => l2WriteBack s d e) s

/-- Release(S, addr) of a core's thread. -/
def coreRelease (s : State) (c : Nat) (sc : Scope) (pa : Nat) : State × Nat :=
  match sc with
  | .core => (s, 0)
  | .die => writeBackLines s c fun _ => true
  | .dev | .pool | .sys =>
    let (s, e) := writeBackLines s c fun _ => true
    (applyNotices s none, e)
  | .stk | .chn | .bnk =>
    let (s, e) := writeBackLines s c fun num => samePart sc pa (num * 512)
    (l2WriteBackPart s sc pa, e)

/-- Clean bytes of the sectors taken become absent; lines left with nothing free their places. -/
def dropClean (s : State) (c : Nat) (sel : Nat → Bool) : State :=
  let drop (l : Line) : Line :=
    if l.ro then l else { l with secs := l.secs.mapIdx fun i y => if sel (l.num * 8 + i) then { y with valid := false } else y }
  s.modCore c fun x => { x with lines := (x.lines.map drop).filter (fun l => l.secs.any fun y => !y.isAbsent) }

/-- Acquire(S, addr) of a core's thread. -/
def coreAcquire (s : State) (c : Nat) (sc : Scope) (pa : Nat) : State :=
  match sc with
  | .core => s
  | .die | .dev | .pool | .sys => dropClean s c fun _ => true
  | .stk | .chn => dropClean s c fun sec => samePart sc pa (sec * 64)
  | .bnk => dropClean (applyNotices s (bankOf pa)) c fun sec => samePart sc pa (sec * 64)

/-- A core's thread performs one pushed element of a store walker: the state, and 0x15 when its home is lost (R269, R270). -/
def performElem (s : State) (t : Tid) (ctx : Nat) (w : Walker) (e : DWord × Word × Option Nat) : State × Nat :=
  match checkAccess s t ctx e.1.toNat w.ty.bytes .write false with
  | (s, .error c) => (s, c)
  | (s, .ok p) =>
    let n := w.ty.bytes
    let v := e.2.1.toNat % 2 ^ (8 * n)
    match graverOf p.pa with
    | some g => (controlSend s t g (p.pa % 0x1_0000) e.2.1, 0)
    | none => (if w.bp then bpStore s (t.core?.getD 0) p n v else plateStore s (t.core?.getD 0) ctx p n v, 0)

/-- Elements that have their values, up to the first that has not: those may be performed (R270). -/
def Walker.valued (w : Walker) : List (DWord × Word × Option Nat) := w.pushed.takeWhile fun e => e.2.2.isNone

/-- The addresses of the elements that a thread has pushed and that are not performed. -/
def Thread.pushedAt (th : Thread) : List DWord := th.stores.flatMap fun e => e.2.pushed.map (·.1)

/-- Has a thread pushed an element whose value an outstanding instruction has still to give? Its releases wait (R270). -/
def Thread.pushPends (th : Thread) : Bool := th.stores.any fun e => e.2.pushed.any fun x => x.2.2.isSome

/-- Every pushed element of a thread's store walkers that has its value is performed, in push order. -/
def flushStores (s : State) (t : Tid) : State × Nat :=
  match s.thread t with
  | none => (s, 0)
  | some th =>
    let r := th.stores.foldl (fun (a : State × Nat) e => e.2.valued.foldl (fun a x =>
      let (s, c) := performElem a.1 t th.ctx e.2 x
      (s, max c a.2)) a) (s, 0)
    (r.1.modThread t fun th => { th with stores := th.stores.map fun e =>
      (e.1, { e.2 with pushed := e.2.pushed.drop e.2.valued.length }) }, r.2)

/-- The prefetched elements of a thread's load walkers are discarded, and are read again (R270). -/
def discardFetched (s : State) (t : Tid) : State :=
  s.modThread t fun th => { th with loads := th.loads.map fun e =>
    (e.1, { e.2 with fetched := [], next := e.2.next - e.2.fetched.length }) }

/-- Release of any thread: a Graver's waits for its notices at chn and wider (R219); stream stores come before it (R270). -/
def release (s : State) (t : Tid) (sc : Scope) (pa : Nat) : State × Nat :=
  match t with
  | .graver g _ => (if sc == .bnk then s else applyNotices s (some (g / 2)), 0)
  | .core c _ _ =>
    let (s, e) := flushStores s t
    let (s, e') := coreRelease s c sc pa
    (s, max e e')
  | .proof c _ =>
    let (s, e) := flushStores s t
    let (s, e') := coreRelease s c sc pa
    (s, max e e')
  | .burin c _ => coreRelease s c sc pa

def acquire (s : State) (t : Tid) (sc : Scope) (pa : Nat) : State :=
  match t with
  | .graver _ _ => s
  | .core c _ _ => discardFetched (coreAcquire s c sc pa) t
  | .proof c _ => discardFetched (coreAcquire s c sc pa) t
  | .burin c _ => coreAcquire s c sc pa

/-! ### The SC clocks (R229) -/

/-- A home's number: its die for an L2 slice, 8 + its bank for a bank; past those, pool and remote homes by die. -/
def homeNumber (p : Phys) : Nat :=
  match p.kind, regionOf p.pa with
  | .bs, _ => 8 + (bankOf p.pa).getD 0
  | .pw, some .pool => 4104 + homeOf p.pa
  | .pw, _ => 4112 + homeOf p.pa
  | _, _ => homeOf p.pa

/-- H ← max(H, s) + 1 at the home, C ← max(C, H) at the agent. -/
def scStamp (s : State) (t : Tid) (p : Phys) : State :=
  let c := match t, t.core? with
    | .graver g _, _ => (s.graver g).scClock
    | _, some c => (s.core c).scClock
    | _, none => 0
  let n := homeNumber p
  let h := max (s.homeClocks.getD n 0) c + 1
  let s := { s with homeClocks := s.homeClocks.set n h }
  match t, t.core? with
  | .graver g _, _ => s.modGraver g fun x => { x with scClock := max x.scClock h }
  | _, some c => s.modCore c fun x => { x with scClock := max x.scClock h }
  | _, none => s

/-! ### Accesses of hardware and engines at the homes, by a context's virtual address -/

/-- Whose translations an engine uses (R351): those of a die for its copy engines and its Press, those of the base dies of a
stack for a sequencer; hardware that the spec gives no TLB walks the table. -/
inductive Via where
  | walk
  | die (d : Nat)
  | base (d : Nat)
  deriving DecidableEq, Repr

/-- The TLB entries an engine may use. -/
def Via.tlb (v : Via) (s : State) : List TlbEnt :=
  match v with
  | .walk => []
  | .die d => (s.die d).tlb
  | .base d => (s.die d).baseTlb

/-- An engine's leaf for an address. -/
def engLeaf (s : State) (v : Via) (ctx va : Nat) : Option (Nat × DWord) :=
  match tlbFind (v.tlb s) ctx va with
  | some e => if canonicalVa va then some (e.size, e.leaf) else none
  | none => Machine.walk s ctx va

/-- An engine's miss enters its die's miss table. -/
def engMiss (s : State) (v : Via) (ctx va : Nat) : State :=
  if (tlbFind (v.tlb s) ctx va).isSome then s
  else match v with
    | .walk => s
    | .die d => enterMiss s d ctx va false
    | .base d => enterMiss s d ctx va true

/-- One byte range inside a sector: translated and checked, with no TLB of a core. -/
def engCheck (s : State) (ctx va : Nat) (need : Need) (v : Via := .walk) : Except Nat Phys :=
  match engLeaf s v ctx va with
  | none => .error 0x06
  | some (size, leaf) => match leafCheck s ctx va size leaf need with
    | .error e => .error e
    | .ok p => if p.kind == .device then .error 0x08 else if fencedHome s p.pa then .error 0x15 else .ok p

/-- Reads n bytes, n within one sector. -/
def engRead (s : State) (ctx va n : Nat) (via : Via := .walk) : State × Except Nat Nat :=
  let s := engMiss s via ctx va
  match engCheck s ctx va .read via with
  | .error e => (s, .error e)
  | .ok p =>
    let (s, v, code) := homeRead s (p.pa / 64) p.key
    if code != 0 then (s, .error code) else (s, .ok (secLoad v (p.pa % 64) n))

/-- An atomic update of n bytes by hardware at the home of the location, for a BS page its bank (R208, R213): the value before. -/
def engAtom (s : State) (ctx va n : Nat) (f : Nat → Nat) : State × Except Nat Nat :=
  match engCheck s ctx va .both with
  | .error e => (s, .error e)
  | .ok p =>
    let (s, v, code) := atomRead s p n
    if code != 0 then (s, .error code) else (atomWrite s p n (f v), .ok v)

/-- Writes n bytes, n within one sector. -/
def engWrite (s : State) (ctx va n v : Nat) (via : Via := .walk) : State × Option Nat :=
  let s := engMiss s via ctx va
  match engCheck s ctx va .write via with
  | .error e => (s, some e)
  | .ok p => (homeWrite s (p.pa / 64) p.kind p.key (maskOf (p.pa % 64) n) (placed (p.pa % 64) v), none)

/-- The parts of a byte range that lie in one sector each: address and length. -/
def pieces : Nat → Nat → Nat → List (Nat × Nat)
  | 0, _, _ => []
  | fuel + 1, va, n =>
    if n == 0 then []
    else
      let k := min n (64 - va % 64)
      (va, k) :: pieces fuel (va + k) (n - k)

def piecesOf (va n : Nat) : List (Nat × Nat) := pieces (n / 64 + 2) va n

/-- Reads a range of n bytes, sector by sector: the bytes, or the first fault with its address. -/
def engReadN (s : State) (ctx va n : Nat) (via : Via := .walk) : State × Except (Nat × Nat) (List Byte) :=
  (piecesOf va n).foldl (fun (a : State × Except (Nat × Nat) (List Byte)) x => match a.2 with
    | .error _ => a
    | .ok bs => match engRead a.1 ctx x.1 x.2 via with
      | (s, .error e) => (s, .error (e, x.1))
      | (s, .ok v) => (s, .ok (bs ++ bytesOf x.2 v))) (s, .ok [])

/-- Writes a list of bytes: the first fault with its address ends it. -/
def engWriteN (s : State) (ctx va : Nat) (bs : List Byte) (via : Via := .walk) : State × Option (Nat × Nat) :=
  (piecesOf va bs.length).foldl (fun (a : State × Option (Nat × Nat)) x => match a.2 with
    | some _ => a
    | none => match engWrite a.1 ctx x.1 x.2 (natOf ((bs.drop (x.1 - va)).take x.2)) via with
      | (s, some e) => (s, some (e, x.1))
      | (s, none) => (s, none)) (s, none)

/-- A completion word: its checks, then its data (0x18, 0x17), then the write (R264, R275). -/
def engWord (s : State) (ctx va n v : Nat) (via : Via := .walk) : State × Option Nat :=
  if va % n != 0 then (s, some 0x05) else
  match engCheck s ctx va .write via with
  | .error e => (s, some e)
  | .ok p =>
    let cs := canonSec (p.pa / 64)
    if s.poison.contains cs then (s, some 0x18)
    else if crcBad s cs p.key && (l2Find s (homeOf p.pa) (p.pa / 64)).isNone then (s, some 0x17)
    else engWrite s ctx va n v via

end Sys2Proof.Machine
end

