-- ==== Sys2Proof/Machine/Records.lean ====
section
/-!
DEFINITION. Fault records and queues (R380–R384), notices to sessions (R370), completion counters (R318).
-/
namespace Sys2Proof.Machine

/-- A record's 64 bytes (R380). -/
def FRec.bytes (r : FRec) : List Byte :=
  bytesOf 1 r.code ++ bytesOf 1 r.level ++ bytesOf 1 r.engine ++ bytesOf 1 r.flags ++ bytesOf 4 r.ctx ++
  bytesOf 8 r.launch.toNat ++ bytesOf 4 r.team.toNat ++ bytesOf 4 r.thread.toNat ++ bytesOf 8 r.pc.toNat ++
  bytesOf 8 r.addr.toNat ++ bytesOf 16 r.progress.toNat ++ bytesOf 8 r.time.toNat

/-- Extension records of a long bitmap: 0xFF and the next 504 bits each (R382). -/
def extBytes : Nat → List Bool → List (List Byte)
  | 0, _ => []
  | n + 1, l => if l.isEmpty then [] else (0xFF :: bytesOf 63 (natOfBits (l.take 504))) :: extBytes n (l.drop 504)

def FRec.group (r : FRec) : List (List Byte) := r.bytes :: extBytes r.ext.length r.ext

/-- Sets TRUNC, bit 6 of FLAGS. -/
def FRec.trunc (r : FRec) : FRec := { r with flags := if bitAt r.flags 6 then r.flags else r.flags + 64 }

/-- The first record's address, if one was written, and the failed write's code and address (R382, R384). -/
structure QRes where
  first : DWord
  fail : Option (Nat × Nat)

/-- Adds n to an 8 B word, atomically at its home. -/
def addWord (s : State) (ctx va n : Nat) : State × Except (Nat × Nat) Nat :=
  match engAtom s ctx va 8 fun v => (v + n) % 2 ^ 64 with
  | (s, .error e) => (s, .error (e, va))
  | (s, .ok v) => (s, .ok v)

/-- Writes records at consecutive places. -/
def putRecords (s : State) (ctx q : Nat) : Nat → List (List Byte) → State × Option (Nat × Nat)
  | _, [] => (s, none)
  | h, r :: rs =>
    let va := q + 64 * (h + 1)
    match engWrite s ctx va 64 (natOf r) with
    | (s, some e) => (s, some (e, va))
    | (s, none) => putRecords s ctx q (h + 1) rs

/-- A group of records into a queue (R382). -/
def queueWrite (s : State) (ctx q : Nat) (r : FRec) : State × QRes :=
  let rs := r.group
  let n := rs.length
  match addWord s ctx q n with
  | (s, .error e) => (s, ⟨0, some e⟩)
  | (s, .ok h) => match engRead s ctx (q + 8) 8 with
    | (s, .error e) => (s, ⟨0, some (e, q + 8)⟩)
    | (s, .ok limit) =>
      if h + n ≤ limit then
        let (s, e) := putRecords s ctx q h rs
        (s, ⟨if e.isNone then w64 (q + 64 * (h + 1)) else 0, e⟩)
      else
        let (s, e, k) :=
          if h < limit then
            let (s, e) := putRecords s ctx q h [r.trunc.bytes]
            (s, e, n - 1)
          else (s, none, n)
        match e with
        | some e => (s, ⟨0, some e⟩)
        | none => match addWord s ctx (q + 16) k with
          | (s, .error e) => (s, ⟨0, some e⟩)
          | (s, .ok _) => (s, ⟨if h < limit then w64 (q + 64 * (h + 1)) else 0, none⟩)

/-- A message to a session. -/
def send (s : State) (m : Msg) : State := { s with pkg := { s.pkg with outbox := s.pkg.outbox ++ [m] } }

/-- A dropped-records notice to every owner session of a context (R370). -/
def noticeDropped (s : State) (c : Nat) (n : Nat) : State :=
  s.pkg.sessions.foldl (fun s e => match e.2 with
    | .owner k => if k == c then
        send s { session := e.1, code := 0xFF, status := 0, ctx := c, number := 0,
                 body := bytesOf 4 2 ++ bytesOf 4 c ++ bytesOf 8 n }
      else s
    | _ => s) s

/-- A record dropped on the context's account (R384). -/
def dropRecord (s : State) (c : Nat) : State :=
  match s.ctx c with
  | some x => noticeDropped (s.setCtx c { x with dropped := x.dropped + 1 }) c (x.dropped + 1)
  | none => s

/-- A record into the context fault queue (R383, R384). -/
def postCtx (s : State) (c : Nat) (r : FRec) : State × DWord :=
  match s.ctx c with
  | none => (s, 0)
  | some x =>
    if x.faultQ == 0 then (dropRecord s c, 0)
    else match queueWrite s c x.faultQ.toNat r with
      | (s, ⟨a, none⟩) => (s, a)
      | (s, ⟨_, some _⟩) => (dropRecord s c, 0)

/-- The record R384 writes when a hardware write of code `lost` at an address failed with a code. -/
def lostRec (s : State) (c : Nat) (launch : DWord) (code va lost : Nat) : FRec :=
  { code := code, level := 6, engine := 8, flags := 0, ctx := c, launch := launch, team := 0xFFFF_FFFF,
    thread := 0xFFFF_FFFF, pc := 0, addr := w64 va, progress := BitVec.ofNat 128 lost, time := w64 (s.clkAt 0), ext := [] }

/-- A record into the queue at q of a launch, graph, phase or job, or in its place R384's record. -/
def postQueue (s : State) (c q : Nat) (r : FRec) : State × DWord :=
  match queueWrite s c q r with
  | (s, ⟨a, none⟩) => (s, a)
  | (s, ⟨_, some (code, va)⟩) => ((postCtx s c (lostRec s c r.launch code va r.code)).1, 0)

/-- Counts a record for its launch: number, whether one other than 0x1C came, the first such record's address (R319,
R342). -/
def countFault (s : State) (c l code : Nat) (addr : DWord) : State :=
  s.modLaunch c l fun x =>
    if code == 0x1C then { x with faults := min (x.faults + 1) (2 ^ 32 - 1) }
    else { x with faults := min (x.faults + 1) (2 ^ 32 - 1), marked := true, first := if x.first == 0 then addr else x.first }

/-- Counts a record for one graph, phase or job: number, and the address of the first with a code other than 0x1C (R342). -/
def countUnit (s : State) (c level id code : Nat) (addr : DWord) : State :=
  if id == 0 then s
  else s.modCtx c fun x =>
    let mine (u : UnitFaults) : Bool := u.level == level && u.id == id
    let old := (x.unitFaults.find? mine).getD { level := level, id := id, faults := 0, first := 0 }
    let new : UnitFaults :=
      { old with faults := min (old.faults + 1) (2 ^ 32 - 1), first := if old.first == 0 && code != 0x1C then addr else old.first }
    { x with unitFaults := new :: x.unitFaults.filter fun u => !mine u }

/-- Counts a record of some level for the units of a launch that it concerns: those of its level and above. -/
def countUnits (s : State) (c : Nat) (r : LRec) (level code : Nat) (addr : DWord) : State :=
  let s := if level ≤ 3 then countUnit s c 1 r.graph code addr else s
  let s := if level ≤ 4 then countUnit s c 2 r.phase code addr else s
  countUnit s c 3 r.job code addr

/-- A record of LEVEL 0 to 2 into its launch's queue. -/
def postLaunch (s : State) (c l : Nat) (r : FRec) : State :=
  match s.launchOf c l with
  | none => (postCtx s c r).1
  | some x =>
    let (s, a) := postQueue s c x.rcd.faultQ.toNat r
    countUnits (countFault s c l r.code a) c x.rcd 2 r.code a

/-- The first launch accepted with a graph, phase or job id: the one of the lowest launch id (R383). -/
def firstOf (s : State) (c : Nat) (sel : LRec → Nat) (id : Nat) : Option Launch :=
  (s.launches.filter fun e => e.1.1 == c && sel e.2.rcd == id).foldl
    (fun a e => match a with
      | some (k, x) => if e.1.2 < k then some (e.1.2, e.2) else some (k, x)
      | none => some (e.1.2, e.2)) (none : Option (Nat × Launch)) |>.map (·.2)

/-- Is some launch of this graph, phase or job not complete? -/
def unitLive (s : State) (c : Nat) (sel : LRec → Nat) (id : Nat) : Bool :=
  id != 0 && s.launches.any fun e => e.1.1 == c && sel e.2.rcd == id && e.2.done.isNone

/-- Is some thread of a core, resident or saved, that f takes not exited? -/
def liveThread (s : State) (f : Thread → Bool) : Bool :=
  s.threads.any (fun e => e.1.isCore && f e.2 && e.2.status != .exited) ||
  s.saved.any fun v => v.threads.any fun e => f e.2.2 && e.2.2.status != .exited

/-- The lowest live level for a fault of an asynchronous operation of an issuer (where it issued, and its tix), its team and
launch (R383). A saved thread or team is live; a Burin or Graver thread is in no team. -/
def asyncLevel (s : State) (t : Option (Tid × Nat)) (c l lin : Nat) : Nat :=
  let ofTeam (th : Thread) : Bool := th.ctx == c && th.launch == l && th.team == lin
  let own : Bool := match t with
    | some (.core _ _ _, tix) => liveThread s fun th => ofTeam th && th.tix == tix
    | some (t, _) => match s.thread t with
      | some th => th.status != .exited && ofTeam th
      | none => false
    | none => false
  if own then 0
  else if t.all (·.1.isCore) && liveThread s ofTeam then 1
  else match s.launchOf c l with
    | none => 6
    | some x =>
      if x.done.isNone then 2
      else if unitLive s c (·.graph) x.rcd.graph then 3
      else if unitLive s c (·.phase) x.rcd.phase then 4
      else if unitLive s c (·.job) x.rcd.job then 5
      else 6

/-- A record into the queue of its level (R383). -/
def post (s : State) (c l : Nat) (r : FRec) : State :=
  let up (sel : LRec → Nat) : State := match s.launchOf c l with
    | none => (postCtx s c r).1
    | some x => match firstOf s c sel (sel x.rcd) with
      | some y =>
        let (s, a) := postQueue s c y.rcd.faultQ.toNat r
        countUnits s c x.rcd r.level r.code a
      | none => (postCtx s c r).1
  if r.level ≤ 2 then postLaunch s c l r
  else if r.level == 3 then up (·.graph)
  else if r.level == 4 then up (·.phase)
  else if r.level == 5 then up (·.job)
  else (postCtx s c r).1

/-- A completion counter with a number added and bits of STATUS set (R318). -/
def counterNext (add status v : Nat) : Nat :=
  let hi := (v / 2 ^ 32 + add / 2 ^ 32) % 2 ^ 32
  let done := (v / 2 ^ 16 % 2 ^ 16 + add / 2 ^ 16 % 2 ^ 16) % 2 ^ 16
  hi * 2 ^ 32 + done * 2 ^ 16 + Nat.lor (v % 2 ^ 16) status

/-- An update of a completion counter, atomically at its home (R318); a failed write is reported by R384. -/
def counterUpdate (s : State) (c : Nat) (launch : DWord) (va add status : Nat) : State :=
  match engAtom s c va 8 (counterNext add status) with
  | (s, .error e) => (postCtx s c (lostRec s c launch e va 0)).1
  | (s, .ok _) => s

/-- 1 in UNITS, 1 in DONE. -/
def oneUnit : Nat := 2 ^ 32
def oneDone : Nat := 2 ^ 16

end Sys2Proof.Machine
end

