-- ==== Sys2Proof/Machine/Press.lean ====
section
/-!
DEFINITION. Collective bindings and descriptors, and firing a chunk (R283–R287): what a team's exit and CFIRE share.
-/
namespace Sys2Proof.Machine

/-- A binding of the launch record (R283). -/
structure Binding where
  desc : Nat
  tpp : Nat
  thresh : Nat
  sparse : Bool

/-- Binding i of a record; none when it is unused. -/
def bindingOf (r : LRec) (i : Nat) : Option Binding :=
  match r.binds[i]? with
  | none => none
  | some b =>
    if b == 0 then none
    else
      let n := b.toNat
      some { desc := bits n 63 0, tpp := bits n 79 64, thresh := bits n 111 96, sparse := bitAt n 112 }

/-- A collective descriptor (R284). -/
structure CDesc where
  inbase : Nat
  instride : Nat
  resbase : Nat
  cword : Nat
  peers : Nat
  e : Nat
  c : Nat
  p : Nat
  pbase : Nat
  id : Nat

def CDesc.chunks (d : CDesc) : Nat := ceilDiv d.e d.c

/-- The descriptor's bytes read at their home; a field outside R284's limits is malformed (0x13, log entry 31). -/
def readCDesc (s : State) (ctx va : Nat) : State × Except (Nat × Nat) CDesc :=
  match engReadN s ctx va 64 with
  | (s, .error e) => (s, .error e)
  | (s, .ok bs) =>
    let f (o n : Nat) : Nat := natOf ((bs.drop o).take n)
    let d : CDesc := { inbase := f 0 8, instride := f 8 8, resbase := f 16 8, cword := f 24 8, peers := f 32 8, e := f 40 4,
                       c := f 44 4, p := f 48 4, pbase := f 52 4, id := f 56 4 }
    if d.e == 0 || d.c == 0 || d.c > 65536 || d.p == 0 || d.chunks > 65535 || f 60 4 != 0 then (s, .error (0x13, va))
    else (s, .ok d)

/-- What a firing came to. -/
inductive Fired where
  /-- Counted, or nothing to fire. -/
  | ok
  /-- This participant had fired the chunk (R287). -/
  | again
  /-- The descriptor could not be used: code and address. -/
  | fault (code addr : Nat)

def chunkIs (c l i n : Nat) (x : Chunk) : Bool := x.ctx == c && x.launch == l && x.bind == i && x.chunk == n

/-- A chunk of a binding has an entry. -/
def noteChunk (s : State) (c l i coll n : Nat) : State :=
  if s.chunks.any (chunkIs c l i n) then s
  else { s with chunks := s.chunks ++ [{ ctx := c, launch := l, bind := i, coll := coll, chunk := n, fired := [], teams := [], issuer := none,
                                         remote := [], done := false, code := 0, flags := 0 }] }

/-! ### The collectives that launches bind -/

/-- Has a cancel or a kill stopped a launch? Its chunks that have not completed stay so (R320). -/
def Launch.stopped (x : Launch) : Bool := x.cancelled || x.killed
def launchStopped (s : State) (c l : Nat) : Bool := (s.launchOf c l).any (·.stopped)

/-- The bindings of launches that are neither complete nor stopped. -/
def liveBindings (s : State) : List (Nat × Nat × Nat) :=
  s.launches.flatMap fun e => if e.2.done.isSome || e.2.stopped then [] else
    (List.range 4).filterMap fun i => (bindingOf e.2.rcd i).map fun _ => (e.1.1, e.1.2, i)

/-- The live bindings of a context whose descriptors carry a collective id: launch, binding, descriptor. -/
def bindingsById (s : State) (ctx coll : Nat) : List (Nat × Nat × CDesc) :=
  (liveBindings s).filterMap fun (c, l, i) =>
    if c != ctx then none
    else match (s.launchOf c l).bind fun x => bindingOf x.rcd i with
      | none => none
      | some b => match (readCDesc s c b.desc).2 with
        | .ok d => if d.id == coll then some (l, i, d) else none
        | .error _ => none

def bindingById (s : State) (ctx coll : Nat) : Option (Nat × Nat × CDesc) := (bindingsById s ctx coll).head?

/-- Is some chunk of a launch's bindings neither completed nor ended (R319)? A descriptor that cannot be read counts only the chunks that
have begun here. -/
def chunksOpen (s : State) (c l : Nat) (r : LRec) : Bool :=
  (List.range 4).any fun i => match bindingOf r i with
    | none => false
    | some b =>
      let mine := s.chunks.filter fun x => x.ctx == c && x.launch == l && x.bind == i
      mine.any (fun x => !x.done) || match (readCDesc s c b.desc).2 with
        | .ok d => !(mine.any fun x => x.code == 0x13) && !(List.range d.chunks).all fun n => mine.any (chunkIs c l i n)
        | .error _ => false

/-- What the chunks of a launch that completes leave: nothing, but for a chunk that is not reduced of a collective that another live
launch binds, whose firings stand; without such a launch what other nodes fired for it goes too (DESIGN CHOICE, log entry 41). -/
def dropChunks (s : State) (ctx l : Nat) : State :=
  let shared (x : Chunk) : Bool := !(bindingsById s ctx x.coll).isEmpty
  let mine (x : Chunk) : Bool := x.ctx == ctx && x.launch == l
  let spent (x : Chunk) : Bool := x.ctx == ctx && x.launch == 0 && !shared x &&
    s.chunks.any fun y => mine y && y.coll == x.coll && y.chunk == x.chunk && !(y.done && y.code == 0)
  { s with chunks := (s.chunks.filter fun x => !spent x).filterMap fun x =>
      if !mine x then some x
      else if x.done || !shared x then none else some { x with launch := 0, bind := 0, done := true } }

/-- Has this team fired this chunk? -/
def firedBy (s : State) (c l i n lin : Nat) : Bool := s.chunks.any fun x => chunkIs c l i n x && x.teams.contains lin

/-- Participant `part` fires chunk n of binding i for team `lin` on core k, by a thread's CFIRE (its tix) or by the team's exit: a
release at pool for its input (R235), then the firing is counted. -/
def fire (s : State) (k c l i n lin part : Nat) (d : CDesc) (tix : Option Nat) : State × Fired :=
  let s := (coreRelease s k .pool 0).1
  let by_ := tix.map fun x => (k, lin, x)
  match s.chunks.find? (chunkIs c l i n) with
  | some x =>
    if x.fired.contains part then (s, .again)
    else
      ({ s with chunks := s.chunks.map fun y => if chunkIs c l i n y then
          { y with fired := part :: y.fired, teams := lin :: y.teams, issuer := by_ } else y }, .ok)
  | none =>
    ({ s with chunks := s.chunks ++ [{ ctx := c, launch := l, bind := i, coll := d.id, chunk := n, fired := [part],
                                       teams := [lin], issuer := by_, remote := [], done := false, code := 0, flags := 0 }] }, .ok)

/-- The thread whose CFIRE fired a chunk last (R383): where it issued, and its tix. A team's exit leaves none. -/
def issuerOf (x : Option (Nat × Nat × Nat)) : Option (Tid × Nat) := x.map fun e => (Tid.core e.1 0 0, e.2.2)

/-- A record about a Press chunk: ENGINE 6, the chunk in PROGRESS (R287, R288). -/
def pressRec (s : State) (c l lin code addr progress level : Nat) : FRec :=
  { code := code, level := level, engine := 6, flags := 0, ctx := c, launch := w64 l, team := w32 lin, thread := 0xFFFF_FFFF,
    pc := 0, addr := w64 addr, progress := BitVec.ofNat 128 progress, time := w64 (s.clkAt 0), ext := [] }

/-- R285: what a team's exit fires for binding i. -/
def exitFire (s : State) (k c l lin : Nat) (r : LRec) (i : Nat) : State :=
  match bindingOf r i with
  | none => s
  | some b =>
    if b.tpp == 0 then s
    else match readCDesc s c b.desc with
      | (s, .error (code, va)) => post s c l (pressRec s c l lin code va 0 (asyncLevel s none c l lin))
      | (s, .ok d) =>
        let n := lin % b.tpp
        if n ≥ d.chunks || firedBy s c l i n lin then s
        else match fire s k c l i n lin (d.pbase + lin / b.tpp) d none with
          | (s, .again) => post s c l (pressRec s c l lin 0x1C 0 n (asyncLevel s none c l lin))
          | (s, _) => s

end Sys2Proof.Machine
end

