-- ==== Sys2Proof/Machine/Ops.lean ====
section
/-!
DEFINITION. The named operations over names, cells, outstanding instructions and groups, and the machine's exceptions: taking
a fault (a stopped lane, its record, the stop list or EXIT: R377–R386) and the return from it (PRET, R390).
-/
namespace Sys2Proof.Machine

/-! ### Names and cells (R22–R27) -/

/-- A cell no lane holds anything in. -/
def LaneCell.empty : LaneCell := { val := 0, rel := true, pend := none }
def Cell.empty : Cell := { l0 := .empty, l1 := .empty, l2 := .empty, l3 := .empty, spilled := false, poison := false, set := 0 }

def Cell.lane (c : Cell) (i : Nat) : LaneCell :=
  match i with
  | 0 => c.l0
  | 1 => c.l1
  | 2 => c.l2
  | _ => c.l3

def Cell.setLane (c : Cell) (i : Nat) (x : LaneCell) : Cell :=
  match i with
  | 0 => { c with l0 := x }
  | 1 => { c with l1 := x }
  | 2 => { c with l2 := x }
  | _ => { c with l3 := x }

/-- All four release bits set (R26). -/
def Cell.dead (c : Cell) : Bool := c.l0.rel && c.l1.rel && c.l2.rel && c.l3.rel

/-- What a read of this lane sees now: none is void (R27); while a producer is outstanding, what was there before (R45). -/
def LaneCell.read (x : LaneCell) : Option Word :=
  if x.rel then none
  else match x.pend with
    | some (_, old) => old
    | none => some x.val

/-- The position a v or g name denotes in a thread's window (R23); none for zr, lane, tix and streams. -/
def Thread.pos (th : Thread) : Name → Option Pos
  | .v n => some (.v (th.fb + n.val))
  | .g k => some (.g k.val)
  | _ => none

/-- The name n places after a pair's or quadruple's first (R20). -/
def namePlus (x : Name) (n : Nat) : Name :=
  match x with
  | .v k => if h : k.val + n < 48 then .v ⟨k.val + n, h⟩ else x
  | .g k => if h : k.val + n < 8 then .g ⟨k.val + n, h⟩ else x
  | y => y

/-- The w names of an operand, first name first. -/
def nameGroup (x : Name) (w : Nat) : List Name := (List.range w).map (namePlus x)

namespace State

/-- The cell key of a core thread's position. -/
def cellKey (t : Tid) (p : Pos) : Option CellKey :=
  match t with
  | .core c s l => some { core := c, slot := s, quad := l / 4, pos := p }
  | _ => none

/-- The lane's part of a cell; an absent cell is empty. Fixed storage of the other agents is never void (R17, R182, R386). -/
def laneCell (s : State) (t : Tid) (p : Pos) : LaneCell :=
  match cellKey t p with
  | some k => match s.cells.get k with
    | some c => c.lane (t.lane % 4)
    | none => .empty
  | none => match s.thread t with
    | some th => th.fixedNames.getD p { val := 0, rel := false, pend := none }
    | none => { val := 0, rel := false, pend := none }

/-- Register sets of a core. -/
def roleSets (s : State) (c : Nat) (r : Role) : Nat := ((s.core c).roles.filter (· == r)).length

/-- Is this a cell that stands in bank k of core c (R22)? A spilled name stands in none. -/
def inBank (c k : Nat) (e : CellKey × Cell) : Bool := e.1.core == c && e.1.quad == k && !e.2.spilled

/-- Cells in use for quad index k on core c (R22). -/
def cellsUsed (s : State) (c k : Nat) : Nat := (s.cells.filter (inBank c k)).length

/-- Register sets of a core that no move is changing. -/
def openSets (s : State) (c : Nat) : Nat :=
  s.roleSets c .register - ((s.core c).moving.filter fun m => (s.core c).roles[m]? == some .register).length

/-- Free cells of bank k. -/
def cellsFree (s : State) (c k : Nat) : Nat :=
  Config.cellsPerSet * s.openSets c - (s.cells.filter fun e => inBank c k e && !(s.core c).moving.contains e.2.set).length

/-- Cells of bank k that one register set holds. -/
def setCells (s : State) (c k m : Nat) : Nat := (s.cells.filter fun e => inBank c k e && e.2.set == m).length

/-- The register set that takes the next cell of bank k: of those that are not moving and have a free row, the one with the fewest
cells of the bank, the lowest of equals (R22 leaves the choice open; DESIGN CHOICE, log entry 54). -/
def freeSet (s : State) (c k : Nat) : Option Nat :=
  let open_ := (List.range 64).filter fun m => (s.core c).roles[m]? == some .register && !(s.core c).moving.contains m &&
    decide (s.setCells c k m < Config.cellsPerSet)
  open_.foldl (fun a m => match a with
    | some b => if s.setCells c k m < s.setCells c k b then some m else some b
    | none => some m) none

/-- A cell newly allocated in bank k: no lane holds anything in it. -/
def newCell (s : State) (c k : Nat) : Cell := { Cell.empty with set := (s.freeSet c k).getD 0 }

/-- Stores a cell, or releases it when all four bits are set (R26). -/
def putCell (s : State) (k : CellKey) (c : Cell) : State :=
  if c.dead then { s with cells := s.cells.del k } else { s with cells := s.cells.set k c }

/-- Replaces one lane's part; the other lanes of a new cell have their release bits set (R24). -/
def setLaneCell (s : State) (t : Tid) (p : Pos) (x : LaneCell) : State :=
  match cellKey t p with
  | some k => s.putCell k (((s.cells.get k).getD (s.newCell k.core k.quad)).setLane (t.lane % 4) x)
  | none => s.modThread t fun th => { th with fixedNames := th.fixedNames.set p { x with rel := false } }

/-- What a thread reads at a position: none is void. Fixed storage is never void. -/
def readPos (s : State) (t : Tid) (p : Pos) : Option Word :=
  match cellKey t p with
  | some _ => (s.laneCell t p).read
  | none => match (s.laneCell t p).pend with
    | some (_, old) => some (old.getD 0)
    | none => some (s.laneCell t p).val

/-- An executing write at issue (R24, R45): pending on instruction `seq`, with what was readable before. -/
def writePend (s : State) (t : Tid) (p : Pos) (seq : Nat) (old : Option Word) : State :=
  s.setLaneCell t p { val := 0, rel := false, pend := some (seq, old) }

/-- A write that is readable at once (PWRV, fills, start values). -/
def writeNow (s : State) (t : Tid) (p : Pos) (v : Word) : State := s.setLaneCell t p { val := v, rel := false, pend := none }

/-- A last-use mark (R25); none in fixed storage. -/
def markRel (s : State) (t : Tid) (p : Pos) : State :=
  match cellKey t p with
  | some k => match s.cells.get k with
    | some c => s.putCell k (c.setLane (t.lane % 4) { c.lane (t.lane % 4) with rel := true })
    | none => s
  | none => s

end State

/-! ### Stream walkers (R267–R270) -/

def Walker.total (w : Walker) : Nat := w.counts.foldl (· * ·) 1

/-- Indices (i0, i1, i2) of element e, i0 fastest. -/
def Walker.index (w : Walker) (e : Nat) : List Nat :=
  let c0 := max (w.counts.getD 0 1) 1
  let c1 := max (w.counts.getD 1 1) 1
  [e % c0, e / c0 % c1, e / c0 / c1]

/-- The address of element e. -/
def Walker.addr (w : Walker) (e : Nat) : DWord :=
  ((w.index e).zip w.strides).foldl (fun a x => a + w64 x.1 * x.2.signExtend 64) w.base

/-- End-of-dimension bits that element e completes (R269). -/
def Walker.ends (w : Walker) (e : Nat) : BitVec 3 :=
  let last (d : Nat) : Bool := (w.index e).getD d 0 + 1 == w.counts.getD d 1
  (if last 0 then 1 else 0) ||| (if last 0 && last 1 then 2 else 0) ||| (if last 0 && last 1 && last 2 then 4 else 0)

/-! ### Name-spill slots (R31, R430) -/

def coreNum (t : Tid) : Nat := t.core?.getD 0

/-- A position's slot in its thread's stack region. -/
def spillSlot (s : State) (th : Thread) (p : Pos) : Option Nat :=
  match s.recOf th with
  | none => none
  | some r =>
    let depth := r.depth16 * 16
    let base := r.stackBase.toNat + th.gtid * r.stackBytes
    match p with
    | .v q => some (base + 4 * (q % depth))
    | .g k => some (base + 4 * (depth + k))

/-- The name-spill slots of cells, with the threads whose they are. -/
def slotsOf (s : State) (ks : List CellKey) : List (Tid × Thread × Nat) :=
  ks.flatMap fun k => (List.range 4).filterMap fun i =>
    let t : Tid := .core k.core k.slot (k.quad * 4 + i)
    (s.thread t).bind fun th => (spillSlot s th k.pos).map fun va => (t, th, va)

/-- Do writes or fills of these cells' slots find the miss table full (R29, R30, R351)? -/
def slotsHold (s : State) (ks : List CellKey) : Bool :=
  match slotsOf s ks with
  | [] => false
  | (t, th, va) :: l => missFull s t th.ctx (va :: l.map (·.2.2))

/-- A plain store of a thread to one of its slots, checked under R243. -/
def slotStore (s : State) (t : Tid) (th : Thread) (va : Nat) (v : Word) : State × Option Nat :=
  match checkAccess s t th.ctx va 4 .write false with
  | (s, .error e) => (s, some e)
  | (s, .ok p) => match graverOf p.pa with
    | some g => (controlSend s t g (p.pa % 0x1_0000) v, none)
    | none => (plateStore s (coreNum t) th.ctx p 4 v.toNat, none)

/-- A plain load of a thread from one of its slots. -/
def slotLoad (s : State) (t : Tid) (th : Thread) (va : Nat) : State × Except Nat Word :=
  match checkAccess s t th.ctx va 4 .read false with
  | (s, .error e) => (s, .error e)
  | (s, .ok p) => match graverOf p.pa with
    | some g => (s, .ok (w32 (controlRead s g (p.pa % 0x1_0000) 4)))
    | none =>
      let (s, v, code) := plateLoad s (coreNum t) th.ctx p 4 false
      if code != 0 then (s, .error code) else (s, .ok (w32 v))

/-- One lane of a name is written to its slot: the state, and the check that failed with the slot's address (R430). -/
def spillLane (s : State) (t : Tid) (p : Pos) (v : Word) : State × Option (Nat × DWord) :=
  match s.thread t with
  | none => (s, none)
  | some th => match spillSlot s th p with
    | none => (s, none)
    | some va => match slotStore s t th va v with
      | (s, none) => (s, none)
      | (s, some e) => (s, some (e, w64 va))

/-- A thread whose spill write failed stops before its next issue (R430): once, with the slot that failed first (log entry 71). -/
def noteSpillBad (s : State) (t : Tid) (b : Nat × DWord) : State :=
  s.modThread t fun th => { th with spillBad := th.spillBad.orElse fun _ => some b }

/-- Is the name spilled? -/
def State.isSpilled (s : State) (t : Tid) (p : Pos) : Bool :=
  match State.cellKey t p with
  | some k => ((s.cells.get k).map (·.spilled)).getD false
  | none => false

/-! ### Outstanding instructions (R41, R45, R46) -/

/-- Is the instruction's latency fixed? Its result is then readable in one cycle, neither earlier nor later (R59). -/
def Out.fixed (o : Out) : Bool := o.last == some o.ready

/-- Has it accesses that are not performed? An MLDRED or MSTMC that has sent all of its own has none. -/
def Todo.unsent (x : Todo) : Bool :=
  match x with
  | .reduce _ _ left _ _ _ => !left.isEmpty
  | .multi _ _ _ _ left _ => !left.isEmpty
  | _ => true

/-- Has a thread issued accesses that are not performed (R239, R426)? -/
def Thread.accessPends (th : Thread) : Bool := th.outs.any fun o => o.todo.any (·.unsent)

def Todo.isMulti (x : Todo) : Bool :=
  match x with
  | .multi _ _ _ _ _ _ => true
  | _ => false

/-- Is an acquire of the thread not complete (R228, R245)? -/
def Thread.acqPends (th : Thread) : Bool := th.outs.any (·.acq)

/-- Are stores of an MSTMC of the thread not acknowledged (R425)? -/
def Thread.acksPend (th : Thread) : Bool := th.outs.any fun o => o.todo.any (·.isMulti)

/-- Outstanding instructions of a thread on one flag. -/
def Thread.flagCount (th : Thread) (f : Fin 12) : Nat := (th.outs.filter (·.flag == some f)).length

/-- A result for a name that is spilled goes to the name's slot (R29, R430). -/
def spillResult (s : State) (t : Tid) (p : Pos) (v : Word) : State :=
  if s.isSpilled t p then match spillLane s t p v with
    | (s, some b) => noteSpillBad s t b
    | (s, none) => s
  else s

/-- Results written where no later instruction of the thread has issued a write (R46). Of two outstanding writers of one name the earlier,
if it completes first, leaves nothing: a reader before the later completes finds what was there before both (DEDUCED, log entry 68: R45
leaves that value open). -/
def applyNames (s : State) (t : Tid) (seq : Nat) (names : List (Pos × Word)) : State :=
  names.foldl (fun s e =>
    let x := s.laneCell t e.1
    match x.pend with
    | some (q, _) =>
      if q == seq then (spillResult s t e.1 e.2).setLaneCell t e.1 { x with val := e.2, pend := none } else s
    | none => s) s

/-- Writes predicate k of p0–p6; 7 is pt and discards (R18, R64). -/
def setPred (p : BitVec 7) (k : Fin 8) (b : Bool) : BitVec 7 :=
  if b then p ||| (1#7 <<< k.val) else p &&& ~~~(1#7 <<< k.val)

/-- Predicate k; 7 is pt, always true. -/
def getPred (p : BitVec 7) (k : Fin 8) : Bool := k == 7 || p.getLsbD k.val

def applyPreds (th : Thread) (seq : Nat) (ps : List (Fin 8 × Bool)) : Thread :=
  ps.foldl (fun th e =>
    if th.predPend.get e.1 == some seq then
      { th with preds := setPred th.preds e.1 e.2, predPend := th.predPend.del e.1 }
    else th) th

/-- One push to a walker (R269): the element is queued, with the instruction that has still to give its value, and the
end-of-dimension bits it completes are set. -/
def Walker.push (w : Walker) (v : Word) (seq : Option Nat) : Walker :=
  { w with pushed := w.pushed ++ [(w.addr w.next, v, seq)], next := w.next + 1, eod := w.eod ||| w.ends w.next }

/-- The value of an element that was pushed without one. -/
def Walker.giveValue (w : Walker) (seq : Nat) (v : Word) : Walker :=
  { w with pushed := w.pushed.map fun e => if e.2.2 == some seq then (e.1, v, none) else e }

/-- The result of an instruction that has issued goes to the store stream that its destination names. -/
def pushValue (th : Thread) (k : Fin 4) (seq : Nat) (v : Word) : Thread :=
  match th.stores.get k.val with
  | some w => { th with stores := th.stores.set k.val (w.giveValue seq v) }
  | none => th

/-- An outstanding instruction completes: its results become readable, its FPST bits are ORed in the same step (R115), its
flag clears; a fault its data raised stops the lane before its next slot (R378). -/
def complete (s : State) (t : Tid) (seq : Nat) : State :=
  match s.thread t with
  | none => s
  | some th => match th.outs.find? (·.seq == seq) with
    | none => s
    | some o =>
      let s := applyNames s t seq o.names
      s.modThread t fun th =>
        let th := applyPreds (o.push.elim th fun k => pushValue th k seq o.value) seq o.preds
        { th with fpst := th.fpst ||| o.fpst, outs := th.outs.filter (·.seq != seq),
                  deferred := th.deferred.orElse fun _ => o.late }

/-- Gives a held instruction its results: values for its destination names, predicates. -/
def giveResults (s : State) (t : Tid) (seq : Nat) (vals : List Word) (preds : List (Fin 8 × Bool)) : State :=
  s.modThread t fun th =>
    let pushed := (th.outs.find? (·.seq == seq)).bind (·.push)
    let th := match pushed with
      | some k => pushValue th k seq (vals.headD 0)
      | none => th
    { th with outs := th.outs.map fun o =>
        if o.seq == seq then { o with names := (o.names.map (·.1)).zip vals, push := none, preds := preds, held := false } else o }

/-- Gives an outstanding instruction its results, and completes it. -/
def finish (s : State) (t : Tid) (seq : Nat) (vals : List Word) (preds : List (Fin 8 × Bool)) : State :=
  complete (giveResults s t seq vals preds) t seq

/-- An outstanding instruction ends by a fault in its lane: its flag clears and its destinations keep their values (R41,
R377). -/
def abandon (s : State) (t : Tid) (seq : Nat) : State :=
  match s.thread t with
  | none => s
  | some th =>
    let back (s : State) (p : Pos) (x : LaneCell) : State := match x.pend with
      | some (q, old) =>
        if q == seq then s.setLaneCell t p { val := old.getD 0, rel := old.isNone, pend := none } else s
      | none => s
    let s := match t with
      | .core c sl l =>
        let mine : Tab CellKey Cell := s.cells.filter fun e => e.1.core == c && e.1.slot == sl && e.1.quad == l / 4
        mine.foldl (fun (s : State) (e : CellKey × Cell) => back s e.1.pos (e.2.lane (l % 4))) s
      | _ => th.fixedNames.foldl (fun (s : State) (e : Pos × LaneCell) => back s e.1 e.2) s
    s.modThread t fun th => { th with outs := th.outs.filter (·.seq != seq),
                                      predPend := th.predPend.filter fun e => e.2 != seq,
                                      stores := th.stores.map fun e => (e.1, { e.2 with
                                        pushed := e.2.pushed.filter fun x => x.2.2 != some seq }) }

/-! ### Groups (R310–R314) -/

/-- A group that has not issued: its first slot may not chain (R43). -/
def Group.start (q : Nat) (whole : Bool) (ts : List Tid) (rest : List (List Tid)) : Group :=
  { mem := ts, quadrant := q, whole := whole, fresh := true, readyAt := none, promoted := false, yld := none, stalled := none,
    reading := none, rest := rest }

/-- What a warp bin releases after this group (R313): the group of the next PC. -/
def Group.after (g : Group) : List Group :=
  match g.rest with
  | [] => []
  | ts :: rest => [Group.start g.quadrant true ts rest]

/-- A group without some threads: one that loses a thread may not chain its next slot (R43). -/
def Group.without (g : Group) (f : Tid → Bool) : Group :=
  { g with mem := g.mem.filter fun t => !f t, fresh := g.fresh || g.mem.any f,
           rest := (g.rest.map fun ts => ts.filter fun t => !f t).filter fun ts => !ts.isEmpty }

/-- A group, or what comes after it when it has no thread left. -/
def Group.settle (g : Group) : List Group := if g.mem.isEmpty then g.after else [g]

/-- The issue agent of a group: a core's quadrants 0–3, its Burin contexts 4–7, its proof slot 8; Graver contexts stand
after the cores. -/
def Group.agent (g : Group) : Nat × Nat :=
  match g.mem with
  | .core c _ _ :: _ => (c, g.quadrant)
  | .burin c k :: _ => (c, 4 + k)
  | .proof c _ :: _ => (c, 8)
  | .graver i _ :: _ => (Config.cores + i, 0)
  | [] => (0, 9)

/-- The quadrant of a warp slot (R12). -/
def slotQuadrant (t : Tid) : Nat :=
  match t with
  | .core _ sl _ => sl / Config.warpsPerQuadrant
  | _ => 0

namespace State

/-- Takes threads out of every group; a group left empty goes, and what its warp bin released with it comes (R313). -/
def dropMembers (s : State) (f : Tid → Bool) : State :=
  { s with groups := s.groups.flatMap fun g => (g.without f).settle }

/-- Takes a thread out of every group. -/
def leaveGroups (s : State) (t : Tid) : State := s.dropMembers (· == t)

/-- Adds a group of these threads, fresh (R43). -/
def addGroup (s : State) (q : Nat) (whole : Bool) (ts : List Tid) : State :=
  if ts.isEmpty then s else { s with groups := s.groups ++ [Group.start q whole ts []] }

def pcOf (s : State) (t : Tid) : DWord := match s.thread t with | some th => th.pc | none => 0

/-- A new group for threads that leave a wait together: one per warp and PC. -/
def wakeGo (s : State) : Nat → List Tid → State
  | 0, _ => s
  | _ + 1, [] => s
  | n + 1, t :: ts =>
    let same (u : Tid) : Bool := t.sameWarp u && s.pcOf u == s.pcOf t
    wakeGo (s.addGroup (slotQuadrant t) false (t :: ts.filter same)) n (ts.filter fun u => !same u)

/-- Threads run on from where they stand. -/
def wake (s : State) (ts : List Tid) : State :=
  let s := ts.foldl (fun s t => s.modThread t fun th => { th with status := .running }) s
  s.wakeGo ts.length ts

/-- Non-exited threads of a team, in slot order. -/
def liveThreads (s : State) (c l lin : Nat) : List (Tid × Thread) :=
  s.threads.filter fun e => e.1.isCore && e.2.ctx == c && e.2.launch == l && e.2.team == lin && e.2.status != .exited

end State

/-! ### Warp bins (R313) -/

/-- The non-exited threads of a warp, in home-lane order. -/
def warpLive (s : State) (t : Tid) : List Tid :=
  ((List.range t.width).map t.mate).filter fun u => match s.thread u with
    | some th => th.status != .exited
    | none => false

/-- Distinct values in ascending order. -/
def insertPc (x : DWord) : List DWord → List DWord
  | [] => [x]
  | y :: l => if x == y then y :: l else if x < y then x :: y :: l else y :: insertPc x l

/-- Releases a warp's bin when every non-exited thread of the warp is filed in it: one group per PC, ascending, one after
another (R313). -/
def warpBinRelease (s : State) (t : Tid) : State :=
  let ts := warpLive s t
  let filed (u : Tid) : Bool := match s.thread u with | some th => th.status == .inWarpBin | none => false
  if ts.isEmpty || !ts.all filed then s
  else
    let pcs := ts.foldl (fun l u => insertPc (s.pcOf u) l) []
    let s := ts.foldl (fun s u => s.modThread u fun th => { th with status := .running }) s
    match pcs.map fun pc => ts.filter fun u => s.pcOf u == pc with
    | [] => s
    | us :: rest => { s with groups := s.groups ++ [Group.start (slotQuadrant t) true us rest] }

/-- Files threads of one group into their warps' bins. The slot that files them is not their last issue, as it has not executed: what is
released counts DIST from the slot before (DESIGN CHOICE, log entry 84: R42 and R53 do not say). -/
def fileWarp (s : State) (ts : List Tid) : State :=
  let s := ts.foldl (fun s t => (s.leaveGroups t).modThread t fun th => { th with status := .inWarpBin }) s
  ts.foldl warpBinRelease s

/-! ### Barriers that exits and arrivals complete (R257, R317) -/

def isTbar (st : Status) : Option Nat := match st with | .waiting (.tbar q) => some q | _ => none
def isGbar (st : Status) : Option Nat := match st with | .waiting (.gbar q) => some q | _ => none

/-- Completes a wait of each thread: its instruction ends, and it runs on. -/
def endWaits (s : State) (ts : List (Tid × Nat)) : State :=
  let s := ts.foldl (fun s e => finish s e.1 e.2 [] []) s
  s.wake (ts.map (·.1))

/-- TBAR of a team: complete when every non-exited thread waits in it; its return is an acquire at core (R238). -/
def tbarCheck (s : State) (c l lin : Nat) : State :=
  let ts := s.liveThreads c l lin
  let ws := ts.filterMap fun e => (isTbar e.2.status).map fun q => (e.1, q)
  if ts.isEmpty || ws.length != ts.length then s
  else endWaits (ws.foldl (fun s e => acquire s e.1 .core 0) s) ws

/-- One clock step of 100 MHz, between 3,600 and 4,400 and under the die's ceiling (R317, R405). -/
def stepUp (ceiling mhz : Nat) : Nat := if mhz + 100 ≤ min 4400 ceiling then mhz + 100 else mhz
def stepDown (mhz : Nat) : Nat := if 3700 ≤ mhz then mhz - 100 else mhz

/-- A core's clock takes a step: the cycles at its old step are counted (R373). -/
def Core.setClk (x : Core) (now mhz : Nat) : Core :=
  { x with cycAcc := x.cycAcc + (now - x.cycAt) * x.clk, cycAt := now, clk := mhz, clkNext := none }

/-- Cycles of a core's own clock since it took its context (R373). -/
def Core.cycles (x : Core) (now : Nat) : Nat := (x.cycAcc + (now - x.cycAt) * x.clk) / 4000

/-- The ranking at a completed phase whose arrivals came from two or more cores (R317): the last core rises, the first falls.
`arr` holds each arrival's core and cycle; ties go to the lower core. -/
def rankCores (s : State) (arr : List (Nat × Nat)) : State :=
  let cores := (arr.map (·.1)).eraseDups
  let lastOf (c : Nat) : Nat := (arr.filter (·.1 == c)).foldl (fun m e => max m e.2) 0
  let s := cores.foldl (fun s c => s.modCore c fun x => { x with lastPhase := s.now }) s
  match cores with
  | c0 :: rest =>
    if rest.isEmpty then s
    else
      let late := rest.foldl (fun b c => if lastOf c > lastOf b || (lastOf c == lastOf b && c < b) then c else b) c0
      let early := rest.foldl (fun b c => if lastOf c < lastOf b || (lastOf c == lastOf b && c < b) then c else b) c0
      if late == early then s
      else
        let s := s.modCore late fun x =>
          { x with clkNext := some (stepUp (s.die (late / Config.coresPerDie)).ceiling (x.clkNext.getD x.clk)) }
        s.modCore early fun x => { x with clkNext := some (stepDown (x.clkNext.getD x.clk)) }
  | [] => s

/-- The cycle an outstanding instruction issued or may complete. -/
def Thread.outReady (th : Thread) (seq : Nat) : Nat := ((th.outs.find? (·.seq == seq)).map (·.ready)).getD 0

/-- GBAR of a gang: complete when every non-exited thread of every team of the gang waits in it. A team that is saved out or
not yet placed holds the phase open. -/
def gbarCheck (s : State) (c l lin : Nat) : State :=
  match s.launchOf c l with
  | none => s
  | some x =>
    let g := max x.rcd.gang 1
    let lins := (List.range g).map (lin / g * g + ·)
    let resident (n : Nat) : Bool := s.teams.any fun e => e.2.ctx == c && e.2.launch == l && e.2.lin == n
    if !lins.all (fun n => resident n || x.ended.contains n) then s
    else
      let ts := lins.flatMap fun n => s.liveThreads c l n
      let ws := ts.filterMap fun e => (isGbar e.2.status).map fun q => (e.1, q)
      if ts.isEmpty || ws.length != ts.length then s
      else
        let arr := ts.filterMap fun e => (isGbar e.2.status).map fun q => (coreNum e.1, e.2.outReady q)
        let s := ws.foldl (fun s e => acquire s e.1 .die 0) s
        rankCores (endWaits s ws) arr

/-- The warp of a Graver thread. -/
def graverWarp (t : Tid) : Nat :=
  match t with
  | .graver _ x => x / 8
  | _ => 0

/-- TBAR of a Graver context counts its warps (R257): complete when a thread of every warp that has not exited waits in it. That one
thread makes its warp arrive is the model's reading (DESIGN CHOICE, log entry 86). -/
def graverTbarCheck (s : State) (g : Nat) : State :=
  let ts := s.threads.filter fun e => (match e.1 with | .graver i _ => i == g | _ => false) && e.2.status != .exited
  let ws := ts.filterMap fun e => (isTbar e.2.status).map fun q => (e.1, q)
  if ws.isEmpty || !ts.all (fun e => ws.any fun w => graverWarp w.1 == graverWarp e.1) then s else endWaits s ws

/-! ### EXIT (R336) and the ends that follow -/

/-- Has a Burin context's contribution been sent to a peer that has not applied it (R203)? -/
def sentFrom (s : State) (id : Nat) : Bool :=
  s.burins.any fun e => e.2.inbox.any fun x => x.sender == id && x.sent

/-- Is the save of a Burin's context requested (R194)? -/
def burinAsked (s : State) (t : Tid) : Bool :=
  match t with
  | .burin c k => match s.burin c k with
    | some b => b.saveReq
    | none => false
  | _ => false

/-- Has a Burin context forms that go on without its thread (R193): some queued, or a drain-add that a peer has not applied? -/
def tileBusy (s : State) (c k : Nat) : Bool :=
  match s.burin c k with
  | none => false
  | some b => !b.queue.isEmpty || sentFrom s b.id

/-- A Burin context whose thread has exited or stopped frees its number once its queued forms have completed, its drain-adds at
their peers too (R181, R183), and it has applied what it accepted. Of one that a fault stopped R181 asks this of every class 0xD form, R183
of its queued operations: an arming MARM, which has taken effect at its issue (R202) and stands in no queue, keeps no context (DEDUCED,
log entry 70). -/
def burinReap (s : State) (c k : Nat) : State :=
  match s.thread (.burin c k), s.burin c k with
  | some th, some b =>
    if (th.status == .exited || th.status == .stopped) && !tileBusy s c k && b.inbox.isEmpty then
      { s with burins := s.burins.del (c, k), threads := s.threads.del (.burin c k) }
    else s
  | _, _ => s

/-- Removes the threads that a predicate takes. -/
def dropThreads (s : State) (f : Tid → Thread → Bool) : State :=
  { s with threads := s.threads.filter (fun (e : Tid × Thread) => !f e.1 e.2) }

/-- Disarms the objects in a team's scratch when the team's scratch goes. -/
def dropBarriers (s : State) (c l lin : Nat) : State :=
  let other (b : BarObj) : Bool := !(b.key.ctx == c && b.key.launch == l && b.key.team == lin)
  { s with cores := s.cores.map fun (e : Nat × Core) => (e.1, { e.2 with barriers := e.2.barriers.filter other }) }

/-- Does a copy command name a scratch operand (R261)? -/
def Copy.scratch (x : Copy) : Bool := bitAt x.flags 0 || bitAt x.flags 1

/-- Is every team of this team's gang out of its threads, with no copy left that names its scratch? A gang's scratch stays
allotted until then (R242, R263). -/
def gangOver (s : State) (c l lin g : Nat) : Bool :=
  (List.range g).all (fun i =>
    let n := lin / g * g + i
    (s.liveThreads c l n).isEmpty && !(s.saved.any fun v => v.team.ctx == c && v.team.launch == l && v.team.lin == n)) &&
  !(s.copies.any fun x => x.ctx == c && x.launch == l && x.team / g == lin / g && x.scratch)

/-- Frees the teams of a gang that is over: their scratch sets and barrier objects. -/
def gangSweep (s : State) (c l lin : Nat) : State :=
  match s.launchOf c l with
  | none => s
  | some x =>
    let g := max x.rcd.gang 1
    if gangOver s c l lin g then
      (List.range g).foldl (fun s i =>
        let n := lin / g * g + i
        let s := dropBarriers s c l n
        { s with teams := s.teams.filter fun e => !(e.2.ctx == c && e.2.launch == l && e.2.lin == n) }) s
    else s

/-- Where a team that has ended keeps the scratch it may still owe to its gang or to a copy (R242, R263): past the team slots of
its core, the lowest free number. Its team slot is free (R421). -/
def endedKey (s : State) (c : Nat) : Nat × Nat :=
  (c, Config.teamSlots + ((List.range s.teams.length).find? fun i => !s.teams.has (c, Config.teamSlots + i)).getD s.teams.length)

/-- A team ends when its last thread exits (R336): it is counted unless its launch was stopped, it fires its bound chunks
(R285), its team slot and its warp slots become free; its scratch goes with the last team of its gang. -/
def teamEnd (s : State) (key : Nat × Nat) : State :=
  match s.teams.get key with
  | none => s
  | some tm =>
    match s.launchOf tm.ctx tm.launch with
    | none => { s with teams := s.teams.del key }
    | some x =>
      if x.ended.contains tm.lin then s
      else
        let stopped := x.stopped
        let s := if stopped then s
          else (List.range 4).foldl (fun s i => exitFire s key.1 tm.ctx tm.launch tm.lin x.rcd i) s
        let s := s.modLaunch tm.ctx tm.launch fun x =>
          { x with ended := tm.lin :: x.ended, live := x.live - 1 }
        let s := if stopped then s else counterUpdate s tm.ctx (w64 tm.launch) x.rcd.counter.toNat oneUnit 0
        let s := dropThreads s fun t th => t.isCore && th.ctx == tm.ctx && th.launch == tm.launch && th.team == tm.lin
        let s := { s with teams := s.teams.del key }
        gangSweep (s.setTeam (endedKey s key.1) { tm with warps := [] }) tm.ctx tm.launch tm.lin

/-- The release bits of a lane in every cell of its quad (R24, R336). -/
def releaseLane (s : State) (t : Tid) : State :=
  match t with
  | .core c sl l => { s with cells := (s.cells.map fun e =>
      if e.1.core == c && e.1.slot == sl && e.1.quad == l / 4 then
        (e.1, e.2.setLane (l % 4) { e.2.lane (l % 4) with rel := true }) else e).filter fun e => !e.2.dead }
  | _ => s

/-- Takes a thread out of the bins of its core (R310). -/
def leaveBins (s : State) (t : Tid) : State :=
  match t with
  | .core c _ _ =>
    let less (l : List BinEntry) : List BinEntry :=
      (l.map fun e => { e with mem := e.mem.filter (· != t) }).filter fun e => !e.mem.isEmpty
    s.modCore c fun x =>
      { x with bins := (x.bins.map fun b => (b.1, { b.2 with entries := less b.2.entries })).filter fun b =>
          !b.2.entries.isEmpty }
  | _ => s

/-- A record of a fault that comes after its thread has exited, at the lowest live level (R336, R383). -/
def postRetired (s : State) (t : Tid) (th : Thread) (r : FRec) : State :=
  match t with
  | .core _ _ _ => post s th.ctx th.launch { r with level := asyncLevel s (some (t, th.tix)) th.ctx th.launch th.team }
  | .burin _ _ => post s th.ctx th.launch { r with level := asyncLevel s none th.ctx th.launch (2 ^ 32 - 1) }
  | _ => (postCtx s th.ctx { r with level := 6 }).1

/-- Faults that the data of a thread that has exited raised: no lane stops for them, and DEFERRED is clear. -/
def postLates (s : State) (t : Tid) (th : Thread) (rs : List FRec) : State :=
  rs.foldl (fun s r => postRetired s t th { r with flags := r.flags % 128 }) s

/-- A thread that has exited: nothing of it is outstanding, but for the forms that a Burin context has queued (R193). -/
def Thread.exit (th : Thread) (t : Tid) : Thread :=
  { th with status := .exited, outs := if t.isBurin then th.outs.filter (·.todo.isNone) else [], loads := [], stores := [], arrivals := [],
            deferred := none, spillBad := none, stop := none }

/-- What a thread that exits has issued and not seen complete (R336, R383): pushed stream elements are performed, an element or a
load that fails is reported for a retired issuer, and what has still to do at memory goes on without its thread. The rest of its
instructions leave nothing to be seen. -/
def finishIssued (s : State) (t : Tid) (th : Thread) : State :=
  let s := postLates s t th (th.deferred.toList ++ th.outs.filterMap (·.late))
  let s := { s with orphans := s.orphans ++ (th.outs.filter (·.todo.isSome)).map fun o => (t, th.exit t, o) }
  th.stores.foldl (fun s e => (e.2.valued.foldl (fun (a : State × Nat) x =>
    let (s, code) := performElem a.1 t th.ctx e.2 x
    if code == 0 then (s, a.2 + 1)
    else
      let n := e.2.next - e.2.pushed.length + a.2
      let r : FRec := { code := code, level := 0, engine := 3, flags := 0, ctx := th.ctx, launch := w64 th.launch,
                        team := w32 th.team, thread := w32 th.tix, pc := 0, addr := x.1, progress := BitVec.ofNat 128 n,
                        time := w64 (s.clkAt t.die), ext := [] }
      (postRetired s t th r, a.2 + 1)) (s, 0)).1) s

/-- EXIT of one thread (R336). -/
def exitThread (s : State) (t : Tid) : State :=
  match s.thread t with
  | none => s
  | some th =>
    if th.status == .exited then s
    else
      let s := leaveBins (s.leaveGroups t) t
      let s := finishIssued (s.setThread t (th.exit t)) t th
      let s := releaseLane s t
      match t with
      | .core c sl l =>
        let s := s.modCore c fun x => { x with stopList := x.stopList.filter (· != t) }
        let s := warpBinRelease s (.core c sl l)
        let s := tbarCheck s th.ctx th.launch th.team
        let s := gbarCheck s th.ctx th.launch th.team
        if (s.liveThreads th.ctx th.launch th.team).isEmpty then
          match s.teamAt c th.ctx th.launch th.team with
          | some (key, _) => teamEnd s key
          | none => s
        else s
      | .proof c _ =>
        let s := warpBinRelease s t
        let rest := s.threads.filter fun e =>
          (match e.1 with | .proof k _ => k == c | _ => false) && e.2.status != .exited
        if rest.isEmpty then
          (dropThreads s fun u _ => match u with | .proof k _ => k == c | _ => false).modCore c fun x =>
            { x with proofOn := false }
        else s
      | .burin c k => burinReap (s.modBurin c k fun b => { b with header := none }) c k
      | .graver g _ => graverTbarCheck (warpBinRelease s t) g

/-! ### Taking a fault (R377–R386) -/

/-- The record of a fault of thread t at its instruction. -/
def threadRec (s : State) (t : Tid) (th : Thread) (code flags : Nat) (pc addr : DWord) (progress : Nat) : FRec :=
  let base : FRec :=
    { code := code, level := 0, engine := 0, flags := flags, ctx := th.ctx, launch := w64 th.launch, team := w32 th.team,
      thread := w32 th.tix, pc := pc, addr := addr, progress := BitVec.ofNat 128 progress, time := w64 (s.clkAt t.die),
      ext := [] }
  match t with
  | .core _ _ _ => base
  | .burin _ _ => { base with engine := 1, team := 0xFFFF_FFFF, thread := 0xFFFF_FFFF }
  | .proof _ _ => { base with level := 6, engine := 9, launch := 0, team := 0xFFFF_FFFF }
  | .graver g _ => { base with level := 6, engine := 4, launch := 0, team := 0xFFFF_FFFF, thread := w32 g }

/-- The proof slot goes idle; every thread then on the stop list acts as EXIT (R386). -/
def proofFault (s : State) (c : Nat) : State :=
  let s := s.dropMembers fun u => match u with | .proof k _ => k == c | _ => false
  let s := dropThreads s fun u _ => match u with | .proof k _ => k == c | _ => false
  let ts := (s.core c).stopList
  ts.foldl exitThread (s.modCore c fun x => { x with proofOn := false, stopList := [] })

/-- Is this a thread of Graver context g? -/
def ofGraver (g : Nat) (u : Tid) : Bool :=
  match u with
  | .graver i _ => i == g
  | _ => false

/-- A Graver context ends: STATE, the code, no thread running (R275). Its names and predicates stay until its next start (R17). -/
def graverStop (s : State) (g state code : Nat) : State :=
  let s := s.dropMembers (ofGraver g)
  let s := { s with threads := s.threads.map fun (e : Tid × Thread) => if ofGraver g e.1 then (e.1, e.2.exit e.1) else e }
  s.modGraver g fun x => { x with state := state, code := code }

/-- Does thread t, stopping now, stand before thread u on a stop list? Threads that stop in one cycle are listed in ascending
global thread number (R386). -/
def stopsBefore (s : State) (t u : Tid) : Bool :=
  match s.thread t, s.thread u with
  | some th, some uh => uh.stoppedAt == s.now && decide (th.gtid < uh.gtid)
  | _, _ => false

/-- A stop list with a thread that stops now: after those that stopped before. -/
def stopInsert (s : State) (t : Tid) : List Tid → List Tid
  | [] => [t]
  | u :: l => if stopsBefore s t u then t :: u :: l else u :: stopInsert s t l

/-- TAKING A FAULT: thread t stops with record r and its PC at `pc` (R377). A core thread's record goes to its launch's
queue, the thread joins its core's stop list after it, and with no handler it acts as EXIT (R385). `mates` names the threads
that stopped together (R390). -/
def takeFault (s : State) (t : Tid) (r : FRec) (pc : DWord) (mates : Nat) : State :=
  match s.thread t with
  | none => s
  | some th =>
    let s := (leaveBins (s.leaveGroups t) t).setThread t
      { th with status := .stopped, pc := pc, stop := some r, stopMates := mates, act := false, pcWritten := false,
                deferred := none, stoppedAt := s.now }
    match t with
    | .core c _ _ =>
      let s := postLaunch s th.ctx th.launch r
      let s := s.modCore c fun x => { x with stopList := stopInsert s t x.stopList }
      match s.ctx th.ctx with
      | some x => if x.handler == 0 then exitThread s t else s
      | none => exitThread s t
    | .burin c k => burinReap ((postLaunch s th.ctx th.launch r).modBurin c k fun b => { b with header := none }) c k
    | .proof c _ => proofFault (postCtx s th.ctx r).1 c
    | .graver g _ => graverStop (postCtx s th.ctx r).1 g 3 r.code

/-- Insertion by a key, after equal keys. -/
def insertBy {α : Type} (key : α → Nat) (x : α) : List α → List α
  | [] => [x]
  | y :: l => if key x < key y then x :: y :: l else y :: insertBy key x l

def sortBy {α : Type} (key : α → Nat) (l : List α) : List α := l.foldl (fun a x => insertBy key x a) []

/-- The threads of a list, in ascending global thread number, ties in list order (R244, R386). -/
def byOrder (s : State) (ts : List Tid) : List Tid :=
  sortBy (fun t => match s.thread t with | some th => th.gtid | none => 0) ts

/-- A fault that stops every thread of a group at its slot (R61). -/
def groupFaultAt (s : State) (ts : List Tid) (code : Nat) (addr : DWord) : State :=
  let (n, s) := s.fresh
  (byOrder s ts).foldl (fun s t => match s.thread t with
    | some th => takeFault s t (threadRec s t th code 0 th.pc addr 0) th.pc n
    | none => s) s

/-- The same for a fault of the word itself, which has no address. -/
def groupFault (s : State) (ts : List Tid) (code : Nat) : State := groupFaultAt s ts code 0

/-! ### Resuming (R390) -/

/-- Files threads in a bin of their core by launch and PC (R310): false when no bin is free. -/
def binFor (x : Core) (launch : Nat) (pc : DWord) : Option Nat :=
  match x.bins.find? fun b => b.2.launch == launch && b.2.pc == pc with
  | some b => some b.1
  | none => (List.range Config.bins).find? fun i => !x.bins.has i

def binInsert (es : List BinEntry) (sl q fb : Nat) (t : Tid) (now : Nat) : List BinEntry :=
  match es with
  | [] => [{ slot := sl, quad := q, fb := fb, mem := [t], filed := now }]
  | e :: es =>
    if e.slot == sl && e.quad == q && e.fb == fb then { e with mem := e.mem ++ [t] } :: es
    else e :: binInsert es sl q fb t now

/-- A bin draw (R311): the oldest entry of each slot, ties to the lower warp slot, as one group in the quadrant with the
fewest groups. -/
def binDraw (s : State) (c b : Nat) : State :=
  match (s.core c).bins.get b with
  | none => s
  | some bin =>
    let best (q : Nat) : Option BinEntry := (bin.entries.filter (·.quad == q)).foldl (fun a e => match a with
      | none => some e
      | some y => if e.filed < y.filed || (e.filed == y.filed && e.slot < y.slot) then some e else some y) none
    let take := (List.range 8).filterMap best
    let rest := bin.entries.filter fun e => !take.contains e
    let s := s.modCore c fun x =>
      { x with bins := if rest.isEmpty then x.bins.del b else x.bins.set b { bin with entries := rest } }
    let count (q : Nat) : Nat := (s.groups.filter fun g => g.agent == (c, q)).length
    let q := (List.range 4).foldl (fun a q => if count q < count a then q else a) 0
    let ts := take.flatMap (·.mem)
    let s := ts.foldl (fun s t => s.modThread t fun th => { th with status := .running }) s
    s.addGroup q false ts

/-- Is every quad slot of a bin taken? -/
def binFull (bin : Bin) : Bool := (List.range 8).all fun q => bin.entries.any (·.quad == q)

/-- Files one core thread by its PC, and draws the bin when it is full: false when no bin is free. -/
def fileBin (s : State) (t : Tid) : State × Bool :=
  match t, s.thread t with
  | .core c sl l, some th =>
    match binFor (s.core c) th.launch th.pc with
    | none => (s, false)
    | some b =>
      let s := (s.leaveGroups t).modThread t fun th => { th with status := .inBin }
      let s := s.modCore c fun x =>
        let bin := (x.bins.get b).getD { launch := th.launch, pc := th.pc, entries := [] }
        { x with bins := x.bins.set b { bin with entries := binInsert bin.entries sl (l / 4) th.fb t s.now } }
      (s, true)
  | _, _ => (s, false)

/-- Draws a bin for as long as it is full (R311). -/
def drawBin (s : State) (c b : Nat) : Nat → State
  | 0 => s
  | n + 1 => match (s.core c).bins.get b with
    | some bin => if binFull bin then drawBin (binDraw s c b) c b n else s
    | none => s

/-- Draws every bin of a core that is full: at most once for each eight of its entries. -/
def drawFull (s : State) (c : Nat) : State :=
  (List.range Config.bins).foldl (fun s b => match (s.core c).bins.get b with
    | some bin => drawBin s c b bin.entries.length
    | none => s) s

end Sys2Proof.Machine
end

