-- ==== Sys2Proof/Machine/Operands.lean ====
section
/-!
DEFINITION. Issuing one word for a group: the checks of R61, warp-whole filing (R53), stalls, operand reads with patterns,
streams and voids, last-use marks, fresh cells, faulting lanes, results at their latency, PCs and the groups that follow.
-/
namespace Sys2Proof.Machine

/-! ### What a word may do where (R70–R78) -/

/-- The five proof-slot forms. -/
def proofForm : Instr → Bool
  | .psel _ _ => true
  | .prdv _ _ => true
  | .pwrv _ _ _ _ => true
  | .pret _ => true
  | .frec _ _ => true
  | .frecList _ _ => true
  | _ => false

/-- Class 0xD. -/
def tileForm : Instr → Bool
  | .tdset _ _ _ _ => true
  | .tdget _ _ _ _ => true
  | .mma _ _ _ _ _ => true
  | .mzero _ _ _ => true
  | .mldacc _ _ _ _ => true
  | .mdrain _ _ _ _ _ _ => true
  | .mdradd _ _ _ _ _ _ => true
  | .marm _ _ _ => true
  | .mstep _ _ _ _ _ => true
  | .mfence _ => true
  | _ => false

/-- Thread-profile forms that the proof slot does not run (R386). -/
def notInProof : Instr → Bool
  | .call _ _ _ => true
  | .calli _ _ _ => true
  | .ret _ => true
  | .spawn _ _ => true
  | .join _ _ => true
  | .tbar _ => true
  | .gbar _ => true
  | _ => false

/-- Forms outside the Burin's profile (R75). -/
def notInBurin : Instr → Bool
  | .shfl _ _ _ _ _ => true
  | .vote _ _ _ _ => true
  | .ballot _ _ => true
  | .matchl _ _ => true
  | .redx _ _ _ _ => true
  | .redxc _ _ => true
  | .scan _ _ _ _ _ => true
  | .lmask _ _ _ => true
  | .reform _ => true
  | .spawn _ _ => true
  | .calli _ _ _ => true
  | .tbar _ => true
  | .gbar _ => true
  | .copy _ _ => true
  | .copyr _ _ => true
  | .copyq _ _ => true
  | .strm _ _ _ _ _ => true
  | .strfIn _ _ => true
  | .strfOut _ _ => true
  | .strq _ _ => true
  | .gred _ _ => true
  | .gstart _ _ _ _ => true
  | .gstop _ _ => true
  | .gattn _ _ => true
  | .gmbox _ _ _ _ => true
  | .gid _ _ => true
  | .mldred _ _ _ _ _ => true
  | .mstmc _ _ _ _ _ _ => true
  | .mgrp _ _ _ _ => true
  | .cfire _ _ => true
  | .cstat _ _ => true
  | .swrite _ _ _ => true
  | .plate _ _ _ _ => true
  | .plateq _ _ => true
  | .capw _ _ _ => true
  | i => proofForm i

/-- Forms outside the Graver profile (R75). -/
def notInGraver : Instr → Bool
  | .spawn _ _ => true
  | .join _ _ => true
  | .cancel _ _ => true
  | .calli _ _ _ => true
  | .ldt _ _ _ _ => true
  | .stt _ _ _ _ => true
  | .pref _ _ _ _ _ => true
  | .cwb _ _ _ => true
  | .cinv _ _ _ => true
  | .bari _ _ _ => true
  | .bara _ _ => true
  | .barw _ _ _ _ => true
  | .baraw _ _ _ _ => true
  | .gbar _ => true
  | .copy _ _ => true
  | .copyr _ _ => true
  | .copyq _ _ => true
  | .strm _ _ _ _ _ => true
  | .strfIn _ _ => true
  | .strfOut _ _ => true
  | .strq _ _ => true
  | .gred _ _ => true
  | .gstart _ _ _ _ => true
  | .gstop _ _ => true
  | .mldred _ _ _ _ _ => true
  | .mstmc _ _ _ _ _ _ => true
  | .mgrp _ _ _ _ => true
  | .cfire _ _ => true
  | .cstat _ _ => true
  | .swrite _ _ _ => true
  | .plate _ _ _ _ => true
  | .plateq _ _ => true
  | .capw _ _ _ => true
  | i => proofForm i || tileForm i

def isStream : Name → Bool
  | .s _ => true
  | _ => false

/-- Does a word name s0–s3? BEOD names one beside its operands (DEDUCED, log entry 56: R70 marks BEOD for every agent, R17 and
R182 have a Burin's or a Graver's word that names s0–s3 fault with 0x04). -/
def namesStream (i : Instr) : Bool :=
  match i with
  | .beod _ _ _ _ _ => true
  | i => i.operands.any fun e => isStream e.1

/-- Is the form outside the profile of the agent that issues it (0x04)? Burin words also carry no pattern, and neither Burin
nor Graver words name s0–s3 (R17, R76, R182). -/
def offProfile (i : Instr) (t : Tid) : Bool :=
  let streams := namesStream i
  match t with
  | .core _ _ _ => tileForm i
  | .proof _ _ => tileForm i || notInProof i
  | .burin _ _ => notInBurin i || streams || i.srcs.any fun e => e.2.2 != .none
  | .graver _ _ => notInGraver i || streams

/-- The pattern limits of an 8-lane warp (R77). -/
def patGraverOk : Pat → Bool
  | .bc n => decide (n.val < 8)
  | .xor n => decide (n.val < 8)
  | .mir n => decide (n.val ≤ 3)
  | _ => true

/-- Order and scope of a memory form. -/
def ordScope : Instr → Option (Ord × Scope)
  | .ld _ m _ _ => some (m.ord, m.scope)
  | .st _ m _ _ => some (m.ord, m.scope)
  | .lds _ m _ _ => some (m.ord, m.scope)
  | .sts _ m _ _ => some (m.ord, m.scope)
  | .atom _ _ m _ _ _ _ => some (m.ord, m.scope)
  | .atoms _ _ m _ _ _ _ => some (m.ord, m.scope)
  | .cas _ m _ => some (m.ord, m.scope)
  | .cass _ m _ => some (m.ord, m.scope)
  | .red _ _ m _ _ _ => some (m.ord, m.scope)
  | .fence _ o s _ _ => some (o, s)
  | _ => none

/-- Does the word fault with 0x02 in a Graver only (R77, R219, R240)? -/
def badInGraver (i : Instr) : Bool :=
  i.srcs.any (fun e => !patGraverOk e.2.2) || match ordScope i with
    | some (o, s) => o != .plain && (s == .core || s == .die)
    | none => false

/-- Forms that can raise an FPST bit (R117). -/
def raisesFp : Instr → Bool
  | .fadd _ _ _ => true
  | .fsub _ _ _ => true
  | .fmul _ _ _ => true
  | .ffma _ _ _ => true
  | .fmin _ _ _ => true
  | .fmax _ _ _ => true
  | .fcmp _ _ => true
  | .fclass _ _ => true
  | .fscale _ _ _ _ _ _ _ => true
  | .frnd _ _ _ _ => true
  | .fabs _ _ _ => true
  | .fcpys _ _ _ => true
  | .fdiv _ _ _ _ _ => true
  | .fsqrt _ _ _ => true
  | .faddx _ _ _ _ _ _ => true
  | .fsubx _ _ _ _ _ _ => true
  | .fmulx _ _ _ _ _ _ => true
  | .dwadd _ _ _ _ _ _ => true
  | .dwsub _ _ _ _ _ _ => true
  | .dwmul _ _ _ _ _ _ => true
  | .dwaddf _ _ _ _ _ _ => true
  | .dwmulf _ _ _ _ _ _ => true
  | .dwnorm _ _ => true
  | .dwcmp _ _ _ _ _ _ => true
  | .cvtdw _ _ => true
  | .cvtwd _ _ => true
  | .cvt _ _ _ _ _ => true
  | .cvtp _ _ _ _ _ _ _ => true
  | .cvtu _ _ _ _ => true
  | .cvts _ _ _ => true
  | .frcp _ _ _ => true
  | .frsq _ _ _ => true
  | .fexp2 _ _ _ => true
  | .flog2 _ _ _ => true
  | .fsin _ _ _ => true
  | .fcos _ _ _ => true
  | .ftanh _ _ _ => true
  | .redx _ op _ _ => op.float
  | .redxc _ _ => true
  | .scan _ op _ _ _ => op.float
  | _ => false

/-! ### Pipes and their rates (R59) -/

/-- The pipe of a decoded word, by its class in the fields of its encoding, and the exceptions R59 lists. -/
def pipeOf (i : Instr) : Pipe :=
  match i with
  | .nop _ => .none
  | .imul _ _ _ _ _ => .fma
  | .imulh _ _ _ => .fma
  | .imad _ _ _ _ _ => .fma
  | .idot4 _ _ _ _ => .fma
  | .fdiv _ _ _ _ _ => .sfu
  | .fsqrt _ _ _ => .sfu
  | .cvt _ _ _ _ _ => .fma
  | .cvtp _ _ _ _ _ _ _ => .fma
  | .cvtu _ _ _ _ => .fma
  | i => match i.fields with
    | none => .none
    | some f => match f.op / 32 with
      | 0 => .int
      | 1 => .int
      | 2 => .fma
      | 3 => .fma
      | 4 => .sfu
      | 5 => .xl
      | 6 => .ctl
      | 9 => .ctl
      | 14 => .ctl
      | _ => .mem

/-- Cycles until a form's pipe accepts its next instruction (R59). -/
def pipeRate : Instr → Nat
  | .dwadd _ _ _ _ _ _ => 3
  | .dwsub _ _ _ _ _ _ => 3
  | .dwmul _ _ _ _ _ _ => 3
  | .dwaddf _ _ _ _ _ _ => 3
  | .dwmulf _ _ _ _ _ _ => 3
  | .dwnorm _ _ => 3
  | .dwcmp _ _ _ _ _ _ => 3
  | .cvtdw _ _ => 3
  | .cvtwd _ _ => 3
  | .redx _ _ _ _ => 2
  | .scan _ _ _ _ _ => 2
  | .redxc _ _ => 3
  | i => if pipeOf i == .sfu then 4 else 1

/-- Cycles of a core's clock that an agent's cycle takes: a Graver runs at a quarter of it (R59). -/
def cyc (t : Tid) (n : Nat) : Nat := if t.isGraver then 4 * n else n

/-- A word of a group issues: its pipe is taken for as long as its rate says. NOP takes none. -/
def usePipe (s : State) (i : Instr) (g : Group) : State :=
  match pipeOf i, g.mem with
  | .none, _ => s
  | _, [] => s
  | p, t :: _ => { s with pipes := s.pipes.set (g.agent.1, g.agent.2, p) (s.now + cyc t (pipeRate i)) }

/-- Does the pipe of a word accept it in this cycle? -/
def pipeFree (s : State) (i : Instr) (g : Group) : Bool :=
  pipeOf i == .none || decide (s.pipes.getD (g.agent.1, g.agent.2, pipeOf i) 0 ≤ s.now)

/-! ### PCs (R38, R47, R55) -/

/-- The next slot: after slot 2 the next packet's slot 0. -/
def nextSlot (pc : DWord) : DWord := if pc.toNat % 32 == 24 then pc + 16 else pc + 8

/-- R47's check of a computed target: 0x05 when it is no slot address, 0x06 outside the canonical range. -/
def targetFault (pc : DWord) : Option Nat :=
  let m := pc.toNat % 32
  if m != 8 && m != 16 && m != 24 then some 0x05
  else if !canonicalVa pc.toNat then some 0x06
  else none

/-- R55's target. -/
def branchTarget (pc : DWord) (off : BitVec 29) : Int :=
  let slot := (pc.toNat / 32 * 3 + pc.toNat % 32 / 8 : Nat) - 1 + off.toInt
  32 * (slot / 3) + 8 * (slot % 3) + 8

/-! ### Stream reads -/

/-- Elements popped so far. -/
def Walker.popped (w : Walker) : Nat := w.next - w.fetched.length

/-- A fault of a lane: code, ADDR, FLAGS, PROGRESS, the ENGINE byte, and whether its PC stops after the instruction. -/
structure Flt where
  code : Nat
  addr : DWord := 0
  flags : Nat := 0
  progress : Nat := 0
  engine : Nat := 0
  after : Bool := false

/-- The element that read number k (from 0) of a stream takes: its value or fault; none means the reader stalls. -/
def Walker.peek (w : Walker) (k : Nat) : Option (Except Flt Word) :=
  if w.popped + k ≥ w.total then some (.error { code := 0x0F })
  else match w.fetched[k]? with
    | none => none
    | some (v, 0) => some (.ok v)
    | some (_, c) => some (.error { code := c, addr := w.addr (w.popped + k), progress := w.popped + k, engine := 3 })

/-! ### Reading operands -/

/-- What a lane reads for one name. -/
inductive RV where
  | val (x : Word)
  | void
  | bad (f : Flt)

/-- Spilled names whose slot failed its load, by thread and position, with the fault that reading one raises (R430). -/
abbrev Unfilled := List ((Tid × Pos) × Flt)

/-- Has the row that holds a name an uncorrectable error (R402)? -/
def State.rowBad (s : State) (t : Tid) (p : Pos) : Bool :=
  match State.cellKey t p with
  | some k => ((s.cells.get k).map (·.poison)).getD false
  | none => false

/-- A position's value: void, the fault of a fill that failed, 0x18 from a row with an uncorrectable error, or the word. -/
def readCell (s : State) (un : Unfilled) (t : Tid) (p : Pos) : RV :=
  match un.find? fun e => e.1 == (t, p) with
  | some e => .bad e.2
  | none => match s.readPos t p with
    | some x => if s.rowBad t p then .bad { code := 0x18 } else .val x
    | none => .void

/-- One name in one lane; `k` counts this instruction's earlier reads of the same stream. -/
def readName (s : State) (un : Unfilled) (t : Tid) (th : Thread) (k : Nat) (n : Name) : RV :=
  match n with
  | .zr => .val 0
  | .lane => .val (w32 t.lane)
  | .tix => .val (w32 th.tix)
  | .s i => match th.loads.get i.val with
    | none => .bad { code := 0x0F }
    | some w => match w.peek k with
      | some (.ok x) => .val x
      | some (.error f) => .bad f
      | none => .void
  | n => match th.pos n with
    | some p => readCell s un t p
    | none => .val 0

/-- The lane that a pattern reads in lane i of a warp of `width` lanes: none reads zero (R52, R77). -/
def patLane (p : Pat) (i width : Nat) : Option Nat :=
  match p with
  | .none => some i
  | .bc n => some n.val
  | .rot n => some ((i + n.val) % width)
  | .xor n => some (Nat.xor i n.val)
  | .mir n => some (Nat.xor i (2 ^ n.val - 1))
  | .up n => if i < n.val then none else some (i - n.val)
  | .dn n => if i + n.val ≥ width then none else some (i + n.val)
  | .qbc n => some (4 * (i / 4) + n.val % 4)

/-- An operand's words in one lane, whether one of them is void, and a fault. -/
structure OpRead where
  words : List Word
  void : Bool
  bad : Option Flt

def OpRead.add (o : OpRead) (v : RV) : OpRead :=
  match v with
  | .val x => { o with words := o.words ++ [x] }
  | .void => { o with words := o.words ++ [0], void := true }
  | .bad f => { words := o.words ++ [0], void := o.void, bad := o.bad.orElse fun _ => some f }

/-- One operand in one lane (R27, R53): under a pattern the value of the lane it names, zero if that lane has exited. With s0–s3
under a pattern the value is the element that lane j's own walker would give, zero and void while it has none, and the reading
lane pops its own walker (DESIGN CHOICE, log entry 57). -/
def readOp (s : State) (un : Unfilled) (t : Tid) (th : Thread) (k : Nat) (o : SrcOp) : OpRead :=
  let zeros : OpRead := { words := List.replicate o.2.1 0, void := false, bad := none }
  let from_ (u : Tid) (uh : Thread) : OpRead :=
    (nameGroup o.1.name o.2.1).foldl (fun a n => a.add (readName s un u uh k n)) { words := [], void := false, bad := none }
  match o.2.2 with
  | .none => from_ t th
  | p => match patLane p t.lane t.width with
    | none => zeros
    | some j => match s.thread (t.mate j) with
      | none => zeros
      | some uh => if uh.status == .exited then zeros else from_ (t.mate j) uh

/-- How many operands before the n-th read the same stream. -/
def streamCount (ops : List SrcOp) (n : Nat) : Nat :=
  match ops[n]? with
  | some o => ((ops.take n).filter fun e => e.1.name == o.1.name).length
  | none => 0

/-- Every operand of a word in one lane. -/
def readOps (s : State) (t : Tid) (th : Thread) (ops : List SrcOp) (un : Unfilled := []) : List OpRead :=
  (List.range ops.length).filterMap fun n => (ops[n]?).map fun o => readOp s un t th (streamCount ops n) o

/-! ### The form being issued -/

/-- Latency: fixed, or variable with the earliest cycles after issue and, where the spec bounds it, the latest (R59). -/
inductive Lat where
  | fixed (n : Nat)
  | var (n : Nat) (most : Option Nat := none)

/-- What a lane's execution comes to. -/
structure Res where
  fault : Option Flt := none
  /-- Values for the destination's names. -/
  out : List Word := []
  preds : List (Fin 8 × Bool) := []
  fl : Flags := 0
  /-- A fault found at the data (R378): code and address. -/
  late : Option (Nat × DWord) := none
  /-- Something else completes the instruction. -/
  held : Bool := false
  /-- Its value, which may still change, goes to a stream that the word names only when it completes. -/
  later : Bool := false
  /-- The lane completes and its destination names keep their values. -/
  keep : Bool := false
  /-- Where a control transfer sends the thread. -/
  next : Option DWord := none
  /-- What the instruction has still to hear from a die (R378, R399). -/
  awaits : List Await := []
  /-- What it has still to do at memory. -/
  todo : Option Todo := none

/-- What a lane function may look at: the state before the issue, the executing threads in ascending global thread number, the
group's threads, the instruction's number, the spilled names that could not be filled. -/
structure Env where
  pre : State
  exec : List Tid
  grp : List Tid
  seq : Nat
  un : Unfilled := []

/-- A form: its word, header, latency, format-slot check (0x0D), stall and what each executing lane does. -/
structure Form where
  i : Instr
  h : Hdr
  lat : Lat
  lane : Env → State → Tid → Thread → List (List Word) → State × Res
  slotBad : State → Tid → Thread → Bool := fun _ _ _ => false
  /-- What an executing lane reads (R53); class 0x5 reads other lanes too. -/
  reads : Env → Tid → Thread → List OpRead := fun env t th => readOps env.pre t th i.srcs env.un
  /-- Is it privileged for this agent as it stands (R374)? -/
  denied : Tid → Bool := fun _ => false
  /-- Is it privileged by what a lane read? -/
  deny : Tid → List (List Word) → Bool := fun _ _ => false
  /-- Does the word stall in a thread, on the operands it would read? -/
  stall : State → Tid → Thread → List (List Word) → Bool := fun _ _ _ _ => false
  /-- Does it stall for all its executing threads together? -/
  crowd : State → List Tid → Bool := fun _ _ => false
  /-- What a stalled word leaves behind: what it is waiting for. -/
  onStall : State → Tid → List (List Word) → State := fun s _ _ => s
  /-- Is a fault found before it executes to find it not issued in any lane (R153)? -/
  whole : Bool := false
  after : Env → State → State := fun _ s => s

/-- Is the guard true in this thread? (R50) -/
def guardOn (h : Hdr) (th : Thread) : Bool := getPred th.preds h.sel != h.neg

/-- Destination positions of a word in a thread. -/
def dstPos (i : Instr) (th : Thread) : List Pos :=
  match i.dst with
  | some (d, w) => if d == .zr then [] else (nameGroup d w).filterMap th.pos
  | none => []

/-- Source positions of a word in a thread. -/
def srcPos (i : Instr) (th : Thread) : List Pos := i.srcs.flatMap fun e => (nameGroup e.1.name e.2.1).filterMap th.pos

/-! ### Stalls -/

/-- Does a stream operand hold the group back (R18)? -/
def streamStall (i : Instr) (th : Thread) : Bool :=
  let ops := i.srcs
  let rd := (List.range ops.length).any fun n => match ops[n]? with
    | some (⟨.s k, _⟩, _, _) => match th.loads.get k.val with
      | some w => (w.peek (streamCount ops n)).isNone
      | none => false
    | _ => false
  let wr := match i.dst with
    | some (.s k, _) => match th.stores.get k.val with
      | some w => w.pushed.length ≥ 16 && w.next < w.total
      | none => false
    | _ => false
  rd || wr

/-- Cell keys of positions in threads: each name once per quad. -/
def quadKeys (s : State) (ts : List Tid) (f : Thread → List Pos) : List CellKey :=
  (ts.flatMap fun t => match s.thread t with
    | some th => (f th).filterMap (State.cellKey t)
    | none => []).eraseDups

/-- Cells that a word's destination names take: one for each name in every quad of the group, whether its lanes execute or not
(R24, R50). -/
def dstKeys (s : State) (i : Instr) (g : Group) : List CellKey := quadKeys s g.mem (dstPos i)

/-- Does a form read its operands in whatever lane a value names (R154)? -/
def readsAcross : Instr → Bool
  | .shfl _ _ _ _ _ => true
  | _ => false

/-- Threads in which an operand of an executing thread is read: its own lane, the lane its pattern names (R53), or every lane of the
warp for a form that reads across. -/
def readersOf (i : Instr) (t : Tid) (p : Pat) : List Tid :=
  if readsAcross i then (List.range t.width).map t.mate
  else match p with
    | .none => [t]
    | p => ((patLane p t.lane t.width).map t.mate).toList

/-- Positions that the executing lanes read, with the threads they are read in. -/
def srcReads (s : State) (i : Instr) (ts : List Tid) : List (Tid × Pos) :=
  ts.flatMap fun t => i.srcs.flatMap fun o => (readersOf i t o.2.2).flatMap fun u => match s.thread u with
    | some uh => if uh.status == .exited then [] else ((nameGroup o.1.name o.2.1).filterMap uh.pos).map fun p => (u, p)
    | none => []

/-- Cells that hold what the executing lanes read. -/
def srcKeys (s : State) (i : Instr) (ts : List Tid) : List CellKey :=
  ((srcReads s i ts).filterMap fun e => State.cellKey e.1 e.2).eraseDups

def isSpilledKey (s : State) (k : CellKey) : Bool := ((s.cells.get k).map (·.spilled)).getD false

/-- Names that must be filled back before the word issues: those it reads (R30), and those it writes, whose other lanes keep their
values (R24; DESIGN CHOICE, log entry 58: the spec fills a name on a read and says nothing of a write). -/
def spilledKeys (s : State) (i : Instr) (g : Group) (ts : List Tid) : List CellKey :=
  ((srcKeys s i ts ++ dstKeys s i g).eraseDups).filter (isSpilledKey s)

/-- Cells the word needs: one for each name it writes, one for each name it reads that is filled back. -/
def cellNeeds (s : State) (i : Instr) (g : Group) (ts : List Tid) : List CellKey :=
  dstKeys s i g ++ (srcKeys s i ts).filter (isSpilledKey s)

/-- Does some bank lack the cells the word needs (R28, R29)? -/
def cellStall (s : State) (i : Instr) (g : Group) (ts : List Tid) : Bool :=
  let need := cellNeeds s i g ts
  need.any fun k => decide (s.cellsFree k.core k.quad < (need.filter fun e => e.core == k.core && e.quad == k.quad).length)

/-- Does the word name a cell that stands in a set that is moving (R308)? It stalls until the set's handshake ends. -/
def cellsMoving (s : State) (i : Instr) (g : Group) (ts : List Tid) : Bool :=
  (srcKeys s i ts ++ dstKeys s i g).any fun k => match s.cells.get k with
    | some c => !c.spilled && (s.core k.core).moving.contains c.set
    | none => false

/-- Would some flag's count pass 15 (R41)? -/
def flagStall (h : Hdr) (th : Thread) : Bool :=
  match h.setf with
  | some f => decide (th.flagCount f ≥ 15)
  | none => false

/-! ### Filling a spilled name (R30, R430) -/

/-- One lane of a cell after its fill with a word: a pending name's readable value is what was there before (R45). -/
def LaneCell.fill (x : LaneCell) (v : Word) : LaneCell :=
  match x.pend with
  | some (q, old) => { x with pend := some (q, old.map fun _ => v) }
  | none => { x with val := v }

/-- Fills a spilled name back: each lane takes its slot's bytes, and a lane whose slot fails keeps the name spilled and is
reported. -/
def fillKey (s : State) (k : CellKey) : State × Unfilled :=
  match s.cells.get k with
  | none => (s, [])
  | some c =>
    let r := (List.range 4).foldl (fun (a : State × Cell × Unfilled) i =>
      let (s, c, bad) := a
      let t : Tid := .core k.core k.slot (k.quad * 4 + i)
      match s.thread t with
      | none => a
      | some th => match spillSlot s th k.pos with
        | none => a
        | some va => match slotLoad s t th va with
          | (s, .ok v) => (s, c.setLane i ((c.lane i).fill v), bad)
          | (s, .error e) => (s, c, ((t, k.pos), { code := e, addr := w64 va }) :: bad)) (s, c, [])
    let (s, c, bad) := r
    let c := if bad.isEmpty then { c with spilled := false, poison := false, set := (s.newCell k.core k.quad).set } else c
    ({ s with cells := s.cells.set k c }, bad)

/-- Fills names one after another. -/
def fillKeysBack (s : State) (ks : List CellKey) : State × Unfilled :=
  ks.foldl (fun (a : State × Unfilled) k =>
    let (s, b) := fillKey a.1 k
    (s, a.2 ++ b)) (s, [])

/-- A name that is written takes a fresh cell (R24): another row, in the register set that takes the next cell. An uncorrectable
error stays only with a value that some live lane keeps (R402). -/
def placeCell (pre s : State) (exec : List Tid) (k : CellKey) : State :=
  match pre.cells.get k, s.cells.get k with
  | some _, some c =>
    let keeps (i : Nat) : Bool := !(c.lane i).rel && !exec.contains (.core k.core k.slot (k.quad * 4 + i))
    let c' := if c.spilled then c
      else { c with set := (s.newCell k.core k.quad).set, poison := c.poison && (List.range 4).any keeps }
    { s with cells := s.cells.set k c' }
  | _, _ => s

/-! ### Effects of a lane that completes -/

/-- Last-use marks of a word in one lane (R25). -/
def markLast (s : State) (t : Tid) (th : Thread) (ops : List SrcOp) : State :=
  ops.foldl (fun s o => if o.1.last then
      (nameGroup o.1.name o.2.1).foldl (fun s n => match th.pos n with | some p => s.markRel t p | none => s) s
    else s) s

/-- One pop of a walker (R269): the element leaves the fetched ones, and the end-of-dimension bits it completes are set. -/
def Walker.pop (w : Walker) : Walker :=
  let e := w.eod ||| w.ends w.popped
  if w.fetched.isEmpty then { w with next := w.next + 1, eod := e } else { w with fetched := w.fetched.tail, eod := e }

/-- The load walkers after a word's operands have popped them, one pop for each operand that names a stream. -/
def popLoads (loads : Tab Nat Walker) (ops : List SrcOp) : Tab Nat Walker :=
  ops.foldl (fun l o => match o.1.name with
    | .s k => match l.get k.val with
      | some w => l.set k.val w.pop
      | none => l
    | _ => l) loads

/-- Pops what a word's operands took from its streams (R269). -/
def popStreams (s : State) (t : Tid) (ops : List SrcOp) : State :=
  s.modThread t fun th => { th with loads := popLoads th.loads ops }

/-- The store stream that a word's result goes to. -/
def pushTo (i : Instr) : Option (Fin 4) :=
  match i.dst with
  | some (.s k, _) => some k
  | _ => none

/-- The check of a push to a store walker (R269): its element's fault is exact. A device page takes 4 B elements (R273). -/
def pushCheck (s : State) (t : Tid) (th : Thread) (k : Fin 4) : State × Option Flt :=
  match th.stores.get k.val with
  | none => (s, some { code := 0x0F })
  | some w =>
    if w.next ≥ w.total then (s, some { code := 0x0F })
    else
      let a := w.addr w.next
      let bad (e : Nat) : Flt := { code := e, addr := a, progress := w.next, engine := 3 }
      match checkAccess s t th.ctx a.toNat w.ty.bytes .write false with
      | (s, .error e) => (s, some (bad e))
      | (s, .ok p) => (s, if p.kind == .device && w.ty.bytes != 4 then some (bad 0x05) else none)

/-- The check of the push that a word makes, if it makes one. -/
def wordPush (i : Instr) (s : State) (t : Tid) (th : Thread) : State × Option Flt :=
  match pushTo i with
  | some k => pushCheck s t th k
  | none => (s, none)

/-- A push: the value, or the place of one that an outstanding instruction gives later (R269, R334). -/
def pushStream (s : State) (t : Tid) (k : Fin 4) (v : Word) (seq : Option Nat) : State :=
  s.modThread t fun th => match th.stores.get k.val with
    | some w => { th with stores := th.stores.set k.val (w.push v seq) }
    | none => th

/-- Pending writes of a word's destination names, with what each held before (R45). -/
def writeDst (pre s : State) (t : Tid) (ps : List Pos) (seq : Nat) : State :=
  ps.foldl (fun s p => s.writePend t p seq (pre.readPos t p)) s

/-- An outstanding instruction enters a thread (R41). -/
def addOut (s : State) (t : Tid) (o : Out) : State :=
  s.modThread t fun th =>
    let pp := o.preds.foldl (fun m e => if e.1 == 7 then m else m.set e.1 o.seq) th.predPend
    { th with outs := th.outs ++ [o], predPend := pp }

/-- The earliest cycles after issue. -/
def Lat.cycles : Lat → Nat
  | .fixed n => n
  | .var n _ => n

/-- The latest cycles after issue, where the spec bounds them. -/
def Lat.most : Lat → Option Nat
  | .fixed n => some n
  | .var _ m => m

/-- Does a form end with an acquire (R235, R245, R252, R259, R341)? -/
def acquires (i : Instr) : Bool :=
  match i with
  | .waita _ _ _ _ => true
  | .join _ _ => true
  | .cstat _ _ => true
  | i => match ordScope i with
    | some (o, _) => o == .acq || o == .sc
    | none => false

/-- Is a form of a class that waits for an earlier acquire of its thread: 0x7, 0x8, 0xA, 0xB or 0xC (R245)? -/
def afterAcquire (i : Instr) : Bool :=
  match i.fields with
  | some f => [7, 8, 10, 11, 12].contains (f.op / 32)
  | none => false

/-- The outstanding instruction that a lane's result leaves. -/
def Form.outOf (f : Form) (s : State) (t : Tid) (th : Thread) (seq : Nat) (r : Res) : Out :=
  let ps := if r.keep then [] else dstPos f.i th
  { seq := seq, pc := th.pc, ready := s.now + cyc t f.lat.cycles, last := f.lat.most.map fun n => s.now + cyc t n,
    held := r.held, flag := f.h.setf, names := ps.zip (r.out ++ List.replicate ps.length 0),
    push := pushTo f.i, value := r.out.headD 0, preds := r.preds, fpst := r.fl,
    late := r.late.map fun e => threadRec s t th e.1 0x80 th.pc e.2 0, awaits := r.awaits, todo := r.todo,
    acq := acquires f.i, tile := tileForm f.i }

/-- Does a lane's value come only when the instruction completes: a held form's, one that may still change, one of an access not yet
performed, or one whose reply may be lost (R378)? -/
def Res.yetToCome (r : Res) : Bool := r.held || r.later || r.todo.isSome || !r.awaits.isEmpty

/-- The push of a word whose destination is a stream. -/
def lanePush (f : Form) (env : Env) (s : State) (t : Tid) (r : Res) : State :=
  match pushTo f.i with
  | some k => pushStream s t k (r.out.headD 0) (if r.yetToCome then some env.seq else none)
  | none => s

/-- What a lane that completes leaves behind (R24, R25, R41, R269): its push, marks, pops, pending writes, the outstanding
instruction, its next PC. -/
def laneDone (f : Form) (env : Env) (s : State) (t : Tid) (th : Thread) (r : Res) : State :=
  let s := popStreams (markLast (lanePush f env s t r) t th f.i.srcs) t f.i.srcs
  let s := writeDst env.pre s t (if r.keep then [] else dstPos f.i th) env.seq
  let s := addOut s t (f.outOf s t th env.seq r)
  s.modThread t fun x => { x with pc := r.next.getD (nextSlot th.pc), entered := r.next.isSome }

/-- What a lane does once its operands are read: the push it is to make is checked, then it executes (R61 steps 6 and 7). -/
def laneRun (f : Form) (env : Env) (s : State) (t : Tid) (th : Thread) (vs : List (List Word)) : State × Option Flt :=
  match wordPush f.i s t th with
  | (s, some b) => (s, some b)
  | (s, none) =>
    let (s, r) := f.lane env s t th vs
    match r.fault with
    | some b => (s, some b)
    | none =>
      if fpTraps (s.enables t th) r.fl then
        (s.modThread t fun th => { th with fpst := th.fpst ||| r.fl }, some { code := 0x1F, flags := r.fl.toNat })
      else (laneDone f env s t th r, none)

/-- One executing lane (R61 step 6 on): the state, and the lane's fault if it stops. -/
def laneIssue (f : Form) (env : Env) (s : State) (t : Tid) : State × Option Flt :=
  match s.thread t with
  | none => (s, none)
  | some th =>
    let rs := f.reads env t th
    let void := rs.any (·.void)
    if f.slotBad s t th then (s, some { code := 0x0D })
    else if void && s.voidTrap t th then (s, some { code := 0x09 })
    else match (rs.filterMap (·.bad)).head? with
      | some b => (s, some b)
      | none =>
        laneRun f env (if void && !t.isGraver then s.modThread t fun th => { th with voidSt := true } else s) t th
          (rs.map (·.words))

/-! ### The whole group -/

/-- Threads of a list that run on, by PC: groups in the same quadrant (R312). -/
def regroupGo (s : State) (q : Nat) (fresh : Bool) (yld : Option Nat) (n : Nat) (ts : List Tid) : State :=
  match n, ts with
  | 0, _ => s
  | _, [] => s
  | n + 1, t :: ts =>
    let pc := s.pcOf t
    let g : Group := { Group.start q false (t :: ts.filter fun u => s.pcOf u == pc) [] with fresh := fresh, yld := yld }
    regroupGo { s with groups := s.groups ++ [g] } q fresh yld n (ts.filter fun u => s.pcOf u != pc)

def running (s : State) (t : Tid) : Bool :=
  match s.thread t with
  | some th => th.status == .running
  | none => false

/-- Did a control transfer bring a thread to its slot? -/
def cameIn (s : State) (t : Tid) : Bool :=
  match s.thread t with
  | some th => th.entered
  | none => false

/-- The groups that follow an issue: fresh (R43) after a split, a loss of lanes or a transfer. -/
def regroup (s : State) (g : Group) : State :=
  let ts := g.mem.filter (running s)
  let same := match ts with
    | [] => true
    | t :: _ => ts.all fun u => s.pcOf u == s.pcOf t
  regroupGo s g.quadrant (!same || ts.length != g.mem.length || ts.any (cameIn s)) g.yld ts.length ts

/-- Is the group exactly one warp's non-exited threads in home-lane order (R53), or released as such? -/
def isWhole (s : State) (g : Group) : Bool :=
  match g.mem with
  | [] => true
  | t :: _ => g.whole || g.mem == warpLive s t

/-- Is a group's slot one that chains in this cycle, after its quadrant's choice? -/
def chained (s : State) (g : Group) : Bool :=
  g.mem.any fun t => match s.thread t with
    | some th => th.lastIssue == some s.now
    | none => false

/-- Takes back a quadrant's choice (R315): it has its turn again, and the sets are not read. A chained slot took no turn. -/
def giveTurn (s : State) (g : Group) : State :=
  if Config.cores ≤ g.agent.1 || chained s g then s
  else s.modCore g.agent.1 fun x => { x with turn := (x.turn.1, x.turn.2.filter (·.1 != g.agent.2)) }

/-- Puts a group back that cannot issue in this cycle: it was not ready, and its quadrant chooses again (R314). -/
def stallGroup (s : State) (g : Group) : State :=
  { giveTurn s g with groups := s.groups ++ [{ g with readyAt := none, promoted := false, stalled := some s.now }] }

/-- An allocation succeeded (R29). -/
def noteAlloc (s : State) (t : Tid) : State :=
  match t with
  | .core c _ _ => s.modCore c fun x => { x with stall := none, lastAlloc := s.now }
  | _ => s

/-- The executing lanes one after another, each as far as its fault. -/
def runLanes (f : Form) (env : Env) (s : State) : State × List (Tid × Flt) :=
  env.exec.foldl (fun (a : State × List (Tid × Flt)) t => match laneIssue f env a.1 t with
    | (s, some b) => (s, a.2 ++ [(t, b)])
    | (s, none) => (s, a.2)) (s, [])

/-- A thread of the group after the lanes: its cycle, what holds it (R117), and the next slot if its guard was false (R50). -/
def stamp (f : Form) (exec : List Tid) (seq : Nat) (s : State) (t : Tid) (th : Thread) : Thread :=
  { th with lastIssue := some s.now,
            hold := if raisesFp f.i && s.enables t th != 0 then some seq else th.hold,
            pc := if exec.contains t then th.pc else nextSlot th.pc,
            entered := exec.contains t && th.entered }

/-- The lanes that faulted take their faults; PC is that of the slot, or past it where the fault comes after the instruction. -/
def takeFaults (bad : List (Tid × Flt)) (pc0 : DWord) (seq : Nat) (s : State) : State :=
  bad.foldl (fun s e => match s.thread e.1 with
    | some th =>
      let r := threadRec s e.1 th e.2.code e.2.flags pc0 e.2.addr e.2.progress
      let r := if e.2.engine == 0 then r else { r with engine := e.2.engine }
      takeFault s e.1 r (if e.2.after then nextSlot pc0 else pc0) seq
    | none => s) s

/-- Does a lane read that the word is privileged (R374)? -/
def laneDenied (f : Form) (env : Env) (t : Tid) : Bool :=
  match env.pre.thread t with
  | some th =>
    let rs := f.reads env t th
    rs.all (fun r => r.bad.isNone && !(r.void && env.pre.voidTrap t th)) && f.deny t (rs.map (·.words))
  | none => false

/-- The names that a word writes get their cells; `done` are the lanes that have written them. -/
def placeCells (pre s : State) (i : Instr) (g : Group) (done : List Tid) : State :=
  (dstKeys pre i g).foldl (fun s k => placeCell pre s done k) s

/-- The fault that stops a lane before it executes (R61 steps 6 and 7): its format slot, what it reads, the push it is to make. A void
operand under VOIDTRAP stops the lanes that R153 or R154 says, and is no such fault. -/
def laneBad (f : Form) (env : Env) (s : State) (t : Tid) : Option Flt :=
  match s.thread t with
  | none => none
  | some th =>
    let rs := f.reads env t th
    if f.slotBad s t th then some { code := 0x0D }
    else if rs.any (·.void) && s.voidTrap t th then none
    else (rs.filterMap (·.bad)).head?.orElse fun _ => (wordPush f.i s t th).2

/-- The lanes whose faults find a form of class 0x5 not issued in any lane (R153). -/
def wholeBad (f : Form) (env : Env) (s : State) : List (Tid × Flt) :=
  if f.whole then env.exec.filterMap fun t => (laneBad f env s t).map fun b => (t, b) else []

/-- The lanes run, the names written get their cells, and the group goes on. Where a fault finds a warp-whole form not issued, its lanes
stop and the others stay at the slot (R153; DEDUCED, log entry 73). -/
def finishLanes (f : Form) (g : Group) (env : Env) (pc0 : DWord) (s : State) : State :=
  if !(wholeBad f env s).isEmpty then regroup (takeFaults (wholeBad f env s) pc0 env.seq s) g
  else
    let (s, bad) := runLanes f env s
    let s := placeCells env.pre s f.i g (env.exec.filter fun t => !bad.any (·.1 == t))
    let s := g.mem.foldl (fun s t => s.modThread t (stamp f env.exec env.seq s t)) s
    f.after env (regroup (takeFaults bad pc0 env.seq s) g)

/-- A word whose group issues: what its warp bin released with it comes next (R313), its pipe is taken (R59), spilled names are
filled back (R30), and the lanes run, or the whole group stops on a privileged number (R61). -/
def issueGroup (f : Form) (g : Group) (exec : List Tid) (s : State) : State :=
  let pc0 := match g.mem with | t :: _ => s.pcOf t | [] => 0
  let (seq, s) := s.fresh
  let (s, un) := fillKeysBack s (spilledKeys s f.i g exec)
  let s := usePipe { s with groups := s.groups ++ g.after } f.i g
  let env : Env := { pre := s, exec := exec, grp := g.mem, seq := seq, un := un }
  if exec.any (laneDenied f env) then groupFault s g.mem 0x03 else finishLanes f g env pc0 s

/-- The threads of a group that execute: their guard is true (R50); ascending global thread number. -/
def executing (h : Hdr) (s : State) (g : Group) : List Tid :=
  byOrder s (g.mem.filter fun t => match s.thread t with | some th => guardOn h th | none => false)

/-- Does a release of the thread come with this word (R217, R223)? -/
def releases (i : Instr) : Bool :=
  match i with
  | .bara _ _ => true
  | .barw _ _ _ _ => true
  | .baraw _ _ _ _ => true
  | .tbar _ => true
  | .gbar _ => true
  | .cfire _ _ => true
  | .spawn _ _ => true
  | .gstart _ _ _ _ => true
  | i => match ordScope i with
    | some (o, _) => o == .rel || o == .sc
    | none => false

/-- Does the word end its threads (R336)? -/
def endsThread : Instr → Bool
  | .exit _ => true
  | _ => false

/-- May a word issue before an earlier access of its thread has been performed (R239)? A plain store may where it meets none of the
access's bytes, and so may what does nothing at memory, pushing no element either; every other form waits (DESIGN CHOICE, log entry
72). -/
def overtakes (i : Instr) : Bool :=
  (pushTo i).isNone && match i with
  | .st _ m _ _ => m.ord == .plain
  | .bra _ _ => true
  | .brx _ _ => true
  | .loopSet _ _ _ => true
  | .loop _ _ _ => true
  | .beod _ _ _ _ _ => true
  | .reform _ => true
  | i => pipeOf i != .mem && pipeOf i != .ctl

/-- Does a thread hold the word back: a stream (R18), a flag's count (R41), for a release or an end the elements it has pushed and that
have no value yet (R270), for a release the stores of an MSTMC that are not acknowledged (R425), an access not yet performed, an
acquire not complete (R245)? The next SC form of a thread waits too, as every SC form ends with an acquire (R229). -/
def laneStalls (i : Instr) (h : Hdr) (th : Thread) : Bool :=
  streamStall i th || flagStall h th || ((releases i || endsThread i) && th.pushPends) || (releases i && th.acksPend) ||
    (!overtakes i && th.accessPends) || (afterAcquire i && th.acqPends)

/-- Does the push that a word makes find the miss table full (R269, R351)? -/
def pushHolds (i : Instr) (s : State) (t : Tid) (th : Thread) : Bool :=
  match (pushTo i).bind fun k => th.stores.get k.val with
  | some w => decide (w.next < w.total) && missStall s t th.ctx (w.addr w.next).toNat
  | none => false

/-- Does some executing lane hold the word back? -/
def laneHolds (i : Instr) (h : Hdr) (s : State) (exec : List Tid) : Bool :=
  exec.any fun t => match s.thread t with
    | some th => laneStalls i h th || pushHolds i s t th
    | none => false


/-- Does the form itself stall, in one lane or for all of them? -/
def formHolds (f : Form) (s : State) (exec : List Tid) : Bool :=
  f.crowd s exec || exec.any fun t => match s.thread t with
    | some th => f.stall s t th ((readOps s t th f.i.srcs).map (·.words))
    | none => false

/-- What a form that stalls leaves behind in its lanes. -/
def holdNotes (f : Form) (s : State) (exec : List Tid) : State :=
  exec.foldl (fun s t => match s.thread t with
    | some th => f.onStall s t ((readOps s t th f.i.srcs).map (·.words))
    | none => s) s

/-- Issues a form for a group whose encoding checks have passed: it stalls, or its lanes run. -/
def issueLanes (f : Form) (g : Group) (t0 : Tid) (s : State) : State :=
  let exec := executing f.h s g
  if laneHolds f.i f.h s exec || cellsMoving s f.i g exec || slotsHold s (spilledKeys s f.i g exec) then stallGroup s g
  else if formHolds f s exec then stallGroup (holdNotes f s exec) g
  else if cellStall s f.i g exec then stallGroup s g
  else issueGroup f g exec (if (cellNeeds s f.i g exec).isEmpty then s else noteAlloc s t0)

/-- The fault of a word itself, as its encoding and its agent give it (R61): 0x02 for what only a Graver rejects, 0x04, 0x03 where the
agent may not run it, 0x0A. -/
def faultOf (i : Instr) (t : Tid) (denied : Bool) : Option Nat :=
  if t.isGraver && badInGraver i then some 0x02
  else if offProfile i t then some 0x04
  else if (t.isCore && proofForm i) || denied then some 0x03
  else if !i.alignOk then some 0x0A
  else none

def wordFault (f : Form) (t : Tid) : Option Nat := faultOf f.i t (f.denied t)

/-- ISSUE: one word for the group whose slot it is (R61): the faults of the word, then warp-whole filing, stalls and the lanes. -/
def issue (f : Form) (s : State) : State :=
  match s.issuing with
  | none => s
  | some is =>
    let g := is.grp
    let s := { s with issuing := none }
    match g.mem with
    | [] => s
    | t0 :: _ => match wordFault f t0 with
      | some code => groupFault { s with groups := s.groups ++ g.after } g.mem code
      | none => if f.i.warpWhole && !isWhole s g then fileWarp s g.mem else issueLanes f g t0 s

/-- A form whose lanes compute on their operands alone. -/
def alu (i : Instr) (h : Hdr) (lat : Lat) (f : List (List Word) → Res) : Form :=
  { i := i, h := h, lat := lat, lane := fun _ s _ _ vs => (s, f vs) }

/-- Word 0 of operand n. -/
def op (vs : List (List Word)) (n : Nat) : Word := (vs.getD n []).headD 0
/-- Word k of operand n. -/
def opk (vs : List (List Word)) (n k : Nat) : Word := (vs.getD n []).getD k 0
/-- Operand n as a 64-bit pair. -/
def opPair (vs : List (List Word)) (n : Nat) : DWord := pairOf (opk vs n 0) (opk vs n 1)
def pairOut (d : DWord) : List Word := [loOf d, hiOf d]

/-- The B side: an immediate as R54 gives it for classes 0x0 and 0x1, or the operand read. -/
def bVal (b : BSrc) (vs : List (List Word)) : Word :=
  match b with
  | .reg _ _ => op vs 1
  | .imm i => i.signExtend 32
def bPair (b : BSrc) (vs : List (List Word)) : DWord :=
  match b with
  | .reg _ _ => opPair vs 1
  | .imm i => i.signExtend 64

end Sys2Proof.Machine
end

