-- ==== Sys2Proof/Machine/Fetch.lean ====
section
/-!
DEFINITION. Fetching a packet and taking one word from it (R38–R48, R59, R61, R274).
-/
namespace Sys2Proof.Machine

/-! ### The packet -/

/-- Slot number 0–2 of a PC. -/
def slotOf (pc : DWord) : Nat := pc.toNat % 32 / 8 - 1
def packetBase (pc : DWord) : Nat := pc.toNat / 32 * 32

/-- Word k of a packet: 0 is the control word, 1 to 3 the slots. -/
def packetWord (p : BitVec 256) (k : Nat) : Nat := p.toNat / 2 ^ (64 * k) % 2 ^ 64

/-- WAIT, DIST and YLD of slot k (R39). -/
def ctlWait (c k : Nat) : Nat := bits c (63 - 16 * k) (52 - 16 * k)
def ctlDist (c k : Nat) : Nat := bits c (51 - 16 * k) (49 - 16 * k)
def ctlYld (c k : Nat) : Bool := bitAt c (48 - 16 * k)

/-- The pipe of a raw word; a word that does not decode has none. -/
def wordPipe (w : Nat) : Pipe :=
  match decode w with
  | .ok i => pipeOf i
  | .error _ => .none

/-- R39 and R43: is the packet illegal when slot k is about to issue? -/
def badPacket (p : BitVec 256) (k : Nat) : Bool :=
  let c := packetWord p 0
  c % 2 ^ 16 != 0 ||
    (k != 0 && ctlDist c k == 0 && wordPipe (packetWord p (k + 1)) != .none
      && wordPipe (packetWord p (k + 1)) == wordPipe (packetWord p k))

/-! ### Reading it -/

/-- 32 bytes of code at a physical address, read at the home or, for a Graver, at its bank. -/
def codeBytes (s : State) (g : Bool) (p : Phys) : State × BitVec 256 × Nat :=
  if g then
    let (v, code) := dramRead s (p.pa / 64) p.key
    (s, BitVec.ofNat 256 (secLoad v (p.pa % 64) 32), code)
  else
    let (s, v, code) := homeRead s (p.pa / 64) p.key
    (s, BitVec.ofNat 256 (secLoad v (p.pa % 64) 32), code)

/-- A Graver fetches only from BS pages of its own bank (R274). -/
def graverCode (t : Tid) (p : Phys) : Bool :=
  match t with
  | .graver g _ => p.kind == .bs && bankOf p.pa == some (g / 2)
  | _ => true

/-- Translation of a fetch: 0x06, 0x07, 0x08, 0x15, 0x16 as R350 and R399 give them. A fetch from a device page gives 0x08 also where its
leaf may be executed: no rule gives that case a code (DESIGN CHOICE, log entry 82). -/
def fetchPhys (s : State) (t : Tid) (ctx va : Nat) : State × Except Nat Phys :=
  let (s, lf) := leafFor s t ctx va
  match lf with
  | none => (s, .error 0x06)
  | some (size, leaf) => match leafCheck s ctx va size leaf .exec with
    | .error e => (s, .error e)
    | .ok p =>
      if p.kind == .device then (s, .error 0x08)
      else if !graverCode t p then (s, .error 0x07)
      else if fencedHome s p.pa then (s, .error 0x15)
      else (s, .ok p)

/-- The packet a thread is in, if it holds the packet of this address: it executes the packet as it was fetched (R48). -/
def heldPacket (s : State) (t : Tid) (va : Nat) : Option (BitVec 256) :=
  match s.thread t with
  | some th => match th.packet with
    | some (a, b) => if a == w64 va then some b else none
    | none => none
  | none => none

/-- Threads hold the packet they are in. -/
def holdPacket (s : State) (ts : List Tid) (va : Nat) (b : BitVec 256) : State :=
  ts.foldl (fun s t => s.modThread t fun th => { th with packet := some (w64 va, b) }) s

/-- The packet of an address that a thread, or its Graver context, keeps. -/
def keptPacket (s : State) (t : Tid) (va : Nat) : Option (BitVec 256) :=
  match t with
  | .graver g _ => ((s.graver g).icache.find? fun e => e.1 == w64 va).map (·.2)
  | _ => heldPacket s t va

/-- Does the fetch of a PC stall, as its die's miss table is full (R351)? -/
def fetchHolds (s : State) (t : Tid) (ctx : Nat) (pc : DWord) : Bool :=
  (keptPacket s t (packetBase pc)).isNone && missStall s t ctx (packetBase pc)

/-- The packet that holds a PC: a thread keeps the packet it is in, a Graver what it fetched until its next start (R274). A thread
that comes to a packet takes the bytes that its home holds then (DESIGN CHOICE, log entry 59: R48 allows the old packet too). -/
def fetchPacket (s : State) (t : Tid) (ctx : Nat) (pc : DWord) : State × Except Nat (BitVec 256) :=
  let va := packetBase pc
  match keptPacket s t va with
  | some b => (s, .ok b)
  | none => match fetchPhys s t ctx va with
    | (s, .error e) => (s, .error e)
    | (s, .ok p) =>
      let (s, b, code) := codeBytes s t.isGraver p
      if code != 0 then (s, .error code)
      else match t with
        | .graver g _ => (s.modGraver g fun x => { x with icache := (w64 va, b) :: x.icache }, .ok b)
        | _ => (s, .ok b)

/-- What the fetch of a group's next slot comes to: a word to execute, or a fault of the whole group. -/
inductive Fetched where
  | word (i : Instr)
  | bad (code : Nat) (addr : DWord)

/-- The instruction at a PC of a packet, if its word is one. -/
def packetInstr (p : BitVec 256) (pc : DWord) : Option Instr :=
  match decode (packetWord p (slotOf pc + 1)) with
  | .ok i => some i
  | .error _ => none

/-- Is this the address of a slot (R38)? Only a PC that a handler wrote can be another (R47, R390). -/
def slotAddr (pc : DWord) : Bool := pc.toNat % 32 == 8 || pc.toNat % 32 == 16 || pc.toNat % 32 == 24

/-- Threads of a group that hold an older or newer copy of its packet than the first one are a group of their own (R48). -/
def splitHeld (s : State) (g : Group) (t : Tid) (pc : DWord) : State × Group :=
  let view (u : Tid) : Option (BitVec 256) := heldPacket s u (packetBase pc)
  let rest := g.mem.filter fun u => view u != view t
  if rest.isEmpty then (s, g)
  else
    let g := { g with mem := g.mem.filter fun u => view u == view t }
    ({ s with issuing := some { grp := g }, groups := s.groups ++ [{ g with mem := rest, fresh := true, rest := [] }] }, g)

/-- The word at a PC of a packet: 0x01, then 0x02 (R47, R61). -/
def wordAt (p : BitVec 256) (pc : DWord) : Fetched :=
  let k := slotOf pc
  if badPacket p k then .bad 0x01 0
  else match decode (packetWord p (k + 1)) with
    | .error _ => .bad 0x02 0
    | .ok i => .word i

/-- The next word of a group: its packet's fetch faults, then those of the word. -/
def fetchWord (s : State) (g : Group) : State × Fetched :=
  match g.mem with
  | [] => (s, .bad 0x02 0)
  | t :: _ => match s.thread t with
    | none => (s, .bad 0x02 0)
    | some th =>
      if !slotAddr th.pc then (s, .bad 0x05 th.pc)
      else
        let (s, g) := splitHeld s g t th.pc
        match fetchPacket s t th.ctx th.pc with
        | (s, .error e) => (s, .bad e (w64 (packetBase th.pc)))
        | (s, .ok p) => (holdPacket s g.mem (packetBase th.pc) p, wordAt p th.pc)

/-- A fetch that faulted: the group that is being issued leaves the issue slot and every thread of it stops (R61). It is `g` but for the
threads that `splitHeld` put aside, which go on with the packet they hold (R48). -/
def fetchFault (s : State) (g : Group) (code : Nat) (addr : DWord) : State :=
  let g := (s.issuing.map (·.grp)).getD g
  groupFaultAt { s with issuing := none, groups := s.groups ++ g.after } g.mem code addr

end Sys2Proof.Machine
end

