-- ==== Sys2Proof/Machine/Issue.lean ====
section
/-!
DEFINITION. Which group issues (R40, R42–R44, R314, R315, R378), and the end of fixed and variable latencies.
-/
namespace Sys2Proof.Machine

/-! ### Completions (R41, R45, R115) -/

/-- May this outstanding instruction complete now? -/
def Out.due (o : Out) (now : Nat) : Bool := !o.held && decide (o.ready ≤ now)

/-- Must it have completed by now, as R59 bounds its latency? -/
def Out.over (o : Out) (now : Nat) : Bool := !o.held && o.last.any fun n => decide (n ≤ now)

/-- Completes every result of a thread whose last cycle has come, in order of issue. -/
def settle (s : State) (t : Tid) : State :=
  match s.thread t with
  | none => s
  | some th => (th.outs.filter fun o => o.over s.now).foldl (fun s o => complete s t o.seq) s

/-! ### Readiness -/

/-- Does the form before a chained slot suspend fetch (R117, R260, R377)? -/
def suspends (i : Instr) (traps : Bool) : Bool :=
  (raisesFp i && traps) || match i with
    | .call _ _ _ => true
    | .calli _ _ _ => true
    | .ret _ => true
    | .brx _ _ => true
    | .spawn _ _ => true
    | .join _ _ => true
    | .cancel _ _ => true
    | i => match i.fields with
      | none => false
      | some f => f.op / 32 == 7 || f.op / 32 == 8 || (f.op / 32 ≥ 10 && f.op / 32 ≤ 13)

/-- May slot k of a group issue in this cycle as a chained slot (R43): its predecessor in the packet has just issued for the group
and did not suspend fetch, and no transfer, split or bin came between? -/
def chains (s : State) (g : Group) (traps : Bool) (p : BitVec 256) (k : Nat) : Bool :=
  k != 0 && !g.fresh && (g.mem.all fun t => match s.thread t with
    | some th => th.lastIssue == some s.now && !th.entered
    | none => false) && match decode (packetWord p k) with
      | .ok i => !suspends i traps
      | .error _ => false

/-- The distance slot k counts for a group: 0 only where it chains. -/
def effDist (s : State) (g : Group) (traps : Bool) (p : BitVec 256) (k : Nat) : Nat :=
  let d := ctlDist (packetWord p 0) k
  if d != 0 then d else if chains s g traps p k then 0 else 1

/-- R42 for one thread. -/
def distOk (s : State) (t : Tid) (th : Thread) (d : Nat) : Bool :=
  match th.lastIssue with
  | none => true
  | some l => decide (l + cyc t d ≤ s.now)

/-- R40 for one thread. -/
def waitOk (th : Thread) (mask : Nat) : Bool := (List.finRange 12).all fun f => !bitAt mask f.val || th.flagCount f == 0

/-- Has the agent of this group issued in this cycle for another group, or begun a read over two cycles for one (R13, R43, R315)? A
chained slot shares its predecessor's cycle. -/
def agentBusy (s : State) (g : Group) : Bool :=
  s.groups.any fun h => h.agent == g.agent && h != g && (h.reading == some s.now || h.mem.any fun t => match s.thread t with
    | some th => th.lastIssue == some s.now
    | none => false)

/-- Is fetch of a thread not suspended by a form that traps could stop (R117), its team not stopped by a forced save (R394), and no save of
its Burin context requested (R194)? -/
def fetches (s : State) (t : Tid) (th : Thread) : Bool :=
  (match th.hold with
    | some q => !th.outs.any fun o => o.seq == q
    | none => true) && match s.teamOf t with
    | some (_, tm) => !tm.saving
    | none => !burinAsked s t

/-- Must a thread stop before its next slot: for a fault that its data raised (R378), or a name spill that failed (R430)? -/
def stopDue (th : Thread) : Bool := th.deferred.isSome || th.spillBad.isSome

/-! ### Bank use (R315) -/

/-- The header of a word. -/
def headerOf (i : Instr) : Hdr :=
  match i.fields with
  | some f => match f.hdr with
    | .ok h => h
    | .error _ => { neg := false, sel := 7, setf := none }
  | none => { neg := false, sel := 7, setf := none }

/-- A word's bank-use vector: the register sets that hold the cells its sources read. -/
def bankUse (s : State) (g : Group) (i : Instr) : List Nat :=
  ((srcKeys s i (executing (headerOf i) s g)).filterMap fun k => match s.cells.get k with
    | some c => if c.spilled then none else some c.set
    | none => none).eraseDups

/-- Does a word read its sources over two cycles: two or more names, whose cells lie in one register set (DEDUCED, log entry 60: a
single source is no conflict)? -/
def twoCycle (s : State) (g : Group) (i : Instr) : Bool :=
  let ks := srcKeys s i (executing (headerOf i) s g)
  (bankUse s g i).length == 1 && decide (2 ≤ ((ks.map (·.pos)).eraseDups).length)

/-- The next word of a group, if its packet can be fetched and it is a word. -/
def nextWord (s : State) (g : Group) : Option Instr :=
  match g.mem with
  | [] => none
  | t :: _ => match s.thread t with
    | none => none
    | some th => match (fetchPacket s t th.ctx th.pc).2 with
      | .ok p => packetInstr p th.pc
      | .error _ => none

/-- The register sets that a group's next slot reads. -/
def useOf (s : State) (g : Group) : List Nat :=
  match nextWord s g with
  | some i => bankUse s g i
  | none => []

/-- Did a group begin a read over two cycles in the last cycle? Its slot issues now. -/
def Group.readOn (g : Group) (now : Nat) : Bool := g.reading.any fun n => n + 1 == now

/-! ### Readiness (R40, R42, R43, R314) -/

/-- Does a word stall on a cell, a stream or a fill (R314), or on what else the threads have outstanding? A word that faults by itself,
or that files its threads, does not. The forms' own stalls are found when the slot issues; the quadrant then chooses again. -/
def wordStalls (s : State) (g : Group) (i : Instr) (cells : Bool) : Bool :=
  match g.mem with
  | [] => false
  | t0 :: _ =>
    let exec := executing (headerOf i) s g
    !((faultOf i t0 false).isSome || (i.warpWhole && !isWhole s g)) &&
      (laneHolds i (headerOf i) s exec || cellsMoving s i g exec || (cells && cellStall s i g exec))

/-- The distance that a group's slot counts. -/
def slotDist (s : State) (g : Group) (p : BitVec 256) (pc : DWord) : Nat :=
  effDist s g (g.mem.any fun t => match s.thread t with | some th => s.enables t th != 0 | none => false) p (slotOf pc)

/-- Do the distance and the flags of a group's slot let it issue in this cycle (R40, R42)? `s'` is the state with every due result. -/
def slotOpen (s s' : State) (g : Group) (p : BitVec 256) (pc : DWord) : Bool :=
  g.mem.all fun t => match s'.thread t with
    | some th => distOk s t th (slotDist s g p pc) && waitOk th (ctlWait (packetWord p 0) (slotOf pc))
    | none => false

/-- Do its pipe and its operands let it, and, for a chained slot, sources that take one cycle? -/
def wordReady (s s' : State) (g : Group) (p : BitVec 256) (pc : DWord) : Bool :=
  match wordAt p pc with
  | .word i => pipeFree s' i g && (slotDist s g p pc != 0 || !twoCycle s' g i) && !wordStalls s' g i true
  | .bad _ _ => true

/-- Does every thread of a group fetch, with none that must stop first? -/
def runsOn (s : State) (g : Group) : Bool :=
  g.mem.all fun t => match s.thread t with
    | some th => fetches s t th && !stopDue th
    | none => false

/-- Is the next slot of a group ready in this cycle (R314)? Results that are due count as complete. -/
def ready (s : State) (g : Group) : Bool :=
  match g.mem with
  | [] => false
  | t0 :: _ => match s.thread t0 with
    | none => false
    | some th0 =>
      let s' := g.mem.foldl settle s
      if g.stalled == some s.now || agentBusy s g || !runsOn s' g || fetchHolds s t0 th0.ctx th0.pc then false
      else match (fetchPacket s t0 th0.ctx th0.pc).2 with
        | .error _ => g.mem.all fun t => match s'.thread t with
          | some th => distOk s t th 1
          | none => false
        | .ok p => slotOpen s s' g p th0.pc && wordReady s s' g p th0.pc

/-- Must some thread of a group stop now, with every due result? It stops alone, and the others' slot is ready or not as before (R378,
R430). -/
def stopsNow (s : State) (t : Tid) : Bool :=
  let s' := settle s t
  match s'.thread t with
  | some th => stopDue th && fetches s' t th
  | none => false

/-- Does a group of cores lack a cell for a slot that its distance, its flags and its threads let issue (R29)? `also` is what else a
word needs. -/
def shortOfCells (s : State) (g : Group) (also : State → Group → Instr → Bool) : Bool :=
  match g.mem with
  | .core c sl l :: _ => match s.thread (.core c sl l) with
    | none => false
    | some th0 =>
      let s' := g.mem.foldl settle s
      runsOn s' g && match (fetchPacket s (.core c sl l) th0.ctx th0.pc).2 with
        | .error _ => false
        | .ok p => slotOpen s s' g p th0.pc && match wordAt p th0.pc with
          | .word i => !wordStalls s' g i false && (wordStalls s' g i true || also s' g i)
          | .bad _ _ => false
  | _ => false

/-! ### The choice (R314) -/

/-- Start time of the oldest thread's team; Burin, proof slot and Graver groups have one agent each. -/
def groupAge (s : State) (g : Group) : Nat :=
  g.mem.foldl (fun a t => match s.teamOf t with | some (_, tm) => min a tm.start | none => a) (s.now + 1)

/-- Lower warp slot of the lowest slot's quad. -/
def groupSlot (g : Group) : Nat :=
  match g.mem with
  | .core _ sl _ :: _ => sl
  | .graver _ x :: _ => x / 8
  | _ => 0

/-- Has a group been ready and unissued for 256 cycles? -/
def ready256 (s : State) (g : Group) : Bool :=
  g.promoted || match g.readyAt with
    | some r => decide (r + 256 ≤ s.now)
    | none => false

/-- Does a yield hint of the last slot hold a group back in this cycle (R44)? -/
def yields (s : State) (g : Group) : Bool :=
  match g.yld, g.mem with
  | some c, t :: _ => decide (s.now ≤ c + cyc t 1)
  | _, _ => false

/-- R314's rank: promoted groups first, those a yield hint names last; then age, then warp slot. -/
def rankBefore (s : State) (a b : Group) : Bool :=
  let cls (g : Group) : Nat := if ready256 s g then 0 else if yields s g then 2 else 1
  let key (g : Group) : Nat × Nat × Nat := (cls g, groupAge s g, groupSlot g)
  let (a1, a2, a3) := key a
  let (b1, b2, b3) := key b
  if a1 != b1 then a1 < b1 else if a2 != b2 then a2 < b2 else a3 < b3

/-- Ready groups of one agent. -/
def readyOf (s : State) (agent : Nat × Nat) : List Group := s.groups.filter fun g => g.agent == agent && ready s g

def bestGroup (s : State) : List Group → Option Group
  | [] => none
  | g :: gs => match bestGroup s gs with
    | none => some g
    | some h => some (if rankBefore s h g then h else g)

/-- The record of the failed name spill of a thread, which stops at its PC (R430). -/
def spillRecs (s : State) (t : Tid) (th : Thread) : List FRec :=
  th.spillBad.toList.map fun b => threadRec s t th b.1 0 th.pc b.2 0

/-- The fault that a thread takes before its next slot, and the records that come with it: a deferred fault's PROGRESS is the resume
PC (R378). -/
def dueStops (s : State) (t : Tid) (th : Thread) : List FRec :=
  (th.deferred.toList.map fun r => { r with progress := th.pc.setWidth 128 }) ++ spillRecs s t th

/-- One thread stops before its next slot. -/
def stopOne (n : Nat) (s : State) (t : Tid) : State :=
  match s.thread t with
  | none => s
  | some th => match dueStops s t th with
    | [] => s
    | r :: more =>
      let s := takeFault (s.setThread t { th with spillBad := none }) t r th.pc n
      more.foldl (fun s r => postLaunch s th.ctx th.launch r) s

/-- The threads of a group that must stop before its slot do, together; the group keeps the others. -/
def stopDeferred (s : State) (g : Group) : State :=
  let (n, s) := s.fresh
  let ts := byOrder s (g.mem.filter (stopsNow s))
  ts.foldl (stopOne n) (ts.foldl settle s)

/-- Has the slot at a PC of a packet the yield hint? -/
def hints (s : State) (t : Tid) : Bool :=
  match s.thread t with
  | some th => match (fetchPacket s t th.ctx th.pc).2 with
    | .ok p => ctlYld (packetWord p 0) (slotOf th.pc)
    | .error _ => false
  | none => false

/-- Takes a group to the issue slot: results that are due become readable, and the yield hint of the slot is noted. -/
def select (s : State) (g : Group) : State :=
  let s := g.mem.foldl settle { s with groups := s.groups.filter (· != g) }
  match g.mem with
  | [] => s
  | t :: _ => { s with issuing := some { grp :=
      { g with yld := if hints s t then some s.now else none, fresh := false, reading := none } } }

/-- Notes since when the agent's ready groups have been ready. -/
def noteReady (s : State) (agent : Nat × Nat) : State :=
  let rs := readyOf s agent
  { s with groups := s.groups.map fun g =>
      if rs.contains g && g.readyAt.isNone then { g with readyAt := some s.now } else g }

/-! ### The quadrants' turns (R315) -/

/-- Quadrants of a core that have chosen in this cycle, each with the register sets that its choice reads. -/
def turnNow (s : State) (c : Nat) : List (Nat × List Nat) :=
  let x := (s.core c).turn
  if x.1 == s.now then x.2 else []

/-- The place of a quadrant in the order of a cycle. -/
def turnOfQuadrant (s : State) (q : Nat) : Nat := (q + 4 - s.now % 4) % 4

/-- Places of a cycle's order whose turn is over: those up to the last quadrant that has chosen. -/
def turnsPast (s : State) (c : Nat) : Nat := (turnNow s c).foldl (fun m e => max m (turnOfQuadrant s e.1 + 1)) 0

/-- Register sets that are being read in this cycle: those chosen, and those of slots in their second cycle elsewhere. -/
def setsRead (s : State) (c q : Nat) : List Nat :=
  (turnNow s c).flatMap (·.2) ++ (s.groups.filter fun g => g.agent.1 == c && g.agent.2 != q && decide (g.agent.2 < 4) && g.readOn s.now).flatMap
    (useOf s)

/-- What a quadrant may choose from: the slot that is in its second cycle, else a chained slot, else, unless its turn has passed,
the ready groups that share no set with the choices made. Burin contexts, the proof slot and Gravers read no cells and have no
turn. -/
def candidates (s : State) (agent : Nat × Nat) : List Group :=
  let rs := readyOf s agent
  if Config.cores ≤ agent.1 || 4 ≤ agent.2 then rs
  else if rs.any (·.readOn s.now) then rs.filter (·.readOn s.now)
  else if rs.any (chained s) then rs.filter (chained s)
  else if turnOfQuadrant s agent.2 < turnsPast s agent.1 then []
  else rs.filter fun g => !(useOf s g).any (setsRead s agent.1 agent.2).contains

/-- Have the quadrants before this one chosen, or nothing to choose? -/
def inTurn (s : State) (agent : Nat × Nat) : Bool :=
  decide (Config.cores ≤ agent.1) || decide (4 ≤ agent.2) || (List.range 4).all fun q =>
    !(decide (turnsPast s agent.1 ≤ turnOfQuadrant s q) && decide (turnOfQuadrant s q < turnOfQuadrant s agent.2)) ||
      (candidates s (agent.1, q)).isEmpty

/-- A quadrant has chosen: its turn is over, and its choice's sets are read. A chained slot belongs to the turn of the slot before it
(DEDUCED, log entry 60). -/
def takeTurn (s : State) (agent : Nat × Nat) (g : Group) : State :=
  if Config.cores ≤ agent.1 || 4 ≤ agent.2 || chained s g then s
  else
    s.modCore agent.1 fun x => { x with turn := (s.now, turnNow s agent.1 ++ [(agent.2, useOf s g)]) }

/-- Does a group's slot begin a read over two cycles now? -/
def beginsRead (s : State) (g : Group) : Bool :=
  decide (g.agent.1 < Config.cores) && decide (g.agent.2 < 4) && !g.readOn s.now && match nextWord s g with
    | some i => twoCycle s g i
    | none => false

/-- A group of an agent in which a thread must stop before its next slot. -/
def stopGroup (s : State) (agent : Nat × Nat) : Option Group := s.groups.find? fun g => g.agent == agent && g.mem.any (stopsNow s)

/-- QUADRANT_ISSUE (R314, R315): agent q of core c issues its best ready group, or begins the first of two cycles of its read; past
the cores, c is Config.cores + a Graver context. Threads that must stop do so first, which is no issue. Nothing happens while a slot
is being issued, when the turn is another's or when no group is ready. -/
def issueAgent (s : State) (agent : Nat × Nat) : State :=
  if s.issuing.isSome then s
  else if let some g := stopGroup s agent then stopDeferred s g
  else if !inTurn s agent then s
  else
    let s := noteReady s agent
    match bestGroup s (candidates s agent) with
    | none => s
    | some g =>
      let s := takeTurn s agent g
      if beginsRead s g then { s with groups := s.groups.map fun h => if h == g then { h with reading := some s.now } else h }
      else select s g

end Sys2Proof.Machine
end

