-- ==== Sys2Proof/Machine/Start.lean ====
section
/-!
DEFINITION. How threads begin: core threads (R21, R37), Burin contexts (R182), proof-slot threads (R386), Graver threads
(R274).
-/
namespace Sys2Proof.Machine

/-- A thread at its start: everything at the values of R21 and R325. -/
def Thread.start (ctx launch team tix gtid : Nat) (pc : DWord) : Thread :=
  { ctx := ctx, launch := launch, team := team, tix := tix, gtid := gtid, status := .running, pc := pc, fb := 0, lo := 0,
    nrec := 0, wtop := 0, links := [], preds := 0, predPend := [], lcs := (0, 0, 0), fpst := 0, voidSt := false,
    lastIssue := none, hold := none, entered := false, outs := [], fixedNames := [], loads := [], stores := [], arrivals := [],
    deferred := none, spillBad := none, stoppedAt := 0, act := false, pcWritten := false, stop := none, stopMates := 0, sel := none,
    packet := none }

/-- The first slot of a packet. -/
def slot0 (packet : DWord) : DWord := packet + 8

/-- g0 to g4 of a core thread at its start (R21). -/
def startNames (r : LRec) (lin : Nat) : List (Pos × Word) :=
  [(.g 0, loOf r.args), (.g 1, hiOf r.args), (.g 2, w32 (lin % r.gx)), (.g 3, w32 (lin / r.gx % r.gy)),
   (.g 4, w32 (lin / r.gx / r.gy))]

/-- Starts one thread of a team in a lane of a warp slot. -/
def startThread (s : State) (c slot lane : Nat) (ctx launch : Nat) (r : LRec) (lin tix : Nat) : State :=
  s.setThread (.core c slot lane) (Thread.start ctx launch lin tix (lin * r.threads + tix) (slot0 r.entry))

/-- One lane's start value of a name that finds no free cell: it goes to the thread's slot (log entry 61). -/
def startSpilled (p : Pos) (v : Word) (s : State) (t : Tid) : State :=
  match spillLane s t p v with
  | (s, some b) => noteSpillBad s t b
  | (s, none) => s

/-- A name takes its start value in the four lanes of a quad: in a cell, or, where the bank has none free, in their slots. -/
def startName (c slot q : Nat) (s : State) (e : Pos × Word) : State :=
  let k : CellKey := { core := c, slot := slot, quad := q, pos := e.1 }
  let ts : List Tid := (List.range 4).map fun i => .core c slot (4 * q + i)
  let full := s.cellsFree c q == 0
  let s := ts.foldl (fun s t => s.writeNow t e.1 e.2) s
  if full then match s.cells.get k with
    | some x => ts.foldl (startSpilled e.1 e.2) { s with cells := s.cells.set k { x with spilled := true } }
    | none => s
  else noteAlloc s (.core c slot (4 * q))

/-- Starts warp w of a team in a warp slot: its 32 threads with g0 to g4, and its first group. -/
def startWarp (s : State) (c slot : Nat) (ctx launch : Nat) (r : LRec) (lin w : Nat) : State :=
  let s := (List.range 32).foldl (fun s l => startThread s c slot l ctx launch r lin (32 * w + l)) s
  let s := (List.range 8).foldl (fun s q => (startNames r lin).foldl (startName c slot q) s) s
  s.addGroup (slot / Config.warpsPerQuadrant) false ((List.range 32).map fun l => .core c slot l)

/-- A Burin context at its start (R182). -/
def Burin.start (id ctx launch : Nat) : Burin :=
  { id := id, ctx := ctx, launch := launch, desc := List.replicate 16 (List.replicate 8 0), accs := List.replicate 4 Acc.zero,
    queue := [], inbox := [], header := none, area := [], saveReq := false }

/-- Starts Burin context k of a core for a launch (R181, R182). -/
def startBurin (s : State) (c k ctx launch : Nat) (r : LRec) : State :=
  let t : Tid := .burin c k
  let th := { Thread.start ctx launch 0 0 0 (slot0 r.burin) with
    fixedNames := [(.g 0, { val := loOf r.args, rel := false, pend := none }),
                   (.g 1, { val := hiOf r.args, rel := false, pend := none }),
                   (.g 2, { val := w32 c, rel := false, pend := none }),
                   (.g 3, { val := w32 k, rel := false, pend := none })] }
  let (n, s) := s.fresh
  ((s.setThread t th).setBurin c k (Burin.start n ctx launch)).addGroup 0 false [t]

/-- Starts the proof slot of a core at the handler (R386): 32 lanes, fixed names that read zero. -/
def startProof (s : State) (c ctx : Nat) (handler : DWord) : State :=
  let s := (List.range 32).foldl (fun s l => s.setThread (.proof c l) (Thread.start ctx 0 0 l l (slot0 handler))) s
  (s.modCore c fun x => { x with proofOn := true }).addGroup 0 false ((List.range 32).map fun l => .proof c l)

/-- Starts the warps of a Graver context at its entry (R274): what its last run left in names and predicates goes. -/
def startGraver (s : State) (g owner warps : Nat) (entry : DWord) : State :=
  let s := dropThreads s fun u _ => ofGraver g u
  let s := (List.range (8 * warps)).foldl (fun s x => s.setThread (.graver g x)
    (Thread.start owner 0 0 x x (slot0 entry))) s
  (List.range warps).foldl (fun s w => s.addGroup 0 false ((List.range 8).map fun l => .graver g (8 * w + l))) s

/-! ### Placing a word where the next step fetches (withFetchWord) -/

/-- A launch record of one team of 32 threads whose code lies at VA 0x1_0000. -/
def probeRec : LRec :=
  { entry := 0x1_0000, burin := 0x1_0000, gx := 1, gy := 1, gz := 1, threads := 32, gang := 1, qp := 0, flags := 0,
    depth16 := 4, regMin := 1, tileMin := 1, cacheMin := 1, scratch := 4096, stackBase := 0, stackBytes := 320,
    deadline := 0, fslots := List.replicate 8 0, binds := List.replicate 4 0, counter := 0, faultQ := 0, graph := 0,
    phase := 0, job := 0, ctx := 1, args := 0, argSize := 0 }

def probeLaunch : Launch :=
  { rcd := probeRec, next := 1, live := 1, ended := [], faults := 0, marked := false,
    first := 0, cancelled := false, killed := false, severed := none, done := none, reserve := [],
    ineligible := none, preds := [], burinCores := [0], committing := false, yieldTo := none }

/-- A leaf: valid, readable, writable, executable, normal, key slot 0. -/
def probeLeaf (pa : Nat) : DWord := w64 (pa + 31)

/-- The tables of the probe's context: one of each level. -/
def probeTable (l : Nat) : Nat := Config.tableBase + 0x1000 * (4 - l)

/-- A context that maps VA page 0x1_0000 to the physical page of the same number. -/
def probeCtx : Ctx :=
  { sealed_ := false, key := 0, refill := 0, cap := 0, bcap := 0, age := 48, xthr := 4096, bal := 0, owed := 0, debt := 0,
    keys := some (.drawn 0) :: List.replicate 7 none, granted := [(0x1_0000, 0x1_0000)],
    table := [(probeTable 0 + 8, probeLeaf 0x1_0000), (probeTable 1, w64 (probeTable 0 + 1)),
              (probeTable 2, w64 (probeTable 1 + 1)), (probeTable 3, w64 (probeTable 2 + 1)), (probeTable 4, w64 (probeTable 3 + 1))],
    root := probeTable 4, nextTable := probeTable 0 + 0x1000, handler := 0, faultQ := 0,
    dropped := 0, queues := List.replicate 8 [], nextLaunch := 2, doneUnits := [], unitFaults := [], counters := [],
    groups := [] }

def probeTeam : Team :=
  { ctx := 1, launch := 1, lin := 0, warps := [0], scratch := [], map := [], brk := false, preq := none, start := 0,
    resident := 0, saving := false, blocked := none }

/-- The agent whose profile has a word: a Burin for class 0xD, the proof slot for its own forms, else a core thread. -/
def probeTid (w : Nat) : Tid :=
  match decode w with
  | .ok i => if tileForm i then .burin 0 0 else if proofForm i then .proof 0 0 else .core 0 0 0
  | .error _ => .core 0 0 0

/-- The context, launch, team, page, word and thread that a fetch of this word takes, and the thread's group issuing. -/
def placeWord (s : State) (w : Nat) : State :=
  let t := probeTid w
  let s := { s with pkg := { s.pkg with mode := .ready },
                    ctxs := s.ctxs.set 1 probeCtx, launches := s.launches.set (1, 1) probeLaunch,
                    teams := s.teams.set (0, 0) probeTeam, mem := (s.mem.clear 0x1_0000 32).store 0x1_0008 8 w,
                    poison := s.poison.filter (· != 0x400), badCrc := s.badCrc.filter (· != 0x400),
                    sectorKeys := s.sectorKeys.del 0x400 }
  let s := s.modDie 0 fun d => { d with fenced := false, l2 := d.l2.filter (·.sec != 0x400), tlb := [] }
  let s := s.modCore 0 fun x => { x with ctx := 1, tlb := [] }
  let s := s.setThread t (Thread.start 1 1 0 0 0 (slot0 0x1_0000))
  let s := if t.isBurin then s.setBurin 0 0 (Burin.start 0 1 1) else s
  { s with issuing := some { grp := Group.start 0 false [t] [] } }

end Sys2Proof.Machine
end

