-- ==== Sys2Proof/Machine/Integer.lean ====
section
/-!
DEFINITION. Class 0x0, integer and address forms (R163–R174).
-/
namespace Sys2Proof.Machine

/-- INT and FMA latencies of R59. -/
def latInt : Lat := .fixed 2
def latFma : Lat := .fixed 4

def tyWidth : ITy → Nat
  | .n32 => 32
  | .s32 => 32
  | .n64 => 64
  | .s64 => 64
  | .n16x2 => 16
  | .s16x2 => 16
  | .n8x4 => 8
  | .s8x4 => 8

/-- Element i of width w of a name, as its exact value. -/
def elemI (w : Nat) (signed : Bool) (x : Word) (i : Nat) : Int :=
  let c := x.toNat / 2 ^ (w * i) % 2 ^ w
  if signed then sext w c else c

/-- Exact results placed element by element, lowest first. -/
def packI (w : Nat) (signed sat : Bool) (l : List Int) : Word :=
  w32 (l.foldr (fun x a => codeOf w (if sat then clampTo w signed x else x) + 2 ^ w * a) 0)

/-- f on each element pair of a 32-bit type. -/
def mapI (ty : ITy) (sat : Bool) (f : Int → Int → Int) (a b : Word) : Word :=
  let w := tyWidth ty
  packI w ty.signed sat ((List.range (32 / w)).map fun i => f (elemI w ty.signed a i) (elemI w ty.signed b i))

/-- A 64-bit value of a pair. -/
def pairI (signed : Bool) (d : DWord) : Int := if signed then d.toInt else d.toNat

/-- IADD and ISUB: on pairs for the 64-bit types, on elements otherwise (R165). -/
def addFn (ty : ITy) (sat : Bool) (f : Int → Int → Int) (b : BSrc) (vs : List (List Word)) : List Word :=
  if ty.is64 then pairOut (placeInt 64 ty.signed sat (f (pairI ty.signed (opPair vs 0)) (pairI ty.signed (bPair b vs))))
  else [mapI ty sat f (op vs 0) (bVal b vs)]

/-- IMUL: exact 64-bit product with W (R166). -/
def imulFn (ty : ITy) (sat wide : Bool) (a b : Word) : List Word :=
  if wide then pairOut (BitVec.ofInt 64 (elemI 32 ty.signed a 0 * elemI 32 ty.signed b 0))
  else [mapI ty sat (· * ·) a b]

/-- Bits 2w − 1 : w of each product (R166). -/
def imulhFn (ty : ITy) (a b : Word) : Word :=
  let w := tyWidth ty
  mapI ty false (fun x y => (x * y) / (2 ^ w : Nat)) a b

/-- IMAD (R166): c is a name, or a pair with W. -/
def imadFn (ty : ITy) (sat wide : Bool) (a b : Word) (c : List Word) : List Word :=
  if wide then
    let x := elemI 32 ty.signed a 0 * elemI 32 ty.signed b 0 + pairI ty.signed (pairOf (c.getD 0 0) (c.getD 1 0))
    pairOut (placeInt 64 ty.signed sat x)
  else
    let w := tyWidth ty
    [packI w ty.signed sat ((List.range (32 / w)).map fun i =>
      elemI w ty.signed a i * elemI w ty.signed b i + elemI w ty.signed (c.getD 0 0) i)]

def iabsFn (ty : ITy) (sat : Bool) (a : Word) : Word := mapI ty sat (fun x _ => (x.natAbs : Int)) a 0

/-- POPC, CLZ, BREV (R170). -/
def popcFn (a : Word) : Word := w32 ((List.range 32).filter (a.getLsbD ·)).length
def clzFn (a : Word) : Word := w32 (32 - bitLen a.toNat)
def brevFn (a : Word) : Word := w32 (natOfBits ((List.range 32).map fun j => a.getLsbD (31 - j)))

/-- BFE (R171). -/
def bfeFn (signed : Bool) (a b : Word) : Word :=
  let p := b.toNat % 256
  let n := min (b.toNat / 256 % 256) 32
  let ext : Int := if signed then a.toInt else a.toNat
  if n == 0 then 0
  else
    let f := (ext / (2 ^ p : Nat) % (2 ^ n : Nat)).toNat
    if signed then BitVec.ofInt 32 (sext n f) else w32 f

/-- BFI (R172). -/
def bfiFn (a b c : Word) : Word :=
  let p := c.toNat % 256
  let n := min (c.toNat / 256 % 256) 32
  let m : Word := w32 ((2 ^ n - 1) * 2 ^ p)
  (a &&& ~~~m) ||| (w32 (b.toNat * 2 ^ p) &&& m)

/-- IDOT4 (R167). -/
def idot4Fn (ty : ITy) (sat : Bool) (a b c : Word) : Word :=
  let w := tyWidth ty
  let x := (List.range (32 / w)).foldl (fun x i => x + elemI w ty.signed a i * elemI w ty.signed b i) (elemI 32 ty.signed c 0)
  placeInt 32 ty.signed sat x

/-- LEA (R173). -/
def leaFn (signed : Bool) (b : BSrc) (vs : List (List Word)) : DWord :=
  opPair vs 0 + match b with
    | .imm i => i.signExtend 64
    | .reg _ _ => if signed then (op vs 1).signExtend 64 else (op vs 1).setWidth 64

/-- MOVK (R174). -/
def movkFn (half : Bool) (k : BitVec 16) (old : Word) : Word :=
  if half then (old &&& 0x0000_FFFF) ||| (k.setWidth 32 <<< 16) else (old &&& 0xFFFF_0000) ||| k.setWidth 32

abbrev Out' := Host.Outcome State Fault Refusal

def execIadd (h : Hdr) (ty : ITy) (sat : Bool) (o : Dab) (s : State) : Out' :=
  .next (issue (alu (.iadd h ty sat o) h latInt fun vs => { out := addFn ty sat (· + ·) o.b vs }) s)
def execIsub (h : Hdr) (ty : ITy) (sat : Bool) (o : Dab) (s : State) : Out' :=
  .next (issue (alu (.isub h ty sat o) h latInt fun vs => { out := addFn ty sat (· - ·) o.b vs }) s)
def execImul (h : Hdr) (ty : ITy) (sat wide : Bool) (o : Dab) (s : State) : Out' :=
  .next (issue (alu (.imul h ty sat wide o) h latFma fun vs => { out := imulFn ty sat wide (op vs 0) (bVal o.b vs) }) s)
def execImulh (h : Hdr) (ty : ITy) (o : Dab) (s : State) : Out' :=
  .next (issue (alu (.imulh h ty o) h latFma fun vs => { out := [imulhFn ty (op vs 0) (bVal o.b vs)] }) s)
def execImad (h : Hdr) (ty : ITy) (sat wide : Bool) (o : Dabc) (s : State) : Out' :=
  .next (issue (alu (.imad h ty sat wide o) h latFma fun vs =>
    { out := imadFn ty sat wide (op vs 0) (op vs 1) (vs.getD 2 []) }) s)
def execImin (h : Hdr) (ty : ITy) (o : Dab) (s : State) : Out' :=
  .next (issue (alu (.imin h ty o) h latInt fun vs => { out := [mapI ty false min (op vs 0) (bVal o.b vs)] }) s)
def execImax (h : Hdr) (ty : ITy) (o : Dab) (s : State) : Out' :=
  .next (issue (alu (.imax h ty o) h latInt fun vs => { out := [mapI ty false max (op vs 0) (bVal o.b vs)] }) s)
def execIabs (h : Hdr) (ty : ITy) (sat : Bool) (o : Da) (s : State) : Out' :=
  .next (issue (alu (.iabs h ty sat o) h latInt fun vs => { out := [iabsFn ty sat (op vs 0)] }) s)
def execIcmp (h : Hdr) (signed : Bool) (o : Pab) (s : State) : Out' :=
  .next (issue (alu (.icmp h signed o) h latInt fun vs =>
    { preds := [(o.p, condI o.cc.val signed (op vs 0) (bVal o.b vs))] }) s)
def execIsel (h : Hdr) (o : Dabc) (s : State) : Out' :=
  .next (issue (alu (.isel h o) h latInt fun vs => { out := [if op vs 2 != 0 then op vs 0 else op vs 1] }) s)
def execPopc (h : Hdr) (o : Da) (s : State) : Out' :=
  .next (issue (alu (.popc h o) h latInt fun vs => { out := [popcFn (op vs 0)] }) s)
def execClz (h : Hdr) (o : Da) (s : State) : Out' :=
  .next (issue (alu (.clz h o) h latInt fun vs => { out := [clzFn (op vs 0)] }) s)
def execBrev (h : Hdr) (o : Da) (s : State) : Out' :=
  .next (issue (alu (.brev h o) h latInt fun vs => { out := [brevFn (op vs 0)] }) s)
def execBfe (h : Hdr) (signed : Bool) (o : Dab) (s : State) : Out' :=
  .next (issue (alu (.bfe h signed o) h latInt fun vs => { out := [bfeFn signed (op vs 0) (bVal o.b vs)] }) s)
def execBfi (h : Hdr) (o : Dabc) (s : State) : Out' :=
  .next (issue (alu (.bfi h o) h latInt fun vs => { out := [bfiFn (op vs 0) (op vs 1) (op vs 2)] }) s)
def execIdot4 (h : Hdr) (ty : ITy) (sat : Bool) (o : Dabc) (s : State) : Out' :=
  .next (issue (alu (.idot4 h ty sat o) h latFma fun vs => { out := [idot4Fn ty sat (op vs 0) (op vs 1) (op vs 2)] }) s)
def execLea (h : Hdr) (signed : Bool) (o : Dab) (s : State) : Out' :=
  .next (issue (alu (.lea h signed o) h latInt fun vs => { out := pairOut (leaFn signed o.b vs) }) s)
def execMov (h : Hdr) (o : Da) (s : State) : Out' :=
  .next (issue (alu (.mov h o) h latInt fun vs => { out := [op vs 0] }) s)
def execMovi (h : Hdr) (d : Name) (i : BitVec 22) (s : State) : Out' :=
  .next (issue (alu (.movi h d i) h latInt fun _ => { out := [i.signExtend 32] }) s)
def execMovk (h : Hdr) (d : Name) (half : Bool) (k : BitVec 16) (s : State) : Out' :=
  .next (issue (alu (.movk h d half k) h latInt fun vs => { out := [movkFn half k (op vs 0)] }) s)

end Sys2Proof.Machine
end

