-- ==== Sys2Proof/Machine/Float.lean ====
section
/-!
DEFINITION. Class 0x2, floating forms (R123–R132).
-/
namespace Sys2Proof.Machine

def fmtOf : FTy → Fmt
  | .f32 => .f32
  | .f16x2 => .f16
  | .bf16x2 => .bf16

/-- Applies an element rule to the one element of .f32, or to each half of a packed word (R109, R124). -/
def perElem (ty : FTy) (f : Fmt → Nat → Nat → Nat → FR) (a b c : Word) : Word × Flags :=
  match ty with
  | .f32 => let r := f .f32 a.toNat b.toNat c.toNat; (r.word, r.fl)
  | ty =>
    let half (x : Word) (i : Nat) : Nat := x.toNat / 2 ^ (16 * i) % 2 ^ 16
    let lo := f (fmtOf ty) (half a 0) (half b 0) (half c 0)
    let hi := f (fmtOf ty) (half a 1) (half b 1) (half c 1)
    (w32 (lo.bits % 2 ^ 16 + 2 ^ 16 * hi.bits), lo.fl ||| hi.fl)

/-- The immediate as R54 gives it for classes 0x2 and 0x4. -/
def fImm (ty : FTy) (i : BitVec 22) : Word :=
  match ty with
  | .f32 => i.setWidth 32 <<< 10
  | _ => i.setWidth 32 ||| (i.setWidth 32 <<< 16)

def bFlt (ty : FTy) (b : BSrc) (vs : List (List Word)) : Word :=
  match b with
  | .reg _ _ => op vs 1
  | .imm i => fImm ty i

/-- A result with its bits. -/
def fRes (r : Word × Flags) : Res := { out := [r.1], fl := r.2 }

/-- What SAT does with an overflow (R124). -/
def ovOf (sat : Bool) : Over := if sat then .sat else .ieee

def flipIf (n : Bool) (x : FVal) : FVal := if n then x.flip else x

def faddFn (m : FMod) (f : Fmt) (a b _c : Nat) : FR := f.add m.rm (ovOf m.sat) (flipIf m.neg (f.val a)) (f.val b)
def fsubFn (m : FMod) (f : Fmt) (a b _c : Nat) : FR := f.sub m.rm (ovOf m.sat) (flipIf m.neg (f.val a)) (f.val b)
def fmulFn (m : FMod) (f : Fmt) (a b _c : Nat) : FR := f.mul m.rm (ovOf m.sat) m.neg (f.val a) (f.val b)
def ffmaFn (m : FMod) (f : Fmt) (a b c : Nat) : FR := f.fma m.rm (ovOf m.sat) m.neg (f.val a) (f.val b) (f.val c)

/-- FCMP's condition and its IV (R127). -/
def fcmpFn (cc : Nat) (a b : Word) : Bool × Flags :=
  (condF cc ((f32v a).cmp (f32v b)), sigFl [f32v a, f32v b])

/-- The sign masks of R131. -/
def signMask (ty : FTy) : Word :=
  match ty with
  | .f32 => 0x8000_0000
  | _ => 0x8000_8000

/-- The word whose signs FCPYS copies: an immediate's sign is its top bit (R131). -/
def cpysB (ty : FTy) (b : BSrc) (vs : List (List Word)) : Word := bFlt ty b vs

/-- SFU: 8 to 96 cycles (R59, R151). -/
def latSfu : Lat := .var 8 (some 96)

def execFadd (h : Hdr) (m : FMod) (o : Dab) (s : State) : Out' :=
  .next (issue (alu (.fadd h m o) h latFma fun vs => fRes (perElem m.ty (faddFn m) (op vs 0) (bFlt m.ty o.b vs) 0)) s)
def execFsub (h : Hdr) (m : FMod) (o : Dab) (s : State) : Out' :=
  .next (issue (alu (.fsub h m o) h latFma fun vs => fRes (perElem m.ty (fsubFn m) (op vs 0) (bFlt m.ty o.b vs) 0)) s)
def execFmul (h : Hdr) (m : FMod) (o : Dab) (s : State) : Out' :=
  .next (issue (alu (.fmul h m o) h latFma fun vs => fRes (perElem m.ty (fmulFn m) (op vs 0) (bFlt m.ty o.b vs) 0)) s)
def execFfma (h : Hdr) (m : FMod) (o : Dabc) (s : State) : Out' :=
  .next (issue (alu (.ffma h m o) h latFma fun vs => fRes (perElem m.ty (ffmaFn m) (op vs 0) (op vs 1) (op vs 2))) s)
def execFmin (h : Hdr) (ty : FTy) (o : Dab) (s : State) : Out' :=
  .next (issue (alu (.fmin h ty o) h latFma fun vs =>
    fRes (perElem ty (fun f a b _ => f.minMax false a b) (op vs 0) (bFlt ty o.b vs) 0)) s)
def execFmax (h : Hdr) (ty : FTy) (o : Dab) (s : State) : Out' :=
  .next (issue (alu (.fmax h ty o) h latFma fun vs =>
    fRes (perElem ty (fun f a b _ => f.minMax true a b) (op vs 0) (bFlt ty o.b vs) 0)) s)
def execFcmp (h : Hdr) (o : Pab) (s : State) : Out' :=
  .next (issue (alu (.fcmp h o) h latFma fun vs =>
    let r := fcmpFn o.cc.val (op vs 0) (bFlt .f32 o.b vs)
    { preds := [(o.p, r.1)], fl := r.2 }) s)
def execFclass (h : Hdr) (o : Da) (s : State) : Out' :=
  .next (issue (alu (.fclass h o) h latFma fun vs => { out := [w32 (2 ^ Fmt.f32.classOf (op vs 0).toNat)] }) s)
def execFscale (h : Hdr) (rm : RM) (sat : Bool) (d : Name) (a b : Src) (pat : Pat) (s : State) : Out' :=
  .next (issue (alu (.fscale h rm sat d a b pat) h latFma fun vs =>
    fRes (perElem .f32 (fun f x _ _ => f.scale rm (ovOf sat) x (op vs 1).toInt) (op vs 0) 0 0)) s)
def execFrnd (h : Hdr) (ty : FTy) (rm : RM) (o : Da) (s : State) : Out' :=
  .next (issue (alu (.frnd h ty rm o) h latFma fun vs => fRes (perElem ty (fun f a _ _ => f.rint rm a) (op vs 0) 0 0)) s)
def execFabs (h : Hdr) (ty : FTy) (o : Da) (s : State) : Out' :=
  .next (issue (alu (.fabs h ty o) h latFma fun vs => { out := [op vs 0 &&& ~~~(signMask ty)] }) s)
def execFcpys (h : Hdr) (ty : FTy) (o : Dab) (s : State) : Out' :=
  .next (issue (alu (.fcpys h ty o) h latFma fun vs =>
    { out := [(op vs 0 &&& ~~~(signMask ty)) ||| (cpysB ty o.b vs &&& signMask ty)] }) s)
def execFdiv (h : Hdr) (rm : RM) (sat neg : Bool) (o : Dab) (s : State) : Out' :=
  .next (issue (alu (.fdiv h rm sat neg o) h latSfu fun vs =>
    fRes (perElem .f32 (fun f a b _ => f.div rm (ovOf sat) (flipIf neg (f.val a)) (f.val b)) (op vs 0)
      (bFlt .f32 o.b vs) 0)) s)
def execFsqrt (h : Hdr) (rm : RM) (o : Da) (s : State) : Out' :=
  .next (issue (alu (.fsqrt h rm o) h latSfu fun vs => fRes (perElem .f32 (fun f a _ _ => f.sqrt rm (f.val a)) (op vs 0) 0 0)) s)

end Sys2Proof.Machine
end

