-- ==== Sys2Proof/Machine/Special.lean ====
section
/-!
DEFINITION. The special functions of R149 and R150, correctly rounded: each is computed in fixed point with 256 fraction
bits (and π with 512), then rounded once. The low bit appended to a computed value marks it as not exact; the only exact
values of these functions are those named apart below. That 256 bits decide every rounding of the 16- and 32-bit formats
is DEDUCED (log entry 20): the spec fixes the correctly rounded value, not how it is found.
-/
namespace Sys2Proof.Machine

/-- Fraction bits of the fixed-point numbers below. -/
def fxP : Nat := 256
def fxOne : Nat := 2 ^ fxP

/-- ln 2 with 256 fraction bits, π/2 with 512. -/
def fxLn2 : Nat := 0xb17217f7d1cf79abc9e3b39803f2f6af40f343267298b62d8a0d175b8baafa2b
def halfPi512 : Nat :=
  0x1921fb54442d18469898cc51701b839a252049c1114cf98e804177d4c76273644a29410f31c6809bbdf2a33679a748636605614dbe4be286e9fc26adadaa3848b

/-- Σ t with t ← t · x / (k + 1) …: the exponential series from term t of index k. -/
def expGo (x : Nat) : Nat → Nat → Nat → Nat → Nat
  | 0, _, _, acc => acc
  | fuel + 1, k, t, acc =>
    let t' := t * x / fxOne / k
    expGo x fuel (k + 1) t' (acc + t')

/-- e^x for 0 ≤ x < 1. -/
def fxExp (x : Nat) : Nat := expGo x 80 1 fxOne fxOne

/-- 2^f for 0 ≤ f < 1. -/
def fxExp2 (f : Nat) : Nat := fxExp (f * fxLn2 / fxOne)

/-- The series z + z³/3 + z⁵/5 …, from power t of index k. -/
def atanhGo (z2 : Nat) : Nat → Nat → Nat → Nat → Nat
  | 0, _, _, acc => acc
  | fuel + 1, k, t, acc => atanhGo z2 fuel (k + 2) (t * z2 / fxOne) (acc + t / k)

/-- ln y for 1 ≤ y < 2. -/
def fxLn (y : Nat) : Nat :=
  let z := (y - fxOne) * fxOne / (y + fxOne)
  2 * atanhGo (z * z / fxOne) 84 1 z 0

/-- Alternating series for sine and cosine: term t, next factor x² / (k (k + 1)). -/
def trigGo (x2 : Nat) : Nat → Nat → Nat → Bool → Int → Int
  | 0, _, _, _, acc => acc
  | fuel + 1, k, t, pos, acc =>
    let acc' := if pos then acc + t else acc - t
    trigGo x2 fuel (k + 2) (t * x2 / fxOne / (k * (k + 1))) (!pos) acc'

def fxSin (x : Nat) : Nat := (trigGo (x * x / fxOne) 40 2 x true 0).toNat
def fxCos (x : Nat) : Nat := (trigGo (x * x / fxOne) 40 1 fxOne true 0).toNat

/-- A computed positive value v / 2^256, marked as inexact, rounded to nearest. -/
def Fmt.fx (f : Fmt) (neg : Bool) (v : Nat) (e : Int) : FR := f.round .rne .ieee neg (2 * v + 1) (e - fxP - 1)

/-- m × 2^e as a fixed-point number with p fraction bits, rounded down. -/
def toFx (m : Nat) (e : Int) (p : Nat) : Nat :=
  if e + p ≥ 0 then m * 2 ^ (e + p).toNat else m / 2 ^ (-(e + p)).toNat

/-- An operand just below m × 2^e: what sine and the hyperbolic tangent of a small operand are. -/
def Fmt.justBelow (f : Fmt) (neg : Bool) (m : Nat) (e : Int) : FR := f.round .rne .ieee neg (m * 2 ^ 64 - 1) (e - 64)

/-- Exponent of the leading bit of m × 2^e. -/
def topExp (m : Nat) (e : Int) : Int := e + bitLen m - 1

def Fmt.rcp (f : Fmt) (a : FVal) : FR :=
  match a with
  | .fin n 0 _ => f.mkInf n fDZ
  | x => f.div .rne .ieee (.fin false 1 0) x

def Fmt.rsq (f : Fmt) (a : FVal) : FR :=
  match a with
  | .nan s => f.mkNan (if s then fIV else 0)
  | .inf true => f.mkNan fIV
  | .inf false => ⟨0, 0⟩
  | .fin n m e =>
    if m == 0 then f.mkInf n fDZ
    else if n then f.mkNan fIV
    else
      -- 1 / √(m 2^e) = √(2^(2k) / m') / 2^k with an even exponent taken out of m 2^e
      let m' := if e % 2 == 0 then m else 2 * m
      let e' := if e % 2 == 0 then e else e - 1
      let k := f.mw + 8 + bitLen m'
      let q := 2 ^ (2 * k) / m'
      let r := isqrt q
      let exact := r * r * m' == 2 ^ (2 * k)
      f.round .rne .ieee false (2 * r + (if exact then 0 else 1)) (-(k : Int) - 1 - e' / 2)

def Fmt.exp2 (f : Fmt) (a : FVal) : FR :=
  match a with
  | .nan s => f.mkNan (if s then fIV else 0)
  | .inf true => ⟨0, 0⟩
  | .inf false => f.mkInf false 0
  | .fin n m e =>
    if m == 0 then f.round .rne .ieee false 1 0
    else if topExp m e ≥ 11 then f.round .rne .ieee false 3 (if n then -4000 else 4000)
    else
      -- x = i + g with 0 ≤ g < 1
      let x : Int := scaleTo n (toFx m e fxP) 0 0
      let x := if n && e + fxP < 0 then x - 1 else x
      let i := x / (fxOne : Int)
      let g := (x % (fxOne : Int)).toNat
      let isInt := decide (e ≥ 0) || m % 2 ^ (-e).toNat == 0
      if isInt then f.round .rne .ieee false 1 i
      else f.fx false (fxExp2 g) i

def Fmt.log2 (f : Fmt) (a : FVal) : FR :=
  match a with
  | .nan s => f.mkNan (if s then fIV else 0)
  | .inf true => f.mkNan fIV
  | .inf false => f.mkInf false 0
  | .fin n m e =>
    if m == 0 then f.mkInf true fDZ
    else if n then f.mkNan fIV
    else
      let t := topExp m e
      let y := m * 2 ^ (fxP - (bitLen m - 1))
      if y == fxOne then f.round .rne .ieee (decide (t < 0)) t.natAbs 0
      else
        let l : Int := t * (fxOne : Int) + (fxLn y * fxOne / fxLn2 : Nat)
        -- below zero the magnitude lies just under −l
        if l < 0 then f.round .rne .ieee true (2 * l.natAbs - 1) (-(fxP : Int) - 1)
        else f.fx false l.toNat 0

/-- Quadrant and remainder of |x| modulo π/2 (R149: the reduction is exact). -/
def reduce (m : Nat) (e : Int) : Nat × Nat :=
  let x := toFx m e 512
  (x / halfPi512 % 4, x % halfPi512 / 2 ^ 256)

def Fmt.sin (f : Fmt) (a : FVal) : FR :=
  match a with
  | .nan s => f.mkNan (if s then fIV else 0)
  | .inf _ => f.mkNan fIV
  | .fin n m e =>
    if m == 0 then ⟨f.sign n, 0⟩
    else if topExp m e < -13 then f.justBelow n m e
    else
      let (k, r) := reduce m e
      let v := if k % 2 == 0 then fxSin r else fxCos r
      f.fx (n != decide (k ≥ 2)) v 0

/-- FCOS never raises UF (R150), though |cos a| of an F16 operand may lie below 2^−14 (DEDUCED, log entry 83). -/
def Fmt.cos (f : Fmt) (a : FVal) : FR :=
  match a with
  | .nan s => f.mkNan (if s then fIV else 0)
  | .inf _ => f.mkNan fIV
  | .fin _ m e =>
    if m == 0 then f.round .rne .ieee false 1 0
    else if topExp m e < -13 then f.justBelow false 1 0
    else
      let (k, r) := reduce m e
      let v := if k % 2 == 0 then fxCos r else fxSin r
      let y := f.fx (k == 1 || k == 2) v 0
      ⟨y.bits, y.fl &&& ~~~fUF⟩

def Fmt.tanh (f : Fmt) (a : FVal) : FR :=
  match a with
  | .nan s => f.mkNan (if s then fIV else 0)
  | .inf n => f.round .rne .ieee n 1 0
  | .fin n m e =>
    if m == 0 then ⟨f.sign n, 0⟩
    else if topExp m e < -13 then f.justBelow n m e
    else if topExp m e ≥ 6 then f.justBelow n 1 0
    else
      -- (E − 1) / (E + 1) with E = e^2x = 2^(i + g)
      let t := 2 * toFx m e fxP * fxOne / fxLn2
      let i := t / fxOne
      let E := fxExp2 (t % fxOne) * 2 ^ i
      f.fx n ((E - fxOne) * fxOne / (E + fxOne)) 0

end Sys2Proof.Machine
end

