-- ==== Sys2Proof/Machine/Convert.lean ====
section
/-!
DEFINITION. Class 0x4, conversions and special functions (R142–R151).
-/
namespace Sys2Proof.Machine

/-- The word of a format slot (R58, R112): zero where no launch governs the thread (log entry 17). -/
def slotWord (s : State) (t : Tid) (th : Thread) (fs : Nat) : Word :=
  match t with
  | .core _ _ _ => ((s.recOf th).map fun r => r.fslots.getD fs 0).getD 0
  | .burin _ _ => ((s.recOf th).map fun r => r.fslots.getD fs 0).getD 0
  | _ => 0

/-- The combinations that CVT, CVTP and CVTU reject (R147). -/
def rejCvt (ty : FTy) (sl : Slot) : Bool := sl.code == 0 && ty != .f32
def rejPack (ty : FTy) (sl : Slot) : Bool := sl.code == 0 || (sl.elem.width == 16 && ty != .f32)
/-- CVTS takes a scaled slot of a narrow floating format (R148). -/
def rejScale (sl : Slot) : Bool := sl.scale == 0 || sl.code < 3 || sl.code > 7

/-- Does a slot word fault with 0x0D (R113)? -/
def slotFaults (rej : Slot → Bool) (w : Word) : Bool :=
  match Slot.ofWord w with
  | some sl => rej sl
  | none => true

/-- Source elements of a register word: one, or the low half and the high half. -/
def srcElems (ty : FTy) (x : Word) : List FVal :=
  match ty with
  | .f32 => [f32v x]
  | ty => [(fmtOf ty).val (x.toNat % 2 ^ 16), (fmtOf ty).val (x.toNat / 2 ^ 16)]

/-- Codes as elements 0, 1, … of a name (R142). -/
def packCodes (w : Nat) (l : List FR) : Word := w32 (l.foldr (fun r a => r.bits + 2 ^ w * a) 0)

/-- CVT and CVTP: source elements into the slot's format (R144, R145). -/
def cvtFn (sl : Slot) (xs : List FVal) : Word × Flags :=
  let rs := xs.map (sl.elem.conv sl.round sl.sat)
  (packCodes sl.elem.width rs, orAll (rs.map (·.fl)))

/-- CVTU: one code of the slot's format into a register format; only 16-bit elements see ROUND and SAT (R146). -/
def cvtuElem (sl : Slot) (f : Fmt) (c : Nat) : FR :=
  let (v, tern) := sl.elem.val c
  let r := f.conv sl.round (sl.sat && sl.elem.width == 16) v
  if tern then ⟨r.bits, r.fl ||| fIV⟩ else r

def cvtuFn (sl : Slot) (ty : FTy) (a : Word) : List Word × Flags :=
  let w := sl.elem.width
  let code (i : Nat) : Nat := a.toNat / 2 ^ (w * i) % 2 ^ w
  match ty with
  | .f32 =>
    let rs := [cvtuElem sl .f32 (code 0), cvtuElem sl .f32 (code 1)]
    (rs.map (·.word), orAll (rs.map (·.fl)))
  | ty =>
    let e (i : Nat) : FR := cvtuElem sl (fmtOf ty) (code i)
    ([packCodes 16 [e 0, e 1], packCodes 16 [e 2, e 3]], (e 0).fl ||| (e 1).fl ||| (e 2).fl ||| (e 3).fl)

/-- The element format of a slot as a floating format. -/
def Slot.fmt (sl : Slot) : Fmt :=
  match sl.elem with
  | .flt f => f
  | _ => .f32

/-- A conversion form: the slot check first, then a function of the slot and the operands. -/
def cvtForm (i : Instr) (h : Hdr) (fs : Fin 8) (lat : Lat) (rej : Slot → Bool) (f : Slot → List (List Word) → Res) : Form :=
  { i := i, h := h, lat := lat,
    slotBad := fun s t th => slotFaults rej (slotWord s t th fs.val),
    lane := fun env s t th vs =>
      match Slot.ofWord (slotWord env.pre t th fs.val) with
      | some sl => (s, f sl vs)
      | none => (s, { fault := some { code := 0x0D } }) }

/-- The operand of CVT: a name or an immediate. -/
def cvtA (ty : FTy) (a : NumSrc) (vs : List (List Word)) : Word :=
  match a with
  | .reg _ => op vs 0
  | .imm i => fImm ty i

def execCvt (h : Hdr) (ty : FTy) (fs : Fin 8) (d : Name) (a : NumSrc) (s : State) : Out' :=
  .next (issue (cvtForm (.cvt h ty fs d a) h fs latFma (rejCvt ty) fun sl vs => fRes (cvtFn sl (srcElems ty (cvtA ty a vs)))) s)
def execCvtp (h : Hdr) (ty : FTy) (fs : Fin 8) (d : Name) (a b : Src) (pat : Pat) (s : State) : Out' :=
  .next (issue (cvtForm (.cvtp h ty fs d a b pat) h fs latFma (rejPack ty) fun sl vs =>
    fRes (cvtFn sl (srcElems ty (op vs 0) ++ srcElems ty (op vs 1)))) s)
def execCvtu (h : Hdr) (ty : FTy) (fs : Fin 8) (o : Da) (s : State) : Out' :=
  .next (issue (cvtForm (.cvtu h ty fs o) h fs latFma (rejPack ty) fun sl vs =>
    let r := cvtuFn sl ty (op vs 0)
    { out := r.1, fl := r.2 }) s)
def execCvts (h : Hdr) (fs : Fin 8) (o : Da) (s : State) : Out' :=
  .next (issue (cvtForm (.cvts h fs o) h fs latSfu rejScale fun sl vs =>
    let r := cvtS sl.scale sl.fmt (op vs 0)
    { out := [w32 r.1], fl := r.2 }) s)

/-- A special function on each element. -/
def sfuRes (ty : FTy) (f : Fmt → FVal → FR) (a : Word) : Res := fRes (perElem ty (fun g x _ _ => f g (g.val x)) a 0 0)

def execFrcp (h : Hdr) (ty : FTy) (o : Da) (s : State) : Out' :=
  .next (issue (alu (.frcp h ty o) h latSfu fun vs => sfuRes ty Fmt.rcp (op vs 0)) s)
def execFrsq (h : Hdr) (ty : FTy) (o : Da) (s : State) : Out' :=
  .next (issue (alu (.frsq h ty o) h latSfu fun vs => sfuRes ty Fmt.rsq (op vs 0)) s)
def execFexp2 (h : Hdr) (ty : FTy) (o : Da) (s : State) : Out' :=
  .next (issue (alu (.fexp2 h ty o) h latSfu fun vs => sfuRes ty Fmt.exp2 (op vs 0)) s)
def execFlog2 (h : Hdr) (ty : FTy) (o : Da) (s : State) : Out' :=
  .next (issue (alu (.flog2 h ty o) h latSfu fun vs => sfuRes ty Fmt.log2 (op vs 0)) s)
def execFsin (h : Hdr) (ty : FTy) (o : Da) (s : State) : Out' :=
  .next (issue (alu (.fsin h ty o) h latSfu fun vs => sfuRes ty Fmt.sin (op vs 0)) s)
def execFcos (h : Hdr) (ty : FTy) (o : Da) (s : State) : Out' :=
  .next (issue (alu (.fcos h ty o) h latSfu fun vs => sfuRes ty Fmt.cos (op vs 0)) s)
def execFtanh (h : Hdr) (ty : FTy) (o : Da) (s : State) : Out' :=
  .next (issue (alu (.ftanh h ty o) h latSfu fun vs => sfuRes ty Fmt.tanh (op vs 0)) s)

end Sys2Proof.Machine
end

