-- ==== Sys2Proof/Machine/TileMem.lean ====
section
/-!
DEFINITION. Tile descriptors, their checks and footprints, elements in the tile role (R101, R184–R186).
-/
namespace Sys2Proof.Machine

/-- The fields of a descriptor (R184). -/
structure TD where
  base : Nat
  cols : Nat
  rows : Nat
  stride : Nat
  layout : Nat
  fslot : Nat
  bmEn : Bool
  bmOff : Nat
  bmStr : Nat
  scEn : Bool
  scOff : Nat
  scStr : Nat

def dword (d : Desc) (i : Nat) : Nat := (d.getD i 0).toNat

def TD.of (d : Desc) : TD :=
  { base := bits (dword d 0) 21 0, cols := bits (dword d 1) 28 16, rows := bits (dword d 1) 12 0,
    stride := bits (dword d 2) 21 0, layout := bits (dword d 3) 5 4, fslot := bits (dword d 3) 2 0,
    bmEn := bitAt (dword d 4) 31, bmOff := bits (dword d 4) 21 0, bmStr := bits (dword d 5) 21 0,
    scEn := bitAt (dword d 6) 31, scOff := bits (dword d 6) 21 0, scStr := bits (dword d 7) 21 0 }

/-- Is a reserved field of R184 nonzero? -/
def reservedBad (d : Desc) : Bool :=
  bits (dword d 0) 31 22 != 0 || bits (dword d 1) 31 29 != 0 || bits (dword d 1) 15 13 != 0 ||
  bits (dword d 2) 31 22 != 0 || bits (dword d 3) 31 6 != 0 || bitAt (dword d 3) 3 || bitAt (dword d 3) 5 ||
  bits (dword d 4) 30 22 != 0 || bits (dword d 5) 31 22 != 0 || bits (dword d 6) 30 22 != 0 || bits (dword d 7) 31 22 != 0

/-- A descriptor with ROWS or COLS zero is unset. -/
def descSet (d : Desc) : Bool := (TD.of d).rows != 0 && (TD.of d).cols != 0

namespace TD

def outer (x : TD) : Nat := if x.layout == 0 then x.rows else x.cols
def inner (x : TD) : Nat := if x.layout == 0 then x.cols else x.rows
/-- Bytes of one row or column of w-bit elements. -/
def lineBytes (x : TD) (w : Nat) : Nat := ceilDiv (x.inner * w) 8
/-- First byte after the element footprint. -/
def elemEnd (x : TD) (w : Nat) : Nat := x.base + (x.outer - 1) * x.stride + x.lineBytes w
def bmEnd (x : TD) (nonk k : Nat) : Nat := x.bmOff + (nonk - 1) * x.bmStr + ceilDiv k 8
def scEnd (x : TD) (nonk k block : Nat) : Nat := x.scOff + (nonk - 1) * x.scStr + ceilDiv k block

end TD

/-- Bytes of the tile role of a core (R32). -/
def tileBytes (s : State) (c : Nat) : Nat := s.roleSets c .tile * Config.setBytes

/-- The element window of a descriptor with w-bit elements (R186): the part MLDACC and MDRAIN check. -/
def windowBad (d : Desc) (w size : Nat) : Bool :=
  let x := TD.of d
  reservedBad d || !(1 ≤ x.rows && x.rows ≤ 4096 && 1 ≤ x.cols && x.cols ≤ 4096) ||
  x.base % 16 != 0 || x.stride % 16 != 0 || (x.outer > 1 && x.stride < x.lineBytes w) || x.elemEnd w > size

/-- Rule 2 of R186 as TDSET makes it. A bitmap or scale field that is not zero while its enable is 0 breaks it (DEDUCED, log entry
75: R184 has such a field zero, and R186's list does not name it). -/
def setBad (d : Desc) (sl : Slot) (size : Nat) : Bool :=
  let x := TD.of d
  windowBad d sl.elem.width size ||
  x.bmOff % 16 != 0 || x.bmStr % 16 != 0 || x.scOff % 4 != 0 || x.scStr % 4 != 0 ||
  (!x.bmEn && (x.bmOff != 0 || x.bmStr != 0)) || (!x.scEn && (x.scOff != 0 || x.scStr != 0)) ||
  x.scEn != (sl.scale != 0)

/-- Rule 2 for an operand of MMA with this non-k count and k count. -/
def roleBad (d : Desc) (sl : Slot) (size nonk k : Nat) : Bool :=
  let x := TD.of d
  setBad d sl size ||
  (x.bmEn && (x.bmStr < ceilDiv k 8 || x.bmEnd nonk k > size)) ||
  (x.scEn && (x.scStr < ceilDiv k sl.block || x.scEnd nonk k sl.block > size))

/-- Does a byte range meet a set's bytes? -/
def meets (a b set : Nat) : Bool := decide (a < (set + 1) * Config.setBytes) && decide (set * Config.setBytes < b)

/-- Byte ranges that a descriptor covers: elements, bitmap and scales under either role (R186). -/
def covers (sl : Slot) (d : Desc) : List (Nat × Nat) :=
  let x := TD.of d
  if descSet d then
    (x.base, x.elemEnd sl.elem.width) ::
    (if x.bmEn then [(x.bmOff, x.bmEnd x.rows x.cols), (x.bmOff, x.bmEnd x.cols x.rows)] else []) ++
    (if x.scEn then [(x.scOff, x.scEnd x.rows x.cols sl.block), (x.scOff, x.scEnd x.cols x.rows sl.block)] else [])
  else []

/-- The ranges of a Burin context's descriptors. -/
def burinCovers (s : State) (b : Burin) : List (Nat × Nat) :=
  let fs := ((s.launchOf b.ctx b.launch).map (·.rcd.fslots)).getD []
  b.desc.flatMap fun d => match Slot.ofWord (fs.getD (TD.of d).fslot 0) with
    | some sl => covers sl d
    | none => []

/-- Does a descriptor of a resident Burin context cover a byte of this set (R307)? -/
def setCovered (s : State) (c set : Nat) : Bool :=
  s.burins.any fun e => e.1.1 == c && (burinCovers s e.2).any fun r => meets r.1 r.2 set

/-- Do n tile bytes lie, in part, in a row with an uncorrectable error (R402)? -/
def tileBad (s : State) (c a n : Nat) : Bool :=
  (s.core c).badRows.any fun e =>
    let lo := e.1 * Config.setBytes + 64 * e.2
    decide (a < lo + 64) && decide (lo < a + n)

/-! ### Elements (R101, R185) -/

/-- Byte address and bit of element (row i, column j) of width w. -/
def TD.at_ (x : TD) (w i j : Nat) : Nat × Nat :=
  let (o, n) := if x.layout == 0 then (i, j) else (j, i)
  (x.base + o * x.stride + w * n / 8, w * n % 8)

/-- w bits from bit b of a byte address on. -/
def bitsAt (m : Memory) (a b w : Nat) : Nat := m.load a (ceilDiv (b + w) 8) / 2 ^ b % 2 ^ w

/-- Writes w bits there; other bits of partly written bytes stay. -/
def setBitsAt (m : Memory) (a b w v : Nat) : Memory :=
  let n := ceilDiv (b + w) 8
  let old := m.load a n
  m.store a n (old - old / 2 ^ b % 2 ^ w * 2 ^ b + v % 2 ^ w * 2 ^ b)

def TD.get (x : TD) (m : Memory) (w i j : Nat) : Nat :=
  let (a, b) := x.at_ w i j
  bitsAt m a b w

def TD.put (x : TD) (m : Memory) (w i j v : Nat) : Memory :=
  let (a, b) := x.at_ w i j
  setBitsAt m a b w v

/-- Bitmap bit (x, k), 1 without a bitmap. -/
def TD.bit (d : TD) (m : Memory) (x k : Nat) : Bool := !d.bmEn || bitsAt m (d.bmOff + x * d.bmStr + k / 8) (k % 8) 1 == 1

/-- Scale code (x, k). -/
def TD.scaleCode (d : TD) (m : Memory) (block x k : Nat) : Nat := m.load (d.scOff + x * d.scStr + k / block) 1

end Sys2Proof.Machine
end

