-- ==== Sys2Proof/Machine/Tile.lean ====
section
/-!
DEFINITION. Class 0xD: the Burin's forms, the matrix engine's steps and the drain-adds (R187–R205).
-/
namespace Sys2Proof.Machine

/-! ### Accumulators (R182, R191) -/

def Acc.at_ (a : Acc) (i j : Nat) : Word := a.elems.getD (64 * i + j) 0
def Acc.put (a : Acc) (i j : Nat) (v : Word) : Acc :=
  if v == 0 then { a with elems := a.elems.del (64 * i + j) } else { a with elems := a.elems.set (64 * i + j) v }
/-- Adds status bits. -/
def Acc.mark (a : Acc) (fl : Flags) : Acc := { a with sticky := a.sticky ||| fl }

/-- Status bits 5 and 6 (R191). -/
def fWRAP : Flags := 32
def fTERN : Flags := 64

/-- The status word. -/
def Acc.status (a : Acc) : Word :=
  a.sticky.setWidth 32 ||| (if a.tag then 0x80 else 0) ||| (if a.armed then 0x100 else 0) ||| (if a.complete then 0x200 else 0)

def Burin.acc (b : Burin) (i : Nat) : Acc := b.accs.getD i Acc.zero
def Burin.setAcc (b : Burin) (i : Nat) (a : Acc) : Burin := { b with accs := setAt b.accs i a }

/-- The accumulator that holds output column j from aD on, and its column there (R187). -/
def colOf (d j : Nat) : Nat × Nat := (d + j / 64, j % 64)

/-! ### One MMA step (R188, R189, R192) -/

/-- What an MMA needs of an operand: descriptor, slot. -/
structure Opnd where
  d : TD
  sl : Slot

/-- An element's value with its scale, exactly (R103), and its code's TERN mark. -/
def Opnd.val (o : Opnd) (m : Memory) (i j x k : Nat) : FVal × Bool :=
  let (v, tern) := o.sl.elem.val (o.d.get m o.sl.elem.width i j)
  if !o.d.scEn then (v, tern)
  else match v, scaleVal o.sl.scale (o.d.scaleCode m o.sl.block x k) with
    | .nan q, _ => (.nan q, tern)
    | _, .nan _ => (.nan false, tern)
    | .inf n, .fin _ ms _ => (if ms == 0 then .fin n 0 0 else .inf n, tern)
    | .fin n mv ev, .fin _ ms es => (.fin n (mv * ms) (ev + es), tern)
    | v, .inf _ => (v, tern)

def intOf (v : FVal) : Int :=
  match v with
  | .fin n m _ => if n then -(m : Int) else m
  | _ => 0

/-- One product onto c. -/
def mmaAcc (flt : Bool) (c : Word) (a b : FVal) : Word × Flags :=
  if flt then
    let (p, bad) := mulVal a b
    if bad then (w32 Fmt.f32.nan, fIV)
    else let r := Fmt.f32.sum .rne .ieee p (f32v c) (sigFl [a, b, f32v c]); (r.word, r.fl)
  else
    let x := c.toInt + intOf a * intOf b
    (BitVec.ofInt 32 x, if x < -(2 ^ 31 : Nat) || x ≥ (2 ^ 31 : Nat) then fWRAP else 0)

/-- Output (i, j) over k = 32s to 32s + 31. -/
def mmaOut (m : Memory) (flt : Bool) (ta tb : Opnd) (s i j : Nat) (c : Word) : Word × Flags :=
  (List.range 32).foldl (fun a q =>
    let k := 32 * s + q
    if ta.d.bit m i k && tb.d.bit m j k then
      let (x, t1) := ta.val m i k i k
      let (y, t2) := tb.val m k j j k
      let (c, fl) := mmaAcc flt a.1 x y
      (c, a.2 ||| fl ||| (if t1 || t2 then fTERN else 0))
    else a) (c, 0)

def isFlt (sl : Slot) : Bool := decide (sl.code < 8)

/-- One step of an MMA into aD. -/
def mmaStepOn (b : Burin) (m : Memory) (acc : Nat) (ta tb : Opnd) (s : Nat) : Burin :=
  (List.range ta.d.rows).foldl (fun b i => (List.range tb.d.cols).foldl (fun b j =>
    let (n, col) := colOf acc j
    let a := b.acc n
    let (v, fl) := mmaOut m (isFlt ta.sl) ta tb s i j (a.at_ i col)
    b.setAcc n ((a.put i col v).mark fl)) b) b

/-- A slot of a launch; a slot that no longer keeps its rules reads as FP32. -/
def launchSlot (s : State) (ctx launch k : Nat) : Option Slot :=
  match s.launchOf ctx launch with
  | some x => Slot.ofWord (x.rcd.fslots.getD k 0)
  | none => none

/-- Accumulators an MMA uses by the wider element width (R187). -/
def usedAccs (w d : Nat) : List Nat := if w ≥ 16 then [d] else if w ≥ 8 then [d, d + 1] else [0, 1, 2, 3]
def modeCols (w : Nat) : Nat := if w ≥ 16 then 64 else if w ≥ 8 then 128 else 256
def accOk (w d : Nat) : Bool := if w ≥ 16 then true else if w ≥ 8 then d % 2 == 0 else d == 0

/-! ### Running queued forms (R193, R195, R200, R201, R203) -/

/-- The operand of a captured descriptor. -/
def opndOf (s : State) (b : Burin) (d : Desc) : Option Opnd :=
  (launchSlot s b.ctx b.launch (TD.of d).fslot).map fun sl => { d := TD.of d, sl := sl }

/-- Byte ranges of the tile role that one step reads of an operand, of n rows of tA or columns of tB, against n' of the other: the
bitmap (R185), and the bits and scales of the elements with a product that no bit skips (R188, R189). -/
def Opnd.reads (o other : Opnd) (m : Memory) (isA : Bool) (n n' step : Nat) : List (Nat × Nat) :=
  let w := o.sl.elem.width
  (List.range n).flatMap fun x =>
    (if o.d.bmEn then [(o.d.bmOff + x * o.d.bmStr + 4 * step, 4)] else []) ++
    ((List.range 32).map (32 * step + ·)).flatMap fun k =>
      if o.d.bit m x k && (List.range n').any (other.d.bit m · k) then
        let (a, b) := if isA then o.d.at_ w x k else o.d.at_ w k x
        (a, ceilDiv (b + w) 8) :: (if o.d.scEn then [(o.d.scOff + x * o.d.scStr + k / o.sl.block, 1)] else [])
      else []

/-- Does a step read a row with an uncorrectable error (R194, R402)? -/
def stepBad (s : State) (c : Nat) (ta tb : Opnd) (step : Nat) : Bool :=
  let m := (s.core c).tile
  !(s.core c).badRows.isEmpty &&
    (ta.reads tb m true ta.d.rows tb.d.cols step ++ tb.reads ta m false tb.d.cols ta.d.rows step).any fun r => tileBad s c r.1 r.2

/-- Does an MLDACC read one? -/
def windowRowsBad (s : State) (c : Nat) (d : Desc) : Bool :=
  let x := TD.of d
  !(s.core c).badRows.isEmpty && (List.range x.outer).any fun o => tileBad s c (x.base + o * x.stride) (x.lineBytes 32)

/-- The slot of an outstanding instruction. -/
def outPc (th : Thread) (seq : Nat) : DWord := ((th.outs.find? fun o => o.seq == seq).map (·.pc)).getD th.pc

/-- A form at the head of a queue meets an uncorrectable error (R194, R402): it ends there, with the outputs of the steps before, and
its context stops; PROGRESS is the step. A context that has exited has only the record. -/
def tileFault (s : State) (c k seq step : Nat) : State :=
  let t : Tid := .burin c k
  match s.thread t with
  | none => s
  | some th =>
    let pc := outPc th seq
    let r := threadRec s t th 0x18 0 pc 0 step
    let s := abandon (s.modBurin c k fun b => { b with queue := b.queue.filter (·.1 != seq) }) t seq
    if th.status == .exited then burinReap (postLaunch s th.ctx th.launch r) c k else takeFault s t r pc seq

/-- Leaves the queue and completes the form. -/
def tileDone (s : State) (c k seq : Nat) : State :=
  let s := s.modBurin c k fun b => { b with queue := b.queue.filter (·.1 != seq) }
  burinReap (finish s (.burin c k) seq [] []) c k

/-- MZERO (R200). -/
def runZero (s : State) (c k acc : Nat) (s32 : Bool) : State :=
  s.modBurin c k fun b => b.setAcc acc { b.acc acc with elems := [], tag := s32, sticky := 0 }

/-- MLDACC (R200). -/
def runLdacc (s : State) (c k acc : Nat) (s32 : Bool) (d : Desc) : State :=
  let x := TD.of d
  let m := (s.core c).tile
  s.modBurin c k fun b =>
    let a := { b.acc acc with elems := [], tag := s32, sticky := 0 }
    b.setAcc acc ((List.range x.rows).foldl (fun a i => (List.range x.cols).foldl (fun a j =>
      a.put i j (w32 (x.get m 32 i j))) a) a)

/-- An accumulator element into a slot's format (R201). -/
def drainElem (sl : Slot) (s32 : Bool) (v : Word) : FR :=
  sl.elem.conv sl.round sl.sat (if s32 then intVal v.toInt else f32v v)

/-- MDRAIN (R201): one element after the other, rows outermost. Pieces that a line of the window covers lose their errors (R402). -/
def runDrain (s : State) (c k acc : Nat) (raw z : Bool) (fs : Nat) (d : Desc) : State :=
  match s.burin c k with
  | none => s
  | some b =>
    let x := TD.of d
    let sl := launchSlot s b.ctx b.launch fs
    let r := (List.range x.rows).foldl (fun (r : Burin × Memory) i => (List.range x.cols).foldl (fun r j =>
      let (n, col) := colOf acc j
      let a := r.1.acc n
      let v := a.at_ i col
      let out : FR × Nat := match raw, sl with
        | false, some sl => (drainElem sl a.tag v, sl.elem.width)
        | _, _ => (⟨v.toNat, 0⟩, 32)
      let a := a.mark (out.1.fl &&& 31)
      (r.1.setAcc n (if z then a.put i col 0 else a), x.put r.2 out.2 i j out.1.bits)) r) (b, (s.core c).tile)
    let w := if raw then 32 else (sl.map (·.elem.width)).getD 32
    let whole (e : Nat × Nat) : Bool := (List.range x.outer).any fun o =>
      let a := x.base + o * x.stride
      decide (a ≤ e.1 * Config.setBytes + 64 * e.2) && decide (e.1 * Config.setBytes + 64 * e.2 + 64 ≤ a + x.inner * w / 8)
    (s.setBurin c k r.1).modCore c fun y => { y with tile := r.2, badRows := y.badRows.filter fun e => !whole e }

/-- The elements an MDRADD sends: through the slot and back exactly, or raw (R203). -/
def sendElems (sl : Option Slot) (a : Acc) (raw : Bool) (rows cols : Nat) : List (Nat × Word) × Flags :=
  let es := (List.range rows).flatMap fun i => (List.range cols).map fun j =>
    let v := a.at_ i j
    match raw, sl with
    | false, some sl =>
      let r := drainElem sl false v
      ((64 * i + j, (Fmt.f32.put .rne .ieee (sl.elem.val r.bits).1 0).word), r.fl &&& 31)
    | _, _ => ((64 * i + j, v), 0)
  (es.map (·.1), orAll (es.map (·.2)))

/-- Is this the contribution that MDRADD `seq` of the Burin context `id` sends? -/
def Contribution.isOf (x : Contribution) (id seq : Nat) : Bool := x.sender == id && x.seq == seq

/-- Has a Burin context accepted that contribution? -/
def Burin.takes (p : Burin) (id seq : Nat) : Bool := p.inbox.any fun x => x.isOf id seq

/-- MDRADD leaves the queue: its contribution is sent (R203), and the sender's flag waits for the peer. A duplicate that the peer
discarded completes without effect. -/
def runDradd (s : State) (c k seq acc : Nat) (raw : Bool) (fs rows cols : Nat) : State :=
  match s.burin c k with
  | none => s
  | some b => match s.burins.find? fun e => e.2.takes b.id seq with
    | some (p, _) =>
      let (es, fl) := sendElems (launchSlot s b.ctx b.launch fs) (b.acc acc) raw rows cols
      let s := s.setBurin c k { b.setAcc acc ((b.acc acc).mark fl) with queue := b.queue.filter (·.1 != seq) }
      s.modBurin p.1 p.2 fun p =>
        { p with inbox := p.inbox.map fun x => if x.isOf b.id seq then { x with sent := true, elems := es } else x }
    | none => tileDone s c k seq

/-- Has this context's engine work: a form at the head of its queue, an MMA only while no save is asked (R194), and an MDRADD only
while its peer is not saved (R203)? -/
def tileWork (s : State) (b : Burin) : Bool :=
  match b.queue with
  | [] => false
  | (_, .mma _ _ _ _) :: _ => !b.saveReq
  | (seq, .mdradd _ _ _ _ _ _ _ _ _) :: _ => !s.savedBurins.any fun x => x.burin.takes b.id seq
  | _ :: _ => true

/-- The context whose turn it is: the engine takes those with work in turn, by context number, after the one it served last
(R193). -/
def turnOf (s : State) (c : Nat) : Option Nat :=
  ((List.range 4).map fun i => ((s.core c).tileTurn + 1 + i) % 4).find? fun k => ((s.burin c k).map (tileWork s)).getD false

/-- The engine has served context k. -/
def served (s : State) (c k : Nat) : State := s.modCore c fun x => { x with tileTurn := k }

/-- Runs the queued form `seq` of a context if it stands at the head of the queue and it is the context's turn: whole for every form
but MMA. -/
def runTile (s : State) (c k seq : Nat) : State :=
  match s.burin c k with
  | none => s
  | some b => match b.queue with
    | [] => s
    | (q, o) :: _ =>
      if q != seq || turnOf s c != some k then s
      else
        let s := match o with
          | .mma _ _ _ _ => s
          | _ => served s c k
        match o with
        | .mma _ _ _ _ => s
        | .mzero acc s32 => tileDone (runZero s c k acc s32) c k seq
        | .mldacc acc s32 d => if windowRowsBad s c d then tileFault s c k seq 0 else tileDone (runLdacc s c k acc s32 d) c k seq
        | .mdrain acc raw z fs d => tileDone (runDrain s c k acc raw z fs d) c k seq
        | .mdradd acc raw fs rows cols _ _ _ _ => runDradd s c k seq acc raw fs rows cols

/-- MMA_STEP (R192): one step of the MMA at the head of a context's queue, when it is its turn (R193); a save that is requested lets
none begin. -/
def mmaStep (s : State) (c k : Nat) : State :=
  match s.burin c k with
  | none => s
  | some b => match b.queue with
    | (seq, .mma acc ta tb step) :: rest =>
      if turnOf s c != some k then s
      else match opndOf s b ta, opndOf s b tb with
        | some oa, some ob =>
          if stepBad s c oa ob step then tileFault s c k seq step
          else
          let n := oa.d.cols / 32
          let b := mmaStepOn b (s.core c).tile acc oa ob step
          let used := usedAccs (max oa.sl.elem.width ob.sl.elem.width) acc
          let b := used.foldl (fun b i => b.setAcc i { b.acc i with step := step + 1, steps := n }) b
          let s := (served s c k).setBurin c k { b with queue := (seq, .mma acc ta tb (step + 1)) :: rest }
          if step + 1 ≥ n then tileDone s c k seq else s
        | _, _ => tileDone s c k seq
    | _ => s

/-! ### Drain-adds at the peer (R202, R203) -/

/-- The Burin context of a launch on a core. -/
def peerBurin (s : State) (core ctx launch : Nat) : Option (Nat × Burin) :=
  (s.burins.find? fun e => e.1.1 == core && e.2.ctx == ctx && e.2.launch == launch).map fun e => (e.1.2, e.2)

/-- c + x for one element, as the tag that the header matched says. -/
def addElem (tag : Bool) (a : Acc) (e : Nat × Word) : Acc :=
  let i := e.1 / 64
  let j := e.1 % 64
  if tag then
    let x := (a.at_ i j).toInt + e.2.toInt
    (a.put i j (BitVec.ofInt 32 x)).mark (if x < -(2 ^ 31 : Nat) || x ≥ (2 ^ 31 : Nat) then fWRAP else 0)
  else
    let r := rnAdd (a.at_ i j) e.2
    (a.put i j r.1).mark (r.2 &&& 31)

/-- The arming MARM ends, and COMPLETE is set, when every expected contribution has been received and applied (R202). -/
def armCheck (s : State) (c k acc : Nat) : State :=
  match s.burin c k with
  | none => s
  | some b =>
    let a := b.acc acc
    match a.armSeq with
    | some q =>
      if a.armed && a.applied == a.expect then
        finish (s.setBurin c k (b.setAcc acc { a with complete := true, armSeq := none })) (.burin c k) q [] []
      else s
    | none => s

/-- Where a live Burin context stands. -/
def burinKey (s : State) (id : Nat) : Option (Nat × Nat) := (s.burins.find? fun e => e.2.id == id).map (·.1)

/-- The sender's MDRADD completes. -/
def senderDone (s : State) (x : Contribution) : State :=
  match burinKey s x.sender with
  | some k => burinReap (finish s (.burin k.1 k.2) x.seq [] []) k.1 k.2
  | none => s

/-- DRAIN_ADD_APPLY: the peer applies the contribution it accepted first, whole, and the sender's flag clears. It is applied at once,
before forms that the peer queued before its MARM have run (DESIGN CHOICE, log entry 76: R193 orders the context's own forms, and no
rule a drain-add among them). -/
def drainApply (s : State) (c k : Nat) : State :=
  match s.burin c k with
  | none => s
  | some b => match b.inbox with
    | [] => s
    | x :: rest =>
      if !x.sent then s
      else
        let a := x.elems.foldl (addElem x.tag) (b.acc x.acc)
        let a := if x.arm == a.armSeq then { a with applied := a.applied ||| (1#32 <<< x.idx) } else a
        let s := s.setBurin c k { b.setAcc x.acc a with inbox := rest }
        burinReap (armCheck (senderDone s x) c k x.acc) c k

/-! ### Issue of the forms -/

/-- Class 0xD: variable (R59). The least number of cycles is R59's representative figure, which it does not promise (DESIGN CHOICE, log
entry 6). -/
def latTile : Lat := .var 64

def burinAt (s : State) (t : Tid) : Option Burin :=
  match t with
  | .burin c k => s.burin c k
  | _ => none

/-- Class 0xD forms a Burin context has outstanding, an arming MARM among them. -/
def tileOuts (s : State) (t : Tid) : List Out := ((s.thread t).map (·.outs)).getD [] |>.filter (·.tile)

/-- Has a Burin context 8 class 0xD forms outstanding (R193)? -/
def fullQueue (s : State) (t : Tid) : Bool := decide (8 ≤ (tileOuts s t).length)

/-- Puts a form into its context's queue. -/
def enqueueTile (s : State) (t : Tid) (seq : Nat) (o : TileOp) : State :=
  match t with
  | .burin c k => s.modBurin c k fun b => { b with queue := b.queue ++ [(seq, o)] }
  | _ => s

def modBurinOf (s : State) (t : Tid) (f : Burin → Burin) : State :=
  match t with
  | .burin c k => s.modBurin c k f
  | _ => s

def tileSize (s : State) (t : Tid) : Nat := tileBytes s (coreNum t)

/-- A class 0xD form whose lane sees its context; a ninth outstanding one stalls (R193). -/
def tileForm' (i : Instr) (h : Hdr) (slots : State → Burin → Bool)
    (f : Env → State → Tid → Burin → List (List Word) → State × Res) : Form :=
  { i := i, h := h, lat := latTile,
    slotBad := fun s t _ => match burinAt s t with | some b => slots s b | none => false,
    stall := fun s t _ _ => fullQueue s t,
    lane := fun env s t _ vs => match burinAt s t with
      | some b => f env s t b vs
      | none => (s, {}) }

def faultRes (code : Nat) : Res := { fault := some { code := code } }

/-- The slot a descriptor names. -/
def descSlot (s : State) (b : Burin) (d : Desc) : Option Slot := launchSlot s b.ctx b.launch (TD.of d).fslot

/-- The eight words TDSET reads. -/
def tdWords (vs : List (List Word)) : Desc := (List.range 4).map (opk vs 0 ·) ++ (List.range 4).map (opk vs 1 ·)

def execTdset (h : Hdr) (t : Fin 16) (a b : Src) (s : State) : Out' :=
  .next (issue (tileForm' (.tdset h t a b) h (fun _ _ => false) fun _ s u bn vs =>
    let d := tdWords vs
    match descSlot s bn d with
    | none => (s, faultRes 0x0D)
    | some sl =>
      if setBad d sl (tileSize s u) then (s, faultRes 0x0C)
      else (modBurinOf s u fun x => { x with desc := setAt x.desc t.val d }, {})) s)

def execTdget (h : Hdr) (hi : Bool) (d : Name) (t : Fin 16) (s : State) : Out' :=
  .next (issue (tileForm' (.tdget h hi d t) h (fun _ _ => false) fun _ s _ b _ =>
    let w := b.desc.getD t.val (List.replicate 8 0)
    (s, { out := if hi then w.drop 4 else w.take 4 })) s)

/-- MMA's slot checks (R113, R187). -/
def mmaSlotBad (s : State) (b : Burin) (ta tb : Desc) : Bool :=
  match descSlot s b ta, descSlot s b tb with
  | some x, some y => x.code == 0 || y.code == 0 || isFlt x != isFlt y
  | _, _ => true

/-- MMA's other checks, in order: 0 for none (R186, R199). -/
def mmaFault (s : State) (b : Burin) (size acc : Nat) (ta tb tc : Desc) : Nat :=
  match descSlot s b ta, descSlot s b tb with
  | some x, some y =>
    let a := TD.of ta
    let bb := TD.of tb
    let c := TD.of tc
    let w := max x.elem.width y.elem.width
    let used := usedAccs w acc
    if roleBad ta x size a.rows a.cols || roleBad tb y size bb.cols bb.rows || !descSet tc || reservedBad tc then 0x0C
    else if bb.rows != a.cols || a.cols % 32 != 0 || c.rows != a.rows || c.cols != bb.cols || a.rows > 64
        || bb.cols > modeCols w || !accOk w acc
        || used.any (fun i => (b.acc i).tagNext == isFlt x || (b.acc i).armed) then 0x0B
    else 0
  | _, _ => 0x0D

def descAt (b : Burin) (t : Fin 16) : Desc := b.desc.getD t.val (List.replicate 8 0)

def execMma (h : Hdr) (acc : Fin 4) (ta tb tc : Fin 16) (s : State) : Out' :=
  .next (issue (tileForm' (.mma h acc ta tb tc) h (fun s b => mmaSlotBad s b (descAt b ta) (descAt b tb))
    fun env s u b _ =>
      let code := mmaFault s b (tileSize s u) acc.val (descAt b ta) (descAt b tb) (descAt b tc)
      if code != 0 then (s, faultRes code)
      else (enqueueTile s u env.seq (.mma acc.val (descAt b ta) (descAt b tb) 0), { held := true })) s)

def execMzero (h : Hdr) (s32 : Bool) (acc : Fin 4) (s : State) : Out' :=
  .next (issue (tileForm' (.mzero h s32 acc) h (fun _ _ => false) fun env s u b _ =>
    if (b.acc acc.val).armed then (s, faultRes 0x0B)
    else
      let s := modBurinOf s u fun x => x.setAcc acc.val { x.acc acc.val with tagNext := s32 }
      (enqueueTile s u env.seq (.mzero acc.val s32), { held := true })) s)

/-- MLDACC: its window (0x0C) before its size and ARMED (0x0B) (DEDUCED, log entry 62: R200 gives no order). -/
def execMldacc (h : Hdr) (s32 : Bool) (acc : Fin 4) (ta : Fin 16) (s : State) : Out' :=
  .next (issue (tileForm' (.mldacc h s32 acc ta) h (fun _ _ => false) fun env s u b _ =>
    let d := descAt b ta
    if windowBad d 32 (tileSize s u) then (s, faultRes 0x0C)
    else if (TD.of d).rows > 64 || (TD.of d).cols > 64 || (b.acc acc.val).armed then (s, faultRes 0x0B)
    else
      let s := modBurinOf s u fun x => x.setAcc acc.val { x.acc acc.val with tagNext := s32 }
      (enqueueTile s u env.seq (.mldacc acc.val s32 d), { held := true })) s)

/-- MDRAIN's slot check (R201): aD's tag decides, also for a window that runs on into accumulators of another tag (DEDUCED, log
entry 62: the spec speaks of one tag). -/
def drainSlotBad (s : State) (b : Burin) (raw : Bool) (fs acc : Nat) : Bool :=
  !raw && match launchSlot s b.ctx b.launch fs with
    | none => true
    | some sl => sl.scale != 0 || (sl.code == 0 && (b.acc acc).tagNext)

/-- The width MDRAIN writes. -/
def drainWidth (s : State) (b : Burin) (raw : Bool) (fs : Nat) : Nat :=
  if raw then 32 else ((launchSlot s b.ctx b.launch fs).map fun sl => sl.elem.width).getD 32

/-- MDRAIN: its size (0x0B) before its footprint (0x0C), in the order of its entry (R61, R201). -/
def execMdrain (h : Hdr) (raw z : Bool) (fs : Fin 8) (ta : Fin 16) (acc : Fin 4) (s : State) : Out' :=
  .next (issue (tileForm' (.mdrain h raw z fs ta acc) h (fun s b => drainSlotBad s b raw fs.val acc.val)
    fun env s u b _ =>
      let d := descAt b ta
      if (TD.of d).cols > 64 * (4 - acc.val) || (TD.of d).rows > 64 then (s, faultRes 0x0B)
      else if windowBad d (drainWidth s b raw fs.val) (tileSize s u) then (s, faultRes 0x0C)
      else (enqueueTile s u env.seq (.mdrain acc.val raw z fs.val d), { held := true })) s)

/-- MDRADD's slot check (R203). An s32 tag without .raw is 0x0D (DEDUCED, log entry 62: the spec requires .raw and names no code; its
sentence on the format of an f32 tag, and R201's on an s32 tag, give 0x0D). -/
def draddSlotBad (s : State) (b : Burin) (raw : Bool) (fs acc : Nat) : Bool :=
  !raw && match launchSlot s b.ctx b.launch fs with
    | none => true
    | some sl => sl.code > 2 || (b.acc acc).tagNext

/-- The checks that need no peer, in the order of the entry (R61, R203): 0 for none. A window with no rows or no columns is a window of
no elements, which its bound allows (DESIGN CHOICE, log entry 81: R186 leaves MDRADD's check to R203, which gives only the bound). -/
def draddFault (t : Tid) (w : Nat) (d : Desc) : Nat :=
  if (TD.of d).rows > 64 || (TD.of d).cols > 64 then 0x0B
  else if bits w 31 21 != 0 || bits w 15 13 != 0 || bits w 10 9 != 0 then 0x0C
  else if bits w 8 0 ≥ Config.cores || bits w 8 0 / Config.coresPerDie != t.die then 0x14
  else 0

/-- Is an accumulator of the launch's context on a core armed, in a resident context (R203)? -/
def peerArmed (s : State) (b : Burin) (core pacc : Nat) : Bool :=
  match peerBurin s core b.ctx b.launch with
  | some (pk, p) => (p.acc pacc).armed && !p.saveReq && match s.thread (.burin core pk) with
    | some th => th.status != .exited
    | none => false
  | none => false

/-- Is the peer that an operand of MDRADD names ready? -/
def peerReady (s : State) (b : Burin) (w : Nat) : Bool := peerArmed s b (bits w 8 0) (bits w 12 11)

/-- Does an MDRADD wait with its header? -/
def headerWaits (raw : Bool) (fs acc : Nat) (tb : Fin 16) (s : State) (t : Tid) (vs : List (List Word)) : Bool :=
  match burinAt s t with
  | none => false
  | some b =>
    let w := (op vs 0).toNat
    !draddSlotBad s b raw fs acc && draddFault t w (descAt b tb) == 0 && !peerReady s b w

/-- The header of a waiting MDRADD, kept with its context. -/
def keepHeader (raw : Bool) (fs acc : Nat) (tb : Fin 16) (s : State) (t : Tid) (vs : List (List Word)) : State :=
  if headerWaits raw fs acc tb s t vs then
    let w := (op vs 0).toNat
    modBurinOf s t fun b => { b with header := some (0, .mdradd acc raw fs (TD.of (descAt b tb)).rows
      (TD.of (descAt b tb)).cols (bits w 8 0) (bits w 12 11) (bits w 20 16) 0) }
  else s

/-- A duplicate contribution's record: 0x1C with the index, the Burin goes on (R203). -/
def dupRecord (s : State) (t : Tid) (th : Thread) (idx : Nat) : State :=
  postLaunch s th.ctx th.launch (threadRec s t th 0x1C 0 th.pc 0 idx)

/-- The header exchange with an armed peer (R203). -/
def exchange (env : Env) (s : State) (t : Tid) (b : Burin) (raw : Bool) (fs acc w : Nat) (d : Desc) : State × Res :=
  let core := bits w 8 0
  let pacc := bits w 12 11
  let idx := bits w 20 16
  match peerBurin s core b.ctx b.launch with
  | none => (s, faultRes 0x14)
  | some (pk, p) =>
    let a := p.acc pacc
    if !a.expect.getLsbD idx then (s, faultRes 0x14)
    else if a.tagNext != (b.acc acc).tagNext then (s, faultRes 0x0B)
    else
      let o := TileOp.mdradd acc raw fs (TD.of d).rows (TD.of d).cols core pacc idx pk
      let s := modBurinOf s t fun x => { x with header := none }
      if a.recv.getLsbD idx then
        let s := match s.thread t with
          | some th => dupRecord s t th idx
          | none => s
        (enqueueTile s t env.seq o, { held := true })
      else
        let s := s.modBurin core pk fun p =>
          { (p.setAcc pacc { p.acc pacc with recv := (p.acc pacc).recv ||| (1#32 <<< idx) }) with
            inbox := p.inbox ++ [{ acc := pacc, arm := (p.acc pacc).armSeq, idx := idx, tag := (p.acc pacc).tagNext,
                                   sent := false, elems := [], sender := b.id, seq := env.seq }] }
        (enqueueTile s t env.seq o, { held := true })

def execMdradd (h : Hdr) (raw : Bool) (fs : Fin 8) (a : Src) (tb : Fin 16) (acc : Fin 4) (s : State) : Out' :=
  let f := tileForm' (.mdradd h raw fs a tb acc) h (fun s b => draddSlotBad s b raw fs.val acc.val) fun env s u b vs =>
    let w := (op vs 0).toNat
    let code := draddFault u w (descAt b tb)
    if code != 0 then (s, faultRes code) else exchange env s u b raw fs.val acc.val w (descAt b tb)
  .next (issue { f with
    stall := fun s t _ vs => fullQueue s t || headerWaits raw fs.val acc.val tb s t vs,
    onStall := keepHeader raw fs.val acc.val tb } s)

/-- MARM at issue (R202): a disarm clears ARMED and COMPLETE, and the received mask stays. -/
def armNow (s : State) (t : Tid) (seq acc : Nat) (mask : Word) : State :=
  let prev := match burinAt s t with
    | some b => (b.acc acc).armSeq
    | none => none
  let s := match prev with
    | some q => finish s t q [] []
    | none => s
  modBurinOf s t fun b => b.setAcc acc { b.acc acc with
    armed := mask != 0, complete := false, expect := mask,
    recv := if mask != 0 then 0 else (b.acc acc).recv, applied := 0,
    armSeq := if mask != 0 then some seq else none }

def execMarm (h : Hdr) (acc : Fin 4) (a : Src) (s : State) : Out' :=
  .next (issue (tileForm' (.marm h acc a) h (fun _ _ => false) fun env s u b vs =>
    if op vs 0 != 0 && (b.acc acc.val).armed then (s, faultRes 0x0B)
    else (armNow s u env.seq acc.val (op vs 0), { held := op vs 0 != 0 })) s)

/-- Steps done and S of the MMA that a context issued last into an accumulator (R204): one still queued, or the last that
ran. -/
def lastMma (s : State) (b : Burin) (acc : Nat) : Nat × Nat :=
  b.queue.foldl (fun r e => match e.2 with
    | .mma d ta tb step => match opndOf s b ta, opndOf s b tb with
      | some x, some y =>
        if (usedAccs (max x.sl.elem.width y.sl.elem.width) d).contains acc then (step, x.d.cols / 32) else r
      | _, _ => r
    | _ => r) ((b.acc acc).step, (b.acc acc).steps)

/-- The step word (R204). -/
def stepWord (s : State) (b : Burin) (acc : Nat) : Word :=
  let (d, n) := lastMma s b acc
  w32 (d % 2 ^ 16 + 2 ^ 16 * (n % 2 ^ 16))

def execMstep (h : Hdr) (clr mask : Bool) (d : Name) (acc : Fin 4) (s : State) : Out' :=
  .next (issue (tileForm' (.mstep h clr mask d acc) h (fun _ _ => false) fun _ s u b _ =>
    let a := b.acc acc.val
    let s := if clr then modBurinOf s u fun x => x.setAcc acc.val { x.acc acc.val with sticky := 0 } else s
    (s, { out := [a.status, if mask then a.recv else stepWord s b acc.val] })) s)

/-- Has every earlier class 0xD form of the context completed, but for an arming MARM (R195)? -/
def tileIdle (s : State) (t : Tid) : Bool :=
  (tileOuts s t).all fun o => ((burinAt s t).map fun b => b.accs.any (·.armSeq == some o.seq)).getD false

def execMfence (h : Hdr) (s : State) : Out' :=
  let f := tileForm' (.mfence h) h (fun _ _ => false) fun _ s _ _ _ => (s, {})
  .next (issue { f with stall := fun s t _ _ => !tileIdle s t } s)

end Sys2Proof.Machine
end

