-- ==== Sys2Proof/Machine/Sets.lean ====
section
/-!
DEFINITION. Plate sets: floors and minimums (R28, R298, R303), name spills (R29, R430), moves between roles (R305–R309), the
fit of a team (R298–R300), starting and freeing teams (R299, R340, R421).
-/
namespace Sys2Proof.Machine

/-! ### Who is on a core -/

namespace State

/-- Teams with threads on a core, by slot. -/
def teamsOn (s : State) (c : Nat) : List (Nat × Team) :=
  (s.teams.filter fun e => e.1.1 == c && !e.2.warps.isEmpty).map fun e => (e.1.2, e.2)

def warpsOn (s : State) (c : Nat) : Nat := ((s.teamsOn c).map fun e => e.2.warps.length).foldl (· + ·) 0

def burinsOn (s : State) (c : Nat) : List Burin := (s.burins.filter fun e => e.1.1 == c).map (·.2)

/-- Launches that have a resident team or a Burin context on a core (log entry 49). -/
def launchesOn (s : State) (c : Nat) : List LRec :=
  ((((s.teamsOn c).map fun e => (e.2.ctx, e.2.launch)) ++ (s.burinsOn c).map fun b => (b.ctx, b.launch)).eraseDups).filterMap
    fun k => (s.launchOf k.1 k.2).map (·.rcd)

def setsOf (s : State) (c : Nat) (r : Role) : List Nat := (s.core c).setsOf r

/-- Spare scratch sets, ascending (R303). -/
def spareScratch (s : State) (c : Nat) : List Nat :=
  (s.setsOf c .scratch).filter fun m => !(s.teams.any fun e => e.1.1 == c && e.2.map.contains m)

end State

def maxOf (l : List Nat) : Nat := l.foldl max 0

/-- The register floor (R28, R303) with some more warps and launches. -/
def floorOf (s : State) (c warps : Nat) (more : List LRec) : Nat :=
  max (max (ceilDiv (16 * (s.warpsOn c + warps)) 256) 1) (maxOf ((s.launchesOn c ++ more).map (·.regMin)))
def cacheMinOf (s : State) (c : Nat) (more : List LRec) : Nat := maxOf ((s.launchesOn c ++ more).map (·.cacheMin))
def tileMinOf (s : State) (c : Nat) (more : List LRec) : Nat :=
  maxOf (((s.launchesOn c ++ more).filter fun r => r.burin != 0).map (·.tileMin))
/-- The largest tile minimum that a move keeps (R306): of every resident launch, with a Burin entry or without. -/
def tileKeepOf (s : State) (c : Nat) (more : List LRec) : Nat := maxOf ((s.launchesOn c ++ more).map (·.tileMin))

/-! ### Name spills (R29–R31, R430) -/

/-- The next instruction of a thread, at its own PC. -/
def nextInstr (s : State) (t : Tid) (th : Thread) : Option Instr :=
  match (fetchPacket s t th.ctx th.pc).2 with
  | .error _ => none
  | .ok p => match decode (packetWord p (slotOf th.pc + 1)) with
    | .ok i => some i
    | .error _ => none

/-- Positions that the next instructions of a quad's threads read. -/
def protectedPos (s : State) (c slot quad : Nat) : List Pos :=
  (List.range 4).flatMap fun i =>
    let t : Tid := .core c slot (4 * quad + i)
    match s.thread t with
    | none => []
    | some th => if th.status == .exited then [] else match nextInstr s t th with
      | some w => srcPos w th
      | none => []

/-- May R29 spill a cell: it is in a bank, and no next instruction of its quad reads it. A result that is still outstanding for it
goes to the name's slot when it comes. -/
def spillable (s : State) (e : CellKey × Cell) : Bool :=
  !e.2.spilled && !(protectedPos s e.1.core e.1.slot e.1.quad).contains e.1.pos

/-- What a lane of a cell gives its slot: the value that a read finds now (R45); of a lane with nothing readable, the cell's bytes as
they stand (log entry 61). -/
def LaneCell.slotValue (x : LaneCell) : Word :=
  match x.pend with
  | some (_, old) => old.getD x.val
  | none => x.val

/-- Writes the four lanes of a cell to their threads' slots: the state, and the lanes whose write failed a check. -/
def spillWrites (s : State) (k : CellKey) (c : Cell) : State × List (Tid × Nat × DWord) :=
  (List.range 4).foldl (fun (a : State × List (Tid × Nat × DWord)) i =>
    let t : Tid := .core k.core k.slot (4 * k.quad + i)
    match spillLane a.1 t k.pos (c.lane i).slotValue with
    | (s, none) => (s, a.2)
    | (s, some b) => (s, a.2 ++ [(t, b)])) (s, [])

/-- Spills one cell: released with its name marked spilled; when a write fails a check the cell stays, and the thread of that lane
stops before its next issue (R430). -/
def spillCell (s : State) (k : CellKey) : State :=
  match s.cells.get k with
  | none => s
  | some c => match spillWrites s k c with
    | (s, []) => { s with cells := s.cells.set k { c with spilled := true } }
    | (s, bad) => bad.foldl (fun s b => noteSpillBad s b.1 b.2) s

/-- Spillable cells of a warp slot. -/
def spillableOf (s : State) (c slot : Nat) : List CellKey :=
  (s.cells.filter fun e => e.1.core == c && e.1.slot == slot && spillable s e).map (·.1)

/-- Resident warps of a core, oldest first: warp slot and the time it became resident. -/
def warpsByAge (s : State) (c : Nat) : List (Nat × Nat) :=
  sortBy (fun e => e.2 * 64 + e.1) ((s.teamsOn c).flatMap fun e => e.2.warps.map fun w => (w, e.2.resident))

/-- Cells that a warp's quads hold. -/
def cellsHeld (s : State) (c slot : Nat) : Nat :=
  (s.cells.filter fun e => e.1.core == c && e.1.slot == slot && !e.2.spilled).length

/-- R29's victim: the first candidate with a spillable cell, else the oldest warp. -/
def spillVictim (s : State) (c : Nat) : Option Nat :=
  match warpsByAge s c with
  | [] => none
  | old :: rest =>
    -- the youngest first among equal counts, the lower slot first among equal ages
    let young := sortBy (fun e => (s.now - e.2) * 64 + e.1) rest
    let cand := sortBy (fun e => 65536 - cellsHeld s c e.1) young
    match cand.find? fun e => !(spillableOf s c e.1).isEmpty with
    | some e => some e.1
    | none => some old.1

/-- RENAME_SPILL: 256 cycles with a stall and no allocation (R29). -/
def spillDue (s : State) (c : Nat) : Bool :=
  match (s.core c).stall with
  | some t => decide (max t (s.core c).lastAlloc + 256 ≤ s.now)
  | none => false

/-- One action of the rename unit, once the miss table has room for the slots' pages (R351). If the stalled bank is still full after it, the unit acts again after another 256 cycles (DESIGN
CHOICE, log entry 58: R29 does not say when). -/
def renameSpill (s : State) (c : Nat) : State :=
  if spillDue s c then match spillVictim s c with
    | some w => if slotsHold s (spillableOf s c w) then s
      else ((spillableOf s c w).foldl spillCell s).modCore c fun x => { x with stall := some s.now }
    | none => s
  else s

/-- May the rename unit act? -/
def spillReady (s : State) (c : Nat) : Bool := spillDue s c && (spillVictim s c).any fun w => !slotsHold s (spillableOf s c w)

/-! ### Moves (R305–R309) -/

/-- Sets that a role gives, in R307's terms. -/
def givenSets (s : State) (c n : Nat) (r : Role) : List Nat :=
  match r with
  | .scratch => (s.spareScratch c).reverse.take n
  | r => (s.setsOf c r).reverse.take n

def roleCode (r : Role) : Nat :=
  match r with
  | .register => 0
  | .scratch => 1
  | .cache => 2
  | .tile => 3
def roleOf (n : Nat) : Role :=
  match n with
  | 0 => .register
  | 1 => .scratch
  | 2 => .cache
  | _ => .tile

/-- Reservations and claims on a core (R300, R301): the launch of each team that is to start there. -/
def claimsOn (s : State) (c : Nat) : List (Nat × LRec) :=
  s.launches.flatMap fun e => (e.2.reserve.filter fun x => x.2 == c).map fun _ => (e.1.2, e.2.rcd)

/-- Warps of a team, scratch sets it maps. -/
def teamWarps (r : LRec) : Nat := r.threads / 32
def teamSets (r : LRec) : Nat := ceilDiv r.scratch Config.setBytes

/-- Sums over the teams that are to start on a core. -/
def claimWarps (l : List (Nat × LRec)) : Nat := (l.map fun e => teamWarps e.2).foldl (· + ·) 0
def claimSets (l : List (Nat × LRec)) : Nat := (l.map fun e => teamSets e.2).foldl (· + ·) 0

/-- R306's checks: the code of a refusal, or none. What a claim holds on the core counts as used (R300, R301). -/
def moveRefused (s : State) (c n : Nat) (from_ to_ : Role) : Option Nat :=
  let have_ := (s.setsOf c from_).length
  let cl := claimsOn s c
  if n == 0 || from_ == to_ then some 4
  else if (s.core c).move.isSome then some 1
  else if n > have_ then some 4
  else match from_ with
    | .register => if have_ - n < floorOf s c (claimWarps cl) (cl.map (·.2)) then some 3 else none
    | .scratch => if (s.spareScratch c).length - claimSets cl < n then some 2 else none
    | .cache => if have_ - n < cacheMinOf s c (cl.map (·.2)) then some 5 else none
    | .tile => if have_ - n < tileKeepOf s c (cl.map (·.2)) then some 5 else none

/-- Accepts a move. -/
def startMove (s : State) (c n : Nat) (from_ to_ : Role) (issuer : Option (Tid × Nat)) : State :=
  s.modCore c fun x => { x with move := some { from_ := from_, to_ := to_, given := givenSets s c n from_, used := [],
                                                total := n, moved := 0, issuer := issuer } }

/-- D of a PLATE (R305). -/
def plateWord (code moved : Nat) (busy : Bool) : Word := w32 (code + 256 * moved + (if busy then 65536 else 0))

/-- A cell of a register set that leaves goes to a free row of its bank in another set, or, where there is none, to its name-spill
slots (R307). A cell that the next instruction reads is no exception here: that instruction waits for the move (log entry 63). -/
def emptyCell (s : State) (k : CellKey) : State :=
  match s.cells.get k with
  | none => s
  | some c => match s.freeSet k.core k.quad with
    | some m => { s with cells := s.cells.set k { c with set := m } }
    | none => spillCell s k

/-- Cells that stand in a register set. -/
def cellsOf (s : State) (c m : Nat) : List CellKey :=
  (s.cells.filter fun e => e.1.core == c && e.2.set == m && !e.2.spilled).map (·.1)

/-- The cells of a set that leaves the register role are moved or spilled. -/
def emptyRegs (s : State) (c m : Nat) : State := (cellsOf s c m).foldl emptyCell s

/-- A cache set leaves: its lines are written back and dropped. -/
def leaveCache (s : State) (c m : Nat) : State :=
  ((s.core c).lines.filter (·.set == m)).foldl (fun s l => evictLine s c l) s

def setRole (s : State) (c m : Nat) (r : Role) : State := s.modCore c fun x => { x with roles := setAt x.roles m r }

/-- The rows of a set read as zero, without errors. -/
def clearSet (s : State) (c m : Nat) : State :=
  s.modCore c fun x => { x with tile := x.tile.clear (m * Config.setBytes) Config.setBytes,
                                badRows := x.badRows.filter fun e => e.1 != m }

/-- A given set empties by its role's handshake (R307). -/
def leaveRole (s : State) (c m : Nat) (r : Role) : State :=
  match r with
  | .cache => leaveCache s c m
  | .register => emptyRegs s c m
  | _ => s

/-- A set outside the tile role is vacated into a given set, which takes its role, owner and contents. -/
def vacate (s : State) (c m g : Nat) : State :=
  let r := ((s.core c).roles[m]?).getD .scratch
  let s := setRole s c g r
  let s := s.modCore c fun x =>
    { x with lines := x.lines.map (fun l => if l.set == m then { l with set := g } else l),
             badRows := x.badRows.map fun e => if e.1 == m then (g, e.2) else e }
  let s := { s with cells := s.cells.map fun (e : CellKey × Cell) => if e.1.core == c && e.2.set == m then (e.1, { e.2 with set := g }) else e }
  { s with teams := s.teams.map fun (e : (Nat × Nat) × Team) =>
      if e.1.1 == c then (e.1, { e.2 with map := e.2.map.map fun y => if y == m then g else y }) else e }

/-- The next set of a move: the set that joins the new role and the given set used, none while a tile set is covered. -/
def moveNext (s : State) (c : Nat) (mv : Move) : Option (Nat × Nat) :=
  match (s.core c).moveStep mv with
  | some (m, g) => if mv.from_ == .tile && setCovered s c m then none else some (m, g)
  | none => none

/-- The results a PLATE's D takes as its move goes on: at its end it completes if it waits. -/
def moveNote (s : State) (mv : Move) : State :=
  match mv.issuer with
  | none => s
  | some (t, seq) =>
    let d := plateWord (if mv.moved ≥ mv.total then 0 else 1) mv.moved false
    match s.thread t with
    | none => s
    | some th => match th.outs.find? (·.seq == seq) with
      | none => s
      | some o =>
        if o.held && mv.moved ≥ mv.total then finish s t seq [d] []
        else s.modThread t fun th => { th with outs := th.outs.map fun o =>
          if o.seq == seq then { o with names := o.names.map (fun e => (e.1, d)), value := d } else o }

/-- A set joins its new role: it holds nothing (R307). -/
def joinRole (s : State) (c m g : Nat) (r : Role) : State :=
  let s := if m == g then s else vacate (clearSet s c g) c m g
  clearSet (setRole s c m r) c m

/-- One set of a move is done. -/
def moveCount (s : State) (c g : Nat) (mv : Move) : State :=
  let mv := { mv with moved := mv.moved + 1, used := g :: mv.used }
  let s := s.modCore c fun x => if mv.moved ≥ mv.total then { x with move := none, lastMove := some (mv, 0) }
    else { x with move := some mv }
  moveNote s mv

/-- PLATE_SET_MOVE_DONE: one set's handshake completes and it joins its new role (R307). A register set that a cell cannot leave,
as its name spill fails, stays. -/
def plateSetMoveDone (s : State) (c : Nat) : State :=
  match (s.core c).move with
  | none => s
  | some mv => match moveNext s c mv with
    | none => s
    | some (m, g) =>
      let s := leaveRole s c g mv.from_
      if mv.from_ == .register && !(cellsOf s c g).isEmpty then s else moveCount (joinRole s c m g mv.to_) c g mv

/-! ### The fit of a team (R298, R300) -/

/-- A surplus or a lack of sets: register, scratch, cache, tile (R298's last two points). -/
structure Balance where
  lack : List Nat
  more : List Nat

/-- Tile sets from the top that no descriptor covers. -/
def openTile (s : State) (c : Nat) : Nat → Nat
  | 0 => 0
  | n + 1 => if setCovered s c n then 0 else 1 + openTile s c n

/-- Sets that a role has still to give to the move in progress: they count as gone (R28, R298). -/
def setsOwed (s : State) (c : Nat) (r : Role) : Nat :=
  match (s.core c).move with
  | some mv => if mv.from_ == r then mv.total - mv.moved else 0
  | none => 0

def balanceOf (s : State) (c : Nat) (r : LRec) (claims : List (Nat × LRec)) : Balance :=
  let rs := r :: claims.map (·.2)
  let regs := s.roleSets c .register - setsOwed s c .register
  let spare := (s.spareScratch c).length - setsOwed s c .scratch
  let cache := s.roleSets c .cache - setsOwed s c .cache
  let tile := s.roleSets c .tile - setsOwed s c .tile
  let f := floorOf s c (teamWarps r + claimWarps claims) rs
  let n := teamSets r + claimSets claims
  let cm := cacheMinOf s c rs
  let tm := tileMinOf s c rs
  { lack := [f - regs, n - spare, cm - cache, tm - tile],
    more := [regs - f, spare - n, cache - cm, min (tile - max tm (tileKeepOf s c [])) (openTile s c tile)] }

def Balance.short (b : Balance) : Nat := b.lack.foldl (· + ·) 0
def Balance.spare (b : Balance) : Nat := b.more.foldl (· + ·) 0

/-- Launches of the claims on a core that will take a Burin context there. -/
def claimBurins (s : State) (c : Nat) (l : List (Nat × LRec)) : List (Nat × Nat) :=
  ((l.filter fun e => e.2.burin != 0).map fun e => (e.2.ctx, e.1)).eraseDups.filter fun k =>
    !(s.burinsOn c).any fun b => (b.ctx, b.launch) == k

/-- Team slots of a core that are held (R421). -/
def slotsHeld (s : State) (c : Nat) : Nat := (s.teams.filter fun e => e.1.1 == c && decide (e.1.2 < Config.teamSlots)).length

/-! ### Handover (R346) -/

/-- May core c leave its context? -/
def handoverDue (s : State) (c : Nat) : Bool :=
  let x := s.core c
  x.ctx != 0 && !(s.teams.any fun e => e.1.1 == c) && (s.burinsOn c).isEmpty && x.move.isNone &&
  !(s.copies.any fun y => y.core == c)

/-- The core is scrubbed and serves no context. -/
def scrubCore (s : State) (c : Nat) : State :=
  let proof (u : Tid) : Bool := match u with | .proof k _ => k == c | _ => false
  let s := dropThreads { s with groups := s.groups.filter fun g => !g.mem.any proof } fun u _ => proof u
  let s := { s with cells := s.cells.filter (fun e => e.1.core != c), copies := s.copies.filter fun y => y.core != c }
  s.setCore c { Core.free with scClock := (s.core c).scClock }

/-- CORE_HANDOVER: the cache role is written back, then the scrub. -/
def coreHandover (s : State) (c : Nat) : State :=
  if handoverDue s c then scrubCore ((s.core c).lines.foldl (fun s l => evictLine s c l) s) c else s

/-- R298's points on context, slots, warps and Burin contexts, the claims counted; a core that is to be handed over takes nothing before
(R346). -/
def slotsFit (s : State) (c ctx launch : Nat) (r : LRec) (claims : List (Nat × LRec)) : Bool :=
  let x := s.core c
  !(s.die (c / Config.coresPerDie)).fenced && !handoverDue s c && (x.ctx == 0 || x.ctx == ctx) && claims.all (fun e => e.2.ctx == ctx) &&
  decide (slotsHeld s c + claims.length < Config.teamSlots) &&
  decide (s.warpsOn c + claimWarps claims + teamWarps r ≤ Config.warpSlots) &&
  decide ((s.burinsOn c).length + (claimBurins s c ((launch, r) :: claims)).length ≤ 4)

/-- Does a team of this launch fit on core c? none: no; some false: as it stands; some true: after conversion. While a move is in
progress no team that needs sets starts (R308). -/
def teamFits (s : State) (c ctx launch : Nat) (r : LRec) (claims : List (Nat × LRec)) : Option Bool :=
  if !slotsFit s c ctx launch r claims then none
  else
    let b := balanceOf s c r claims
    if (s.core c).move.isSome && (teamSets r != 0 || b.short != 0) then none
    else if b.short == 0 then some false
    else if b.short ≤ b.spare then some true
    else none

/-- The move that a conversion makes next: from a role with sets to spare, in the order scratch, cache, register, tile
(DESIGN CHOICE, log entry 18). -/
def nextMove (b : Balance) : Option (Role × Role × Nat) :=
  let roles := [Role.register, .scratch, .cache, .tile]
  match (b.lack.zip roles).find? fun e => e.1 != 0 with
  | none => none
  | some (n, to_) =>
    let order := [(b.more.getD 1 0, Role.scratch), (b.more.getD 2 0, .cache), (b.more.getD 0 0, .register),
                  (b.more.getD 3 0, .tile)]
    match order.find? fun e => e.1 != 0 && e.2 != to_ with
    | some (m, from_) => some (from_, to_, min n m)
    | none => none

/-- The best core of a list by R299's keys: the core, and whether it needs conversion. -/
def chooseCore (s : State) (cores : List Nat) (ctx launch : Nat) (r : LRec) (claims : Nat → List (Nat × LRec)) :
    Option (Nat × Bool) :=
  cores.foldl (fun best c => match teamFits s c ctx launch r (claims c) with
    | none => best
    | some conv =>
      let key (c : Nat) (conv : Bool) : Nat :=
        (if conv then 1000 else 0) + (if (s.core c).ctx == ctx then 0 else 500) + s.warpsOn c
      match best with
      | none => some (c, conv)
      | some (b, bc) => if key c conv < key b bc then some (c, conv) else some (b, bc)) none

def allCores : List Nat := List.range Config.cores
def dieCores (d : Nat) : List Nat := (List.range Config.coresPerDie).map (d * Config.coresPerDie + ·)

/-! ### Starting a team (R299, R421) -/

/-- The warp slot of the next warp: the lowest free slot of the quadrant with the most free slots. -/
def warpSlotFor (s : State) (c : Nat) (taken : List Nat) : Nat :=
  let used := ((s.teams.filter fun e => e.1.1 == c).flatMap fun e => e.2.warps) ++ taken
  let free (q : Nat) : List Nat := ((List.range 16).map (16 * q + ·)).filter fun w => !used.contains w
  let q := (List.range 4).foldl (fun b q => if (free q).length > (free b).length then q else b) 0
  (free q).headD 0

def warpSlots (s : State) (c : Nat) (n : Nat) : List Nat :=
  (List.range n).foldl (fun l _ => l ++ [warpSlotFor s c l]) []

/-- The lowest team slot that no team of the core holds (R421). -/
def freeTeamSlot (s : State) (c : Nat) : Nat :=
  ((List.range Config.teamSlots).find? fun k => !s.teams.has (c, k)).getD 0

/-- A core begins to serve a context (R346), after a handover that it has still to make: its clock starts at 4.0 GHz, under the die's
ceiling (R317, R405). -/
def serve (s : State) (c ctx : Nat) : State :=
  (coreHandover s c).modCore c fun x => if x.ctx == ctx then x
    else { Core.free with ctx := ctx, since := s.now, cycAt := s.now, lastPhase := s.now, scClock := x.scClock,
                          clk := min 4000 (s.die (c / Config.coresPerDie)).ceiling }

/-- The Burin context of a launch starts with the core's first team of it, and not again (R37, R181). -/
def burinWith (s : State) (c ctx launch : Nat) (x : Launch) : State :=
  if x.rcd.burin == 0 || x.burinCores.contains c then s
  else match (List.range 4).find? fun k => !s.burins.has (c, k) with
    | some k => startBurin s c k ctx launch x.rcd
    | none => s

/-- The entry cache of a die holds the kernel's entry packet, by context and physical address (R296, R346). -/
def entryNote (s : State) (d ctx va : Nat) : State :=
  match walk s ctx va with
  | some (size, leaf) =>
    let e := (ctx, bits leaf.toNat 47 16 * 2 ^ 16 + va % size)
    s.modDie d fun x => { x with entry := keepNewest Config.entryCache (e :: x.entry.filter (· != e)) }
  | none => s

/-- Team `lin` of a launch starts on core c (R21, R299, R340). -/
def startTeam (s : State) (ctx launch lin c : Nat) : State :=
  match s.launchOf ctx launch with
  | none => s
  | some x =>
    let r := x.rcd
    let s := serve s c ctx
    let ws := warpSlots s c (teamWarps r)
    let map := (s.spareScratch c).take (teamSets r)
    let team : Team := { ctx := ctx, launch := launch, lin := lin, warps := ws, scratch := [], map := map, brk := false,
                         preq := none, start := s.now, resident := s.now, saving := false, blocked := none }
    let s := (map.foldl (fun s m => clearSet s c m) s).setTeam (c, freeTeamSlot s c) team
    let s := coreAcquire s c .dev 0
    let s := ((List.range ws.length).zip ws).foldl (fun s e => startWarp s c e.2 ctx launch r lin e.1) s
    let s := burinWith s c ctx launch x
    let s := entryNote s (c / Config.coresPerDie) ctx r.entry.toNat
    s.modLaunch ctx launch fun x => { x with live := x.live + 1, next := max x.next (lin + 1), ineligible := none,
                                             burinCores := if x.burinCores.contains c then x.burinCores else c :: x.burinCores }

end Sys2Proof.Machine
end

