-- ==== Sys2Proof/Machine/Reach.lean ====
section
/-!
DEFINITION. The address spaces of a thread (R242, R243): global accesses with their order suffixes (R244, R245), Graver control
blocks (R273, R274), scratch with barrier objects that a write breaks (R242, R253, R258), tile bytes.
-/
namespace Sys2Proof.Machine

def flt (code addr : Nat) : Flt := { code := code, addr := w64 addr }

/-! ### Graver control blocks (R272–R274) -/

/-- Physical base of a bank in the bank-linear window (R207). -/
def bankBase (b : Nat) : Nat := 0x0200_0000_0000 + b / 512 * 2 ^ 37 + b / 32 % 16 * 2 ^ 33 + b % 32 * 2 ^ 28

/-- The virtual address by which an owner's BS leaves map this physical address, with its leaf: the lowest with execute permission, else
the lowest (log entry 16). -/
def vaOf (s : State) (ctx pa : Nat) : Option (Nat × DWord) :=
  match s.ctx ctx with
  | none => none
  | some x =>
    let mine := (leavesOf x).filter fun e => Kind.ofCode (bits e.entry.toNat 6 5) == .bs && decide (e.base ≤ pa) &&
      decide (pa < e.base + e.size)
    let code := mine.filter fun e => bitAt e.entry.toNat 4
    (if code.isEmpty then mine else code).foldl (fun (a : Option (Nat × DWord)) e =>
      let va := e.va + (pa - e.base)
      match a with
      | some (v, f) => if va < v then some (va, e.entry) else some (v, f)
      | none => some (va, e.entry)) none

/-- The record of a Graver context that ends faulted (R275). -/
def graverRec (s : State) (g code addr : Nat) : FRec :=
  { code := code, level := 6, engine := 4, flags := 0, ctx := (s.graver g).owner, launch := 0, team := 0xFFFF_FFFF,
    thread := w32 g, pc := 0, addr := w64 addr, progress := 0, time := w64 (s.clkAt (g / 1024)), ext := [] }

/-- A Graver context ends faulted with no instruction of its own to blame. -/
def graverFail (s : State) (g code addr : Nat) : State :=
  (postCtx (graverStop s g 3 code) (s.graver g).owner (graverRec s g code addr)).1

/-- A write of START (R274). -/
def startOp (s : State) (g : Nat) (v : DWord) : State :=
  let x := s.graver g
  let n := v.toNat
  if bits n 4 0 != 0 || bits n 63 30 != 0 || x.state == 1 then s.setGraver g { x with refused := true }
  else
    let s := graverStop s g 1 0
    let s := s.modGraver g fun x => { x with start := v, refused := false, icache := [], began := s.now }
    match vaOf s x.owner (bankBase (g / 2) + bits n 27 0) with
    | none => graverFail s g 0x06 0
    | some (va, leaf) =>
      if bitAt leaf.toNat 4 then startGraver s g x.owner (bits n 29 28 + 1) (w64 va) else graverFail s g 0x07 va

/-- A write of 4 B at an offset other than START's. -/
def controlPut (x : Graver) (off : Nat) (v : Word) : Graver :=
  match off with
  | 0x10 => { x with cptr := pairOf v (hiOf x.cptr) }
  | 0x14 => { x with cptr := pairOf (loOf x.cptr) v }
  | 0x18 => { x with cval := v }
  | 0x40 => { x with stack := pairOf v (hiOf x.stack) }
  | 0x44 => { x with stack := pairOf (loOf x.stack) v }
  | 0x48 => { x with stackSz := v }
  | o => if 0x20 ≤ o && o < 0x40 then { x with mbox := setAt x.mbox ((o - 0x20) / 4) v } else x

/-- A device store of 4 or 8 bytes to a control block. -/
def controlOp (s : State) (g off n : Nat) (v : DWord) : State :=
  let x := s.graver g
  if off == 0 then startOp s g (if n == 8 then v else pairOf (loOf v) (hiOf x.start))
  else if off == 4 then startOp s g (pairOf (loOf x.start) (loOf v))
  else
    let x := controlPut x off (loOf v)
    s.setGraver g (if n == 8 then controlPut x (off + 4) (hiOf v) else x)

/-- The context that writes a control block: its thread's or its core's, or the session's (R4). -/
def writerCtx (s : State) (w : Writer) : Option Nat :=
  match w with
  | .thread t => match s.thread t, t.core? with
    | some th, _ => some th.ctx
    | none, some c => some (s.core c).ctx
    | none, none => none
  | .session n => match s.pkg.sessions.get n with
    | some (.owner c) => some c
    | _ => none

/-- May this writer write the control block of Graver g? Its page belongs to the context that owns the Graver (R4, R273, R416). -/
def mayWrite (s : State) (w : Writer) (g : Nat) : Bool :=
  decide (g < Config.gravers) && (s.graver g).owner != 0 && writerCtx s w == some (s.graver g).owner

/-- A write of START (R274), by a writer that R4 lets through. -/
def startStore (s : State) (w : Writer) (g : Nat) (v : DWord) : State := if mayWrite s w g then startOp s g v else s

/-- A device store of 4 or 8 bytes, aligned, past START of a control block (R273). -/
def controlStore (s : State) (w : Writer) (g off : Nat) (v : DWord) (bytes8 : Bool) : State :=
  let n := if bytes8 then 8 else 4
  if mayWrite s w g && 8 ≤ off && off < 0x1_0000 && off % n == 0 then controlOp s g off n v else s

/-- Is this a thread's write on its way to a control block? -/
def sentBy (t : Tid) : Instr → Bool
  | .startWrite b _ => b.writer == .thread t
  | .controlBlockWrite b _ _ _ => b.writer == .thread t
  | _ => false

/-- Such a write arrives. -/
def unitArrive (s : State) (e : Instr) : State :=
  match e with
  | .startWrite b v => startStore s b.writer b.graver v
  | .controlBlockWrite b off v w => controlStore s b.writer b.graver off v w
  | _ => s

/-- Every write that a thread has under way to a control block arrives: those of its streams and spills come before its own later access
(R208). -/
def settleUnits (s : State) (t : Tid) : State :=
  let sent := s.agenda.takeWhile unitEvent
  (sent.filter (sentBy t)).foldl unitArrive { s with agenda := sent.filter (!sentBy t ·) ++ s.agenda.dropWhile unitEvent }

/-! ### Global accesses -/

def ordRel (o : Ord) : Bool := o == .rel || o == .sc
def ordAcq (o : Ord) : Bool := o == .acq || o == .sc

/-- The checks of R243 for a global access, with R216's for a memory-side scope and R273's for a control block. -/
def globalCheck (s : State) (t : Tid) (ctx va w : Nat) (need : Need) (atomic : Bool) (o : Ord) (sc : Scope) :
    State × Except Flt Phys :=
  match checkAccess s t ctx va w need atomic with
  | (s, .error e) => (s, .error (flt e va))
  | (s, .ok p) =>
    if o != .plain && sc.memorySide && (bankOf p.pa).isNone then (s, .error (flt 0x08 va))
    else if p.kind == .device && w != 4 && w != 8 then (s, .error (flt 0x05 va))
    else (s, .ok p)

/-- An SC load: at the home of its location, with the core's own dirty bytes (R226, R229). L2's clean copy of a BS or PW sector
leaves, so that no later access finds there what this load has overtaken (R226, R227). -/
def scLoad (s : State) (c : Nat) (p : Phys) (n : Nat) : State × Nat × Nat :=
  match p.kind with
  | .normal => bpLoad s c p n
  | _ =>
    let x := match lineOf (s.core c) (p.pa / 512) with
      | some l => lineSec l (p.pa / 64 % 8)
      | none => Sector.absent
    let (v, code) := dramRead s (p.pa / 64) p.key
    if x.readsBad (p.pa % 64) n then (s, 0, 0x18)
    else if code != 0 then (s, 0, code)
    else (l2Drop s (homeOf p.pa) (p.pa / 64), secLoad (mergeBytes v x.data x.dirty) (p.pa % 64) n, 0)

/-- n bytes read where R209, R210, R214 or R229 has the access performed: the value and 0, 0x17 or 0x18. A Graver's SC load reads its bank,
as every load of a Graver does (R214), and the clock it moves is that of the home (R229) (DEDUCED, log entry 79). -/
def loadAt (s : State) (t : Tid) (ctx : Nat) (p : Phys) (n : Nat) (bp ro : Bool) (o : Ord) : State × Nat × Nat :=
  match graverOf p.pa with
  | some g => (s, controlRead s g (p.pa % 0x1_0000) n, 0)
  | none => match t with
    | .graver _ _ =>
      if (bankOf p.pa).isSome then
        let (v, code) := dramRead s (p.pa / 64) p.key
        (s, secLoad v (p.pa % 64) n, code)
      else
        let (s, v, code) := homeRead s (p.pa / 64) p.key
        (s, secLoad v (p.pa % 64) n, code)
    | t =>
      if o == .sc then scLoad s (coreNum t) p n
      else if bp then bpLoad s (coreNum t) p n
      else plateLoad s (coreNum t) ctx p n ro

/-- n bytes stored there. -/
def storeAt (s : State) (t : Tid) (ctx : Nat) (p : Phys) (n v : Nat) (bp : Bool) (o : Ord) : State :=
  match graverOf p.pa with
  | some g => controlOp s g (p.pa % 0x1_0000) n (w64 v)
  | none => match t with
    | .graver _ _ =>
      if (bankOf p.pa).isSome then bankWrite s p.pa p.key n v
      else homeWrite s (p.pa / 64) p.kind p.key (maskOf (p.pa % 64) n) (placed (p.pa % 64) v)
    | t => if bp || o == .sc then bpStore s (coreNum t) p n v else plateStore s (coreNum t) ctx p n v

/-- Does a thread's access to a device page wait for a pushed element that has still to get its value (R208, R270)? -/
def unitWaits (s : State) (t : Tid) (th : Thread) (a : DWord) : Bool :=
  th.pushPends && match (checkAccess s t th.ctx a.toNat 1 .none false).2 with
    | .ok p => p.kind == .device
    | .error _ => false

/-- Does a thread's read of a walker's element of w bytes stall, as its die's miss table is full (R351) or an earlier device access of
the thread has still to be performed (R208)? An unaligned one faults first (R243). -/
def walkHolds (s : State) (t : Tid) (th : Thread) (a : DWord) (w : Nat) : Bool :=
  a.toNat % w == 0 && (missStall s t th.ctx a.toNat || unitWaits s t th a)

/-- The sector of an address of a thread, one for the two addresses of a Deep stack's byte. -/
def sectorAt (s : State) (t : Tid) (th : Thread) (a : DWord) : Option Nat :=
  match (checkAccess s t th.ctx a.toNat 1 .none false).2 with
  | .ok p => some (canonSec (p.pa / 64))
  | .error _ => none

/-- Is a sector at an address one where its thread has pushed an element that is not performed? An element counts as an access at its
push, and a later access of the thread to its bytes comes after it (R226, R227, R270). -/
def pushMeets (s : State) (t : Tid) (th : Thread) (a : DWord) : Bool :=
  !th.pushedAt.isEmpty && match sectorAt s t th a with
    | some k => th.pushedAt.any fun x => sectorAt s t th x == some k
    | none => false

/-- Does a global access of w bytes stall: as a walker's read does, or behind an element of its thread's own? -/
def globalHolds (s : State) (t : Tid) (th : Thread) (a : DWord) (w : Nat) : Bool :=
  walkHolds s t th a w || (a.toNat % w == 0 && pushMeets s t th a)

/-- Do n bytes from a physical address on meet an access that is not performed? A store meets what lies in its sector, as packets of one
sector are performed in the order sent (R213). The members' addresses of an MLDRED or MSTMC are not told apart. -/
def Todo.meets (x : Todo) (pa n : Nat) : Bool :=
  match x with
  | .load p _ ty _ _ => decide (canonPa pa < canonPa p.pa + ty.bytes) && decide (canonPa p.pa < canonPa pa + n)
  | .store p _ _ _ _ => canonSec (p.pa / 64) == canonSec (pa / 64)
  | x => x.unsent

/-- Does a store of n bytes stall behind an earlier access of its thread to its bytes (R226, R227)? -/
def lateMeets (s : State) (t : Tid) (th : Thread) (a : DWord) (n : Nat) : Bool :=
  th.accessPends && match (checkAccess s t th.ctx a.toNat n .none false).2 with
    | .ok p => th.outs.any fun o => o.todo.any fun x => x.meets p.pa n
    | .error _ => false

/-- The reply that a load or an atomic has still to get from its home's die (R378, R399). -/
def replyOf (s : State) (t : Tid) (th : Thread) (a : DWord) : List Await :=
  match (checkAccess s t th.ctx a.toNat 1 .none false).2 with
  | .ok p => ((homeDie p.pa).map fun d => Await.reply d a).toList
  | .error _ => []

/-- What comes before an access: the release that its order suffix asks for, at a device page the thread's earlier pushes and device
writes (R208, R270), and the SC stamp: 0x15 when a write-back is lost. -/
def beforeAccess (s : State) (t : Tid) (o : Ord) (sc : Scope) (p : Phys) : State × Nat :=
  let (s, e) := if ordRel o then release s t sc p.pa else if p.kind == .device then flushStores s t else (s, 0)
  let s := if p.kind == .device then settleUnits s t else s
  (if o == .sc then scStamp s t p else s, e)

/-- Before a form reaches a unit of the device region, its thread's earlier pushes and device writes are performed (R208, R273). -/
def unitFirst (s : State) (t : Tid) : State × Nat :=
  let (s, e) := flushStores s t
  (settleUnits s t, e)

/-- The acquire after it. -/
def afterAccess (s : State) (t : Tid) (o : Ord) (sc : Scope) (pa : Nat) : State :=
  if ordAcq o then acquire s t sc pa else s

/-- A fault found at the data, or a release that lost bytes (R378, R399). -/
def lateOf (code : Nat) (addr : DWord) : Option (Nat × DWord) := if code == 0 then none else some (code, addr)

/-- One lane's global load: its bytes. -/
def globalLoad (s : State) (t : Tid) (th : Thread) (a : DWord) (n : Nat) (bp ro : Bool) (o : Ord) (sc : Scope) :
    State × Except Flt (Nat × Option (Nat × DWord)) :=
  match globalCheck s t th.ctx a.toNat n .read false o sc with
  | (s, .error e) => (s, .error e)
  | (s, .ok p) =>
    let (s, e) := beforeAccess s t o sc p
    let (s, v, code) := loadAt s t th.ctx p n bp ro o
    (afterAccess s t o sc p.pa, .ok (if code == 0 then v else 0, lateOf (if code == 0 then e else code) a))

/-- One lane's global store. -/
def globalStore (s : State) (t : Tid) (th : Thread) (a : DWord) (n v : Nat) (bp : Bool) (o : Ord) (sc : Scope) :
    State × Except Flt (Option (Nat × DWord)) :=
  match globalCheck s t th.ctx a.toNat n .write false o sc with
  | (s, .error e) => (s, .error e)
  | (s, .ok p) =>
    let (s, e) := beforeAccess s t o sc p
    let s := storeAt s t th.ctx p n v bp o
    (afterAccess s t o sc p.pa, .ok (lateOf e a))

/-- A plain load or store that a thread makes for its call state (R327, R330): the Burin's in its own area. -/
def threadLoad (s : State) (t : Tid) (th : Thread) (va n : Nat) : State × Except Flt Nat :=
  match t with
  | .burin c k => (s, .ok (((s.burin c k).map fun b => b.area.load va n).getD 0))
  | t => match globalLoad s t th (w64 va) n false false .plain .core with
    | (s, .error e) => (s, .error e)
    | (s, .ok (v, none)) => (s, .ok v)
    | (s, .ok (_, some (code, a))) => (s, .error { code := code, addr := a })

def threadStore (s : State) (t : Tid) (th : Thread) (va n v : Nat) : State × Option Flt :=
  match t with
  | .burin c k => (s.modBurin c k fun b => { b with area := b.area.store va n v }, none)
  | t => match globalStore s t th (w64 va) n v false .plain .core with
    | (s, .error e) => (s, some e)
    | (s, .ok _) => (s, none)

/-! ### Barrier objects: breaking (R253, R258) -/

/-- Threads that wait on an object: thread, instruction, predicate, through a gang window. -/
def waitersOf (s : State) (k : BarKey) : List (Tid × Nat × Fin 8 × Bool) :=
  s.threads.filterMap fun e => match e.2.status with
    | .waiting (.barrier seq obj wide p _) => if obj == k then some (e.1, seq, p, wide) else none
    | _ => none

/-- The slot before a PC: that of the instruction a waiting thread waits in. -/
def prevSlot (pc : DWord) : DWord := if pc.toNat % 32 == 8 then pc - 16 else pc - 8

def markBrk (s : State) (t : Tid) : State :=
  match s.teamOf t with
  | some (key, tm) => s.setTeam key { tm with brk := true }
  | none => s

/-- Every thread's pending arrival on an object ends. -/
def endArrivals (s : State) (k : BarKey) (ok : Bool) : State :=
  { s with threads := s.threads.map fun e => match e.2.arrivals.get k with
      | some (.pending _) => (e.1, { e.2 with arrivals := e.2.arrivals.set k (.ended ok) })
      | _ => e }

/-- Disarms an object: waiters go on with false, or fault with 0x0E when `trap` (R255, R258). -/
def disarm (s : State) (c : Nat) (b : BarObj) (trap brk : Bool) : State :=
  let ws := waitersOf s b.key
  let s := s.modCore c fun x => { x with barriers := x.barriers.filter (·.key != b.key) }
  let s := endArrivals s b.key false
  let s := if brk then ws.foldl (fun s w => markBrk s w.1) s else s
  if trap then
    let (n, s) := s.fresh
    (byOrder s (ws.map (·.1))).foldl (fun s t => match ws.find? (·.1 == t), s.thread t with
      | some (_, seq, _), some th =>
        let pc := prevSlot th.pc
        let s := abandon s t seq
        takeFault s t (threadRec s t th 0x0E 0 pc (w64 b.key.off) 0) pc n
      | _, _ => s) s
  else
    let s := ws.foldl (fun s w => finish s w.1 w.2.1 [] [(w.2.2.1, false)]) s
    s.wake (ws.map (·.1))

/-- A write of n bytes at an offset of a team's scratch breaks the armed objects it touches (R258). -/
def breakAt (s : State) (c : Nat) (ctx launch lin off n : Nat) : State :=
  ((s.core c).barriers.filter fun b => b.key.ctx == ctx && b.key.launch == launch && b.key.team == lin
      && decide (b.key.off < off + n) && decide (off < b.key.off + 16)).foldl (fun s b => disarm s c b b.trap true) s

/-! ### Scratch (R242) -/

/-- Where a scratch address lies: a team's scratch, through the gang window or not, or a Graver's local scratch. -/
inductive Spot where
  | team (key : Nat × Nat) (off : Nat) (wide : Bool)
  | graver (g off : Nat)
  deriving DecidableEq, Repr

/-- The team of a launch with this linear index, wherever it is resident. -/
def teamOfLin (s : State) (ctx launch lin : Nat) : Option ((Nat × Nat) × Team) :=
  s.teams.find? fun e => e.2.ctx == ctx && e.2.launch == launch && e.2.lin == lin

/-- The team that GW and MEMBER name for a team of a launch (R242). -/
def memberTeam (s : State) (ctx launch lin : Nat) (r : LRec) (gw : Bool) (member : Nat) : Option (Nat × Nat) :=
  let g := max r.gang 1
  if gw then
    if member ≥ g then none else (teamOfLin s ctx launch (lin / g * g + member)).map (·.1)
  else if member != 0 then none
  else (teamOfLin s ctx launch lin).map (·.1)

/-- The team a scratch address of a thread names. -/
def spotTeam (s : State) (t : Tid) (th : Thread) (r : LRec) (gw : Bool) (member : Nat) : Option (Nat × Nat) :=
  match t with
  | .core _ _ _ => memberTeam s th.ctx th.launch th.team r gw member
  | .burin c _ =>
    if !gw then none
    else match s.teams.get (c, member) with
      | some tm => if tm.ctx == th.ctx && tm.launch == th.launch then some (c, member) else none
      | none => none
  | _ => none

/-- A scratch address of an access of w bytes: 0x05, then 0x06 (R242, R243). Past the 16 KiB of a Graver's local scratch R78 gives 0x04
and R32, R242 and R243 give 0x06: the model takes 0x06 (DEDUCED, log entry 64). -/
def scratchAt (s : State) (t : Tid) (th : Thread) (a : Word) (w : Nat) : Except Flt Spot :=
  let n := a.toNat
  if n % w != 0 then .error (flt 0x05 n)
  else match t with
    | .graver g _ => if n ≥ Config.graverLocal then .error (flt 0x06 n) else .ok (.graver g n)
    | _ => match s.recOf th with
      | none => .error (flt 0x06 n)
      | some r => match spotTeam s t th r (bitAt n 31) (bits n 30 27) with
        | none => .error (flt 0x06 n)
        | some key => if bits n 26 0 ≥ r.scratch then .error (flt 0x06 n) else .ok (.team key (bits n 26 0) (bitAt n 31))

/-- The set, and its 64 B piece, that hold a byte of a team's scratch: 16 B units go round the sets of its map (R14). -/
def scratchPiece (tm : Team) (off : Nat) : Nat × Nat :=
  let n := max tm.map.length 1
  (tm.map.getD (off / 16 % n) 0, (off / 16 / n * 16 + off % 16) / 64)

/-- Is the set of a scratch address moving? An access to it stalls (R242, R308). -/
def spotMoving (s : State) (x : Spot) : Bool :=
  match x with
  | .team key off _ => match s.teams.get key with
    | some tm => (s.core key.1).moving.contains (scratchPiece tm off).1
    | none => false
  | .graver _ _ => false

/-- Has its row an uncorrectable error? A read then faults with 0x18, exactly (R402). -/
def spotBad (s : State) (x : Spot) : Bool :=
  match x with
  | .team key off _ => match s.teams.get key with
    | some tm => (s.core key.1).badRows.contains (scratchPiece tm off)
    | none => false
  | .graver g off => (s.graver g).badRows.contains (off / 64)

/-- Does a scratch access of a lane stall? -/
def scratchHolds (s : State) (t : Tid) (th : Thread) (a : Word) (w : Nat) : Bool :=
  match scratchAt s t th a w with
  | .ok x => spotMoving s x
  | .error _ => false

/-- A scratch address that a lane reads: its fault, or 0x18 from its row. -/
def scratchRead (s : State) (t : Tid) (th : Thread) (a : Word) (w : Nat) : Except Flt Spot :=
  match scratchAt s t th a w with
  | .ok x => if spotBad s x then .error (flt 0x18 a.toNat) else .ok x
  | .error f => .error f

def spotLoad (s : State) (x : Spot) (n : Nat) : Nat :=
  match x with
  | .team key off _ => ((s.teams.get key).map fun tm => tm.scratch.load off n).getD 0
  | .graver g off => (s.graver g).local_.load off n

/-- A write to scratch, which breaks the barrier objects it touches. -/
def spotStore (s : State) (x : Spot) (n v : Nat) : State :=
  match x with
  | .team key off _ => match s.teams.get key with
    | some tm =>
      breakAt (s.setTeam key { tm with scratch := tm.scratch.store off n v }) key.1 tm.ctx tm.launch tm.lin off n
    | none => s
  | .graver g off => s.modGraver g fun x => { x with local_ := x.local_.store off n v }

/-- Does one write of n bytes of a team's scratch from an offset on cover a 64 B piece of a set of its map? -/
def pieceWritten (tm : Team) (off n : Nat) (e : Nat × Nat) : Bool :=
  let w := max tm.map.length 1
  tm.map.contains e.1 && (List.range 4).all fun i =>
    let a := 16 * (w * (4 * e.2 + i) + tm.map.idxOf e.1)
    decide (off ≤ a) && decide (a + 16 ≤ off + n)

/-- A write that covers a piece clears its error (R402). -/
def spotCover (s : State) (x : Spot) (n : Nat) : State :=
  match x with
  | .team key off _ => match s.teams.get key with
    | some tm => s.modCore key.1 fun x => { x with badRows := x.badRows.filter fun e => !pieceWritten tm off n e }
    | none => s
  | .graver _ _ => s

/-! ### Tile bytes -/

/-- A tile address of an access of w bytes: 0x05, then 0x0C (R242, R243). -/
def tileAt (s : State) (t : Tid) (a : Word) (w : Nat) : Except Flt Nat :=
  let n := a.toNat
  if n % w != 0 then .error (flt 0x05 n)
  else if t.isProof || n ≥ tileBytes s (coreNum t) then .error (flt 0x0C n)
  else .ok n

/-- A tile address that a lane reads: its fault, or 0x18 from its row (R402). -/
def tileRead (s : State) (t : Tid) (a : Word) (w : Nat) : Except Flt Nat :=
  match tileAt s t a w with
  | .ok x => if tileBad s (coreNum t) x w then .error (flt 0x18 a.toNat) else .ok x
  | .error f => .error f

def tileLoad (s : State) (c a n : Nat) : Nat := (s.core c).tile.load a n
def tileStore (s : State) (c a n v : Nat) : State := s.modCore c fun x => { x with tile := x.tile.store a n v }

end Sys2Proof.Machine
end

