-- ==== Sys2Proof/Machine/Barrier.lean ====
section
/-!
DEFINITION. Class 0x9, barriers and WAITA (R253–R259).
-/
namespace Sys2Proof.Machine

/-- CTL pipe: variable (R59). The least number of cycles is R59's representative figure, which it does not promise (DESIGN CHOICE, log
entry 6). -/
def latCtl : Lat := .var 10

/-- An immediate that is a count or a timeout, or the operand read (R54, R255, R256). The immediate is taken as a natural number: no rule
says how a negative one counts (DESIGN CHOICE, log entry 85). -/
def limVal (n : Lim) (vs : List (List Word)) : Nat :=
  match n with
  | .reg _ _ => (op vs 1).toNat
  | .imm i => i.toNat

/-! ### Objects -/

/-- The object at a spot: its key, the core whose unit owns it, whether the access went through a gang window. -/
def objAt (s : State) (x : Spot) : Option (BarKey × Nat × Bool) :=
  match x with
  | .team key off wide => (s.teams.get key).map fun tm => ({ ctx := tm.ctx, launch := tm.launch, team := tm.lin, off := off }, key.1, wide)
  | .graver _ _ => none

def armedAt (s : State) (c : Nat) (k : BarKey) : Option BarObj := (s.core c).barriers.find? (·.key == k)

/-- The bytes of an armed object (R253). -/
def objBytes (b : BarObj) : Nat :=
  b.count % 2 ^ 15 + (if b.trap then 2 ^ 15 else 0) + 2 ^ 32 * (b.arrived % 2 ^ 15) + 2 ^ 64 * (b.phase % 2 ^ 32) + 2 ^ 96

/-- The unit's own write of an object and of its bytes. -/
def putObj (s : State) (c : Nat) (b : BarObj) : State :=
  let s := s.modCore c fun x => { x with barriers := b :: x.barriers.filter (·.key != b.key) }
  { s with teams := s.teams.map fun e =>
      if e.1.1 == c && e.2.ctx == b.key.ctx && e.2.launch == b.key.launch && e.2.lin == b.key.team then
        (e.1, { e.2 with scratch := e.2.scratch.store b.key.off 16 (objBytes b) }) else e }

/-- The scope of an arrival or wait (R238). -/
def barScope (wide : Bool) : Scope := if wide then .die else .core

/-- A phase completes: its waiters are released with true at once, each with its acquire, and the cores are ranked (R253, R256,
R317). `later`: lanes of the BARAW being issued that have not arrived yet, and do not wait in this phase. -/
def completePhase (s : State) (c : Nat) (b : BarObj) (later : List Tid) : State :=
  let ws := (waitersOf s b.key).filter fun w => !later.contains w.1
  let s := endArrivals (putObj s c { b with arrived := 0, phase := (b.phase + 1) % 2 ^ 32, cores := [] }) b.key true
  let s := ws.foldl (fun s w => finish (acquire s w.1 (barScope w.2.2.2) 0) w.1 w.2.1 [] [(w.2.2.1, true)]) s
  let s := s.wake (ws.map (·.1))
  if b.cores.eraseDups.length < 2 then s else rankCores s (b.cores.zip (List.range b.cores.length))

/-- The release of an arrival, at its object's scope (R256), with 0x15 where it lost bytes (R399); none on an object that is not armed. -/
def arrivalRelease (s : State) (t : Tid) (k : BarKey) (c : Nat) (wide : Bool) : State × Nat :=
  match armedAt s c k with
  | none => (s, 0)
  | some _ => release s t (barScope wide) 0

/-- An arrival is counted. -/
def countArrival (s : State) (t : Tid) (k : BarKey) (c : Nat) (later : List Tid := []) : State :=
  match armedAt s c k with
  | none => s
  | some b =>
    let s := s.modThread t fun th => { th with arrivals := th.arrivals.set k (.pending b.phase) }
    let b := { b with arrived := b.arrived + 1, cores := b.cores ++ [coreNum t] }
    if b.arrived ≥ b.count then completePhase s c b later else putObj s c b

/-- One arrival (R256): its release, then the count, and what the release lost. -/
def arrive (s : State) (t : Tid) (k : BarKey) (c : Nat) (wide : Bool) : State × Nat :=
  let (s, e) := arrivalRelease s t k c wide
  (countArrival s t k c, e)

/-- A fault found at the data of an instruction that is outstanding (R378). -/
def noteLate (s : State) (t : Tid) (seq code : Nat) : State :=
  if code == 0 then s
  else s.modThread t fun th => { th with outs := th.outs.map fun o =>
    if o.seq == seq then { o with late := o.late.orElse fun _ => some (threadRec s t th code 0x80 o.pc 0 0) } else o }

/-- BARI in one lane (R255). -/
def bariLane (n : Lim) (s : State) (t : Tid) (th : Thread) (vs : List (List Word)) : State × Res :=
  match scratchAt s t th (op vs 0) 16 with
  | .error f => (s, { fault := some f })
  | .ok x => match objAt s x with
    | none => (s, { fault := some (flt 0x06 (op vs 0).toNat) })
    | some (k, c, _) =>
      let v := limVal n vs
      let count := v % 2 ^ 15
      let old := armedAt s c k
      if count == 0 then
        match old with
        | some b => (disarm s c b false false, {})
        | none => (s, {})
      else if old.isNone && (s.core c).barriers.length ≥ Config.barrierObjects then
        (s, { fault := some { code := 0x0E, addr := w64 (op vs 0).toNat, flags := 1 } })
      else
        let s := match old with
          | some b => disarm s c b b.trap true
          | none => s
        (putObj s c { key := k, trap := bitAt v 15, count := count, arrived := 0, phase := 0, cores := [] }, {})

def ctlForm (i : Instr) (h : Hdr) (f : Env → State → Tid → Thread → List (List Word) → State × Res) : Form :=
  { i := i, h := h, lat := latCtl, lane := f }

/-- A form that names a barrier object: it stalls while its object's set is moving (R242, R308). -/
def objForm (i : Instr) (h : Hdr) (f : Env → State → Tid → Thread → List (List Word) → State × Res) : Form :=
  { ctlForm i h f with stall := fun s t th vs => scratchHolds s t th (op vs 0) 16 }

def execBari (h : Hdr) (a : Src) (n : Lim) (s : State) : Out' :=
  .next (issue (objForm (.bari h a n) h fun _ s t th vs => bariLane n s t th vs) s)

/-- The object a class 0x9 form names, or its fault. -/
def objOf (s : State) (t : Tid) (th : Thread) (a : Word) : Except Flt (BarKey × Nat × Bool) :=
  match scratchAt s t th a 16 with
  | .error f => .error f
  | .ok x => match objAt s x with
    | some o => .ok o
    | none => .error (flt 0x06 a.toNat)

def execBara (h : Hdr) (a : Src) (s : State) : Out' :=
  .next (issue (objForm (.bara h a) h fun _ s t th vs =>
    match objOf s t th (op vs 0) with
    | .error f => (s, { fault := some f })
    | .ok (k, c, wide) =>
      let (s, e) := arrive s t k c wide
      (s, { late := lateOf e 0 })) s)

/-- BARW and BARAW in one lane: the thread waits in the instruction; what it waits for is looked at when every lane has
issued. -/
def waitLane (p : Fin 8) (lim : Lim) (env : Env) (s : State) (t : Tid) (th : Thread) (vs : List (List Word)) : State × Res :=
  match objOf s t th (op vs 0) with
  | .error f => (s, { fault := some f })
  | .ok (k, _, wide) =>
    let n := limVal lim vs
    let limit := if n == 0 then none else some (s.now + 256 * n)
    (s.modThread t fun th => { th with status := .waiting (.barrier env.seq k wide p limit) },
     { held := true, preds := [(p, false)] })

/-- The core that owns an object's scratch. -/
def ownerCore (s : State) (k : BarKey) : Nat := ((teamOfLin s k.ctx k.launch k.team).map (·.1.1)).getD 0

/-- Does a thread wait at a barrier in instruction `seq`? Its object, whether through a gang window, its predicate. -/
def waitsIn (th : Thread) (seq : Nat) : Option (BarKey × Bool × Fin 8) :=
  match th.status with
  | .waiting (.barrier q k wide p _) => if q == seq then some (k, wide, p) else none
  | _ => none

/-- One waiting thread of this instruction: it arrives (BARAW), while those in `later` have still to; the wait is over at once when
its recorded phase has ended or it has none. The answer names it if it goes on. -/
def settleWait (arrives : Bool) (seq : Nat) (s : State) (t : Tid) (later : List Tid) : State × List Tid :=
  match (s.thread t).bind (waitsIn · seq) with
  | none => (s, [])
  | some (k, wide, p) =>
    let s := if arrives then
        let (s, e) := arrivalRelease s t k (ownerCore s k) wide
        countArrival (noteLate s t seq e) t k (ownerCore s k) later
      else s
    match s.thread t with
    | none => (s, [])
    | some th =>
      if (waitsIn th seq).isNone then (s, [])
      else match th.arrivals.get k with
        | some (.pending _) => (s, [])
        | some (.ended true) => (finish (acquire s t (barScope wide) 0) t seq [] [(p, true)], [t])
        | _ => (finish s t seq [] [(p, false)], [t])

/-- The lanes of an instruction one after another; the threads whose wait is over go on together. -/
def settleGo (arrives : Bool) (seq : Nat) : State → List Tid → List Tid → State
  | s, [], on => s.wake on
  | s, t :: ts, on =>
    let (s, ws) := settleWait arrives seq s t ts
    settleGo arrives seq s ts (on ++ ws)

def settleWaits (arrives : Bool) (env : Env) (s : State) : State := settleGo arrives env.seq s env.exec []

def execBarw (h : Hdr) (p : Fin 8) (a : Src) (t : Lim) (s : State) : Out' :=
  .next (issue { objForm (.barw h p a t) h (waitLane p t) with after := settleWaits false } s)

def execBaraw (h : Hdr) (p : Fin 8) (a : Src) (t : Lim) (s : State) : Out' :=
  .next (issue { objForm (.baraw h p a t) h (waitLane p t) with after := settleWaits true } s)

/-- BARRIER_TIMEOUT (R256): the wait ends with false; the arrival stays counted. -/
def barrierTimeout (s : State) (t : Tid) : State :=
  match s.thread t with
  | some th => match th.status with
    | .waiting (.barrier seq _ _ p (some l)) =>
      if l ≤ s.now then (finish s t seq [] [(p, false)]).wake [t] else s
    | _ => s
  | none => s

/-! ### TBAR and GBAR (R257) -/

/-- After TBAR: is the barrier of each executing thread's team or Graver context complete? -/
def tbarAfter (env : Env) (s : State) : State :=
  env.exec.foldl (fun s t => match t, s.thread t with
    | .graver g _, _ => graverTbarCheck s g
    | _, some th => tbarCheck s th.ctx th.launch th.team
    | _, none => s) s

def execTbar (h : Hdr) (s : State) : Out' :=
  .next (issue { ctlForm (.tbar h) h (fun env s t _ _ =>
    let (s, e) := release s t (if t.isGraver then .bnk else .core) 0
    (s.modThread t fun th => { th with status := .waiting (.tbar env.seq) }, { held := true, late := lateOf e 0 })) with
    after := tbarAfter } s)

def gbarAfter (env : Env) (s : State) : State :=
  env.exec.foldl (fun s t => match s.thread t with
    | some th => gbarCheck s th.ctx th.launch th.team
    | none => s) s

def execGbar (h : Hdr) (s : State) : Out' :=
  .next (issue { ctlForm (.gbar h) h (fun env s t _ _ =>
    let (s, e) := release s t .die 0
    (s.modThread t fun th => { th with status := .waiting (.gbar env.seq) }, { held := true, late := lateOf e 0 })) with
    after := gbarAfter } s)

/-! ### WAITA (R259) -/

/-- The bytes of a word's sector where its home performs a write to it: at the bank for a Graver's read there, else in L2 or in
memory; a control block's word at its unit. -/
def homeSector (s : State) (t : Tid) (p : Phys) : BitVec 512 :=
  match graverOf p.pa with
  | some g => BitVec.ofNat 512 (controlRead s g (p.pa % 0x1_0000 / 8 * 8) 8)
  | none =>
    if t.isGraver && (bankOf p.pa).isSome then dramData s (p.pa / 64)
    else match l2Find s (homeOf p.pa) (p.pa / 64) with
      | some e => e.data
      | none => dramData s (p.pa / 64)

/-- The word read at its home as a BP load, at its bank in a Graver: its value with the fault of its data, and its sector. -/
def waitaRead (s : State) (t : Tid) (th : Thread) (a : DWord) (n : Nat) : State × Except Flt (Nat × Nat × BitVec 512) :=
  match globalCheck s t th.ctx a.toNat n .read false .plain .core with
  | (s, .error f) => (s, .error f)
  | (s, .ok p) =>
    let (s, e) := beforeAccess s t .plain .core p
    let (s, v, code) := loadAt s t th.ctx p n true false .plain
    (s, .ok (v, if code == 0 then e else code, homeSector s t p))

/-- Has the home of a word performed a write to its sector since it was read? A write that leaves every byte of the sector as it was
has the same word read again, and is not told apart. -/
def sectorWritten (s : State) (t : Tid) (th : Thread) (a : DWord) (n : Nat) (seen : BitVec 512) : Bool :=
  match (globalCheck s t th.ctx a.toNat n .read false .plain .core).2 with
  | .ok p => homeSector s t p != seen
  | .error _ => false

/-- Is the condition met? -/
def waitaMet (cc : Fin 8) (wide : Bool) (x b : DWord) : Bool :=
  if wide then condW cc.val x b else condW cc.val (loOf x) (loOf b)

/-- The acquire that ends a WAITA. -/
def waitaAcquire (s : State) (t : Tid) : State := acquire s t (if t.isGraver then .bnk else .sys) 0

/-- WAITA in one lane. In a Graver its units of 256 and 1,024 cycles are Graver cycles, as R59 counts there (DESIGN CHOICE, log entry 87).
-/
def waitaLane (cc : Fin 8) (wide : Bool) (env : Env) (s : State) (t : Tid) (th : Thread) (vs : List (List Word)) :
    State × Res :=
  let a := opPair vs 0
  let b : DWord := if wide then opPair vs 1 else pairOf (op vs 1) 0
  let c := (op vs 2).toNat
  match waitaRead s t th a (if wide then 8 else 4) with
  | (s, .error f) => (s, { fault := some f })
  | (s, .ok (v, code, sec)) =>
    if code != 0 then (s, { out := oldVal wide 0, late := lateOf code a })
    else if waitaMet cc wide (w64 v) b then (waitaAcquire s t, { out := oldVal wide v, awaits := replyOf s t th a })
    else
      let limit := if c == 0 then none else some (s.now + cyc t (256 * c))
      (s.modThread t fun th =>
        { th with status := .waiting (.waita env.seq cc wide a b limit sec (s.now + cyc t 1024)) }, { held := true })
where oldVal (wide : Bool) (v : Nat) : List Word := if wide then [w32 v, w32 (v / 2 ^ 32)] else [w32 v]

def execWaita (h : Hdr) (cc : Fin 8) (wide : Bool) (o : Dabc) (s : State) : Out' :=
  .next (issue { ctlForm (.waita h cc wide o) h (waitaLane cc wide) with
    stall := fun s t th vs => globalHolds s t th (opPair vs 0) (if wide then 8 else 4) } s)

/-- Ends a WAITA with a value. -/
def waitaEnd (s : State) (t : Tid) (seq : Nat) (wide : Bool) (v : Nat) : State :=
  (finish (waitaAcquire s t) t seq (waitaLane.oldVal wide v) []).wake [t]

/-- Is a waiting thread's word to be read again: a write to its sector has been performed at its home, or 1,024 cycles have passed? -/
def waitaDue (s : State) (t : Tid) : Bool :=
  match s.thread t with
  | some th => match th.status with
    | .waiting (.waita _ _ wide a _ _ seen next) =>
      decide (next ≤ s.now) || sectorWritten s t th a (if wide then 8 else 4) seen
    | _ => false
  | none => false

/-- Reads the word of a waiting thread again: it leaves when the condition is met, or when `leave` says that its limit has
elapsed; a check that fails now stops it at the WAITA, and bad data stops it after it. -/
def waitaAgain (s : State) (t : Tid) (leave : Bool) : State :=
  match s.thread t with
  | some th => match th.status with
    | .waiting (.waita seq cc wide a b limit _ _) =>
      match waitaRead s t th a (if wide then 8 else 4) with
      | (s, .error f) =>
        let (n, s) := s.fresh
        let pc := prevSlot th.pc
        let s := abandon s t seq
        takeFault s t (threadRec s t th f.code 0 pc f.addr 0) pc n
      | (s, .ok (v, code, sec)) =>
        if code != 0 then
          let r := threadRec s t th code 0x80 (prevSlot th.pc) a 0
          (finish s t seq (waitaLane.oldVal wide 0) []).wake [t] |>.modThread t fun th => { th with deferred := some r }
        else if waitaMet cc wide (w64 v) b || leave then waitaEnd s t seq wide v
        else s.modThread t fun th =>
          { th with status := .waiting (.waita seq cc wide a b limit sec (s.now + cyc t 1024)) }
    | _ => s
  | none => s

/-- WAITA_RECHECK: only when it is due. -/
def waitaRecheck (s : State) (t : Tid) : State := if waitaDue s t then waitaAgain s t false else s

/-- WAITA_TIMEOUT: only when the limit has elapsed. -/
def waitaTimeout (s : State) (t : Tid) : State :=
  match s.thread t with
  | some th => match th.status with
    | .waiting (.waita _ _ _ _ _ (some l) _ _) => if l ≤ s.now then waitaAgain s t true else s
    | _ => s
  | none => s

end Sys2Proof.Machine
end

