-- ==== Sys2Proof/Machine/Control.lean ====
section
/-!
DEFINITION. Class 0x6 without the launch forms: branches, calls, loops, regrouping, EXIT, traps (R322–R338, R344).
-/
namespace Sys2Proof.Machine

/-! ### Branches (R324) -/

/-- A BRA-form target, or 0x06 outside the canonical range (R55). -/
def brTarget (pc : DWord) (off : BitVec 29) : Except Flt DWord :=
  let t := branchTarget pc off
  if decide (0 ≤ t) && decide (t < 2 ^ 64) && canonicalVa t.toNat then .ok (w64 t.toNat)
  else .error { code := 0x06, addr := BitVec.ofInt 64 t }

/-- A computed target, or 0x05 or 0x06 (R47, R324). -/
def brxTarget (a : DWord) : Except Flt DWord :=
  match targetFault a with
  | some c => .error { code := c, addr := a }
  | none => .ok a

def jump (s : State) (t : Except Flt DWord) : State × Res :=
  match t with
  | .error f => (s, { fault := some f })
  | .ok a => (s, { next := some a })

def execBra (h : Hdr) (off : BitVec 29) (s : State) : Out' :=
  .next (issue (ctlForm (.bra h off) h fun _ s _ th _ => jump s (brTarget th.pc off)) s)
def execBrx (h : Hdr) (a : Src) (s : State) : Out' :=
  .next (issue (ctlForm (.brx h a) h fun _ s _ _ vs => jump s (brxTarget (opPair vs 0))) s)

/-! ### Calls and the window stack (R325–R330) -/

/-- Where a thread's window-stack area lies: base of its region, AREA, and the region's size in bytes. -/
structure Area where
  base : Nat
  start : Nat
  limit : Nat

def areaOf (s : State) (t : Tid) (th : Thread) : Area :=
  match t with
  | .burin _ _ => ⟨0, 0, 2048⟩
  | .graver g x =>
    let y := s.graver g
    if y.stack == 0 then ⟨0, 0, 0⟩ else ⟨y.stack.toNat + x * y.stackSz.toNat, 0, y.stackSz.toNat⟩
  | _ => match s.recOf th with
    | none => ⟨0, 0, 0⟩
    | some r => ⟨r.stackBase.toNat + th.gtid * r.stackBytes, 64 * ceilDiv (4 * (16 * r.depth16 + 8)) 64, r.stackBytes⟩

/-- The window shift of a link word. -/
def linkShift (l : DWord) : Nat := 8 * (l.toNat % 8)
def unitBytes (l : DWord) : Nat := 4 * linkShift l + 16

/-- Units that must leave, oldest first, each with its lowest position: links are oldest first. -/
def spillUnits (depth fb : Nat) : Nat → Nat → List DWord → List (Nat × DWord)
  | _, _, [] => []
  | lo, nrec, l :: rest =>
    if fb + 48 - lo + 2 * nrec ≤ depth then []
    else (lo, l) :: spillUnits depth fb (lo + linkShift l) (nrec - 1) rest

/-- A position's value as a spill writes it: none is void; a spilled name comes from its slot. -/
def spillVal (s : State) (t : Tid) (th : Thread) (p : Nat) : State × Except Flt (Option Word) :=
  let spilled := match State.cellKey t (.v p) with
    | some k => match s.cells.get k with
      | some c => c.spilled && !(c.lane (t.lane % 4)).rel
      | none => false
    | none => false
  if spilled then
    match spillSlot s th (.v p) with
    | none => (s, .ok none)
    | some va => match slotLoad s t th va with
      | (s, .ok v) => (s, .ok (some v))
      | (s, .error e) => (s, .error (flt e va))
  else (s, .ok (s.readPos t (.v p)))

/-- The words of n positions, written one after the other; the void mask. -/
def spillWords (s : State) (t : Tid) (th : Thread) (a p mask bit : Nat) : Nat → State × Except Flt Nat
  | 0 => (s, .ok mask)
  | n + 1 => match spillVal s t th p with
    | (s, .error f) => (s, .error f)
    | (s, .ok v) => match threadStore s t th a 4 (v.getD 0).toNat with
      | (s, some f) => (s, .error f)
      | (s, none) => spillWords s t th (a + 4) (p + 1) (mask + if v.isNone then bit else 0) (2 * bit) n

/-- Writes units one after the other from an address on (R326). -/
def spillUnitsTo (s : State) (t : Tid) (th : Thread) (a : Nat) : List (Nat × DWord) → State × Option Flt
  | [] => (s, none)
  | (lo, l) :: us => match spillWords s t th a lo 0 1 (linkShift l) with
    | (s, .error f) => (s, some f)
    | (s, .ok mask) => match threadStore s t th (a + 4 * linkShift l) 8 l.toNat with
      | (s, some f) => (s, some f)
      | (s, none) => match threadStore s t th (a + 4 * linkShift l + 8) 8 mask with
        | (s, some f) => (s, some f)
        | (s, none) => spillUnitsTo s t th (a + unitBytes l) us

/-- Positions of a range get the thread's release bit; none in fixed storage. -/
def releasePos (s : State) (t : Tid) (lo n : Nat) : State := (List.range n).foldl (fun s i => s.markRel t (.v (lo + i))) s

/-- Positions of a range of fixed storage read as zero (R330). -/
def zeroPos (s : State) (t : Tid) (lo n : Nat) : State :=
  if t.isCore then s else (List.range n).foldl (fun s i => s.writeNow t (.v (lo + i)) 0) s

/-- R327 for one thread: shift code w, checked target. -/
def callTo (w : Nat) (target : DWord) (s : State) (t : Tid) (th : Thread) : State × Res :=
  let fb := th.fb + 8 * w
  let links := (nextSlot th.pc ||| w64 w) :: th.links
  let units := spillUnits (s.depthOf t th) fb th.lo (th.nrec + 1) links.reverse
  let size := (units.map fun u => unitBytes u.2).foldl (· + ·) 0
  let a := areaOf s t th
  if !units.isEmpty && a.start + th.wtop + size > a.limit then (s, { fault := some { code := 0x10 } })
  else match spillUnitsTo s t th (a.base + a.start + th.wtop) units with
    | (s, some f) => (s, { fault := some f })
    | (s, none) =>
      let s := units.foldl (fun s u => releasePos s t u.1 (linkShift u.2)) s
      let s := zeroPos s t (fb + 48 - 8 * w) (8 * w)
      let out := (units.map fun u => linkShift u.2).foldl (· + ·) 0
      (s.modThread t fun th => { th with fb := fb, lo := th.lo + out, nrec := th.nrec + 1 - units.length, wtop := th.wtop + size,
                                         links := links.take (th.nrec + 1 - units.length) }, { next := some target })

/-- Does an access to the newest unit in a thread's area, or past it, find the miss table full (R351), or an element that the thread has
pushed and that comes first (R226, R270)? -/
def areaHolds (s : State) (t : Tid) (th : Thread) : Bool :=
  let a := areaOf s t th
  let top := a.base + a.start + th.wtop
  !t.isBurin && (!th.pushedAt.isEmpty || missStall s t th.ctx top || (th.wtop != 0 && missStall s t th.ctx (top - 16)))

/-- Is an instruction outstanding that writes a name, s0–s3 among them, or a predicate (R18, R51, R327)? -/
def writesPending (th : Thread) : Bool := th.outs.any fun o => !o.names.isEmpty || !o.preds.isEmpty || o.push.isSome

def callForm (i : Instr) (h : Hdr) (w : Fin 8) (target : Thread → List (List Word) → Except Flt DWord) : Form :=
  { i := i, h := h, lat := latCtl, stall := fun s t th _ => writesPending th || areaHolds s t th,
    lane := fun _ s t th vs => match target th vs with
      | .error f => (s, { fault := some f })
      | .ok a => callTo w.val a s t th }

def execCall (h : Hdr) (w : Fin 8) (off : BitVec 29) (s : State) : Out' :=
  .next (issue (callForm (.call h w off) h w fun th _ => brTarget th.pc off) s)

/-! ### Filing into bins (R310, R331, R335) -/

/-- Files the executing threads that run on, each by its PC; a thread that finds no free bin stays where it is, as after a NOP. -/
def fileExec (env : Env) (s : State) : State :=
  let ts := env.exec.filter fun t => t.isCore && running s t
  match ts with
  | [] => s
  | t0 :: _ => drawFull (ts.foldl (fun s t => (fileBin s t).1) s) (coreNum t0)

/-- CALLI (R331). -/
def execCalli (h : Hdr) (w : Fin 8) (a : Src) (s : State) : Out' :=
  .next (issue { callForm (.calli h w a) h w (fun _ vs => brxTarget (opPair vs 0)) with after := fileExec } s)

/-- REFORM (R335). -/
def execReform (h : Hdr) (s : State) : Out' :=
  .next (issue { ctlForm (.reform h) h (fun _ s _ _ _ => (s, {})) with after := fileExec } s)

/-! ### RET (R328) -/

def linksEmpty (th : Thread) : Bool := th.nrec == 0 && th.wtop == 0

/-- A filled word goes into the thread's lane of the position's cell; for a name that is spilled, to its slot as well (DESIGN CHOICE,
log entry 58). -/
def fillWord (s : State) (t : Tid) (p : Nat) (v : Word) : State := (spillResult s t (.v p) v).writeNow t (.v p) v

/-- The newest spilled unit's words into positions from p on. -/
def fillWords (s : State) (t : Tid) (th : Thread) (a p mask : Nat) : Nat → State × Option Flt
  | 0 => (s, none)
  | n + 1 => match threadLoad s t th a 4 with
    | (s, .error f) => (s, some f)
    | (s, .ok v) =>
      let s := if mask % 2 == 1 && t.isCore then s else fillWord s t p (w32 v)
      fillWords s t th (a + 4) (p + 1) (mask / 2) n

/-- Brings the newest spilled unit back when no link record is on the Plate: the thread's new call state. -/
def fillUnit (s : State) (t : Tid) (th : Thread) : State × Except Flt Thread :=
  if th.nrec != 0 then (s, .ok th)
  else
    let a := areaOf s t th
    let top := a.base + a.start + th.wtop
    match threadLoad s t th (top - 16) 8 with
    | (s, .error f) => (s, .error f)
    | (s, .ok l) =>
      let l := w64 l
      if !(1 ≤ l.toNat % 8 && l.toNat % 8 ≤ 6) then (s, .error { code := 0x05, addr := w64 (top - 16) })
      else match threadLoad s t th (top - 8) 8 with
        | (s, .error f) => (s, .error f)
        | (s, .ok mask) => match fillWords s t th (top - unitBytes l) (th.lo - linkShift l) mask (linkShift l) with
          | (s, some f) => (s, .error f)
          | (s, none) => (s, .ok { th with lo := th.lo - linkShift l, nrec := 1, links := [l],
                                           wtop := th.wtop - unitBytes l })

/-- Cells that a thread's fill would have to allocate (R28). -/
def fillKeys (s : State) (t : Tid) : List CellKey :=
  match s.thread t with
  | none => []
  | some th =>
    if !t.isCore || th.nrec != 0 || th.wtop == 0 then []
    else match threadLoad s t th ((areaOf s t th).base + (areaOf s t th).start + th.wtop - 16) 8 with
      | (_, .error _) => []
      | (_, .ok w) =>
        let n := linkShift (w64 w)
        (List.range n).filterMap fun i => match State.cellKey t (.v (th.lo - n + i)) with
          | some k => if s.cells.has k then none else some k
          | none => none

/-- R328 for one thread with a link; on a fault its names and call state stay as they were. -/
def retLane (s : State) (t : Tid) (th : Thread) : State × Res :=
  if linksEmpty th then (s, {})
  else match fillUnit s t th with
    | (_, .error f) => (s, { fault := some f })
    | (s', .ok c) =>
      let s' := if (fillKeys s t).isEmpty then s' else noteAlloc s' t
      let l := c.links.headD 0
      match brxTarget (l &&& ~~~7#64) with
      | .error f => (s, { fault := some f })
      | .ok a =>
        let n := linkShift l
        let s' := if t.isCore then releasePos s' t (c.fb + 48 - n) n else s'
        (s'.modThread t fun x => { x with fb := c.fb - n, lo := c.lo, nrec := c.nrec - 1, wtop := c.wtop, links := c.links.drop 1 },
         { next := some a })

/-- Does some bank lack the cells that the fills of these threads need? -/
def fillStall (s : State) (ts : List Tid) : Bool :=
  let need := (ts.flatMap (fillKeys s)).eraseDups
  need.any fun k => decide (s.cellsFree k.core k.quad < (need.filter fun e => e.core == k.core && e.quad == k.quad).length)

/-- Threads whose link stack was empty exit. -/
def retAfter (env : Env) (s : State) : State :=
  let ts := env.exec.filter fun t => match env.pre.thread t with
    | some th => linksEmpty th && running s t
    | none => false
  ts.foldl exitThread s

def execRet (h : Hdr) (s : State) : Out' :=
  .next (issue { i := .ret h, h := h, lat := latCtl,
                 stall := fun s t th _ => writesPending th || areaHolds s t th, crowd := fillStall,
                 lane := fun _ s t th _ => retLane s t th,
                 after := retAfter } s)

/-- EXIT (R336). -/
def execExit (h : Hdr) (s : State) : Out' :=
  .next (issue { ctlForm (.exit h) h (fun _ s _ _ _ => (s, {})) with
    after := fun env s => env.exec.foldl exitThread s } s)

/-! ### Loops and stream ends (R332–R334) -/

def getLc (x : Word × Word × Word) (k : Fin 3) : Word :=
  match k.val with
  | 0 => x.1
  | 1 => x.2.1
  | _ => x.2.2

def setLc (x : Word × Word × Word) (k : Fin 3) (v : Word) : Word × Word × Word :=
  match k.val with
  | 0 => (v, x.2.1, x.2.2)
  | 1 => (x.1, v, x.2.2)
  | _ => (x.1, x.2.1, v)

def execLoopSet (h : Hdr) (lc : Fin 3) (n : BitVec 29) (s : State) : Out' :=
  .next (issue (ctlForm (.loopSet h lc n) h fun _ s t _ _ =>
    (s.modThread t fun th => { th with lcs := setLc th.lcs lc (n.setWidth 32) }, {})) s)

def execLoop (h : Hdr) (lc : Fin 3) (off : BitVec 29) (s : State) : Out' :=
  .next (issue (ctlForm (.loop h lc off) h fun _ s t th _ =>
    let n := getLc th.lcs lc
    let n := if n == 0 then n else n - 1
    let s' := s.modThread t fun th => { th with lcs := setLc th.lcs lc n }
    if n == 0 then (s', {})
    else match brTarget th.pc off with
      | .error f => (s, { fault := some f })
      | .ok a => (s', { next := some a })) s)

/-- BEOD (R334). -/
def beodLane (out : Bool) (k : Fin 3) (sn : Fin 4) (off : BitVec 29) (s : State) (t : Tid) (th : Thread) : State × Res :=
  match (if out then th.stores else th.loads).get sn.val with
  | none => (s, { fault := some { code := 0x0F } })
  | some w =>
    if w.eod.getLsbD k.val then
      match brTarget th.pc off with
      | .error f => (s, { fault := some f })
      | .ok a =>
        let w := { w with eod := w.eod &&& ~~~(1#3 <<< k.val) }
        (s.modThread t fun th => if out then { th with stores := th.stores.set sn.val w }
          else { th with loads := th.loads.set sn.val w }, { next := some a })
    else (s, {})

def execBeod (h : Hdr) (out : Bool) (k : Fin 3) (sn : Fin 4) (off : BitVec 29) (s : State) : Out' :=
  .next (issue (ctlForm (.beod h out k sn off) h fun _ s t th _ => beodLane out k sn off s t th) s)

/-! ### YIELD, NOP, traps (R337, R338, R344) -/

/-- Is a save asked of this thread: PREQ of its team, or its Burin context's? -/
def saveAsked (s : State) (t : Tid) : Bool :=
  match t with
  | .core _ _ _ => match s.teamOf t with
    | some (_, tm) => tm.preq.isSome
    | none => false
  | t => burinAsked s t

def execYield (h : Hdr) (s : State) : Out' :=
  .next (issue (ctlForm (.yield h) h fun _ s t _ _ =>
    (if saveAsked s t then s.modThread t fun th => { th with status := .yielded } else s, {})) s)

/-- NOP: a flag that it sets clears in its issue cycle (R62). -/
def execNop (h : Hdr) (s : State) : Out' :=
  .next (issue { ctlForm (.nop h) h (fun _ s _ _ _ => (s, {})) with lat := .fixed 0 } s)

def execTrap (h : Hdr) (n : Fin 32) (s : State) : Out' :=
  .next (issue (ctlForm (.trap h n) h fun _ s _ _ _ =>
    (s, { fault := some { code := 0x19, flags := n.val, after := true } })) s)

def execBpt (h : Hdr) (s : State) : Out' :=
  .next (issue (ctlForm (.bpt h) h fun _ s _ _ _ => (s, { fault := some { code := 0x1A } })) s)

end Sys2Proof.Machine
end

