-- ==== Sys2Proof/Machine/Memory.lean ====
section
/-!
DEFINITION. Class 0x7, loads, stores and cache operations (R240–R248).
-/
namespace Sys2Proof.Machine

/-- MEM pipe: variable (R59). The least number of cycles is R59's representative figure for scratch, which it does not promise (DESIGN
CHOICE, log entry 6). -/
def latMem : Lat := .var 24

/-- The global address of a lane, A being operand 0 (R242). -/
def globalAddr (off : Option (BitVec 22)) (vs : List (List Word)) : DWord := opPair vs 0 + (off.getD 0).signExtend 64

/-- The scratch or tile address of a lane. -/
def localAddr (off : Option (BitVec 22)) (vs : List (List Word)) : Word := op vs 0 + (off.getD 0).signExtend 32

/-- The names a loaded value fills (R246). -/
def placeWords (ty : MTy) (v : Nat) : List Word :=
  match ty with
  | .n8 => [w32 (v % 2 ^ 8)]
  | .s8 => [(BitVec.ofNat 8 v).signExtend 32]
  | .n16 => [w32 (v % 2 ^ 16)]
  | .s16 => [(BitVec.ofNat 16 v).signExtend 32]
  | .b32 => [w32 v]
  | .b64 => [w32 v, w32 (v / 2 ^ 32)]
  | .b128 => [w32 v, w32 (v / 2 ^ 32), w32 (v / 2 ^ 64), w32 (v / 2 ^ 96)]

/-- Words of a data operand as one number, lowest first. -/
def dataVal : List Word → Nat
  | [] => 0
  | w :: ws => w.toNat + 2 ^ 32 * dataVal ws

/-- The low w bytes of a data operand (R247). -/
def storeVal (ty : MTy) (ws : List Word) : Nat := dataVal ws % 2 ^ (8 * ty.bytes)

/-- What a lane's global load comes to. -/
def loadRes (ty : MTy) (r : State × Except Flt (Nat × Option (Nat × DWord))) : State × Res :=
  match r with
  | (s, .error f) => (s, { fault := some f })
  | (s, .ok (v, late)) => (s, { out := placeWords ty v, late := late })

/-- What a lane's global store comes to. -/
def storeRes (r : State × Except Flt (Option (Nat × DWord))) : State × Res :=
  match r with
  | (s, .error f) => (s, { fault := some f })
  | (s, .ok late) => (s, { late := late })

/-- A lane whose access has a reply to wait for. -/
def withReply (s : State) (t : Tid) (th : Thread) (a : DWord) (r : State × Res) : State × Res :=
  (r.1, { r.2 with awaits := replyOf s t th a })

/-- A form of the MEM pipe whose lanes act one after the other. -/
def memForm (i : Instr) (h : Hdr) (f : Env → State → Tid → Thread → List (List Word) → State × Res) : Form :=
  { i := i, h := h, lat := latMem, lane := f }

/-- One whose lanes access global memory: w bytes at the address that `at_` gives. -/
def globalForm (i : Instr) (h : Hdr) (w : Nat) (at_ : List (List Word) → DWord)
    (f : Env → State → Tid → Thread → List (List Word) → State × Res) : Form :=
  { memForm i h f with stall := fun s t th vs => globalHolds s t th (at_ vs) w }

/-- One whose lanes access scratch. -/
def scratchForm (i : Instr) (h : Hdr) (w : Nat) (at_ : List (List Word) → Word)
    (f : Env → State → Tid → Thread → List (List Word) → State × Res) : Form :=
  { memForm i h f with stall := fun s t th vs => scratchHolds s t th (at_ vs) w }

/-- Is the next access that may wait one that does (R239, R426)? What tells it is the model's own and may hold anything (log entry 72). -/
def delayed (s : State) : Bool := s.delays.headD false

/-- The accesses after the next one. -/
def nextDelay (s : State) : State := { s with delays := s.delays.tail }

/-- A plain load whose checks pass now and which is performed later (R239); one at a device page is not put off (R208). -/
def laterLoad (m : MMod) (a : DWord) (s : State) (t : Tid) (th : Thread) : State × Res :=
  match globalCheck s t th.ctx a.toNat m.ty.bytes .read false m.ord m.scope with
  | (s, .error f) => (s, { fault := some f })
  | (s', .ok p) =>
    if p.kind == .device then loadRes m.ty (globalLoad s t th a m.ty.bytes m.bp m.ro m.ord m.scope)
    else (s', { out := placeWords m.ty 0, todo := some (.load p a m.ty m.bp m.ro) })

/-- LD in one lane (R246). -/
def loadLane (m : MMod) (a : DWord) (s : State) (t : Tid) (th : Thread) : State × Res :=
  if m.ord != .plain then loadRes m.ty (globalLoad s t th a m.ty.bytes m.bp m.ro m.ord m.scope)
  else if delayed s then laterLoad m a (nextDelay s) t th
  else loadRes m.ty (globalLoad (nextDelay s) t th a m.ty.bytes m.bp m.ro m.ord m.scope)

/-- LD (R246). -/
def execLd (h : Hdr) (m : MMod) (d : Name) (a : Addr) (s : State) : Out' :=
  .next (issue (globalForm (.ld h m d a) h m.ty.bytes (globalAddr a.off) fun _ s t th vs =>
    withReply s t th (globalAddr a.off vs) (loadLane m (globalAddr a.off vs) s t th)) s)

/-- A plain store whose checks pass now and which is performed later (R239); one at a device page is not put off (R208). -/
def laterStore (m : MMod) (a : DWord) (v : Nat) (s : State) (t : Tid) (th : Thread) : State × Res :=
  match globalCheck s t th.ctx a.toNat m.ty.bytes .write false m.ord m.scope with
  | (s, .error f) => (s, { fault := some f })
  | (s', .ok p) =>
    if p.kind == .device then storeRes (globalStore s t th a m.ty.bytes v m.bp m.ord m.scope)
    else (s', { todo := some (.store p a m.ty.bytes v m.bp) })

/-- ST in one lane (R247). -/
def storeLane (m : MMod) (a : DWord) (v : Nat) (s : State) (t : Tid) (th : Thread) : State × Res :=
  if m.ord != .plain then storeRes (globalStore s t th a m.ty.bytes v m.bp m.ord m.scope)
  else if delayed s then laterStore m a v (nextDelay s) t th
  else storeRes (globalStore (nextDelay s) t th a m.ty.bytes v m.bp m.ord m.scope)

/-- ST (R247). A plain store may be performed before an earlier load of other bytes or store of another sector (R239). -/
def execSt (h : Hdr) (m : MMod) (d : Name) (a : Addr) (s : State) : Out' :=
  .next (issue { globalForm (.st h m d a) h m.ty.bytes (globalAddr a.off) (fun _ s t th vs =>
    storeLane m (globalAddr a.off vs) (storeVal m.ty (vs.getD 1 [])) s t th) with
      stall := fun s t th vs => globalHolds s t th (globalAddr a.off vs) m.ty.bytes ||
        lateMeets s t th (globalAddr a.off vs) m.ty.bytes } s)

/-- LDS (R246). -/
def execLds (h : Hdr) (m : MMod) (d : Name) (a : Addr) (s : State) : Out' :=
  .next (issue (scratchForm (.lds h m d a) h m.ty.bytes (localAddr a.off) fun _ s t th vs =>
    match scratchRead s t th (localAddr a.off vs) m.ty.bytes with
    | .error f => (s, { fault := some f })
    | .ok x => (afterAccess s t m.ord m.scope 0, { out := placeWords m.ty (spotLoad s x m.ty.bytes) })) s)

/-- STS (R247). -/
def execSts (h : Hdr) (m : MMod) (d : Name) (a : Addr) (s : State) : Out' :=
  .next (issue (scratchForm (.sts h m d a) h m.ty.bytes (localAddr a.off) fun _ s t th vs =>
    match scratchAt s t th (localAddr a.off vs) m.ty.bytes with
    | .error f => (s, { fault := some f })
    | .ok x =>
      let (s, e) := if ordRel m.ord then release s t m.scope 0 else (s, 0)
      (spotStore s x m.ty.bytes (storeVal m.ty (vs.getD 1 [])), { late := lateOf e 0 })) s)

/-- LDT (R246). -/
def execLdt (h : Hdr) (m : MMod) (d : Name) (a : Addr) (s : State) : Out' :=
  .next (issue (memForm (.ldt h m d a) h fun _ s t _ vs =>
    match tileRead s t (localAddr a.off vs) m.ty.bytes with
    | .error f => (s, { fault := some f })
    | .ok x => (s, { out := placeWords m.ty (tileLoad s (coreNum t) x m.ty.bytes) })) s)

/-- STT (R247). -/
def execStt (h : Hdr) (m : MMod) (d : Name) (a : Addr) (s : State) : Out' :=
  .next (issue (memForm (.stt h m d a) h fun _ s t _ vs =>
    match tileAt s t (localAddr a.off vs) m.ty.bytes with
    | .error f => (s, { fault := some f })
    | .ok x => (tileStore s (coreNum t) x m.ty.bytes (storeVal m.ty (vs.getD 1 [])), {})) s)

/-- Fills every sector of a line, into the cache role or into L2 alone; a sector whose data is bad is left. With `ro` a line that the
cache role holds is marked read-only (R248). -/
def prefetch (s : State) (c ctx : Nat) (p : Phys) (bp ro : Bool) : State :=
  let sec0 := p.pa / 512 * 8
  let l2 := bp || cacheSets (s.core c) == 0 || (s.core c).bpLine (p.pa / 512)
  let s := (List.range 8).foldl (fun s i =>
    if l2 then (homeRead s (sec0 + i) p.key).1
    else
      let valid := match lineOf (s.core c) (p.pa / 512) with
        | some l => (lineSec l i).valid
        | none => false
      if valid then s else (fillSec s c ctx p (sec0 + i) ro).1) s
  match lineOf (s.core c) (p.pa / 512) with
  | some l => if ro then keepLine s c { l with ro := true } else s
  | none => s

/-- PREF (R248): checks 3 to 6 drop it. -/
def execPref (h : Hdr) (bp ro st : Bool) (a : Addr) (s : State) : Out' :=
  .next (issue (globalForm (.pref h bp ro st a) h 1 (globalAddr a.off) fun _ s t th vs =>
    match globalCheck s t th.ctx (globalAddr a.off vs).toNat 1 .read false .plain .core with
    | (s, .error _) => (s, {})
    | (s, .ok p) => (if p.kind == .device then s else prefetch s (coreNum t) th.ctx p bp ro, {})) s)

/-- The bytes of a line that are left after its write-back: a line with nothing left leaves its place. -/
def settleLine (s : State) (c num : Nat) : State :=
  match lineOf (s.core c) num with
  | some l => if l.secs.all (·.isAbsent) then dropLine s c num else s
  | none => s

/-- CWB and CINV on a line of a core: R248's write-back, and for CINV every byte absent. -/
def cleanLine (s : State) (c num : Nat) (inv : Bool) : State × Nat :=
  match lineOf (s.core c) num with
  | none => (s, 0)
  | some l =>
    let (s, e) := writeBackLine s c l
    (if inv then dropLine s c num else settleLine s c num, e)

/-- CWB and CINV in one lane. A device page is not cached (R208), and there they have no effect, as R273 accepts no access of such a width
(DESIGN CHOICE, log entry 90). -/
def cleanLane (inv : Bool) (off : Option (BitVec 22)) (s : State) (t : Tid) (th : Thread) (vs : List (List Word)) :
    State × Res :=
  let a := globalAddr off vs
  match globalCheck s t th.ctx a.toNat 1 .read false .plain .core with
  | (s, .error f) => if f.code == 0x05 then (s, {}) else (s, { fault := some f })
  | (s, .ok p) =>
    let (s, e) := cleanLine s (coreNum t) (p.pa / 512) inv
    (s, { late := lateOf e a })

def execCwb (h : Hdr) (st : Bool) (a : Addr) (s : State) : Out' :=
  .next (issue (globalForm (.cwb h st a) h 1 (globalAddr a.off) fun _ s t th vs => cleanLane false a.off s t th vs) s)
def execCinv (h : Hdr) (st : Bool) (a : Addr) (s : State) : Out' :=
  .next (issue (globalForm (.cinv h st a) h 1 (globalAddr a.off) fun _ s t th vs => cleanLane true a.off s t th vs) s)

end Sys2Proof.Machine
end

