-- ==== Sys2Proof/Machine/Engines.lean ====
section
/-!
DEFINITION. Class 0xA, copy commands and stream walkers (R260–R271), and the steps of the engines that perform them.
-/
namespace Sys2Proof.Machine

/-- A block of n bytes in scratch, aligned on `al` bytes: `mis` is the code of a misaligned address (R261, R267). -/
def blockAt (s : State) (t : Tid) (th : Thread) (a : Word) (n al mis : Nat) : Except Flt Spot :=
  if a.toNat % al != 0 then .error (flt mis a.toNat)
  else match scratchAt s t th a 1, scratchAt s t th (a + w32 (n - 1)) 1 with
    | .ok x, .ok _ =>
      if (List.range (n / 16)).any fun i => match scratchAt s t th (a + w32 (16 * i)) 16 with
        | .ok y => spotBad s y
        | .error _ => false
      then .error (flt 0x18 a.toNat) else .ok x
    | .error f, _ => .error f
    | _, .error f => .error f

/-- Does a read of a block stall, as one of its sets is moving (R242)? -/
def blockHolds (s : State) (t : Tid) (th : Thread) (a : Word) (n : Nat) : Bool :=
  (List.range (n / 16)).any fun i => scratchHolds s t th (a + w32 (16 * i)) 16

/-- A form of the MEM pipe that reads a block of n bytes at A. -/
def blockForm (i : Instr) (h : Hdr) (n : Nat) (f : Env → State → Tid → Thread → List (List Word) → State × Res) : Form :=
  { memForm i h f with stall := fun s t th vs => blockHolds s t th (op vs 0) n }

/-! ### Copy commands (R261–R266) -/

/-- A block's field of n bytes at offset o. -/
def fieldAt (b o n : Nat) : Nat := b / 2 ^ (8 * o) % 2 ^ (8 * n)

def blkCounts (b : Nat) : List Nat := (List.range 5).map fun l => fieldAt b (0x18 + 12 * l) 4
def blkIter (b : Nat) : List Nat := (List.range 5).map fun l => fieldAt b (0x64 + 4 * l) 4

/-- The end vector: ITER4 = COUNT4, the rest 0 (R265). -/
def endVec (counts : List Nat) : List Nat := [0, 0, 0, 0, counts.getD 4 0]

/-- R263's checks of a block, but for STATE. -/
def blkBad (b : Nat) : Bool :=
  let fl := fieldAt b 0x14 4
  fl / 16 != 0 || fieldAt b 0x78 8 != 0 || fieldAt b 0x10 4 == 0 || decide (fieldAt b 0x10 4 > 2 ^ 20) ||
  (blkCounts b).any (· == 0) || (bitAt fl 0 && fieldAt b 0x04 4 != 0) || (bitAt fl 1 && fieldAt b 0x0C 4 != 0) ||
  (bitAt fl 2 && fieldAt b 0x58 8 % 4 != 0)

/-- R265's check of ITER. -/
def iterBad (b : Nat) : Bool :=
  !(((blkIter b).zip (blkCounts b)).all fun e => e.1 < e.2) && blkIter b != endVec (blkCounts b)

/-- A command with every field captured (R263). -/
def captureBlk (id : Nat) (t : Tid) (seq : Nat) (th : Thread) (blk : Word) (b : Nat) (iter : List Nat) : Copy :=
  { id := id, core := coreNum t, issuer := t, tix := th.tix, seq := seq, ctx := th.ctx, launch := th.launch, team := th.team,
    blk := blk, src := w64 (fieldAt b 0x00 8), dst := w64 (fieldAt b 0x08 8), esize := fieldAt b 0x10 4,
    flags := fieldAt b 0x14 4, counts := blkCounts b,
    sstr := (List.range 5).map fun l => w32 (fieldAt b (0x1C + 12 * l) 4),
    dstr := (List.range 5).map fun l => w32 (fieldAt b (0x20 + 12 * l) 4),
    cval := w32 (fieldAt b 0x54 4), caddr := w64 (fieldAt b 0x58 8), iter := iter, rel := bitAt (fieldAt b 0x14 4) 3,
    done := 0 }

/-- Outstanding commands of a core. -/
def liveCopies (s : State) (c : Nat) : Nat := (s.copies.filter fun x => x.core == c).length

def copyCrowd (s : State) (ts : List Tid) : Bool :=
  match ts with
  | t :: _ => decide (liveCopies s (coreNum t) + ts.length > Config.copyCommands)
  | [] => false

/-- COPY and COPYR in one lane. -/
def copyLane (again : Bool) (env : Env) (s : State) (t : Tid) (th : Thread) (vs : List (List Word)) : State × Res :=
  let a := op vs 0
  match blockAt s t th a 128 128 0x05 with
  | .error f => (s, { fault := some f })
  | .ok x =>
    let b := spotLoad s x 128
    let state := fieldAt b 0x60 4 % 16
    let bad := blkBad b || (if again then state != 3 || iterBad b else state == 1)
    if bad then (s, { fault := some (flt 0x11 a.toNat) })
    else
      let (id, s) := s.fresh
      let c := captureBlk id t env.seq th a b (if again then blkIter b else [0, 0, 0, 0, 0])
      let s := match x with
        | .team key off w => spotStore s (.team key (off + 0x60) w) 4 1
        | .graver _ _ => s
      ({ s with copies := s.copies ++ [c] }, { held := true })

def copyForm (i : Instr) (h : Hdr) (again : Bool) : Form :=
  { blockForm i h 128 (copyLane again) with crowd := copyCrowd }

def execCopy (h : Hdr) (a : Src) (s : State) : Out' := .next (issue (copyForm (.copy h a) h false) s)
def execCopyr (h : Hdr) (a : Src) (s : State) : Out' := .next (issue (copyForm (.copyr h a) h true) s)

/-- COPYQ (R266). -/
def copyqLane (s : State) (t : Tid) (th : Thread) (vs : List (List Word)) : State × Res :=
  let a := op vs 0
  match blockAt s t th a 128 128 0x05 with
  | .error f => (s, { fault := some f })
  | .ok x =>
    let same (c : Copy) : Bool := c.core == coreNum t && c.ctx == th.ctx && c.launch == th.launch
      && c.team == th.team && c.blk == a
    match s.copies.find? same with
    | some c => (s, { out := [w32 (1 + 2 ^ 16 * (c.done % 2 ^ 16))] })
    | none => (s, { out := [w32 (fieldAt (spotLoad s x 128) 0x60 4)] })

def execCopyq (h : Hdr) (o : Da) (s : State) : Out' :=
  .next (issue (blockForm (.copyq h o) h 128 fun _ s t th vs => copyqLane s t th vs) s)

/-! ### The copy engine (R262–R264) -/

/-- A scratch address of a command: the team's spot (R242). -/
def copySpot (s : State) (c : Copy) (a : Word) : Except Nat Spot :=
  match s.launchOf c.ctx c.launch with
  | none => .error 0x06
  | some x =>
    let n := a.toNat
    match memberTeam s c.ctx c.launch c.team x.rcd (bitAt n 31) (bits n 30 27) with
    | none => .error 0x06
    | some key => if bits n 26 0 ≥ x.rcd.scratch then .error 0x06 else .ok (.team key (bits n 26 0) (bitAt n 31))

/-- The translations that the engine of a command uses (R351). -/
def Copy.via (c : Copy) : Via := .die (c.core / Config.coresPerDie)

/-- Is this the thread that issued a command? -/
def Copy.issuedBy (c : Copy) (th : Thread) : Bool :=
  th.ctx == c.ctx && th.launch == c.launch && th.team == c.team && th.tix == c.tix

/-- The thread that issued a command, where it runs now: a save may have moved it (R394). -/
def copyIssuer (s : State) (c : Copy) : Option (Tid × Thread) := s.threads.find? fun e => e.1.isCore && c.issuedBy e.2

/-- The flag of a command clears, in its issuer or in the saved state of that thread. -/
def copyFinish (s : State) (c : Copy) : State :=
  match copyIssuer s c with
  | some e => finish s e.1 c.seq [] []
  | none =>
    let done (e : Nat × Nat × Thread) : Nat × Nat × Thread :=
      if c.issuedBy e.2.2 then (e.1, e.2.1, { e.2.2 with outs := e.2.2.outs.filter (·.seq != c.seq) }) else e
    { s with saved := s.saved.map fun v => { v with threads := v.threads.map done } }

/-- The address of the element at ITER on one side. -/
def elemAddr (base : DWord) (iter : List Nat) (str : List Word) : DWord :=
  (iter.zip str).foldl (fun a e => a + w64 e.1 * e.2.signExtend 64) base

/-- Checks every page that a range touches (R262). -/
def rangeCheck (s : State) (ctx va n : Nat) (need : Need) (via : Via := .walk) : Option (Nat × Nat) :=
  (List.range ((va % 0x1_0000 + n + 0xFFFF) / 0x1_0000)).findSome? fun i =>
    let a := if i == 0 then va else (va / 0x1_0000 + i) * 0x1_0000
    match engCheck s ctx (a % 2 ^ 64) need via with
    | .error e => some (e, a % 2 ^ 64)
    | .ok _ => none

/-- Checks one side of an element. -/
def sideCheck (s : State) (c : Copy) (sp : Bool) (a : DWord) (need : Need) : Option (Nat × Nat) :=
  if sp then (List.range c.esize).findSome? fun i => match copySpot s c (loOf a + w32 i) with
    | .error e => some (e, (loOf a + w32 i).toNat)
    | .ok x => if need == .read && spotBad s x then some (0x18, (loOf a + w32 i).toNat) else none
  else rangeCheck s c.ctx a.toNat c.esize need c.via

/-- Has one side of an element a byte in a scratch set that is moving (R242)? -/
def sideMoving (s : State) (c : Copy) (sp : Bool) (a : DWord) : Bool :=
  sp && (List.range c.esize).any fun i => match copySpot s c (loOf a + w32 i) with
    | .ok x => spotMoving s x
    | .error _ => false

/-- The element's bytes. -/
def readSide (s : State) (c : Copy) (a : DWord) : State × Except (Nat × Nat) (List Byte) :=
  if bitAt c.flags 0 then
    (s, .ok ((List.range c.esize).map fun i => match copySpot s c (loOf a + w32 i) with
      | .ok x => BitVec.ofNat 8 (spotLoad s x 1)
      | .error _ => 0))
  else engReadN s c.ctx a.toNat c.esize c.via

def writeSide (s : State) (c : Copy) (a : DWord) (bs : List Byte) : State × Option (Nat × Nat) :=
  if bitAt c.flags 1 then
    let s := ((List.range bs.length).zip bs).foldl (fun s e => match copySpot s c (loOf a + w32 e.1) with
      | .ok x => spotStore s x 1 e.2.toNat
      | .error _ => s) s
    (match copySpot s c (loOf a) with
      | .ok x => spotCover s x bs.length
      | .error _ => s, none)
  else engWriteN s c.ctx a.toNat bs c.via

/-- What the next element of a command comes to. -/
def doElement (s : State) (c : Copy) : State × Option (Nat × Nat) :=
  let sa := elemAddr c.src c.iter c.sstr
  let da := elemAddr c.dst c.iter c.dstr
  match (sideCheck s c (bitAt c.flags 0) sa .read).orElse fun _ => sideCheck s c (bitAt c.flags 1) da .write with
  | some e => (s, some e)
  | none => match readSide s c sa with
    | (s, .error e) => (s, some e)
    | (s, .ok bs) => writeSide s c da bs

/-- The next iteration vector, i0 fastest. -/
def nextIter : List Nat → List Nat → List Nat
  | [], _ => []
  | [i], _ => [i + 1]
  | i :: is, c :: cs => if i + 1 < c then (i + 1) :: is else 0 :: nextIter is cs
  | is, [] => is

def Copy.over (c : Copy) : Bool := c.iter == endVec c.counts

/-- Are stores of an earlier MSTMC of a command's thread not acknowledged (R425)? -/
def copyAcks (s : State) (c : Copy) : Bool :=
  let open_ (th : Thread) (o : Out) : Bool := c.issuedBy th && decide (o.seq < c.seq) && o.todo.any (·.isMulti)
  s.threads.any (fun e => e.2.outs.any (open_ e.2)) || s.orphans.any fun e => open_ e.2.1 e.2.2

/-- Does a command wait: its release for an element that its thread has pushed without a value yet (R270) or for an MSTMC (R217, R425), its
block or its next element for a set that is moving (R242)? -/
def copyHolds (s : State) (c : Copy) : Bool :=
  (c.rel && (((copyIssuer s c).map (·.2.pushPends)).getD false || copyAcks s c)) ||
  (match copySpot s c c.blk with | .ok x => spotMoving s x | .error _ => false) ||
  (!c.over && (sideMoving s c (bitAt c.flags 0) (elemAddr c.src c.iter c.sstr) ||
    sideMoving s c (bitAt c.flags 1) (elemAddr c.dst c.iter c.dstr)))

/-- A write of n bytes to the scratch of a saved team, which breaks the barrier objects it touches (R258). -/
def SavedTeam.put (v : SavedTeam) (off n x : Nat) : SavedTeam :=
  let meets (b : BarObj) : Bool := decide (b.key.off < off + n) && decide (off < b.key.off + 16)
  { v with team := { v.team with scratch := v.team.scratch.store off n x }, barriers := v.barriers.filter (!meets ·),
           broken := v.broken ++ v.barriers.filter meets }

/-- A word of a command's block is written: in its team's scratch, or in what was saved of it (R394). -/
def blkPut (c : Copy) (s : State) (e : Nat × Nat) : State :=
  match copySpot s c c.blk with
  | .ok (.team key off w) => spotStore s (.team key (off + e.1) w) 4 e.2
  | _ =>
    let put (v : SavedTeam) : SavedTeam :=
      if v.team.ctx == c.ctx && v.team.launch == c.launch && v.team.lin == c.team then v.put (bits c.blk.toNat 26 0 + e.1) 4 e.2 else v
    { s with saved := s.saved.map put }

/-- STATUS and ITER written back into the block. -/
def writeBlk (s : State) (c : Copy) (status : Nat) (iter : Option (List Nat)) : State :=
  let places := match iter with
    | some it => (List.range 5).zip it |>.map fun e => (0x64 + 4 * e.1, e.2)
    | none => []
  (places ++ [(0x60, status)]).foldl (blkPut c) s

def setCopy (s : State) (c : Copy) : State := { s with copies := s.copies.map fun x => if x.id == c.id then c else x }

/-- A command leaves the engine: its flag clears, and a gang that waited for it may free its scratch. -/
def endCopy (s : State) (c : Copy) : State :=
  let s := { s with copies := s.copies.filter (·.id != c.id) }
  gangSweep (copyFinish s c) c.ctx c.launch c.team

/-- A command ends faulted at its ITER (R264, R397). -/
def copyFail (s : State) (c : Copy) (code : Nat) : State :=
  let lv := asyncLevel s (some (c.issuer, c.tix)) c.ctx c.launch c.team
  let i (k : Nat) : Nat := c.iter.getD k 0
  let r : FRec :=
    { code := code, level := lv, engine := 2, flags := 0, ctx := c.ctx, launch := w64 c.launch, team := w32 c.team,
      thread := w32 c.tix,
      pc := 0, addr := pairOf c.blk (w32 (i 4)),
      progress := BitVec.ofNat 128 (i 0 + 2 ^ 32 * i 1 + 2 ^ 64 * i 2 + 2 ^ 96 * i 3), time := w64 (s.clkAt 0), ext := [] }
  endCopy (post (writeBlk s c (3 + 256 * code) (some c.iter)) c.ctx c.launch r) c

/-- The release of a command with REL, before its first read: its failure ends the command with ITER zero. -/
def copyRel (s : State) (c : Copy) : State × Except Nat Copy :=
  if !c.rel then (s, .ok c)
  else
    let (s, e) := match copyIssuer s c with
      | some u => release s u.1 .dev 0
      | none => coreRelease s c.core .dev 0
    if e == 0 then (s, .ok { c with rel := false }) else (s, .error e)

def copyOf (s : State) (id : Nat) : Option Copy := s.copies.find? (·.id == id)

/-- COPY_ELEMENT, and COPY_ELEMENT_FAULT: the next element is performed, or the command stops at it. `bad` picks which of the two
this step may be. -/
def copyStep (s : State) (id : Nat) (bad : Bool) : State :=
  match copyOf s id with
  | none => s
  | some c => if copyHolds s c then s else match copyRel s c with
    | (s', .error e) => if bad then copyFail s' { c with iter := [0, 0, 0, 0, 0] } e else s
    | (s', .ok c) =>
      if c.over then s
      else match doElement s' c with
        | (s', some (code, _)) => if bad then copyFail s' c code else s
        | (s', none) =>
          if bad then s else setCopy s' { c with iter := nextIter c.iter c.counts, done := c.done + 1 }

/-- COPY_COMPLETE: every element is done; the completion word is written (R234, R263). -/
def copyComplete (s : State) (id : Nat) : State :=
  match copyOf s id with
  | none => s
  | some c => if copyHolds s c then s else match copyRel s c with
    | (s, .error e) => copyFail s { c with iter := [0, 0, 0, 0, 0] } e
    | (s', .ok c) =>
      if !c.over then s
      else if !bitAt c.flags 2 then endCopy (writeBlk s' c 2 none) c
      else match engWord s' c.ctx c.caddr.toNat 4 c.cval.toNat c.via with
        | (s', some code) => copyFail s' c code
        | (s', none) => endCopy (writeBlk s' c 2 none) c

/-! ### Stream walkers (R267–R271) -/

/-- The memory type of a descriptor's width field. -/
def mtyOf (n : Nat) : Option MTy :=
  match n with
  | 0 => some .n8
  | 1 => some .s8
  | 2 => some .n16
  | 3 => some .s16
  | 4 => some .b32
  | _ => none

/-- The walker of a descriptor and an offset, with its direction; none when a rule of R267 is broken. -/
def walkerOf (d : Nat) (off : Word) : Option (Bool × Walker) :=
  let ctrl := fieldAt d 0x08 4
  let store := bitAt ctrl 4
  match mtyOf (ctrl % 8) with
  | none => none
  | some ty =>
    let counts := (List.range 3).map fun k => fieldAt d (0x10 + 8 * k) 4
    let strides := (List.range 3).map fun k => w32 (fieldAt d (0x14 + 8 * k) 4)
    if ctrl / 64 != 0 || bitAt ctrl 3 || fieldAt d 0x0C 4 != 0 || fieldAt d 0x28 8 != 0 || counts.any (· == 0)
        || strides.any (fun x => x.toNat % ty.bytes != 0) || (store && !ty.store) then none
    else some (store, { base := w64 (fieldAt d 0 8) + off.signExtend 64, ty := ty, bp := bitAt ctrl 5, counts := counts,
                        strides := strides, next := 0, fetched := [], pushed := [], eod := 0 })

/-- STRM in one lane: a walker already bound in that direction is flushed and unbound first. -/
def strmLane (sn : Fin 4) (s : State) (t : Tid) (th : Thread) (vs : List (List Word)) : State × Res :=
  match blockAt s t th (op vs 0) 48 16 0x0F with
  | .error f => (s, { fault := some f })
  | .ok x => match walkerOf (spotLoad s x 48) (op vs 1) with
    | none => (s, { fault := some (flt 0x0F (op vs 0).toNat) })
    | some (store, w) =>
      let (s, e) := if store then flushStores s t else (s, 0)
      (s.modThread t fun th => if store then { th with stores := th.stores.set sn.val w }
        else { th with loads := th.loads.set sn.val w }, { late := lateOf e 0 })

/-- STRM waits for the set of its descriptor to stop moving, and, where it binds a store walker, for the values of the elements pushed
before it, where it binds a load walker, whose reads are placed here, until those elements are performed (R226, R268, R270). -/
def strmHolds (s : State) (t : Tid) (th : Thread) (vs : List (List Word)) : Bool :=
  blockHolds s t th (op vs 0) 48 || match blockAt s t th (op vs 0) 48 16 0x0F with
    | .ok x => match walkerOf (spotLoad s x 48) (op vs 1) with
      | some (store, _) => if store then th.pushPends else !th.pushedAt.isEmpty
      | none => false
    | .error _ => false

def execStrm (h : Hdr) (sn : Fin 4) (a b : Src) (pat : Pat) (s : State) : Out' :=
  .next (issue { memForm (.strm h sn a b pat) h (fun _ s t th vs => strmLane sn s t th vs) with stall := strmHolds } s)

def execStrfIn (h : Hdr) (sn : Fin 4) (s : State) : Out' :=
  .next (issue (memForm (.strfIn h sn) h fun _ s t _ _ =>
    (s.modThread t fun th => { th with loads := th.loads.del sn.val }, {})) s)

def execStrfOut (h : Hdr) (sn : Fin 4) (s : State) : Out' :=
  .next (issue { memForm (.strfOut h sn) h (fun _ s t _ _ =>
    let (s, e) := flushStores s t
    (s.modThread t fun th => { th with stores := th.stores.del sn.val }, { late := lateOf e 0 })) with
    stall := fun _ _ th _ => th.pushPends } s)

/-- STRQ's word (R271). -/
def strqWord (w : Option Walker) (store : Bool) : Word :=
  match w with
  | none => 0
  | some w =>
    let left := w.total - (if store then w.next else w.popped)
    w32 (min left (2 ^ 30 - 1) + (if left == 0 then 2 ^ 31 else 2 ^ 30))

def execStrq (h : Hdr) (o : Da) (s : State) : Out' :=
  .next (issue (memForm (.strq h o) h fun _ s _ th vs =>
    let a := (op vs 0).toNat
    if a / 8 != 0 then (s, { fault := some { code := 0x0F } })
    else (s, { out := [strqWord ((if bitAt a 2 then th.stores else th.loads).get (a % 4)) (bitAt a 2)] })) s)

/-- STREAM_PREFETCH: the next element of a load walker is read, or the code of its fault is held (R269, R270). -/
def streamPrefetch (s : State) (t : Tid) (n : Fin 4) : State :=
  match s.thread t with
  | none => s
  | some th => match th.loads.get n.val with
    | none => s
    | some w =>
      if w.fetched.length ≥ 16 || w.next ≥ w.total || walkHolds s t th (w.addr w.next) w.ty.bytes then s
      else
        let (s, e) := match globalLoad s t th (w.addr w.next) w.ty.bytes w.bp false .plain .core with
          | (s, .error f) => (s, ((0 : Word), f.code))
          | (s, .ok (_, some (code, _))) => (s, ((0 : Word), code))
          | (s, .ok (v, none)) => (s, ((placeWords w.ty v).headD 0, 0))
        s.modThread t fun th => { th with loads := th.loads.set n.val { w with fetched := w.fetched ++ [e], next := w.next + 1 } }

/-- STREAM_STORE_PERFORMED: the oldest pushed element of a store walker is performed once it has its value; a home that is lost is reported as the
fault of an asynchronous operation (R270, R383). -/
def streamStore (s : State) (t : Tid) (n : Fin 4) : State :=
  match s.thread t with
  | none => s
  | some th => match th.stores.get n.val with
    | none => s
    | some w => match w.pushed with
      | [] => s
      | (_, _, some _) :: _ => s
      | e :: rest =>
        let (s, code) := performElem s t th.ctx w e
        let s := s.modThread t fun th => { th with stores := th.stores.set n.val { w with pushed := rest } }
        if code == 0 then s
        else
          let lv := asyncLevel s (some (t, th.tix)) th.ctx th.launch th.team
          let r := threadRec s t th code 0 0 e.1 (w.next - rest.length - 1)
          post s th.ctx th.launch { r with level := lv, engine := 3 }

end Sys2Proof.Machine
end

