-- ==== Sys2Proof/Machine/CrossLane.lean ====
section
/-!
DEFINITION. Class 0x5, cross-lane forms (R152–R159).
-/
namespace Sys2Proof.Machine

/-- XL latencies of R59. -/
def latXl (n : Nat) : Lat := .fixed n

/-- The thread of a warp lane that executes. -/
def execLane (env : Env) (i : Nat) : Option Tid := env.exec.find? fun u => u.lane == i

/-- Operand n of a word as lane t reads it in the state before the issue. -/
def laneRead (env : Env) (i : Instr) (t : Tid) (n : Nat) : Option OpRead :=
  match env.pre.thread t with
  | some th => (readOps env.pre t th i.srcs env.un)[n]?
  | none => none

/-- A of every executing lane, by lane, its words. -/
def aWords (env : Env) (i : Instr) (l : Nat) : Option (List Word) :=
  match execLane env l with
  | some u => (laneRead env i u 0).map (·.words)
  | none => none

/-- Is A void in some executing lane? -/
def anyVoid (env : Env) (i : Instr) : Bool :=
  env.exec.any fun u => match laneRead env i u 0 with
    | some r => r.void
    | none => false

/-- R153: under VOIDTRAP one void A stops every executing lane. -/
def warpReads (i : Instr) (env : Env) (t : Tid) (th : Thread) : List OpRead :=
  (readOps env.pre t th i.srcs env.un).map fun r => { r with void := r.void || (env.pre.voidTrap t th && anyVoid env i) }

/-- SHFL's A: that of the lane B names (R154); a stream gives its element in that lane, and the reading lane pops its own walker (DESIGN
CHOICE, log entry 57). -/
def shflReads (i : Instr) (env : Env) (t : Tid) (th : Thread) : List OpRead :=
  match readOps env.pre t th i.srcs env.un with
  | [_, b] =>
    let j := (b.words.headD 0).toNat % 32 % t.width
    let zero : OpRead := { words := [0], void := false, bad := none }
    let a := match env.pre.thread (t.mate j) with
      | none => zero
      | some uh => if uh.status == .exited then zero else (laneRead env i (t.mate j) 0).getD zero
    [a, b]
  | rs => rs

/-- A mask of the lanes of a warp of which a test holds. -/
def laneMask (w : Nat) (f : Nat → Bool) : Word := w32 (natOfBits ((List.range w).map f))

/-- Does lane l execute and vote true (R155)? -/
def votes (env : Env) (i : Instr) (l : Nat) : Bool :=
  match aWords env i l with
  | some ws => ws.headD 0 != 0
  | none => false

def executes (env : Env) (l : Nat) : Bool := (execLane env l).isSome

/-- VOTE's three selectors. -/
def voteFn (cc : Nat) (n yes : Nat) : Bool :=
  match cc with
  | 0 => yes == n
  | 1 => yes != 0
  | _ => yes == n || yes == 0

/-! ### Combining (R118, R156–R159) -/

def flatOp (f : Word → Word → Word) (x y : Word) : Word × Flags := (f x y, 0)
def addOp (ty : FTy) (rm : RM) (x y : Word) : Word × Flags :=
  perElem ty (fun f a b _ => f.add rm .ieee (f.val a) (f.val b)) x y 0
def mmOp (isMax : Bool) (x y : Word) : Word × Flags :=
  perElem .f32 (fun f a b _ => f.minMax isMax a b) x y 0

/-- A row of R156: the operation and its identity. -/
def redRow (o : RedOp) (rm : RM) : (Word → Word → Word × Flags) × Word :=
  match o with
  | .addF32 => (addOp .f32 rm, 0x8000_0000)
  | .addF16x2 => (addOp .f16x2 rm, 0x8000_8000)
  | .addBf16x2 => (addOp .bf16x2 rm, 0x8000_8000)
  | .addB32 => (flatOp (· + ·), 0)
  | .minS32 => (flatOp fun x y => if x.slt y then x else y, 0x7FFF_FFFF)
  | .maxS32 => (flatOp fun x y => if x.slt y then y else x, 0x8000_0000)
  | .minN32 => (flatOp fun x y => if x.ult y then x else y, 0xFFFF_FFFF)
  | .maxN32 => (flatOp fun x y => if x.ult y then y else x, 0)
  | .minF32 => (mmOp false, 0x7FC0_0000)
  | .maxF32 => (mmOp true, 0x7FC0_0000)
  | .andB32 => (flatOp (· &&& ·), 0xFFFF_FFFF)
  | .orB32 => (flatOp (· ||| ·), 0)
  | .xorB32 => (flatOp (· ^^^ ·), 0)

def scanRow (o : ScanOp) (rm : RM) : (Word → Word → Word × Flags) × Word :=
  match o with
  | .addF32 => redRow .addF32 rm
  | .addF16x2 => redRow .addF16x2 rm
  | .addBf16x2 => redRow .addBf16x2 rm
  | .addB32 => redRow .addB32 rm
  | .maxS32 => redRow .maxS32 rm
  | .maxN32 => redRow .maxN32 rm
  | .orB32 => redRow .orB32 rm
  | .maxF32 => redRow .maxF32 rm

/-- The element type of a floating SCAN. -/
def scanTy : ScanOp → Option FTy
  | .addF32 => some .f32
  | .maxF32 => some .f32
  | .addF16x2 => some .f16x2
  | .addBf16x2 => some .bf16x2
  | _ => none

/-- A SCAN's result: a lane that nothing was added to gives the canonical NaN too (R107). -/
def scanNan (o : ScanOp) (x : Word) : Word :=
  match scanTy o with
  | some ty => (perElem ty (fun f a _ _ => ⟨f.canonNan a, 0⟩) x 0 0).1
  | none => x

/-- The distances of a butterfly over n lanes. -/
def distances (n : Nat) : List Nat := [1, 2, 4, 8, 16].filter (· < n)

/-- One butterfly step: lane i, i mod 2d = 0, takes Op(x[i], x[i + d]). -/
def bflyStep {α : Type} [Inhabited α] (op : α → α → α × Flags) (a : List α × Flags) (d : Nat) : List α × Flags :=
  let rs := (List.range a.1.length).map fun i =>
    if i % (2 * d) == 0 && decide (i + d < a.1.length) then op (a.1.getD i default) (a.1.getD (i + d) default)
    else (a.1.getD i default, 0)
  (rs.map (·.1), a.2 ||| orAll (rs.map (·.2)))

/-- The fixed butterfly of R118: lane 0's result with every flag. -/
def bfly {α : Type} [Inhabited α] (op : α → α → α × Flags) (xs : List α) : α × Flags :=
  let r := (distances xs.length).foldl (bflyStep op) (xs, 0)
  (r.1.headD default, r.2)

/-- One step of R159. -/
def scanStep (op : Word → Word → Word × Flags) (a : List Word × Flags) (d : Nat) : List Word × Flags :=
  let rs := (List.range a.1.length).map fun i =>
    if i < d then (a.1.getD i 0, 0) else op (a.1.getD (i - d) 0) (a.1.getD i 0)
  (rs.map (·.1), a.2 ||| orAll (rs.map (·.2)))

def scanAll (op : Word → Word → Word × Flags) (xs : List Word) : List Word × Flags :=
  (distances xs.length).foldl (scanStep op) (xs, 0)

/-- REDXC's step on (sum, error) pairs (R158). -/
def redxcOp (x y : Word × Word) : (Word × Word) × Flags :=
  let (u, v, f1) := twoSum x.1 y.1
  let (e1, f2) := rnAdd x.2 y.2
  let (e2, f3) := rnAdd e1 v
  ((u, e2), f1 ||| f2 ||| f3)

/-- A of each lane, or the identity in inactive lanes. -/
def lanesOr (env : Env) (i : Instr) (w : Nat) (ident : Word) : List Word :=
  (List.range w).map fun l => match aWords env i l with
    | some ws => ws.headD 0
    | none => ident

def pairsOr (env : Env) (i : Instr) (w : Nat) : List (Word × Word) :=
  (List.range w).map fun l => match aWords env i l with
    | some ws => (ws.getD 0 0, ws.getD 1 0)
    | none => (0x8000_0000, 0x8000_0000)

/-- A class 0x5 form other than SHFL. -/
def warpForm (i : Instr) (h : Hdr) (n : Nat) (f : Env → Tid → List (List Word) → Res) : Form :=
  { i := i, h := h, lat := latXl n, lane := fun env s t _ vs => (s, f env t vs), reads := warpReads i, whole := true }

def execShfl (h : Hdr) (d : Name) (a b : Src) (pat : Pat) (s : State) : Out' :=
  .next (issue { i := .shfl h d a b pat, h := h, lat := latXl 6, lane := fun _ s _ _ vs => (s, { out := [op vs 0] }),
                 reads := shflReads (.shfl h d a b pat), whole := true } s)
def execVote (h : Hdr) (cc : Fin 3) (p : Fin 8) (a : Src) (s : State) : Out' :=
  .next (issue (warpForm (.vote h cc p a) h 6 fun env t _ =>
    let yes := ((List.range t.width).filter (votes env (.vote h cc p a))).length
    { preds := [(p, voteFn cc.val env.exec.length yes)] }) s)
def execBallot (h : Hdr) (o : Da) (s : State) : Out' :=
  .next (issue (warpForm (.ballot h o) h 6 fun env t _ => { out := [laneMask t.width (votes env (.ballot h o))] }) s)
def execMatchl (h : Hdr) (o : Da) (s : State) : Out' :=
  .next (issue (warpForm (.matchl h o) h 6 fun env t vs =>
    { out := [laneMask t.width fun j => match aWords env (.matchl h o) j with
        | some ws => ws.headD 0 == op vs 0
        | none => false] }) s)
def execRedx (h : Hdr) (o : RedOp) (rm : RM) (d : Da) (s : State) : Out' :=
  .next (issue (warpForm (.redx h o rm d) h 12 fun env t _ =>
    let row := redRow o rm
    fRes (bfly row.1 (lanesOr env (.redx h o rm d) t.width row.2))) s)
def execRedxc (h : Hdr) (o : Da) (s : State) : Out' :=
  .next (issue (warpForm (.redxc h o) h 18 fun env t _ =>
    let r := bfly redxcOp (pairsOr env (.redxc h o) t.width)
    { out := [r.1.1, r.1.2], fl := r.2 }) s)
def execScan (h : Hdr) (o : ScanOp) (excl : Bool) (rm : RM) (d : Da) (s : State) : Out' :=
  .next (issue (warpForm (.scan h o excl rm d) h 12 fun env t _ =>
    let row := scanRow o rm
    let r := scanAll row.1 (lanesOr env (.scan h o excl rm d) t.width row.2)
    let x := if excl then (if t.lane == 0 then row.2 else r.1.getD (t.lane - 1) 0) else r.1.getD t.lane 0
    { out := [scanNan o x], fl := r.2 }) s)
def execLmask (h : Hdr) (live : Bool) (d : Name) (s : State) : Out' :=
  .next (issue (warpForm (.lmask h live d) h 6 fun env t _ =>
    let on (j : Nat) : Bool := if live then (warpLive env.pre t).contains (t.mate j) else executes env j
    { out := [laneMask t.width on] }) s)

end Sys2Proof.Machine
end

