-- ==== Sys2Proof/Machine/GravOps.lean ====
section
/-!
DEFINITION. Class 0xB, Graver forms (R276–R282), Graver exit (R275) and the attention sequencer.
-/
namespace Sys2Proof.Machine

/-! ### GRED (R279) -/

/-- A row's 32 values as its bank holds them, with a code found at the data. -/
def bankRow (s : State) (p : Phys) : List Word × Nat :=
  let (a, e) := dramRead s (p.pa / 64) p.key
  let (b, e') := dramRead s (p.pa / 64 + 1) p.key
  let ws (d : BitVec 512) : List Word := (List.range 16).map fun i => w32 (secLoad d (4 * i) 4)
  (ws a ++ ws b, max e e')

/-- A lane's row: none for a zero pair. -/
def gredRow (s : State) (t : Tid) (th : Thread) (a : DWord) : Option (Except Flt (Nat × List Word × Nat)) :=
  if a == 0 then none
  else if a.toNat % 128 != 0 then some (.error (flt 0x05 a.toNat))
  else match (checkAccess s t th.ctx a.toNat 128 .read false).2 with
    | .error e => some (.error (flt e a.toNat))
    | .ok p => match bankOf p.pa with
      | none => some (.error (flt 0x08 a.toNat))
      | some b =>
        if p.kind != .normal && p.kind != .bs then some (.error (flt 0x08 a.toNat))
        else
          let (ws, e) := bankRow s p
          some (.ok (b, if e == 0 then ws else List.replicate 32 0, e))

/-- The rows of the executing lanes, by ascending home lane. -/
def gredRows (env : Env) (i : Instr) : List (Except Flt (Nat × List Word × Nat)) :=
  (List.range 32).filterMap fun l => match execLane env l with
    | none => none
    | some u => match env.pre.thread u, laneRead env i u 0 with
      | some th, some r => gredRow env.pre u th (pairOf (r.words.getD 0 0) (r.words.getD 1 0))
      | _, _ => none

def addRows (a b : List Word) : List Word := (a.zip b).map fun e => (rnAdd e.1 e.2).1

def insertNat (x : Nat) : List Nat → List Nat
  | [] => [x]
  | y :: l => if x == y then y :: l else if x < y then x :: y :: l else y :: insertNat x l

/-- The rows of one bank summed by ascending lane; a row alone gives the canonical NaN too (R107). -/
def sumRows : List (List Word) → List Word
  | [] => List.replicate 32 0
  | r :: rs => rs.foldl addRows (r.map canonNan)

/-- P[0] to P[7]. -/
def gredSums (rows : List (Nat × List Word)) : List (List Word) :=
  let banks := rows.foldl (fun l r => insertNat r.1 l) []
  let sums := banks.map fun b => sumRows ((rows.filter (·.1 == b)).map (·.2))
  let first := sums.take 7
  let last := match sums.drop 7 with
    | [] => List.replicate 32 0
    | x :: xs => xs.foldl addRows x
  (first ++ List.replicate (7 - first.length) (List.replicate 32 0)) ++ [last]

def gredLane (i : Instr) (env : Env) (s : State) (t : Tid) (th : Thread) (vs : List (List Word)) : State × Res :=
  match gredRow env.pre t th (opPair vs 0) with
  | some (.error f) => ((leafFor s t th.ctx (opPair vs 0).toNat).1, { fault := some f })
  | own =>
    let rows := gredRows env i
    if rows.any fun r => match r with | .error _ => true | .ok _ => false then (s, { keep := true })
    else
      let good := rows.filterMap fun r => match r with | .ok (b, ws, _) => some (b, ws) | .error _ => none
      let code := match own with
        | some (.ok (_, _, e)) => e
        | _ => 0
      let out := if code == 0 then (gredSums good).map fun p => p.getD t.lane 0 else List.replicate 8 0
      (s, { out := out, late := lateOf code (opPair vs 0) })

def execGred (h : Hdr) (o : Da) (s : State) : Out' :=
  .next (issue (globalForm (.gred h o) h 128 (opPair · 0) fun env s t th vs =>
    withReply s t th (opPair vs 0) (gredLane (.gred h o) env s t th vs)) s)

/-! ### GSTART, GSTOP, GMBOX, GID (R276–R278) -/

/-- The Graver context whose control block starts at A, reached after what its thread has sent to the block (R208, R273): also 0x15 when
a store on the way is lost. -/
def blockOf (s : State) (t : Tid) (th : Thread) (a : DWord) : State × Except Flt (Nat × Nat) :=
  match checkAccess s t th.ctx a.toNat 8 .write false with
  | (s, .error e) => (s, .error (flt e a.toNat))
  | (s, .ok p) => match graverOf p.pa with
    | none => (s, .error (flt 0x08 a.toNat))
    | some g => if p.pa % 0x1_0000 != 0 then (s, .error (flt 0x05 a.toNat)) else ((unitFirst s t).1, .ok (g, (unitFirst s t).2))

def gstartLane (s : State) (t : Tid) (th : Thread) (vs : List (List Word)) : State × Res :=
  match blockOf s t th (opPair vs 0) with
  | (s, .error f) => (s, { fault := some f })
  | (s, .ok (g, e)) =>
    let s := startOp s g ((op vs 1).setWidth 64)
    (s, if (s.graver g).refused then { fault := some (flt 0x12 (opPair vs 0).toNat) } else { late := lateOf e (opPair vs 0) })

def execGstart (h : Hdr) (a b : Src) (pat : Pat) (s : State) : Out' :=
  .next (issue (globalForm (.gstart h a b pat) h 8 (opPair · 0) fun _ s t th vs => gstartLane s t th vs) s)

def execGstop (h : Hdr) (a : Src) (s : State) : Out' :=
  .next (issue (globalForm (.gstop h a) h 8 (opPair · 0) fun _ s t th vs =>
    match blockOf s t th (opPair vs 0) with
    | (s, .error f) => (s, { fault := some f })
    | (s, .ok (g, e)) => (if (s.graver g).state == 1 then graverStop s g 2 0 else s, { late := lateOf e (opPair vs 0) })) s)

/-- GMBOX in one lane; without B the word is only read. It comes after what its thread has sent to control blocks (R208, R273). -/
def gmboxLane (rd : Bool) (s : State) (t : Tid) (th : Thread) (vs : List (List Word)) : State × Res :=
  let a := (op vs 0).toNat
  let g := bits a 15 3
  let k := bits a 2 0
  let own := match t with
    | .graver i _ => i / 2 == g / 2
    | _ => (s.graver g).owner == th.ctx
  if a / 2 ^ 16 != 0 then (s, { fault := some (flt 0x12 a) })
  else if !own then (s, { fault := some (flt (if t.isGraver then 0x04 else 0x07) a) })
  else if (s.die (g / 1024)).fenced then (s, { fault := some (flt 0x15 a) })
  else
    let (s, e) := unitFirst s t
    let old := (s.graver g).mbox.getD k 0
    (if rd then s else s.modGraver g fun x => { x with mbox := setAt x.mbox k (op vs 1) },
      { out := [old], late := lateOf e ((op vs 0).setWidth 64) })

def execGmbox (h : Hdr) (d : Name) (a : Src) (b : Option (Src × Pat)) (s : State) : Out' :=
  .next (issue { memForm (.gmbox h d a b) h (fun _ s t th vs => gmboxLane b.isNone s t th vs) with stall := fun _ _ th _ => th.pushPends } s)

/-- CORE as GID and SREAD give it (R278, R373). -/
def coreWord (t : Tid) : Word :=
  match t with
  | .graver g _ => 0x8000_0000 + w32 g
  | t => w32 (coreNum t)

def execGid (h : Hdr) (d : Name) (s : State) : Out' :=
  .next (issue (memForm (.gid h d) h fun _ s t _ _ => (s, { out := [coreWord t] })) s)

/-! ### GATTN (R280–R282) -/

/-- The one bank of several checked addresses: their first fault, or `other` when they differ. -/
def oneBank (other : Flt) : List (Except Flt Nat) → Except Flt Nat
  | [] => .error other
  | [x] => x
  | .error f :: _ => .error f
  | .ok b :: rest => match oneBank other rest with
    | .error f => .error f
    | .ok c => if b == c then .ok b else .error other

/-- An address that must lie in a BS page, 64 B aligned, over n bytes: the bank of its first byte. A misaligned one gives R243's 0x05 (DEDUCED,
log entry 35). -/
def bsCheck (s : State) (t : Tid) (th : Thread) (va n : Nat) (need : Need) : Except Flt Nat :=
  if va % 64 != 0 then .error (flt 0x05 va)
  else
    let unit (i : Nat) : Nat := if i == 0 then va else (va / 0x1_0000 + i) * 0x1_0000
    let r : List (Except Flt Nat) := (List.range ((va % 0x1_0000 + n + 0xFFFF) / 0x1_0000)).map fun i =>
      match (checkAccess s t th.ctx (unit i) 64 need false).2 with
      | .error e => .error (flt e (unit i))
      | .ok p => match bankOf p.pa with
        | some b => if p.kind == .bs then .ok b else .error (flt 0x08 (unit i))
        | none => .error (flt 0x08 (unit i))
    oneBank (flt 0x12 va) r

def gattnPages (n t : Nat) : Nat := ceilDiv n t

/-- The limits of R280's table. -/
def gattnBad (b : Nat) : Bool :=
  let n := fieldAt b 0x18 4
  let d := fieldAt b 0x1C 2
  let t := fieldAt b 0x1E 2
  !(1 ≤ n && n ≤ 2 ^ 24) || !(8 ≤ d && d ≤ 256 && d % 8 == 0) || !(1 ≤ t && t ≤ 256) || fieldAt b 0x24 4 / 4 != 0 ||
  fieldAt b 0x2C 20 != 0 || decide (fieldAt b 0x28 4 > gattnPages n t - 1)

/-- The checks of the three addresses, all in one bank. RECORD is read only under CONT. -/
def gattnBank (s : State) (t : Tid) (th : Thread) (b : Nat) : Except Flt Nat :=
  let d := fieldAt b 0x1C 2
  oneBank (flt 0x12 (fieldAt b 0 8))
    [bsCheck s t th (fieldAt b 0 8) 8 .read, bsCheck s t th (fieldAt b 8 8) (4 * d) .read,
     bsCheck s t th (fieldAt b 0x10 8) (8 + 4 * d) (if bitAt (fieldAt b 0x24 4) 1 then .both else .write)]

def gattnLane (env : Env) (s : State) (t : Tid) (th : Thread) (vs : List (List Word)) : State × Res :=
  match blockAt s t th (op vs 0) 64 16 0x05 with
  | .error f => (s, { fault := some f })
  | .ok x =>
    let b := spotLoad s x 64
    if gattnBad b then (s, { fault := some (flt 0x12 (op vs 0).toNat) })
    else match gattnBank s t th b with
      | .error f => (s, { fault := some f })
      | .ok bank =>
        let (id, s) := s.fresh
        let d := fieldAt b 0x1C 2
        let fl := fieldAt b 0x24 4
        let g : Gattn := { id := id, issuer := t, tix := th.tix, seq := env.seq, ctx := th.ctx, launch := th.launch, team := th.team, bank := bank,
                           table := w64 (fieldAt b 0 8), query := w64 (fieldAt b 8 8), record := w64 (fieldAt b 0x10 8),
                           n := fieldAt b 0x18 4, dim := d, tpg := fieldAt b 0x1E 2, sigma := w32 (fieldAt b 0x20 4),
                           fp16 := bitAt fl 0, cont := bitAt fl 1, page := fieldAt b 0x28 4, m := f32Inf true, l := 0,
                           o := List.replicate d 0 }
        ({ s with gattns := s.gattns ++ [g] }, { held := true })

def execGattn (h : Hdr) (o : Da) (s : State) : Out' :=
  .next (issue (blockForm (.gattn h o) h 64 gattnLane) s)

/-- The translations that a bank's sequencer uses: those of its stack's base die (R351). -/
def seqVia (b : Nat) : Via := .base (b / 512)

/-- n bytes read at their bank by a context's address: the number, or code and address. -/
def bankReadN (s : State) (ctx va n b : Nat) : Except (Nat × Nat) Nat :=
  (piecesOf va n).foldl (fun (a : Except (Nat × Nat) Nat) x => match a with
    | .error e => .error e
    | .ok v => match engCheck s ctx x.1 .read (seqVia b) with
      | .error e => .error (e, x.1)
      | .ok p =>
        let (d, code) := dramRead s (p.pa / 64) p.key
        if code != 0 then .error (code, x.1) else .ok (v + secLoad d (p.pa % 64) x.2 * 2 ^ (8 * (x.1 - va)))) (.ok 0)

/-- The record's bytes written at the bank as Graver writes, with notices. -/
def bankWriteN (s : State) (ctx va n v b : Nat) : State :=
  (piecesOf va n).foldl (fun s x => match engCheck s ctx x.1 .write (seqVia b) with
    | .error _ => s
    | .ok p => bankWrite s p.pa p.key x.2 (v / 2 ^ (8 * (x.1 - va)) % 2 ^ (8 * x.2))) s

def wordsOf (v n : Nat) : List Word := (List.range n).map fun i => w32 (v / 2 ^ (32 * i))

/-- E(a, b) of R281. a = b is equality of the words: a canonical NaN is equal to itself (DESIGN CHOICE, log entry 88). -/
def attnE (a b : Word) : Word :=
  if a == b then 0x3F80_0000
  else (Fmt.f32.exp2 (f32v (rnMul (Fmt.f32.sub .rne .ieee (f32v a) (f32v b)).word 0x3FB8_AA3B).1)).word

/-- One token: keys and values as FP32. -/
def attnToken (q : List Word) (sigma : Word) (st : Word × Word × List Word) (k v : List Word) : Word × Word × List Word :=
  let (m, l, o) := st
  let acc := (q.zip k).foldl (fun a e => (rnFma e.1 e.2 a).1) 0
  let s := (rnMul sigma acc).1
  let m' := (Fmt.f32.minMax true m.toNat s.toNat).word
  let al := attnE m m'
  let be := attnE s m'
  (m', (rnFma l al be).1, (o.zip v).map fun e => (rnFma be e.2 (rnMul e.1 al).1).1)

/-- d elements of a page from element e on, as FP32. -/
def pageElems (g : Gattn) (page e : Nat) : List Word :=
  (List.range g.dim).map fun i =>
    if g.fp16 then (Fmt.f32.put .rne .ieee (Fmt.f16.val (page / 2 ^ (16 * (e + i)) % 2 ^ 16)) 0).word
    else w32 (page / 2 ^ (32 * (e + i)))

/-- Bytes of one page: T key rows and T value rows. -/
def pageBytes (g : Gattn) : Nat := 2 * g.tpg * g.dim * (if g.fp16 then 2 else 4)

/-- Checks that a page's range lies in BS pages of the bank. -/
def pageCheck (s : State) (g : Gattn) (va n : Nat) : Option Nat :=
  (List.range ((va % 0x1_0000 + n + 0xFFFF) / 0x1_0000)).findSome? fun i =>
    match engCheck s g.ctx (if i == 0 then va else (va / 0x1_0000 + i) * 0x1_0000) .read (seqVia g.bank) with
    | .error e => some e
    | .ok p => if p.kind != .bs then some 0x08 else if bankOf p.pa != some g.bank then some 0x12 else none

/-- The bytes of page n, or the code of its check. -/
def loadPage (s : State) (g : Gattn) : Except Nat Nat :=
  let e := g.table.toNat + 8 * g.page
  match pageCheck s g e 8 with
  | some c => .error c
  | none => match bankReadN s g.ctx e 8 g.bank with
    | .error (c, _) => .error c
    | .ok va =>
      if va % 64 != 0 then .error 0x05
      else match pageCheck s g va (pageBytes g) with
        | some c => .error c
        | none => match bankReadN s g.ctx va (pageBytes g) g.bank with
          | .error (c, _) => .error c
          | .ok v => .ok v

/-- The record's state when CONT is set, taken as the sequence begins. -/
def gattnBegin (s : State) (g : Gattn) : Except Nat Gattn :=
  if !g.cont then .ok g
  else match bankReadN s g.ctx g.record.toNat (8 + 4 * g.dim) g.bank with
    | .error (c, _) => .error c
    | .ok v =>
      let ws := wordsOf v (2 + g.dim)
      .ok { g with cont := false, m := ws.getD 0 0, l := ws.getD 1 0, o := ws.drop 2 }

/-- One page applied. -/
def applyPage (s : State) (g : Gattn) : Except Nat Gattn :=
  match gattnBegin s g with
  | .error c => .error c
  | .ok g => match loadPage s g, bankReadN s g.ctx g.query.toNat (4 * g.dim) g.bank with
    | .error c, _ => .error c
    | _, .error (c, _) => .error c
    | .ok page, .ok q =>
      let toks := min g.tpg (g.n - g.page * g.tpg)
      let st := (List.range toks).foldl (fun st j => attnToken (wordsOf q g.dim) g.sigma st
        (pageElems g page (j * g.dim)) (pageElems g page ((g.tpg + j) * g.dim))) (g.m, g.l, g.o)
      .ok { g with page := g.page + 1, m := st.1, l := st.2.1, o := st.2.2 }

/-- RECORD is performed, a thread's flag waits for the notices, and D is written (R282). -/
def gattnEnd (s : State) (g : Gattn) (d : Word) : State :=
  let v := natOf ((g.m :: g.l :: g.o).flatMap fun w => bytesOf 4 w.toNat)
  let s := if g.cont then s else bankWriteN s g.ctx g.record.toNat (8 + 4 * g.dim) v g.bank
  let s := if g.issuer.isGraver then s else applyNotices s (some g.bank)
  finish { s with gattns := s.gattns.filter (·.id != g.id) } g.issuer g.seq [d] []

/-- The record of a page that failed: ENGINE 5, PROGRESS n, and in ADDR the page's table entry, be it the entry or the page that failed
(DESIGN CHOICE, log entry 89). -/
def gattnRec (s : State) (g : Gattn) (code : Nat) : State :=
  let base : FRec :=
    { code := code, level := 6, engine := 5, flags := 0, ctx := g.ctx, launch := 0, team := 0xFFFF_FFFF, thread := 0xFFFF_FFFF,
      pc := 0, addr := g.table + w64 (8 * g.page), progress := BitVec.ofNat 128 g.page, time := w64 (s.clkAt (g.bank / 512)),
      ext := [] }
  match g.issuer with
  | .graver i _ => (postCtx s g.ctx { base with thread := w32 i }).1
  | t => post s g.ctx g.launch { base with level := asyncLevel s (some (t, g.tix)) g.ctx g.launch g.team, launch := w64 g.launch,
                                           team := w32 g.team, thread := w32 g.tix }

/-- The misses of a page's addresses enter the miss table of the base die's home (R351, R398). -/
def gattnMisses (s : State) (g : Gattn) : State :=
  let e := g.table.toNat + 8 * g.page
  let page := match bankReadN s g.ctx e 8 g.bank with
    | .ok va => [va]
    | .error _ => []
  ([e, g.query.toNat, g.record.toNat] ++ page).foldl (fun s va => engMiss s (seqVia g.bank) g.ctx va) s

/-- The sequence at the head of its bank's queue. -/
def gattnOf (s : State) (id : Nat) : Option Gattn :=
  match s.gattns.find? (·.id == id) with
  | none => none
  | some g => match s.gattns.find? (·.bank == g.bank) with
    | some h => if h.id == id then some g else none
    | none => none

/-- GATTN_PAGE (R281, R282). -/
def gattnPage (s : State) (id : Nat) : State :=
  match gattnOf s id with
  | none => s
  | some g =>
    if g.page ≥ gattnPages g.n g.tpg then s
    else match applyPage s g, gattnMisses s g with
      | .ok g', s => { s with gattns := s.gattns.map fun x => if x.id == id then g' else x }
      | .error c, s => gattnEnd (gattnRec s g c) g (w32 (c + 256 * g.page))

/-- GATTN_COMPLETE: every page is applied. -/
def gattnComplete (s : State) (id : Nat) : State :=
  match gattnOf s id with
  | none => s
  | some g =>
    if g.page < gattnPages g.n g.tpg then s else gattnEnd s g (w32 (256 * (gattnPages g.n g.tpg - 1)))

/-! ### A Graver context's exit (R275) -/

/-- GRAVER_EXIT: every lane of every warp has exited. -/
def graverExit (s : State) (g : Nat) : State :=
  let x := s.graver g
  let mine := s.threads.filter fun e => match e.1 with | .graver i _ => i == g | _ => false
  if x.state != 1 || mine.isEmpty || mine.any (fun e => e.2.status != .exited) then s
  else
    let s := applyNotices s (some (g / 2))
    if x.cptr == 0 then graverStop s g 0 0
    else match engWord s x.owner x.cptr.toNat 4 x.cval.toNat with
      | (s, none) => graverStop s g 0 0
      | (s, some code) => graverFail s g code x.cptr.toNat

end Sys2Proof.Machine
end

