-- ==== Sys2Proof/Machine/Audit.lean ====
section
/-!
DEFINITION. SHA-256, and the audit engine: records, the recovery buffer, checkpoints (R361, R364–R368).
-/
namespace Sys2Proof.Machine

/-! ### SHA-256 (FIPS 180-4), the digest R361 and R364 name -/

def shaK : List Word :=
  [0x428A2F98, 0x71374491, 0xB5C0FBCF, 0xE9B5DBA5, 0x3956C25B, 0x59F111F1, 0x923F82A4, 0xAB1C5ED5,
   0xD807AA98, 0x12835B01, 0x243185BE, 0x550C7DC3, 0x72BE5D74, 0x80DEB1FE, 0x9BDC06A7, 0xC19BF174] ++
  [0xE49B69C1, 0xEFBE4786, 0x0FC19DC6, 0x240CA1CC, 0x2DE92C6F, 0x4A7484AA, 0x5CB0A9DC, 0x76F988DA,
   0x983E5152, 0xA831C66D, 0xB00327C8, 0xBF597FC7, 0xC6E00BF3, 0xD5A79147, 0x06CA6351, 0x14292967] ++
  [0x27B70A85, 0x2E1B2138, 0x4D2C6DFC, 0x53380D13, 0x650A7354, 0x766A0ABB, 0x81C2C92E, 0x92722C85,
   0xA2BFE8A1, 0xA81A664B, 0xC24B8B70, 0xC76C51A3, 0xD192E819, 0xD6990624, 0xF40E3585, 0x106AA070] ++
  [0x19A4C116, 0x1E376C08, 0x2748774C, 0x34B0BCB5, 0x391C0CB3, 0x4ED8AA4A, 0x5B9CCA4F, 0x682E6FF3,
   0x748F82EE, 0x78A5636F, 0x84C87814, 0x8CC70208, 0x90BEFFFA, 0xA4506CEB, 0xBEF9A3F7, 0xC67178F2]

def shaH : List Word :=
  [0x6A09E667, 0xBB67AE85, 0x3C6EF372, 0xA54FF53A, 0x510E527F, 0x9B05688C, 0x1F83D9AB, 0x5BE0CD19]

/-- One more word of the schedule; `w` holds the last 16, newest first. -/
def shaNext (w : List Word) : Word :=
  let x := w.getD 14 0
  let y := w.getD 1 0
  w.getD 15 0 + (x.rotateRight 7 ^^^ x.rotateRight 18 ^^^ x >>> 3) + w.getD 6 0 +
    (y.rotateRight 17 ^^^ y.rotateRight 19 ^^^ y >>> 10)

/-- One round on (a, b, c, d, e, f, g, h). -/
def shaRound (v : List Word) (kw : Word) : List Word :=
  let g (i : Nat) : Word := v.getD i 0
  let e := g 4
  let a := g 0
  let t1 := g 7 + (e.rotateRight 6 ^^^ e.rotateRight 11 ^^^ e.rotateRight 25) + ((e &&& g 5) ^^^ (~~~e &&& g 6)) + kw
  let t2 := (a.rotateRight 2 ^^^ a.rotateRight 13 ^^^ a.rotateRight 22) + ((a &&& g 1) ^^^ (a &&& g 2) ^^^ (g 1 &&& g 2))
  [t1 + t2, a, g 1, g 2, g 3 + t1, e, g 5, g 6]

/-- The rounds of one block: round constants, words still to use, the last 16 words newest first. -/
def shaRounds : List Word → List Word → List Word → List Word → List Word
  | [], _, _, v => v
  | k :: ks, w :: ws, last, v => shaRounds ks ws (w :: last.take 15) (shaRound v (k + w))
  | k :: ks, [], last, v =>
    let w := shaNext last
    shaRounds ks [] (w :: last.take 15) (shaRound v (k + w))

/-- A big-endian number. -/
def beNat (bs : List Byte) : Nat := bs.foldl (fun a b => 256 * a + b.toNat) 0

def shaBlock (h : List Word) (b : List Byte) : List Word :=
  let ws := (List.range 16).map fun i => w32 (beNat ((b.drop (4 * i)).take 4))
  (h.zip (shaRounds shaK ws [] h)).map fun e => e.1 + e.2

/-- Message, padding and length. -/
def shaPad (bs : List Byte) : List Byte :=
  bs ++ (0x80 :: List.replicate ((119 - bs.length % 64) % 64) 0) ++ (bytesOf 8 (8 * bs.length)).reverse

def shaGo : Nat → List Word → List Byte → List Word
  | 0, h, _ => h
  | n + 1, h, bs => if bs.isEmpty then h else shaGo n (shaBlock h (bs.take 64)) (bs.drop 64)

/-- The digest as a number, its first byte most significant. -/
def sha256 (bs : List Byte) : BitVec 256 :=
  BitVec.ofNat 256 ((shaGo (bs.length / 64 + 2) shaH (shaPad bs)).foldl (fun a w => a * 2 ^ 32 + w.toNat) 0)

/-- A digest's bytes. -/
def digestBytes (d : BitVec 256) : List Byte := (bytesOf 32 d.toNat).reverse

/-- Mi ← SHA-256(Mi ‖ d) (R361). -/
def extend (m d : BitVec 256) : BitVec 256 := sha256 (digestBytes m ++ digestBytes d)

/-! ### The log (R364, R365, R367, R368) -/

def AuditRec.bytes (r : AuditRec) : List Byte :=
  bytesOf 8 r.seq ++ bytesOf 8 r.time ++ bytesOf 2 r.event ++ bytesOf 2 r.source ++ bytesOf 4 r.ctx ++
  bytesOf 8 r.detail.toNat ++ digestBytes r.chain

/-- The reference time (R375, R407). -/
def refTime (s : State) : Nat := s.now / 4

def modAudit (s : State) (f : Audit → Audit) : State := { s with pkg := { s.pkg with audit := f s.pkg.audit } }

/-- Free records of the ring, or of the recovery buffer while it is in use. -/
def auditFree (s : State) : Nat :=
  let a := s.pkg.audit
  if a.placed then Config.auditRecords - a.ring.length else Config.recoveryRecords - a.recovery.length

/-- Appends a record to the log in use, chained to the one before it. -/
def Audit.push (a : Audit) (r : AuditRec) : Audit :=
  let a := { a with next := a.next + 1, last := some r, chain := sha256 r.bytes, sinceCkpt := a.sinceCkpt + 1 }
  if a.placed then { a with ring := a.ring ++ [r] } else { a with recovery := a.recovery ++ [r] }

/-- AUDIT_RECORD_APPEND; with no free record left nothing is appended. -/
def auditAppend (s : State) (event source ctx : Nat) (detail : DWord) : State :=
  if auditFree s == 0 then s
  else modAudit s fun a => a.push { seq := a.next, time := refTime s, event := event, source := source, ctx := ctx,
                                    detail := detail, chain := a.chain }

/-- The latest record, acknowledged or not. -/
def lastRec (s : State) : Option AuditRec := s.pkg.audit.last

/-- Is a checkpoint due (R366)? -/
def ckptDue (s : State) : Bool :=
  let a := s.pkg.audit
  a.placed && (decide (a.sinceCkpt ≥ 4096) ||
    (a.sinceCkpt != 0 && decide (a.lastCkpt + 1000000 * Config.cyclesPerUs ≤ s.now)))

/-- AUDIT_CHECKPOINT: over the newest record; then event 0x00FF, which does not itself ask for a checkpoint. -/
def auditCheckpoint (s : State) : State :=
  if !ckptDue s then s
  else match lastRec s with
    | none => s
    | some r =>
      let (n, s) := s.fresh
      let signed := sha256 (bytesOf 8 r.seq ++ bytesOf 8 (refTime s) ++ digestBytes r.chain)
      let c : Checkpoint := { seq := r.seq, time := refTime s, chain := r.chain, sig := Config.signature n signed }
      let s := modAudit s fun a => { a with ckpts := a.ckpts ++ [c], lastCkpt := s.now }
      modAudit (auditAppend s 0x00FF 0 0 (w64 r.seq)) fun a => { a with sinceCkpt := 0 }

end Sys2Proof.Machine
end

