-- ==== Sys2Proof/Machine/Collect.lean ====
section
/-!
DEFINITION. Class 0xC, collectives and switch groups (R283–R292), and the steps of the Press (R285, R286, R288).
-/
namespace Sys2Proof.Machine

/-- Is the context of a thread sealed? -/
def sealedCtx (s : State) (c : Nat) : Bool := ((s.ctx c).map (·.sealed_)).getD false

/-! ### Switch groups (R289) -/

/-- Member m's die. -/
def groupDie (b m : Nat) : Nat := bits (fieldAt b 0x01 3) (3 * m + 2) (3 * m)

/-- A member's base: translated for reading, on a normal page, homed on the member's die. -/
def baseOk (s : State) (ctx b m : Nat) : Bool :=
  match walk s ctx (fieldAt b (0x10 + 8 * m) 8) with
  | none => false
  | some (size, leaf) => match leafCheck s ctx (fieldAt b (0x10 + 8 * m) 8) size leaf .none with
    | .ok p => p.kind == .normal && homeDie p.pa == some (groupDie b m)
    | .error _ => false

/-- MGRP in one lane. -/
def mgrpLane (s : State) (t : Tid) (th : Thread) (vs : List (List Word)) : State × Res :=
  if sealedCtx s th.ctx then (s, { fault := some { code := 0x1D } })
  else match blockAt s t th (op vs 0) 80 16 0x05 with
    | .error f => (s, { fault := some f })
    | .ok x =>
      let b := spotLoad s x 80
      let g := (op vs 1).toNat
      let mask := fieldAt b 0 1
      let members := (List.range 8).filter (bitAt mask)
      if g / 64 != 0 || fieldAt b 0x04 12 != 0 || members.any (fun m => !baseOk s th.ctx b m) then
        (s, { fault := some (flt 0x13 (op vs 0).toNat) })
      else
        let grp : SwGroup := { mask := BitVec.ofNat 8 mask, dies := (List.range 8).map (groupDie b),
                               bases := (List.range 8).map fun m => w64 (fieldAt b (0x10 + 8 * m) 8) }
        (s.modCtx th.ctx fun c => { c with groups := if mask == 0 then c.groups.del g else c.groups.set g grp }, {})

def execMgrp (h : Hdr) (a b : Src) (pat : Pat) (s : State) : Out' :=
  .next (issue (blockForm (.mgrp h a b pat) h 80 fun _ s t th vs => mgrpLane s t th vs) s)

/-- The group of a context in A's bits 5:0, when it is set. -/
def groupAt (s : State) (ctx : Nat) (a : Word) : Option SwGroup := (s.ctx ctx).bind fun c => c.groups.get (a.toNat % 64)

def SwGroup.members (g : SwGroup) : List Nat := (List.range 8).filter fun m => g.mask.getLsbD m

/-- Members whose die is fenced. -/
def SwGroup.absent (g : SwGroup) (s : State) : List Nat := g.members.filter fun m => (s.die (g.dies.getD m 0)).fenced
def SwGroup.present (g : SwGroup) (s : State) : List Nat := g.members.filter fun m => !(s.die (g.dies.getD m 0)).fenced

/-- A mask of member numbers. -/
def maskOfMembers (ms : List Nat) : Nat := ms.foldl (fun a m => Nat.lor a (2 ^ m)) 0

/-- The checks of every present member's access: the first fault. -/
def membersCheck (s : State) (t : Tid) (th : Thread) (g : SwGroup) (b w : Nat) (need : Need) : Option Flt :=
  (g.present s).findSome? fun m =>
    let a := g.bases.getD m 0 + w64 b
    match (checkAccess s t th.ctx a.toNat w need false).2 with
    | .error e => some (flt e a.toNat)
    | .ok p => if p.kind == .device then some (flt 0x08 a.toNat) else none

/-- One present member's BF16 added to a sum: the state, the sum, is it the first, a code found at the data. -/
def addMember (t : Tid) (th : Thread) (g : SwGroup) (b : Nat) (a : State × Word × Bool × Nat) (m : Nat) :
    State × Word × Bool × Nat :=
  let va := g.bases.getD m 0 + w64 b
  match checkAccess a.1 t th.ctx va.toNat 2 .read false with
  | (s, .error e) => (s, a.2.1, a.2.2.1, e)
  | (s, .ok p) =>
    let (s, v, code) := homeRead s (p.pa / 64) p.key
    let x := (Fmt.f32.put .rne .ieee (Fmt.bf16.val (secLoad v (p.pa % 64) 2)) 0).word
    let sum := if a.2.2.1 then x else (rnAdd a.2.1 x).1
    (s, sum, false, if a.2.2.2 != 0 then a.2.2.2 else code)

/-- MLDRED's status word. -/
def mldredStatus (absent : List Nat) : Word :=
  match absent with
  | [] => 0
  | m :: _ => w32 (0x14 + 256 * m + 65536 * maskOfMembers absent)

/-- The reply that the read of a member awaits (R426). -/
def SwGroup.reply (g : SwGroup) (b m : Nat) : Await := .reply (g.dies.getD m 0) (g.bases.getD m 0 + w64 b)

/-- MLDRED in one lane (R290): its results come when every member's reply has. -/
def mldredLane (s : State) (t : Tid) (th : Thread) (vs : List (List Word)) : State × Res :=
  let b := (op vs 1).toNat
  if sealedCtx s th.ctx then (s, { fault := some { code := 0x1D } })
  else match groupAt s th.ctx (op vs 0) with
    | none => (s, { fault := some (flt 0x13 b) })
    | some g =>
      if b % 2 != 0 then (s, { fault := some (flt 0x05 b) })
      else match membersCheck s t th g b 2 .read with
        | some f => (s, { fault := some f })
        | none =>
          if delayed s then (nextDelay s, { out := [0, 0], todo := some (.reduce g b g.members 0 true []) })
          else
          let s := nextDelay s
          let (s, sum, first, code) := (g.present s).foldl (addMember t th g b) (s, 0, true, 0)
          if code != 0 then (s, { out := [0, 0], late := some (code, w64 b) })
          else (s, { out := [0, 0], awaits := (g.present s).map (g.reply b), todo := some (.reduce g b [] sum first (g.absent s)) })

/-- The addresses of the members, as an MLDRED or MSTMC with these operands accesses them. -/
def memberAddrs (s : State) (th : Thread) (vs : List (List Word)) : List DWord :=
  match groupAt s th.ctx (op vs 0) with
  | some g => (g.present s).map fun m => g.bases.getD m 0 + w64 (op vs 1).toNat
  | none => []

/-- Do they stall, as the miss table has no room for their pages (R351) or an element that their thread has pushed comes first (R226,
R270)? -/
def membersHold (s : State) (t : Tid) (th : Thread) (vs : List (List Word)) : Bool :=
  let l := memberAddrs s th vs
  missFull s t th.ctx (l.map (·.toNat)) || l.any (pushMeets s t th)

def memberForm (i : Instr) (h : Hdr) (f : Env → State → Tid → Thread → List (List Word) → State × Res) : Form :=
  { memForm i h f with stall := membersHold }

def execMldred (h : Hdr) (d : Name) (a b : Src) (pat : Pat) (s : State) : Out' :=
  .next (issue (memberForm (.mldred h d a b pat) h fun _ s t th vs => mldredLane s t th vs) s)

/-- One member's store (R291). -/
def storeMember (t : Tid) (th : Thread) (g : SwGroup) (b w v : Nat) (s : State) (m : Nat) : State :=
  match checkAccess s t th.ctx (g.bases.getD m 0 + w64 b).toNat w .write false with
  | (s, .error _) => s
  | (s, .ok p) => bpStore s (coreNum t) p w v

/-- The record of an MSTMC's absent members, each with its address, ascending: ADDR is the lowest one's (R425). -/
def memberRec (s : State) (t : Tid) (th : Thread) (pc : DWord) (absent : List (Nat × DWord)) : State :=
  match absent with
  | [] => s
  | m :: _ =>
    let r := threadRec s t th 0x14 0 pc m.2 (maskOfMembers (absent.map (·.1)))
    post s th.ctx th.launch { r with engine := 7, level := asyncLevel s (some (t, th.tix)) th.ctx th.launch th.team }

/-- The acknowledgement that the store of a member awaits (R425). -/
def SwGroup.ack (g : SwGroup) (b m : Nat) : Await := .ack (g.dies.getD m 0) m (g.bases.getD m 0 + w64 b)

/-- MSTMC in one lane: D is operand 2 of the word. Its record is written when every store is acknowledged or lost. -/
def mstmcLane (w : Nat) (s : State) (t : Tid) (th : Thread) (vs : List (List Word)) : State × Res :=
  let b := (op vs 1).toNat
  if sealedCtx s th.ctx then (s, { fault := some { code := 0x1D } })
  else match groupAt s th.ctx (op vs 0) with
    | none => (s, { fault := some (flt 0x13 b) })
    | some g =>
      if b % w != 0 then (s, { fault := some (flt 0x05 b) })
      else match membersCheck s t th g b w .write with
        | some f => (s, { fault := some f })
        | none =>
          let v := (op vs 2).toNat % 2 ^ (8 * w)
          if delayed s then (nextDelay s, { todo := some (.multi g b w v g.members []) })
          else
            let s := (g.present s).foldl (storeMember t th g b w v) (nextDelay s)
            (s, { awaits := (g.present s).map (g.ack b), todo := some (.multi g b w v [] (g.absent s)) })

def execMstmc (h : Hdr) (wide : Bool) (d : Name) (a b : Src) (pat : Pat) (s : State) : Out' :=
  .next (issue (memberForm (.mstmc h wide d a b pat) h fun _ s t th vs => mstmcLane (if wide then 4 else 2) s t th vs) s)

/-! ### Accesses that are performed after their issue (R239, R291, R425, R426) -/

/-- A plain load is performed. -/
def performLoad (s : State) (t : Tid) (th : Thread) (o : Out) (p : Phys) (va : DWord) (ty : MTy) (bp ro : Bool) : State × Out :=
  let (s, v, code) := loadAt s t th.ctx p ty.bytes bp ro .plain
  let ws := placeWords ty (if code == 0 then v else 0)
  (s, { o with names := (o.names.map (·.1)).zip ws, value := ws.headD 0, todo := none,
               late := if code == 0 then o.late else some (threadRec s t th code 0x80 o.pc va 0) })

/-- A plain store is performed. One whose home is lost by then is not, and gives 0x15 at the data (R378, R399; DESIGN CHOICE, log entry 72). -/
def performStore (s : State) (t : Tid) (th : Thread) (o : Out) (p : Phys) (va : DWord) (n v : Nat) (bp : Bool) : State × Out :=
  if fencedHome s p.pa then
    (s, { o with todo := none, late := o.late.orElse fun _ => some (threadRec s t th 0x15 0x80 o.pc va 0) })
  else (storeAt s t th.ctx p n v bp .plain, { o with todo := none })

/-- An MLDRED's results, every member's reply there. -/
def endReduce (o : Out) (sum : Word) (absent : List Nat) : Out :=
  { o with names := (o.names.map (·.1)).zip [sum, mldredStatus absent], value := sum, todo := none }

/-- Does what an instruction awaits from a member come before its next access is sent? Where both may come, the model's own choice tells
(log entry 72). -/
def answersFirst (s : State) (o : Out) (left : List Nat) : Bool := !o.awaits.isEmpty && (left.isEmpty || delayed s)

/-- The choice is used up where there was one. -/
def answerTurn (s : State) (o : Out) (left : List Nat) : State := if o.awaits.isEmpty || left.isEmpty then s else nextDelay s

/-- An MLDRED reads its next member, or finds it absent; with none left it has its results (R290, R426). -/
def sendReduce (s : State) (t : Tid) (th : Thread) (o : Out) (g : SwGroup) (b : Nat) (sum : Word) (first : Bool) (absent : List Nat) :
    List Nat → State × Out
  | [] => (s, endReduce o sum absent)
  | m :: left =>
    if (s.die (g.dies.getD m 0)).fenced then (s, { o with todo := some (.reduce g b left sum first (absent ++ [m])) })
    else
      let (s, sum, _, code) := addMember t th g b (s, sum, first, 0) m
      if code == 0 then (s, { o with todo := some (.reduce g b left sum false absent), awaits := o.awaits ++ [g.reply b m] })
      else (s, { endReduce o 0 [] with late := some (threadRec s t th code 0x80 o.pc (w64 b) 0) })

/-- The next part of an MLDRED: a member's reply comes, or the next read is sent. -/
def performReduce (s : State) (t : Tid) (th : Thread) (o : Out) (g : SwGroup) (b : Nat) (sum : Word) (first : Bool) (absent : List Nat)
    (left : List Nat) : State × Out :=
  if answersFirst s o left then (answerTurn s o left, { o with awaits := o.awaits.tail })
  else sendReduce (answerTurn s o left) t th o g b sum first absent left

/-- The MSTMC of another lane of the same issue, of a lower global thread number, whose record is still to come (R425). -/
def multiBefore (s : State) (th : Thread) (seq : Nat) : Bool :=
  let open_ (u : Thread) (o : Out) : Bool := o.seq == seq && o.todo.isSome && decide (u.gtid < th.gtid)
  s.threads.any (fun e => e.2.outs.any (open_ e.2)) || s.orphans.any fun e => open_ e.2.1 e.2.2

/-- An MSTMC sends its next store, or skips the member; with none left its record is written. -/
def sendMulti (s : State) (t : Tid) (th : Thread) (o : Out) (g : SwGroup) (b w v : Nat) (absent : List Nat) : List Nat → State × Out
  | m :: left =>
    if (s.die (g.dies.getD m 0)).fenced then (s, { o with todo := some (.multi g b w v left (absent ++ [m])) })
    else (storeMember t th g b w v s m, { o with todo := some (.multi g b w v left absent), awaits := o.awaits ++ [g.ack b m] })
  | [] =>
    if multiBefore s th o.seq then (s, o)
    else (memberRec s t th o.pc ((g.members.filter absent.contains).map fun m => (m, g.bases.getD m 0 + w64 b)), { o with todo := none })

/-- The next part of an MSTMC: a store is acknowledged, or the next one is sent. -/
def performMulti (s : State) (t : Tid) (th : Thread) (o : Out) (g : SwGroup) (b w v : Nat) (absent left : List Nat) : State × Out :=
  if answersFirst s o left then (answerTurn s o left, { o with awaits := o.awaits.tail })
  else sendMulti (answerTurn s o left) t th o g b w v absent left

/-- The next part of what an outstanding instruction has to do at memory. -/
def perform (s : State) (t : Tid) (th : Thread) (o : Out) : State × Out :=
  match o.todo with
  | none => (s, o)
  | some (.load p va ty bp ro) => performLoad s t th o p va ty bp ro
  | some (.store p va n v bp) => performStore s t th o p va n v bp
  | some (.reduce g b left sum first absent) => performReduce s t th o g b sum first absent left
  | some (.multi g b w v left absent) => performMulti s t th o g b w v absent left

/-- The next part of an outstanding instruction of a thread. -/
def performOut (s : State) (t : Tid) (seq : Nat) : State :=
  match s.thread t with
  | none => s
  | some th => match th.outs.find? (·.seq == seq) with
    | none => s
    | some o =>
      let (s, o') := perform s t th o
      s.modThread t fun th => { th with outs := th.outs.map fun x => if x.seq == seq then o' else x }

/-- The same for one of a thread that has exited: at its end a fault found at its data is reported for a retired issuer (R336). -/
def performOrphan (s : State) (t : Tid) (seq : Nat) : State :=
  let is (e : Tid × Thread × Out) : Bool := e.1 == t && e.2.2.seq == seq
  match s.orphans.find? is with
  | none => s
  | some (_, th, o) =>
    let (s, o') := perform s t th o
    if o'.todo.isSome then { s with orphans := s.orphans.map fun e => if is e then (t, th, o') else e }
    else postLates { s with orphans := s.orphans.filter fun e => !is e } t th o'.late.toList

/-- Is something of an outstanding instruction still to be sent to memory? -/
def unsentOut (o : Out) : Bool := o.todo.any (·.unsent)

/-- All that an outstanding instruction has to send is performed: at most 8 members, each after a reply. -/
def performSeq (t : Tid) (seq : Nat) : Nat → State → State
  | 0, s => s
  | n + 1, s => if ((s.thread t).bind fun th => th.outs.find? (·.seq == seq)).any unsentOut then performSeq t seq n (performOut s t seq) else s

def performThread (s : State) (t : Tid) : State :=
  match s.thread t with
  | some th => (th.outs.filter unsentOut).foldl (fun s o => performSeq t o.seq 16 s) s
  | none => s

def performLeft (t : Tid) (seq : Nat) : Nat → State → State
  | 0, s => s
  | n + 1, s => if s.orphans.any fun e => e.1 == t && e.2.2.seq == seq && unsentOut e.2.2 then performLeft t seq n (performOrphan s t seq) else s

/-- The same for a context's threads that have exited. -/
def performOrphans (s : State) (c : Nat) : State :=
  (s.orphans.filter fun e => e.2.1.ctx == c).foldl (fun s e => performLeft e.1 e.2.2.seq 16 s) s

/-! ### CFIRE (R287) -/

def cfireLane (s : State) (t : Tid) (th : Thread) (vs : List (List Word)) : State × Res :=
  let a := (op vs 0).toNat
  let bad : Res := { fault := some (flt 0x13 a) }
  match s.recOf th, bits a 15 2 == 0 with
  | some r, true => match bindingOf r (a % 4) with
    | none => (s, bad)
    | some b => match readCDesc s th.ctx b.desc with
      | (s, .error (code, va)) => (s, { fault := some (flt code va) })
      | (s, .ok d) =>
        let n := a / 2 ^ 16
        if n ≥ d.chunks then (s, bad)
        else
          let (s, e) := release s t .pool 0
          match fire s (coreNum t) th.ctx th.launch (a % 4) n th.team (d.pbase + th.team / max b.tpp 1) d (some th.tix) with
          | (s, .again) =>
            let r := pressRec s th.ctx th.launch th.team 0x1C 0 n (asyncLevel s (some (t, th.tix)) th.ctx th.launch th.team)
            (post s th.ctx th.launch { r with thread := w32 th.tix, pc := th.pc }, { late := lateOf e 0 })
          | (s, _) => (s, { late := lateOf e 0 })
  | _, _ => (s, bad)

def execCfire (h : Hdr) (a : Src) (s : State) : Out' :=
  .next (issue (memForm (.cfire h a) h fun _ s t th vs => cfireLane s t th vs) s)

/-! ### CSTAT (R288) -/

/-- The chunks of a binding on this node. -/
def chunksOf (s : State) (c l i : Nat) : List Chunk := s.chunks.filter fun x => x.ctx == c && x.launch == l && x.bind == i

/-- Chunks completed. -/
def chunksDone (s : State) (c l i : Nat) : List Chunk := (chunksOf s c l i).filter fun x => x.done && x.code == 0

/-- The first code of a chunk that ended faulted. -/
def collCode (s : State) (c l i : Nat) : Nat := ((chunksOf s c l i).find? (·.code != 0)).elim 0 (·.code)

def cstatWord (s : State) (c l i : Nat) : Word :=
  let fl := orAll ((chunksOf s c l i).map (·.flags))
  w32 ((chunksDone s c l i).length % 2 ^ 16 * 2 ^ 16 + collCode s c l i * 256 + fl.toNat % 32)

/-- The acquire on the result buffer of a binding (R235): clean bytes of its sectors become absent, and the thread's prefetched stream
elements are read again (R270). -/
def acquireResult (s : State) (t : Tid) (ctx : Nat) (d : CDesc) : State :=
  let secs := (piecesOf d.resbase (4 * d.e)).filterMap fun x => match engCheck s ctx x.1 .read with
    | .ok p => some (p.pa / 64)
    | .error _ => none
  discardFetched (dropClean s (coreNum t) secs.contains) t

def cstatLane (s : State) (t : Tid) (th : Thread) (vs : List (List Word)) : State × Res :=
  let a := (op vs 0).toNat
  let bad : Res := { fault := some (flt 0x13 a) }
  match s.recOf th, a / 4 == 0 with
  | some r, true => match bindingOf r a with
    | none => (s, bad)
    | some b =>
      let w := cstatWord s th.ctx th.launch a
      match readCDesc s th.ctx b.desc with
      | (s, .error (code, va)) => (s, { fault := some (flt code va) })
      | (s, .ok d) =>
        let s := if (chunksDone s th.ctx th.launch a).length ≥ d.chunks then acquireResult s t th.ctx d else s
        (s, { out := [w] })
  | _, _ => (s, bad)

def execCstat (h : Hdr) (o : Da) (s : State) : Out' :=
  .next (issue (memForm (.cstat h o) h fun _ s t th vs => cstatLane s t th vs) s)

/-! ### The Press (R285, R286) -/

/-- Node ids of the participants (R284). -/
def peerNodes (s : State) (ctx : Nat) (d : CDesc) : State × Except (Nat × Nat) (List Nat) :=
  match engReadN s ctx d.peers (4 * d.p) with
  | (s, .error e) => (s, .error e)
  | (s, .ok bs) => (s, .ok ((List.range d.p).map fun i => natOf ((bs.drop (4 * i)).take 4) % 2 ^ 21))

/-- Every entry of this node for one chunk of a collective of a context. -/
def sameChunk (s : State) (c coll n : Nat) : List Chunk := s.chunks.filter fun x => x.ctx == c && x.coll == coll && x.chunk == n

/-- Has participant p fired? Those of other nodes by what arrived. -/
def hasFired (s : State) (c coll n node : Nat) (p : Nat × Nat) : Bool :=
  (sameChunk s c coll n).any fun x => if p.2 == node then x.fired.contains p.1 else x.remote.any (·.1 == p.1)

/-- The participants with their nodes. -/
def withNodes (nodes : List Nat) : List (Nat × Nat) := (List.range nodes.length).zip nodes

/-- The input of a local participant: its place among those of this node (R284). -/
def inputAt (d : CDesc) (nodes : List Nat) (node p : Nat) : Nat :=
  d.inbase + d.instride * ((nodes.take p).filter (· == node)).length

/-- The translations of the Press that reduces a chunk: its die is the home of the chunk's result (R285, R351). -/
def pressVia (s : State) (ctx : Nat) (d : CDesc) (n : Nat) : Via :=
  match walk s ctx (d.resbase + 4 * n * d.c) with
  | some (size, leaf) => match homeDie (bits leaf.toNat 47 16 * 2 ^ 16 + (d.resbase + 4 * n * d.c) % size) with
    | some k => .die k
    | none => .walk
  | none => .walk

/-- Pairs of a sparse stream in strictly ascending index. -/
def ascending : List (Nat × Word) → Bool
  | [] => true
  | [_] => true
  | a :: b :: l => decide (a.1 < b.1) && ascending (b :: l)

/-- A sparse contribution (R285); 0x13 when it is malformed (R286). -/
def readSparse (s : State) (via : Via) (ctx va : Nat) (d : CDesc) : State × Except (Nat × Nat) (List (Nat × Word)) :=
  match engReadN s ctx va 8 via with
  | (s, .error e) => (s, .error e)
  | (s, .ok h) =>
    let n := natOf (h.take 4)
    if n > d.c then (s, .error (0x13, va))
    else match engReadN s ctx (va + 8) (8 * n) via with
      | (s, .error e) => (s, .error e)
      | (s, .ok bs) =>
        let vs := (List.range n).map fun i => (natOf ((bs.drop (8 * i)).take 4), w32 (natOf ((bs.drop (8 * i + 4)).take 4)))
        (s, if ascending vs && vs.all (fun v => decide (v.1 < d.c)) then .ok vs else .error (0x13, va))

/-- A dense contribution: the chunk's elements. -/
def readDense (s : State) (via : Via) (ctx va n : Nat) : State × Except (Nat × Nat) (List (Nat × Word)) :=
  match engReadN s ctx va (4 * n) via with
  | (s, .error e) => (s, .error e)
  | (s, .ok bs) => (s, .ok ((List.range n).map fun i => (i, w32 (natOf ((bs.drop (4 * i)).take 4)))))

/-- Elements of chunk n. -/
def chunkSize (d : CDesc) (n : Nat) : Nat := min d.c (d.e - n * d.c)

/-- One participant's contribution. -/
def contribution (s : State) (ctx : Nat) (d : CDesc) (sparse : Bool) (nodes : List Nat) (n : Nat) (p : Nat × Nat) :
    State × Except (Nat × Nat) (List (Nat × Word)) :=
  if p.2 == s.pkg.node then
    let base := inputAt d nodes p.2 p.1
    let via := pressVia s ctx d n
    if sparse then readSparse s via ctx (base + n * (8 + 8 * d.c)) d else readDense s via ctx (base + 4 * n * d.c) (chunkSize d n)
  else (s, .ok (((sameChunk s ctx d.id n).findSome? fun x => x.remote.find? (·.1 == p.1)).elim [] (·.2)))

/-- Every contribution, ascending by participant. -/
def contributions (s : State) (ctx : Nat) (d : CDesc) (sparse : Bool) (nodes : List Nat) (n : Nat) :
    State × Except (Nat × Nat) (List (List (Nat × Word))) :=
  (withNodes nodes).foldl (fun (a : State × Except (Nat × Nat) (List (List (Nat × Word)))) p => match a.2 with
    | .error _ => a
    | .ok l => match contribution a.1 ctx d sparse nodes n p with
      | (s, .error e) => (s, .error e)
      | (s, .ok v) => (s, .ok (l ++ [v]))) (s, .ok [])

/-- The sum of an element's contributions, with the flags of its additions (R286). -/
def reduceSum (vs : List (List (Nat × Word))) (e : Nat) : Word × Flags :=
  match vs.filterMap fun l => (l.find? (·.1 == e)).map (·.2) with
  | [] => (0, 0)
  | x :: xs => xs.foldl (fun a v =>
    let (r, fl) := rnAdd a.1 v
    (r, a.2 ||| fl)) (x, 0)

/-- The reduced value of an element: one that nothing was added to gives the canonical NaN too (R107). -/
def reduceElem (vs : List (List (Nat × Word))) (e : Nat) : Word × Flags := let r := reduceSum vs e; (canonNan r.1, r.2)

/-- How many chunks of a binding this node knows of, where its descriptor cannot be read (log entry 66). -/
def knownChunks (s : State) (c l i : Nat) : Nat := (chunksOf s c l i).foldl (fun m x => max m (x.chunk + 1)) 0

/-- The chunks of a binding: as its descriptor counts them. -/
def chunkCount (s : State) (c l i : Nat) : Nat :=
  match (s.launchOf c l).bind fun x => bindingOf x.rcd i with
  | none => knownChunks s c l i
  | some b => match (readCDesc s c b.desc).2 with
    | .ok d => d.chunks
    | .error _ => knownChunks s c l i

/-- The bitmap of completed chunks (R397). -/
def chunkBitmap (s : State) (c l i count : Nat) : List Bool :=
  (List.range count).map fun n => (chunksDone s c l i).any (·.chunk == n)

/-- A record about a collective: its code, the completed chunks in PROGRESS. `by_` is who fired the chunk that faulted. -/
def collRecord (s : State) (c l i count code va : Nat) (by_ : Option (Nat × Nat × Nat)) : State :=
  let bm := chunkBitmap s c l i count
  let lin := (by_.map (·.2.1)).getD (2 ^ 32 - 1)
  let r := pressRec s c l lin code va (natOfBits (bm.take 128)) (asyncLevel s (issuerOf by_) c l lin)
  post s c l { r with thread := (by_.map fun e => w32 e.2.2).getD 0xFFFF_FFFF, ext := bm.drop 128 }

/-- What CSTAT shows of a code: 0x14 for a lost participant, else 0x13 (log entry 31). -/
def shownCode (code : Nat) : Nat := if code == 0x14 then 0x14 else 0x13

/-- Ends chunks faulted: those of the binding that `sel` takes and that have not ended. -/
def endChunks (s : State) (c l i code : Nat) (sel : Nat → Bool) : State :=
  { s with chunks := s.chunks.map fun x =>
      if x.ctx == c && x.launch == l && x.bind == i && !x.done && sel x.chunk then { x with done := true, code := shownCode code }
      else x }

/-- The collective faults (R286): its chunks end, and a record goes to the launch's queue. -/
def collFault (s : State) (c l i count code va : Nat) (by_ : Option (Nat × Nat × Nat)) : State :=
  endChunks (collRecord s c l i count code va by_) c l i code fun _ => true

/-- Bytes of a list of words. -/
def bytesOfWords (ws : List Word) : List Byte := ws.flatMap fun w => bytesOf 4 w.toNat

/-- Has a binding's collective faulted (R286)? A lost participant stops only the chunks that it has not fired (R288). -/
def collFaulted (s : State) (c l i : Nat) : Bool := (chunksOf s c l i).any (·.code == 0x13)

/-- A chunk of a collective is reduced on this node: it has completed for every launch that binds the collective and has not been stopped
(R320), and the firings of other nodes that went into it are forgotten. -/
def chunkReduced (s : State) (c coll n : Nat) (fl : Flags) : State :=
  let s := (bindingsById s c coll).foldl (fun s b => noteChunk s c b.1 b.2.1 coll n) s
  let its (x : Chunk) : Bool := x.ctx == c && x.coll == coll && x.chunk == n
  { s with chunks := (s.chunks.filter fun x => !(its x && x.launch == 0)).map fun x =>
      if its x && !x.done && !launchStopped s c x.launch then { x with done := true, flags := fl } else x }

/-- The results of a chunk are written, then 1 is added to CWORD (R235, R286). -/
def writeResult (s : State) (c l i : Nat) (d : CDesc) (n : Nat) (ws : List Word) (fl : Flags) : State :=
  let by_ := (s.chunks.find? (chunkIs c l i n)).bind (·.issuer)
  match engWriteN s c (d.resbase + 4 * n * d.c) (bytesOfWords ws) (pressVia s c d n) with
  | (s, some (code, va)) => collFault s c l i d.chunks code va by_
  | (s, none) => match addWord s c d.cword 1 with
    | (s, .error (code, va)) => collFault s c l i d.chunks code va by_
    | (s, .ok _) => chunkReduced s c d.id n fl

/-- PRESS_CHUNK_REDUCE: on the node of participant 0, once every participant has fired the chunk. -/
def pressReduce (s : State) (c l i n : Nat) : State :=
  match s.chunks.find? (chunkIs c l i n), (s.launchOf c l).bind fun x => bindingOf x.rcd i with
  | some x, some b =>
    if x.done || launchStopped s c l then s
    else match readCDesc s c b.desc with
      | (s, .error (code, va)) => collFault s c l i (knownChunks s c l i) code va x.issuer
      | (s, .ok d) => match peerNodes s c d with
        | (s, .error (code, va)) => collFault s c l i d.chunks code va x.issuer
        | (s, .ok nodes) =>
          if collFaulted s c l i then endChunks s c l i 0x13 (· == n)
          else if nodes.head? != some s.pkg.node || !(withNodes nodes).all (hasFired s c d.id n s.pkg.node) then s
          else match contributions s c d b.sparse nodes n with
            | (s, .error (code, va)) => collFault s c l i d.chunks code va x.issuer
            | (s, .ok vs) =>
              let rs := (List.range (chunkSize d n)).map (reduceElem vs)
              writeResult s c l i d n (rs.map (·.1)) (orAll (rs.map (·.2)))
  | _, _ => s

/-- Is a chunk ready for its Press? -/
def pressReady (s : State) (x : Chunk) : Bool :=
  !x.done && !launchStopped s x.ctx x.launch && match (s.launchOf x.ctx x.launch).bind fun y => bindingOf y.rcd x.bind with
    | none => false
    | some b => match readCDesc s x.ctx b.desc with
      | (_, .error _) => true
      | (s, .ok d) => match peerNodes s x.ctx d with
        | (_, .error _) => true
        | (s, .ok nodes) => collFaulted s x.ctx x.launch x.bind ||
          (nodes.head? == some s.pkg.node && (withNodes nodes).all (hasFired s x.ctx d.id x.chunk s.pkg.node))

/-- REMOTE_PARTICIPANT_FIRING: a firing of another node arrives with its contribution; a second one of the same participant is
discarded. It is kept beside the local entries of its chunk, under no launch, until the chunk is reduced. -/
def remoteFiring (s : State) (ctx coll part n : Nat) (values : List (Nat × Word)) (malformed : Bool) : State :=
  if malformed then match bindingById s ctx coll with
    | some (l, i, d) => collFault s ctx l i d.chunks 0x13 0 none
    | none => s
  else if (sameChunk s ctx coll n).any fun x => x.remote.any (·.1 == part) then s
  else match s.chunks.find? fun x => x.ctx == ctx && x.coll == coll && x.chunk == n && x.launch == 0 with
    | some y => { s with chunks := s.chunks.map fun x => if x == y then { x with remote := x.remote ++ [(part, values)] } else x }
    | none => { s with chunks := s.chunks ++ [{ ctx := ctx, launch := 0, bind := 0, coll := coll, chunk := n, fired := [], teams := [], issuer := none,
                                                remote := [(part, values)], done := true, code := 0, flags := 0 }] }

/-- REMOTE_CHUNK_RESULT: a chunk reduced on another node. -/
def remoteResult (s : State) (ctx coll n : Nat) (values : List Word) (fl : Flags) : State :=
  match bindingById s ctx coll with
  | none => s
  | some (l, i, d) =>
    if n ≥ d.chunks || (s.chunks.any fun x => chunkIs ctx l i n x && x.done) then s
    else
      writeResult (noteChunk s ctx l i coll n) ctx l i d n (values.take (chunkSize d n)) fl

/-- Chunk n of a binding ends with 0x14. Who has fired it stays known (R287). -/
def loseChunk (c l i coll : Nat) (s : State) (n : Nat) : State :=
  let s := noteChunk s c l i coll n
  { s with chunks := s.chunks.map fun x => if chunkIs c l i n x then { x with done := true, code := 0x14 } else x }

/-- Chunks of a binding that have not been reduced end with 0x14, and a record carries the completed ones (R288). -/
def loseChunks (s : State) (c l i coll count : Nat) (ns : List Nat) : State :=
  if ns.isEmpty then s
  else
    let by_ := ns.findSome? fun n => (s.chunks.find? (chunkIs c l i n)).bind (·.issuer)
    ns.foldl (loseChunk c l i coll) (collRecord s c l i count 0x14 0 by_)

/-- Chunks of a binding that have begun on this node and have not ended. -/
def openChunks (s : State) (c l i : Nat) : List Nat := ((chunksOf s c l i).filter fun x => !x.done).map (·.chunk)

/-- Chunks of a binding that a lost participant has not fired end with 0x14 (R288): `gone` says which participants, with their nodes,
can fire a chunk no more. Where the node of participant 0 is another and is lost, no Press is left to reduce the others, and they end so
too (DEDUCED, log entry 66). A binding whose descriptor is lost too can be reduced no more: those of its chunks that have begun end
so. -/
def loseParticipants (s : State) (c l i : Nat) (gone : Binding → CDesc → Nat → Nat × Nat → Bool) : State :=
  match (s.launchOf c l).bind fun x => bindingOf x.rcd i with
  | none => s
  | some b => match readCDesc s c b.desc with
    | (s, .error (code, _)) =>
      let ns := openChunks s c l i
      if code == 0x15 then loseChunks s c l i 0 (knownChunks s c l i) ns else s
    | (s, .ok d) => match peerNodes s c d with
      | (s, .error (code, _)) => if code == 0x15 then loseChunks s c l i d.id d.chunks (openChunks s c l i) else s
      | (s, .ok nodes) =>
        let stops (n : Nat) : Bool := (withNodes nodes).any fun p => gone b d n p &&
          ((p.1 == 0 && p.2 != s.pkg.node) || !hasFired s c d.id n s.pkg.node p)
        loseChunks s c l i d.id d.chunks
          ((List.range d.chunks).filter fun n => stops n && !(s.chunks.any fun x => chunkIs c l i n x && x.done))

/-- NODE_LOSS. -/
def loseNode (s : State) (node : Nat) : State :=
  (liveBindings s).foldl (fun s b => loseParticipants s b.1 b.2.1 b.2.2 fun _ _ _ p => p.2 == node) s

end Sys2Proof.Machine
end

