-- ==== Sys2Proof/Machine/Sched.lean ====
section
/-!
DEFINITION. The coordinator and the distributors: launch records (R34–R36), queues and arbitration (R293–R297), placement
(R298–R302), completion and units (R318, R319, R341, R342), cancel (R320), handover (R346), clock steps (R317).
-/
namespace Sys2Proof.Machine

/-! ### Launch records (R34–R36) -/

/-- The field of n bytes at an offset. -/
def recField (bs : List Byte) (o n : Nat) : Nat := natOf ((bs.drop o).take n)

def parseRec (bs : List Byte) : LRec :=
  let f := recField bs
  { entry := w64 (f 0x00 8), burin := w64 (f 0x08 8), gx := f 0x10 4, gy := f 0x14 4, gz := f 0x18 4, threads := f 0x1C 4,
    gang := f 0x20 1, qp := f 0x21 1, flags := BitVec.ofNat 16 (f 0x22 2), depth16 := f 0x24 1, regMin := f 0x28 1,
    tileMin := f 0x29 1, cacheMin := f 0x2A 1, scratch := f 0x2C 4, stackBase := w64 (f 0x30 8), stackBytes := f 0x38 4,
    deadline := f 0x3C 4, fslots := (List.range 8).map fun i => w32 (f (0x40 + 4 * i) 4),
    binds := (List.range 4).map fun i => BitVec.ofNat 128 (f (0x60 + 16 * i) 16),
    counter := w64 (f 0xA0 8), faultQ := w64 (f 0xA8 8), graph := f 0xB0 4, phase := f 0xB4 4, job := f 0xB8 4,
    ctx := f 0xBC 4, args := w64 (f 0xC0 8), argSize := f 0xC8 4 }

/-- Is this address a packet's on an executable page? A device page is none, also where its leaf may be executed: no rule says
(DESIGN CHOICE, log entry 82). -/
def entryOk (s : State) (ctx va : Nat) : Bool :=
  va % 32 == 0 && match walk s ctx va with
    | none => false
    | some (size, leaf) => match leafCheck s ctx va size leaf .exec with
      | .ok p => p.kind != .device
      | .error _ => false

def writableAt (s : State) (ctx va n align : Nat) : Bool :=
  va % align == 0 && match engCheck s ctx va .write with
    | .ok p => decide (p.pa % 0x1_0000 + n ≤ 0x1_0000)
    | .error _ => false

def LRec.total (r : LRec) : Nat := r.gx * r.gy * r.gz

/-- The sub-field of binding i that breaks R283. -/
def bindBad (b : BitVec 128) : Option Nat :=
  let n := b.toNat
  if n == 0 then none
  else if bits n 63 0 == 0 || bits n 63 0 % 64 != 0 then some 0
  else if bits n 95 80 != 0 then some 0xA
  else if bits n 111 96 > 256 then some 0xC
  else if bits n 127 113 != 0 then some 0xE
  else none

/-- Each rule of R34 and R35 with the offset of the field in whose row it stands, ascending: true is kept. -/
def recRules (s : State) (ctx : Nat) (bs : List Byte) (r : LRec) : List (Nat × Bool) :=
  let f := recField bs
  let sealed_ := ((s.ctx ctx).map (·.sealed_)).getD false
  [(0x00, entryOk s ctx r.entry.toNat),
   (0x08, r.burin == 0 || (entryOk s ctx r.burin.toNat && decide (1 ≤ r.tileMin))),
   (0x10, decide (1 ≤ r.gx)), (0x14, decide (1 ≤ r.gy)),
   (0x18, decide (1 ≤ r.gz) && decide (r.total < 2 ^ 32) && (r.gang == 0 || r.total % r.gang == 0)),
   (0x1C, decide (32 ≤ r.threads ∧ r.threads ≤ 1024) && r.threads % 32 == 0),
   (0x20, decide (1 ≤ r.gang ∧ r.gang ≤ 16)), (0x21, bits r.qp 7 5 == 0),
   (0x22, r.flags.toNat / 2 ^ 9 == 0 && r.flags.getLsbD 0 == sealed_),
   (0x24, decide (4 ≤ r.depth16 ∧ r.depth16 ≤ 16)), (0x25, f 0x25 3 == 0), (0x28, decide (1 ≤ r.regMin)),
   (0x2B, f 0x2B 1 == 0),
   (0x2C, r.scratch % 16 == 0 && decide (r.scratch ≤ 0x20_0000)
      && decide (r.regMin + r.tileMin + r.cacheMin + teamSets r ≤ 64)),
   (0x30, r.stackBase.toNat % 64 == 0),
   (0x38, r.stackBytes % 64 == 0 && decide (4 * (16 * r.depth16 + 8) ≤ r.stackBytes))] ++
  ((List.range 4).map fun i => match bindBad (r.binds.getD i 0) with
    | some o => (0x60 + 16 * i + o, false)
    | none => (0x60 + 16 * i, true)) ++
  [(0xA0, writableAt s ctx r.counter.toNat 8 8), (0xA8, writableAt s ctx r.faultQ.toNat 64 64), (0xBC, r.ctx == ctx),
   (0xC0, r.argSize == 0 || r.args.toNat % 16 == 0), (0xCC, f 0xCC 4 == 0), (0xD0, f 0xD0 48 == 0)]

/-- The first field that breaks a rule (R36). -/
def recBad (s : State) (ctx : Nat) (bs : List Byte) (r : LRec) : Option Nat :=
  ((recRules s ctx bs r).find? fun e => !e.2).map (·.1)

/-- A refused launch (R36): its record, and its counter unless that is the field at fault. `base` is the record's address, 0 for
an inline one. -/
def refuseRec (s : State) (ctx : Nat) (r : LRec) (bad base : Nat) : State :=
  let rcd : FRec :=
    { code := 0x1E, level := 2, engine := 8, flags := 0, ctx := ctx, launch := 0, team := 0xFFFF_FFFF, thread := 0xFFFF_FFFF,
      pc := 0, addr := w64 (base + bad), progress := 0, time := w64 (s.clkAt 0), ext := [] }
  if bad == 0xA0 || bad == 0xA8 then (postCtx s ctx { rcd with level := 6 }).1
  else counterUpdate (postQueue s ctx r.faultQ.toNat rcd).1 ctx 0 r.counter.toNat oneDone 2

/-! ### Queues (R293–R295) -/

/-- Class and queue of a record. -/
def LRec.cls (r : LRec) : Nat := bits r.qp 1 0
def LRec.queue (r : LRec) : Nat := bits r.qp 4 2

def queueOf (s : State) (ctx q : Nat) : List Nat := ((s.ctx ctx).map fun x => x.queues.getD q []).getD []

def queueFull (s : State) (ctx : Nat) (r : LRec) : Bool := decide ((queueOf s ctx r.queue).length ≥ Config.queueDepth)

def Launch.start (r : LRec) : Launch :=
  { rcd := r, next := 0, live := 0, ended := [], faults := 0, marked := false, first := 0,
    cancelled := false, killed := false, severed := none, done := none, reserve := [], ineligible := none,
    preds := [], burinCores := [], committing := false, yieldTo := none }

/-- An accepted launch takes its id and enters its queue. -/
def enqueueLaunch (s : State) (ctx : Nat) (r : LRec) : State × Nat :=
  match s.ctx ctx with
  | none => (s, 0)
  | some x =>
    let id := x.nextLaunch
    let x := { x with nextLaunch := id + 1, queues := setAt x.queues r.queue (x.queues.getD r.queue [] ++ [id]) }
    ((s.setCtx ctx x).setLaunch ctx id (Launch.start r), id)

/-- SPAWNs that wait for a place in a queue, in the order in which they reached the coordinator (R293): thread, instruction,
record. -/
def spawnsFor (s : State) (ctx q : Nat) : List (Tid × Nat × LRec) :=
  let all := (byOrder s (s.threads.map (·.1))).filterMap fun t => match s.thread t with
    | some th => match th.status with
      | .waiting (.spawn seq bs _) => if th.ctx == ctx && (parseRec bs).queue == q then some (t, seq, parseRec bs) else none
      | _ => none
    | none => none
  sortBy (fun e => e.2.1) all

def idWords (id : Nat) : List Word := [loOf (w64 id), hiOf (w64 id)]

/-- A waiting SPAWN's launch enters its queue, if there is room. -/
def spawnEnter (s : State) (ctx : Nat) (e : Tid × Nat × LRec) : State :=
  if queueFull s ctx e.2.2 then s
  else
    let (s, id) := enqueueLaunch s ctx e.2.2
    (finish s e.1 e.2.1 (idWords id) []).wake [e.1]

/-- Those that wait enter a queue before a launch that comes later (R293). -/
def admitWaiting (s : State) (ctx q : Nat) : State := (spawnsFor s ctx q).foldl (fun s e => spawnEnter s ctx e) s

/-- Takes a launch out of its queue. -/
def leaveQueue (s : State) (ctx l : Nat) : State :=
  let s := s.modCtx ctx fun x => { x with queues := x.queues.map fun q => q.filter (· != l) }
  let s := s.modLaunch ctx l fun x => { x with reserve := [], committing := false, yieldTo := none, ineligible := none }
  { s with chosen := s.chosen.filter (· != (ctx, l)) }

/-! ### Naming units (R341) -/

/-- Which field of a record a unit's level names. -/
def unitSel (level : Nat) (r : LRec) : Nat :=
  match level with
  | 1 => r.graph
  | 2 => r.phase
  | _ => r.job

/-- A unit by its 64-bit identifier: level and id; none when a bit that must be zero is set. -/
def unitOf (v : Nat) : Option (Nat × Nat) :=
  let level := bits v 63 62
  if level == 0 then some (0, v)
  else if bits v 61 32 != 0 || bits v 31 0 == 0 then none
  else some (level, bits v 31 0)

/-- Members of a unit: launch id and launch. -/
def members (s : State) (ctx level id : Nat) : List (Nat × Launch) :=
  (s.launches.filter fun e => e.1.1 == ctx && (if level == 0 then e.1.2 == id else unitSel level e.2.rcd == id)).map
    fun e => (e.1.2, e.2)

def unitRunning (s : State) (ctx level id : Nat) : Bool := (members s ctx level id).any fun e => e.2.done.isNone

def unitDone (s : State) (ctx level id : Nat) : Option UnitDone :=
  (s.ctx ctx).bind fun x => x.doneUnits.find? fun u => u.level == level && u.id == id

/-! ### Eligible heads (R294, R297) -/

/-- A head: context, queue, launch id, launch. -/
structure Head where
  ctx : Nat
  q : Nat
  id : Nat
  l : Launch
  bal : Int

/-- Heads of every queue, unordered. -/
def heads (s : State) : List Head :=
  s.ctxs.flatMap fun e => (List.range Config.queues).filterMap fun q =>
    match (e.2.queues.getD q []).head? with
    | none => none
    | some l => (s.launchOf e.1 l).map fun x => { ctx := e.1, q := q, id := l, l := x, bal := e.2.bal }

/-- R294's order: class, larger balance, lower context, lower queue. -/
def Head.before (a b : Head) : Bool :=
  if a.l.rcd.cls != b.l.rcd.cls then a.l.rcd.cls < b.l.rcd.cls
  else if a.bal != b.bal then a.bal > b.bal
  else if a.ctx != b.ctx then a.ctx < b.ctx
  else a.q < b.q

def insertHead (x : Head) : List Head → List Head
  | [] => [x]
  | y :: l => if x.before y then x :: y :: l else y :: insertHead x l

def orderedHeads (s : State) : List Head := (heads s).foldl (fun l x => insertHead x l) []

/-- Cores of a die that a gang's teams take, in order: the reservations counted as they grow (R301). -/
def gangPlanGo (s : State) (d ctx launch : Nat) (r : LRec) : Nat → List Nat → Option (List Nat)
  | 0, got => some got
  | n + 1, got =>
    let claims (c : Nat) : List (Nat × LRec) := claimsOn s c ++ ((got.filter (· == c)).map fun _ => (launch, r))
    match chooseCore s (dieCores d) ctx launch r claims with
    | none => none
    | some (c, _) => gangPlanGo s d ctx launch r n (got ++ [c])

/-- The lowest die that holds the whole gang, and the cores. -/
def gangPlan (s : State) (ctx launch : Nat) (r : LRec) : Option (List Nat) :=
  (List.range Config.dies).findSome? fun d => gangPlanGo s d ctx launch r r.gang []

/-- Does the next team, or the whole gang, fit somewhere? -/
def headFits (s : State) (h : Head) : Bool :=
  if h.l.rcd.gang ≤ 1 then (chooseCore s allCores h.ctx h.id h.l.rcd (claimsOn s)).isSome
  else (gangPlan s h.ctx h.id h.l.rcd).isSome

/-- R297's borrow: what it takes. -/
def borrowTake (s : State) (x : Ctx) : Nat := min s.pool (min (x.bcap - x.debt) x.refill)

/-- Is the context's balance positive, or can it borrow? -/
def balanceOk (s : State) (ctx : Nat) : Bool :=
  match s.ctx ctx with
  | none => false
  | some x => decide (0 < x.bal) || borrowTake s x != 0

/-- Does a gang still wait for the head for which it gave up its reservations (R302)? -/
def yielding (s : State) (h : Head) : Bool :=
  match h.l.yieldTo with
  | some k => (heads s).any fun y => (y.ctx, y.id) == k
  | none => false

/-- Not yet taken up, not out of its launch's placement, its gang's turn not put off. -/
def considered (s : State) (h : Head) : Bool := !s.chosen.contains (h.ctx, h.id) && h.l.reserve.isEmpty && !yielding s h

/-- Have the predecessors that a launch's graph edges name completed (R294)? No command or record of the spec names edges. -/
def predsDone (s : State) (h : Head) : Bool :=
  h.l.preds.all fun v => match unitOf v.toNat with
    | some (level, id) => !unitRunning s h.ctx level id
    | none => true

def eligible (s : State) (h : Head) : Bool := considered s h && predsDone s h && balanceOk s h.ctx && headFits s h

/-- The borrow of a context whose head is considered: whether its balance is positive or a borrow succeeds (R294, R297). -/
def borrow (s : State) (ctx : Nat) : State × Bool :=
  match s.ctx ctx with
  | none => (s, false)
  | some x =>
    if 0 < x.bal then (s, true)
    else
      let take := borrowTake s x
      ({ s.setCtx ctx { x with debt := x.debt + take, bal := x.bal + take } with pool := s.pool - take }, take != 0)

/-- Since when each head has been held back by the fit alone (R393). -/
def noteIneligible (s : State) : State :=
  (heads s).foldl (fun s h =>
    let held := considered s h && predsDone s h && balanceOk s h.ctx && !headFits s h
    s.modLaunch h.ctx h.id fun x => { x with ineligible := if held then x.ineligible.orElse fun _ => some s.now else none }) s

/-- A team is blocked when every non-exited thread waits in WAITA, BARW, BARAW or GBAR (R316). -/
def isBlocked (s : State) (tm : Team) : Bool :=
  let ts := s.liveThreads tm.ctx tm.launch tm.lin
  !ts.isEmpty && ts.all fun e => match e.2.status with
    | .waiting (.waita _ _ _ _ _ _ _ _) => true
    | .waiting (.barrier _ _ _ _ _) => true
    | .waiting (.gbar _) => true
    | _ => false

def noteBlocked (s : State) : State :=
  { s with teams := s.teams.map fun e =>
      (e.1, { e.2 with blocked := if isBlocked s e.2 then e.2.blocked.orElse fun _ => some s.now else none }) }

/-- The heads one after another in R294's order: each that may be taken draws what it has to borrow, and the first that fits is
taken. -/
def arbGo (s : State) : List Head → State
  | [] => s
  | h :: hs =>
    if !(considered s h && predsDone s h) then arbGo s hs
    else match borrow s h.ctx with
      | (s, false) => arbGo s hs
      | (s, true) => if headFits s h then { s with chosen := s.chosen ++ [(h.ctx, h.id)], taken := some s.now } else arbGo s hs

/-- COORDINATOR_ARBITRATION: the best eligible head is taken, one in a cycle (R294). -/
def arbitrate (s : State) : State :=
  let s := noteIneligible (noteBlocked s)
  if s.taken == some s.now then s else arbGo s (orderedHeads s)

/-! ### Tokens (R297) -/

/-- Cores that hold a resident team or Burin context of a context. -/
def coresHolding (s : State) (ctx : Nat) : Nat :=
  (((s.teams.filter fun e => e.2.ctx == ctx && !e.2.warps.isEmpty).map fun e => e.1.1) ++
   ((s.burins.filter fun e => e.2.ctx == ctx).map fun e => e.1.1)).eraseDups.length

/-- A cycle of service: each core that holds a context's teams or Burin contexts serves it (R297). -/
def serveCycle (s : State) : State :=
  { s with ctxs := s.ctxs.map fun e => (e.1, { e.2 with owed := e.2.owed + coresHolding s e.1 }) }

/-- Has a context been served a whole core-µs that it has not been charged? -/
def chargeDue (x : Ctx) : Bool := decide (Config.cyclesPerUs ≤ x.owed)

/-- TOKEN_CHARGE: each context that has been served another core-µs is charged it, a step of 1 core-µs. -/
def tokenCharge (s : State) : State :=
  { s with ctxs := s.ctxs.map fun e =>
      if chargeDue e.2 then (e.1, { e.2 with owed := e.2.owed - Config.cyclesPerUs, bal := e.2.bal - 1 }) else e }

/-- One context's refill: its new values and what goes to the pool. -/
def refillCtx (x : Ctx) : Ctx × Nat :=
  let repay := min x.debt (x.refill / 2)
  let gain : Int := x.refill - repay
  let excess : Int := max 0 (x.bal + gain - x.cap)
  ({ x with debt := x.debt - repay, bal := x.bal + gain - excess }, excess.toNat)

/-- TOKEN_REFILL, every 10 µs. -/
def tokenRefill (s : State) : State :=
  if s.refills < s.now / (10 * Config.cyclesPerUs) then
    let ids := sortBy id (s.ctxs.map (·.1))
    ids.foldl (fun s c => match s.ctx c with
      | some x => { s.setCtx c (refillCtx x).1 with pool := s.pool + (refillCtx x).2 }
      | none => s) { s with pool := 0, refills := s.refills + 1 }
  else s

/-! ### Placing (R299–R302) -/

/-- A head's team or gang has been placed: a gang that gave way to it goes on (R302), and a launch that has started all its teams
leaves its queue. -/
def placeDone (s : State) (ctx l : Nat) : State :=
  let s := { s with chosen := s.chosen.filter (· != (ctx, l)),
                    launches := s.launches.map fun (e : (Nat × Nat) × Launch) =>
                      if e.2.yieldTo == some (ctx, l) then (e.1, { e.2 with yieldTo := none }) else e }
  match s.launchOf ctx l with
  | some x => if x.next ≥ x.rcd.total then leaveQueue s ctx l else s
  | none => s

/-- What a core still lacks for its claims: none while a move is in progress, or while it is to be handed over first (R346). -/
def claimState (s : State) (c l : Nat) (r : LRec) : Option Balance :=
  if (s.core c).move.isSome || handoverDue s c then none else some (balanceOf s c r ((claimsOn s c).erase (l, r)))

/-- Starts the next move of a core's claims, if they need one and none is in progress. -/
def claimMove (s : State) (c l : Nat) (r : LRec) : State :=
  match claimState s c l r with
  | some b => match nextMove b with
    | some (from_, to_, n) => startMove s c n from_ to_ none
    | none => s
  | none => s

def claimDone (s : State) (c l : Nat) (r : LRec) : Bool :=
  match claimState s c l r with
  | some b => b.short == 0
  | none => false

/-- TEAM_PLACE: one team of a launch that was taken: claimed and converted, or started. -/
def teamPlace (s : State) (ctx l : Nat) : State :=
  match s.launchOf ctx l with
  | none => s
  | some x =>
    if !s.chosen.contains (ctx, l) || x.rcd.gang > 1 then s
    else match x.reserve with
      | [] => match chooseCore s allCores ctx l x.rcd (claimsOn s) with
        | none => { s with chosen := s.chosen.filter (· != (ctx, l)) }
        | some (c, false) => placeDone (startTeam s ctx l x.next c) ctx l
        | some (c, true) => claimMove (s.setLaunch ctx l { x with reserve := [(x.next, c)] }) c l x.rcd
      | (lin, c) :: _ =>
        if claimDone s c l x.rcd then placeDone (startTeam (s.setLaunch ctx l { x with reserve := [] }) ctx l lin c) ctx l
        else claimMove s c l x.rcd

/-- GANG_RESERVE: the pass of R301, and the conversions it needs. -/
def gangReserve (s : State) (ctx l : Nat) : State :=
  match s.launchOf ctx l with
  | none => s
  | some x =>
    if !s.chosen.contains (ctx, l) || x.rcd.gang ≤ 1 then s
    else
      let res := if x.reserve.isEmpty then
          match gangPlan s ctx l x.rcd with
          | some cs => (List.range cs.length).zip cs |>.map fun e => (x.next + e.1, e.2)
          | none => []
        else x.reserve
      let s := s.setLaunch ctx l { x with reserve := res }
      if res.isEmpty then { s with chosen := s.chosen.filter (· != (ctx, l)) }
      else (res.map (·.2)).eraseDups.foldl (fun s c => claimMove s c l x.rcd) s

/-- Does every reservation of a gang hold all its sets? -/
def gangHolds (s : State) (l : Nat) (x : Launch) : Bool :=
  !x.reserve.isEmpty && (x.reserve.map (·.2)).eraseDups.all fun c => claimDone s c l x.rcd

/-- Has a team of this launch started in this cycle? -/
def startedNow (s : State) (ctx l : Nat) : Bool := s.teams.any fun e => e.2.ctx == ctx && e.2.launch == l && e.2.start == s.now

/-- May a gang start its next team: its commit has begun or may begin, and none of its teams has started in this cycle (R301)? -/
def commitReady (s : State) (ctx l : Nat) (x : Launch) : Bool :=
  decide (1 < x.rcd.gang) && (x.committing || gangHolds s l x) && !startedNow s ctx l

/-- GANG_COMMIT: the gang's next team starts, in ascending linear index, one in a cycle. -/
def gangCommit (s : State) (ctx l : Nat) : State :=
  match s.launchOf ctx l with
  | none => s
  | some x => match x.reserve with
    | [] => s
    | (lin, c) :: rest =>
      if !commitReady s ctx l x then s
      else
        let s := startTeam (s.setLaunch ctx l { x with reserve := rest, committing := !rest.isEmpty }) ctx l lin c
        if rest.isEmpty then placeDone s ctx l else s

/-- The state with a gang's reservations gone, for a head that comes first. -/
def unreserved (s : State) (ctx l : Nat) (rival : Option (Nat × Nat)) : State :=
  let s := s.modLaunch ctx l fun y => { y with reserve := [], yieldTo := rival }
  { s with chosen := s.chosen.filter (· != (ctx, l)) }

/-- The head of strictly lower class that fits only on what a gang holds: the first in R294's order. -/
def gangRival (s : State) (ctx l : Nat) (x : Launch) : Option Head :=
  let s' := unreserved s ctx l none
  (orderedHeads s).find? fun h => decide (h.l.rcd.cls < x.rcd.cls) && considered s h && predsDone s h && balanceOk s h.ctx &&
    !headFits s h && headFits s' h

/-- GANG_RESERVATION_RELEASE (R302): the gang gives way to that head, and reserves again after its team or gang has been placed. -/
def gangRelease (s : State) (ctx l : Nat) : State :=
  match s.launchOf ctx l with
  | none => s
  | some x =>
    if x.rcd.gang ≤ 1 || x.reserve.isEmpty || x.committing then s
    else match gangRival s ctx l x with
      | some h => unreserved s ctx l (some (h.ctx, h.id))
      | none => s

/-! ### Units (R341, R342) -/

/-- Status of a unit over its members' statuses (R319). -/
def statusOver (l : List Nat) : Nat :=
  if l.contains 4 then 4 else if l.contains 2 then 2 else if l.contains 3 then 3 else if l.contains 1 then 1 else 0

/-- Records reported for a unit: their number, and the address of the first with a code other than 0x1C (R342). -/
def unitRecords (s : State) (ctx level id : Nat) : Nat × DWord :=
  if level == 0 then match s.launchOf ctx id with
    | some x => (x.faults, x.first)
    | none => (0, 0)
  else match (s.ctx ctx).bind fun x => x.unitFaults.find? fun u => u.level == level && u.id == id with
    | some u => (u.faults, u.first)
    | none => (0, 0)

/-- What the coordinator remembers of a unit that completes now. -/
def unitResult (s : State) (ctx level id : Nat) : UnitDone :=
  let r := unitRecords s ctx level id
  { level := level, id := id, status := statusOver ((members s ctx level id).filterMap (·.2.done)), faults := r.1, first := r.2 }

/-- JOIN's four names (R342). -/
def joinWords (u : UnitDone) : List Word := [w32 u.status, w32 u.faults, loOf u.first, hiOf u.first]
def joinUnknown : List Word := [0x8000_0000, 0, 0, 0]
def joinSelf : List Word := [0x4000_0000, 0, 0, 0]

/-- Threads that wait in JOIN on a unit. -/
def joiners (s : State) (ctx level id : Nat) : List (Tid × Nat) :=
  s.threads.filterMap fun e => match e.2.status with
    | .waiting (.join seq v) => if e.2.ctx == ctx && unitOf v.toNat == some (level, id) then some (e.1, seq) else none
    | _ => none

/-- Delivers a completed unit to its joiners, who acquire at pool (R342); one that comes back after the unit has been forgotten finds
it unknown (R341). -/
def joinDeliver (s : State) (ctx level id : Nat) : State :=
  let d := match unitDone s ctx level id with
    | some u => joinWords u
    | none => joinUnknown
  let js := joiners s ctx level id
  let s := js.foldl (fun s e => acquire (finish s e.1 e.2 d []) e.1 .pool 0) s
  s.wake (js.map (·.1))

/-- An update of the counter that an open graph, phase or job names (R318). -/
def unitCount (s : State) (ctx level id add status : Nat) : State :=
  match (s.ctx ctx).bind fun x => x.counters.get (level, id) with
  | some va => counterUpdate s ctx 0 va.toNat add status
  | none => s

/-- A unit that completes is remembered, its own counter takes its status, and its joiners go on. -/
def unitComplete (s : State) (ctx level id : Nat) : State :=
  let u := unitResult s ctx level id
  let s := unitCount s ctx level id oneDone (2 ^ u.status)
  let s := s.modCtx ctx fun x =>
    { x with doneUnits := keepNewest Config.unitsKept (u :: x.doneUnits.filter (fun y => !(y.level == level && y.id == id))) }
  joinDeliver s ctx level id

/-! ### Completion (R319) -/

/-- Has a launch teams, Burin contexts, copies or sequences that have not finished, accesses that threads of it have left behind (R336),
or bound chunks that have neither completed nor ended (R319)? Where its teams have been stopped, the chunks it has not fired keep it no longer (log entry 32). -/
def launchBusy (s : State) (ctx l : Nat) (x : Launch) : Bool :=
  x.live != 0 || s.burins.any (fun e => e.2.ctx == ctx && e.2.launch == l) ||
  s.savedBurins.any (fun e => e.burin.ctx == ctx && e.burin.launch == l) ||
  s.copies.any (fun c => c.ctx == ctx && c.launch == l) ||
  s.gattns.any (fun g => g.ctx == ctx && g.launch == l) ||
  s.orphans.any (fun e => e.2.1.ctx == ctx && e.2.1.launch == l) ||
  (!x.stopped && chunksOpen s ctx l x.rcd)

def launchOver (s : State) (ctx l : Nat) (x : Launch) : Bool :=
  x.done.isNone && (x.next ≥ x.rcd.total || x.cancelled || x.killed || x.severed.isSome) && !launchBusy s ctx l x

def launchStatus (x : Launch) : Nat :=
  if x.severed.isSome then 4 else if x.killed then 2 else if x.cancelled then 3 else if x.marked then 1 else 0

/-- R400's record: which teams exited before the fence. -/
def severedRec (s : State) (ctx l : Nat) (x : Launch) : FRec :=
  let bm := (List.range x.rcd.total).map (x.severed.getD []).contains
  { code := 0x15, level := 2, engine := 8, flags := 0, ctx := ctx, launch := w64 l, team := 0xFFFF_FFFF,
    thread := 0xFFFF_FFFF, pc := 0, addr := 0, progress := BitVec.ofNat 128 (natOfBits (bm.take 128)),
    time := w64 (s.clkAt 0), ext := bm.drop 128 }

/-- Every core that serves a context writes back: the stores of its launches are performed at their homes. -/
def releaseCtx (s : State) (ctx : Nat) : State :=
  ((s.cores.filter fun e => e.2.ctx == ctx).map (·.1)).foldl (fun s c => (coreRelease s c .pool 0).1) s

/-- The units of a launch that completes, level by level: each counts the member below it that has finished, if one has, and
completes with its last member (R318, R319). -/
def unitsUp (r : LRec) (ctx : Nat) (s : State) (below : Bool) : List Nat → State
  | [] => s
  | level :: more =>
    let id := unitSel level r
    if id == 0 then unitsUp r ctx s false more
    else
      let s := if below then unitCount s ctx level id oneUnit 0 else s
      if unitRunning s ctx level id then unitsUp r ctx s false more else unitsUp r ctx (unitComplete s ctx level id) true more

/-- LAUNCH_COMPLETE. -/
def launchComplete (s : State) (ctx l : Nat) : State :=
  match s.launchOf ctx l with
  | none => s
  | some x =>
    if !launchOver s ctx l x then s
    else
      let s := leaveQueue s ctx l
      let s := if x.severed.isSome then postLaunch s ctx l (severedRec s ctx l x) else s
      let s := releaseCtx s ctx
      let st := launchStatus ((s.launchOf ctx l).getD x)
      let s := dropChunks (s.modLaunch ctx l fun x => { x with done := some st }) ctx l
      let s := counterUpdate s ctx (w64 l) x.rcd.counter.toNat oneDone (2 ^ st)
      unitsUp x.rcd ctx (unitComplete s ctx 0 l) true [1, 2, 3]

/-! ### Cancel (R320) -/

/-- Discards the saved teams and Burin contexts of a launch. -/
def dropSaved (s : State) (ctx l : Nat) : State :=
  let gone := s.saved.filter fun v => v.team.ctx == ctx && v.team.launch == l
  let s := { s with saved := s.saved.filter (fun v => !(v.team.ctx == ctx && v.team.launch == l)),
                    savedBurins := s.savedBurins.filter (fun v => !(v.burin.ctx == ctx && v.burin.launch == l)) }
  let out := (gone.filter fun v => !v.team.warps.isEmpty).map (·.team.lin)
  s.modLaunch ctx l fun x => { x with ended := out ++ x.ended, live := x.live - out.length }

/-- Stops everything of a launch: its threads act as EXIT, its Burin contexts end. -/
def stopLaunch (s : State) (ctx l : Nat) : State :=
  let s := leaveQueue s ctx l
  let mine := (s.threads.filter fun e => e.2.ctx == ctx && e.2.launch == l && (e.1.isCore || e.1.isBurin)).map (·.1)
  (byOrder s mine).foldl exitThread (dropSaved s ctx l)

def cancelLaunch (s : State) (ctx l : Nat) : State :=
  match s.launchOf ctx l with
  | none => s
  | some x => if x.done.isSome then s else stopLaunch (s.setLaunch ctx l { x with cancelled := true }) ctx l

/-- A cancel of a unit takes every queued or running member. -/
def cancelUnit (s : State) (ctx v : Nat) : State :=
  match unitOf v with
  | none => s
  | some (level, id) => (members s ctx level id).foldl (fun s e => cancelLaunch s ctx e.1) s

/-! ### Clock steps (R317) -/

/-- The ceiling of a core's clock: its die's (R405). -/
def ceilingOf (s : State) (c : Nat) : Nat := (s.die (c / Config.coresPerDie)).ceiling

/-- CLOCK_STEP_APPLY: a step that a ranking asked for, under the die's ceiling. -/
def clockStep (s : State) (c : Nat) : State :=
  match (s.core c).clkNext with
  | some v => s.modCore c fun x => x.setClk s.now (min v (ceilingOf s c))
  | none => s

/-- One step toward 4.0 GHz. -/
def towardNominal (ceiling mhz : Nat) : Nat := if mhz < 4000 then stepUp ceiling mhz else if 4000 < mhz then mhz - 100 else mhz

/-- CLOCK_DRIFT: 100 µs with no phase of R317. -/
def driftDue (s : State) (c : Nat) : Bool :=
  let x := s.core c
  x.ctx != 0 && x.clk != towardNominal (ceilingOf s c) x.clk &&
  decide (max x.lastPhase x.since + 100 * Config.cyclesPerUs ≤ s.now)

def clockDrift (s : State) (c : Nat) : State :=
  if driftDue s c then s.modCore c fun x => { x.setClk s.now (towardNominal (ceilingOf s c) x.clk) with lastPhase := s.now }
  else s

end Sys2Proof.Machine
end

