-- ==== Sys2Proof/Machine/Save.lean ====
section
/-!
DEFINITION. Pre-emption (R393, R394), saves of teams and Burin contexts (R194, R395), resumption (R396), residency exchanges
(R316).
-/
namespace Sys2Proof.Machine

/-! ### Units: a team, or its gang -/

/-- First linear index and size of a team's gang. -/
def gangSpan (s : State) (ctx l lin : Nat) : Nat × Nat :=
  let g := max (((s.launchOf ctx l).map (·.rcd.gang)).getD 1) 1
  (lin / g * g, g)

/-- Does a team belong to the gang of team `lin`? -/
def inUnit (s : State) (ctx l lin : Nat) (tm : Team) : Bool :=
  let (a, g) := gangSpan s ctx l lin
  tm.ctx == ctx && tm.launch == l && decide (a ≤ tm.lin ∧ tm.lin < a + g)

/-- The resident teams that are saved together with a team: keys and teams, by linear index. -/
def unitTeams (s : State) (tm : Team) : List ((Nat × Nat) × Team) :=
  sortBy (fun e => e.2.lin) (s.teams.filter fun e => inUnit s tm.ctx tm.launch tm.lin e.2)

/-- Every non-exited thread of the teams of a unit. -/
def unitThreads (s : State) (us : List ((Nat × Nat) × Team)) : List (Tid × Thread) :=
  us.flatMap fun e => s.liveThreads e.2.ctx e.2.launch e.2.lin

/-! ### PREQ (R393) -/

/-- The state as if a team had left its core, for the fit alone. -/
def without (s : State) (key : Nat × Nat) : State :=
  let c := key.1
  let s := { s with teams := s.teams.del key }
  let idle (b : Burin) : Bool := !((s.teamsOn c).any fun e => e.2.ctx == b.ctx && e.2.launch == b.launch)
  let s := { s with burins := s.burins.filter fun e => !(e.1.1 == c && idle e.2) }
  if (s.teamsOn c).isEmpty && (s.burinsOn c).isEmpty then s.setCore c Core.free else s

/-- Teams of some cores whose launches have a higher class number, youngest first, the lower linear index first among equals. -/
def victims (s : State) (cores : List Nat) (cls : Nat) : List (Nat × Nat) :=
  let ts := s.teams.filter fun e => cores.contains e.1.1 && !e.2.warps.isEmpty &&
    decide (((s.launchOf e.2.ctx e.2.launch).map (·.rcd.cls)).getD 0 > cls)
  (sortBy (fun e => s.now - e.2.start) (sortBy (fun e => e.2.lin) ts)).map (·.1)

/-- The fewest victims, taken in order, with which a test passes. -/
def enough (fits : State → Bool) (s : State) : List (Nat × Nat) → List (Nat × Nat) → Option (List (Nat × Nat))
  | taken, rest =>
    match rest with
    | [] => if fits s then some taken else none
    | k :: ks => if fits s then some taken else enough fits (without s k) (taken ++ [k]) ks

/-- Victims for a head: on the lowest core, or within the lowest die for a gang, that they make fit. -/
def preqVictims (s : State) (h : Head) : Option (List (Nat × Nat)) :=
  let r := h.l.rcd
  if r.gang ≤ 1 then allCores.findSome? fun c =>
    enough (fun s => (teamFits s c h.ctx h.id r (claimsOn s c)).isSome) s [] (victims s [c] r.cls)
  else (List.range Config.dies).findSome? fun d =>
    enough (fun s => (gangPlanGo s d h.ctx h.id r r.gang []).isSome) s [] (victims s (dieCores d) r.cls)

/-- Raises PREQ for every team of a unit where it is not raised. -/
def raisePreq (s : State) (key : Nat × Nat) : State :=
  match s.teams.get key with
  | none => s
  | some tm => (unitTeams s tm).foldl (fun s e => s.modTeam e.1 fun x => { x with preq := x.preq.orElse fun _ => some s.now }) s

/-- PREQ_RAISE: a head held back by the fit alone for 20 µs. -/
def preqRaise (s : State) (ctx q : Nat) : State :=
  match (heads s).find? fun h => h.ctx == ctx && h.q == q with
  | none => s
  | some h => match h.l.ineligible with
    | none => s
    | some t =>
      if t + 20 * Config.cyclesPerUs > s.now then s
      else match preqVictims s h with
        | some ks => ks.foldl raisePreq s
        | none => s

/-! ### Stopping (R394) -/

def Status.isWaiting : Status → Bool
  | .waiting _ => true
  | _ => false

/-- Has a thread stopped for a save? -/
def Status.savable (st : Status) : Bool := st == .yielded || st == .stopped || st == .exited || st.isWaiting

/-- Stops a thread before its next issue; one that waits stops in its wait. -/
def holdThread (s : State) (t : Tid) : State :=
  match s.thread t with
  | some th => if th.status.savable then s
    else ((leaveBins (s.leaveGroups t) t).modThread t fun th => { th with status := .yielded })
  | none => s

/-- The record of a forced save. -/
def forcedRec (s : State) (tm : Team) : FRec :=
  { code := 0x1B, level := 6, engine := 10, flags := 0, ctx := tm.ctx, launch := w64 tm.launch, team := w32 tm.lin,
    thread := 0xFFFF_FFFF, pc := 0, addr := 0, progress := 0, time := w64 (s.clkAt 0), ext := [] }

/-- The threads of a unit stop. -/
def holdUnit (s : State) (us : List ((Nat × Nat) × Team)) : State := (unitThreads s us).foldl (fun s e => holdThread s e.1) s

/-- A forced save of a unit begins: its threads stop before their next issue, those whose waits end from now on too, and each of its
teams is recorded, once. -/
def forceUnit (s : State) (us : List ((Nat × Nat) × Team)) : State :=
  us.foldl (fun s e => if e.2.warps.isEmpty || e.2.saving then s
    else ((postCtx s e.2.ctx (forcedRec s e.2)).1).modTeam e.1 fun x => { x with saving := true }) (holdUnit s us)

def allSavable (s : State) (us : List ((Nat × Nat) × Team)) : Bool := (unitThreads s us).all fun e => e.2.status.savable

/-- FORCED_SAVE: the deadline of R394 has passed and the team has not fully yielded. -/
def forcedSave (s : State) (c slot : Nat) : State :=
  match s.teams.get (c, slot) with
  | none => s
  | some tm => match tm.preq with
    | none => s
    | some t =>
      let us := unitTeams s tm
      let d := ((s.launchOf tm.ctx tm.launch).map (·.rcd.deadline)).getD 0
      if tm.saving || t + 256 * d > s.now || allSavable s us then s else forceUnit s us

/-! ### Saving (R194, R395) -/

/-- The instruction a thread waits in. -/
def waitSeq : Status → Option Nat
  | .waiting (.waita q _ _ _ _ _ _ _) => some q
  | .waiting (.barrier q _ _ _ _) => some q
  | .waiting (.tbar q) => some q
  | .waiting (.gbar q) => some q
  | .waiting (.join q _) => some q
  | .waiting (.spawn q _ _) => some q
  | _ => none

/-- Is the wait a thread stands in its only outstanding instruction, but for copies that touch no scratch, which go on (R394)? -/
def quiet (s : State) (th : Thread) : Bool :=
  th.outs.all fun o => waitSeq th.status == some o.seq ||
    s.copies.any fun c => c.issuedBy th && c.seq == o.seq && !c.scratch

/-- Does a Burin have only queued forms, armed MARMs and its wait outstanding, and no contribution under way from it or to it? One that
has been accepted and not sent is saved with its form (R194). -/
def burinQuiet (s : State) (c k : Nat) : Bool :=
  match s.burin c k, s.thread (.burin c k) with
  | some b, some th =>
    th.status.savable && b.inbox.all (!·.sent) && !sentFrom s b.id &&
    th.outs.all fun o => waitSeq th.status == some o.seq || b.queue.any (·.1 == o.seq) || b.accs.any (·.armSeq == some o.seq)
  | _, _ => false

/-- The Burin contexts that a unit's save takes along: those of its launch on cores where no other team of it stays. -/
def unitBurins (s : State) (us : List ((Nat × Nat) × Team)) : List (Nat × Nat) :=
  (s.burins.filter fun e => us.any fun u => u.1.1 == e.1.1 && u.2.ctx == e.2.ctx && u.2.launch == e.2.launch &&
    !((s.teamsOn e.1.1).any fun x => x.2.ctx == u.2.ctx && x.2.launch == u.2.launch && !us.any fun v => v.2.lin == x.2.lin)).map (·.1)

/-- A request that is no longer needed is taken back. -/
def unrequest (s : State) (us : List ((Nat × Nat) × Team)) : State :=
  let keep := unitBurins s us
  let back := (s.burins.filter fun e => e.2.saveReq && !keep.contains e.1 &&
    us.any fun u => u.1.1 == e.1.1 && u.2.ctx == e.2.ctx && u.2.launch == e.2.launch).map (·.1)
  back.foldl (fun s k =>
    let t : Tid := .burin k.1 k.2
    let s := s.modBurin k.1 k.2 fun b => { b with saveReq := false }
    match s.thread t with
    | some th => if th.status == .yielded then s.wake [t] else s
    | none => s) s

/-- Is a Burin context stopped for a save that has been requested? One whose wait ends after the request is stopped then (R194). -/
def burinHeld (s : State) (k : Nat × Nat) : Bool :=
  burinAsked s (.burin k.1 k.2) && match s.thread (.burin k.1 k.2) with
    | some th => th.status.savable
    | none => true

/-- The save of a Burin context is requested: it issues nothing further. -/
def requestBurin (s : State) (k : Nat × Nat) : State :=
  (holdThread s (.burin k.1 k.2)).modBurin k.1 k.2 fun b => { b with saveReq := true, header := none }

/-- Tile bytes that a Burin context's descriptors cover. -/
def coveredTile (s : State) (c : Nat) (b : Burin) : List (Nat × Byte) :=
  (s.core c).tile.filter fun x => (burinCovers s b).any fun r => decide (r.1 ≤ x.1 ∧ x.1 < r.2)

/-- Pieces of them with an uncorrectable error. -/
def coveredBad (s : State) (c : Nat) (b : Burin) : List (Nat × Nat) :=
  (s.core c).badRows.filter fun e => (burinCovers s b).any fun r =>
    decide (r.1 < e.1 * Config.setBytes + 64 * e.2 + 64) && decide (e.1 * Config.setBytes + 64 * e.2 < r.2)

def saveBurin (s : State) (k : Nat × Nat) : State :=
  match s.burin k.1 k.2, s.thread (.burin k.1 k.2) with
  | some b, some th =>
    let v : SavedBurin := { thread := th, burin := { b with saveReq := false }, tile := coveredTile s k.1 b,
                            bad := coveredBad s k.1 b }
    { s with savedBurins := s.savedBurins ++ [v],
             burins := s.burins.del k, threads := s.threads.del (.burin k.1 k.2) }
  | _, _ => s

/-- Place of a warp slot in a team. -/
def warpIndex (tm : Team) (slot : Nat) : Nat := (tm.warps.findIdx? (· == slot)).getD 0

/-- Stream stores are performed, prefetched elements are dropped, and the release at dev is made; a lost home stops the thread
before its next slot. -/
def beforeSave (s : State) (t : Tid) : State :=
  let (s, e) := release s t .dev 0
  let s := discardFetched s t
  if e == 0 then s
  else s.modThread t fun th => { th with deferred := th.deferred.orElse fun _ => some (threadRec s t th e 0x80 th.pc 0 0) }

/-- Saves one team and frees what it held. -/
def saveTeam (s : State) (key : Nat × Nat) : State :=
  match s.teams.get key with
  | none => s
  | some tm =>
    let c := key.1
    let mine (k : BarKey) : Bool := k.ctx == tm.ctx && k.launch == tm.launch && k.team == tm.lin
    let ths := s.threads.filterMap fun e => match e.1 with
      | .core k sl l => if k == c && tm.warps.contains sl then some (warpIndex tm sl, l, e.2) else none
      | _ => none
    let cells := s.cells.filterMap fun e =>
      if e.1.core == c && tm.warps.contains e.1.slot then some (warpIndex tm e.1.slot, e.1.quad, e.1.pos, e.2) else none
    let bu := (s.burinsOn c).find? fun b => b.ctx == tm.ctx && b.launch == tm.launch
    let sv : SavedTeam := { since := s.now, team := tm, burin := bu.map (·.id), threads := ths, cells := cells,
                            barriers := (s.core c).barriers.filter fun b => mine b.key, broken := [],
                            bad := ((s.core c).badRows.filter fun e => tm.map.contains e.1).map fun e => (tm.map.idxOf e.1, e.2) }
    let s := dropThreads { s with saved := s.saved ++ [sv], teams := s.teams.del key } fun t _ => match t with
      | .core k sl _ => k == c && tm.warps.contains sl
      | _ => false
    let s := { s with cells := s.cells.filter fun e => !(e.1.core == c && tm.warps.contains e.1.slot) }
    s.modCore c fun x => { x with barriers := x.barriers.filter (fun b => !mine b.key),
                                  stopList := x.stopList.filter fun t => match t with
                                    | .core _ sl _ => !tm.warps.contains sl
                                    | _ => true }

/-- TEAM_SAVE: a team for which PREQ is raised, all of whose threads have yielded, wait or are stopped, with nothing of it
outstanding; a gang as one. Its Burin context is asked to stop first. -/
def teamSave (s : State) (c slot : Nat) : State :=
  match s.teams.get (c, slot) with
  | none => s
  | some tm =>
    let us := unitTeams s tm
    let s := if tm.saving then holdUnit s us else s
    if tm.preq.isNone || !allSavable s us then s
    else
      let s := (unitThreads s us).foldl (fun s e => settle s e.1) s
      let busy := (unitThreads s us).any fun e => !quiet s e.2
      let copies := s.copies.any fun x => x.scratch && us.any fun u => x.ctx == u.2.ctx && x.launch == u.2.launch && x.team == u.2.lin
      if busy || copies then s
      else
        let s := unrequest s us
        let bs := unitBurins s us
        if bs.any (!burinHeld s ·) then bs.foldl requestBurin s
        else if !bs.all fun k => burinQuiet s k.1 k.2 then s
        else
          let s := (unitThreads s us).foldl (fun s e => beforeSave s e.1) s
          let s := us.foldl (fun s u => saveTeam s u.1) s
          bs.foldl saveBurin s

/-! ### Resumption (R396) -/

/-- The saved teams of a unit, by linear index. -/
def savedUnit (s : State) (ctx l lin : Nat) : List SavedTeam :=
  sortBy (fun v => v.team.lin) (s.saved.filter fun v => inUnit s ctx l lin v.team)

/-- The saved Burin context of a saved team: that of the core where it was saved, unless another team has taken it along. -/
def savedBurinOf (s : State) (v : SavedTeam) : Option SavedBurin := s.savedBurins.find? fun x => some x.burin.id == v.burin

/-- Bytes of the tile role that a Burin context's footprint reaches. -/
def footprint (s : State) (b : Burin) : Nat := maxOf ((burinCovers s b).map (·.2))

def holdsBurin (s : State) (c ctx l : Nat) : Bool := (s.burinsOn c).any fun b => b.ctx == ctx && b.launch == l

/-- What R396 asks beside the fit: barrier room, and for a saved Burin context its tile sets and a core that holds no other
Burin context of the launch (R181). `objs` armed objects and the Burin contexts `bus` of teams placed before go there too. -/
def resumeRoom (s : State) (v : SavedTeam) (c objs : Nat) (bus : List Nat) : Bool :=
  decide ((s.core c).barriers.length + v.barriers.length + objs ≤ Config.barrierObjects) &&
  match savedBurinOf s v with
  | some x => !holdsBurin s c v.team.ctx v.team.launch && decide ((s.burinsOn c).length < 4) &&
              bus.all (· == x.burin.id) && decide (footprint s x.burin ≤ tileBytes s c)
  | none => true

/-- Does a head wait for the room of some core: it would be placed there now, or it fits nowhere and would fit there once teams of a
higher class number have left (R393, R396)? -/
def wantsRoom (s : State) (h : Head) (c : Nat) : Bool :=
  let r := h.l.rcd
  if r.gang ≤ 1 then match chooseCore s allCores h.ctx h.id r (claimsOn s) with
    | some (k, _) => k == c
    | none => (enough (fun s => (teamFits s c h.ctx h.id r (claimsOn s c)).isSome) s [] (victims s [c] r.cls)).isSome
  else match gangPlan s h.ctx h.id r with
    | some cs => cs.contains c
    | none =>
      let d := c / Config.coresPerDie
      (enough (fun s => (gangPlanGo s d h.ctx h.id r r.gang []).isSome) s [] (victims s (dieCores d) r.cls)).isSome

/-- Does a head of strictly lower class wait for the room of one of these cores (R396)? One that is being placed holds its claims. -/
def headWaits (s : State) (cls : Nat) (cs : List Nat) : Bool :=
  (heads s).any fun h => decide (h.l.rcd.cls < cls) && predsDone s h && balanceOk s h.ctx && cs.any (wantsRoom s h)

/-- A saved thread's wait starts anew: WAITA reads again at once. -/
def restartWait (now : Nat) (st : Status) : Status :=
  match st with
  | .waiting (.waita q cc w a b lim seen _) => .waiting (.waita q cc w a b lim seen now)
  | st => st

/-- The Burin context of a saved team goes on in a free context of its core. -/
def resumeBurin (s : State) (c : Nat) (v : SavedTeam) (x : Launch) : State :=
  if holdsBurin s c v.team.ctx v.team.launch then s
  else match savedBurinOf s v with
    | none => burinWith s c v.team.ctx v.team.launch x
    | some v =>
      let k := ((List.range 4).find? fun k => !s.burins.has (c, k)).getD 0
      let t : Tid := .burin c k
      let s := { s with savedBurins := s.savedBurins.erase v }
      let s := (s.setBurin c k v.burin).setThread t { v.thread with status := restartWait s.now v.thread.status }
      let s := v.tile.foldl (fun s e => s.modCore c fun x => { x with tile := x.tile.put e.1 e.2 }) s
      let s := s.modCore c fun x => { x with badRows := x.badRows ++ v.bad.filter (!x.badRows.contains ·) }
      if v.thread.status == .yielded then s.wake [t] else s

/-- Waits that what happened meanwhile has already met. -/
def recheckWaits (s : State) (t : Tid) : State :=
  match s.thread t with
  | some th => match th.status with
    | .waiting (.join _ v) => match unitOf v.toNat with
      | some (level, id) => if unitRunning s th.ctx level id then s else joinDeliver s th.ctx level id
      | none => s
    | .waiting (.gbar _) => gbarCheck s th.ctx th.launch th.team
    | .waiting (.tbar _) => tbarCheck s th.ctx th.launch th.team
    | _ => s
  | none => s

/-- A saved cell takes a row of its bank again; where none is free its name goes to its slots, as a spill does (R22, R29), and a thread
whose slot fails a check stops as R430 says (DESIGN CHOICE, log entry 74). -/
def resumeCell (s : State) (k : CellKey) (c : Cell) : State :=
  if c.spilled then { s with cells := s.cells.set k c }
  else match s.freeSet k.core k.quad with
    | some m => noteAlloc { s with cells := s.cells.set k { c with set := m } } (.core k.core k.slot (4 * k.quad))
    | none =>
      let (s, bad) := spillWrites { s with cells := s.cells.set k { c with spilled := true } } k c
      bad.foldl (fun s b => noteSpillBad s b.1 b.2) s

/-- A saved team goes on on core c. One that has exited, saved with its gang, holds no team slot (R421). -/
def resumeOn (s : State) (v : SavedTeam) (c : Nat) (x : Launch) : State :=
  let tm := v.team
  let s := serve s c tm.ctx
  let ws := warpSlots s c tm.warps.length
  let slot (i : Nat) : Nat := ws.getD i 0
  let map := (s.spareScratch c).take (teamSets x.rcd)
  let s := (map.foldl (fun s m => clearSet s c m) s).setTeam (if tm.warps.isEmpty then endedKey s c else (c, freeTeamSlot s c))
    { tm with warps := ws, map := map, preq := none, blocked := none, saving := false, resident := s.now }
  let s := s.modCore c fun x => { x with badRows := v.bad.map (fun e => (map.getD e.1 0, e.2)) ++ x.badRows }
  let s := coreAcquire s c .dev 0
  let s := v.threads.foldl (fun s e =>
    s.setThread (.core c (slot e.1) e.2.1) { e.2.2 with status := restartWait s.now e.2.2.status }) s
  let s := v.cells.foldl (fun s e => resumeCell s ⟨c, slot e.1, e.2.1, e.2.2.1⟩ e.2.2.2) s
  let with_ (f : Status → Bool) : List Tid := (v.threads.filter fun e => f e.2.2.status).map fun e => .core c (slot e.1) e.2.1
  let s := s.modCore c fun x => { x with barriers := x.barriers ++ v.barriers, stopList := x.stopList ++ with_ (· == Status.stopped) }
  let s := { s with saved := s.saved.erase v }
  let s := s.wake (with_ (· == Status.yielded))
  (resumeBurin s c v x).modLaunch tm.ctx tm.launch fun x =>
    { x with burinCores := if x.burinCores.contains c then x.burinCores else c :: x.burinCores }

/-- The threads whose waits are looked at again when a team has resumed on a core: its own, and the Burin contexts there. -/
def resumedThreads (s : State) (tm : Team) (c : Nat) : List Tid :=
  ((s.liveThreads tm.ctx tm.launch tm.lin).map (·.1)) ++
    (s.burins.filter fun e => e.1.1 == c && e.2.ctx == tm.ctx && e.2.launch == tm.launch).map fun e => .burin c e.1.2

/-- Places a list of saved teams on their cores. Objects that were broken meanwhile release their waiters (R258). -/
def resumeUnit (s : State) (us : List (SavedTeam × Nat)) (x : Launch) : State :=
  let s := us.foldl (fun s u => resumeOn s u.1 u.2 x) s
  let s := us.foldl (fun s u => u.1.broken.foldl (fun s b => disarm s u.2 b b.trap true) s) s
  us.foldl (fun s u => (resumedThreads s u.1.team u.2).foldl recheckWaits s) s

/-- What a saved team needs of a core: one that has exited, saved with its gang, needs its scratch alone. -/
def SavedTeam.need (v : SavedTeam) (r : LRec) : LRec := if v.team.warps.isEmpty then { r with threads := 0, burin := 0 } else r

/-- What a core has for the teams of a list that are to resume there, all of them counted (R28, R298). -/
def resumeBalance (s : State) (r : LRec) (us : List (SavedTeam × Nat)) (c : Nat) : Balance :=
  match (us.filter (·.2 == c)).map (·.1) with
  | [] => balanceOf s c { r with threads := 0, burin := 0, scratch := 0 } (claimsOn s c)
  | v :: vs => balanceOf s c (v.need r) (claimsOn s c ++ vs.map fun u => (u.team.launch, u.need r))

/-- Starts the conversion that they need there. -/
def convertFor (s : State) (r : LRec) (us : List (SavedTeam × Nat)) (c : Nat) : State :=
  match nextMove (resumeBalance s r us c) with
  | some (from_, to_, n) => startMove s c n from_ to_ none
  | none => s

/-- The core of one saved team: among those with R396's room, by R299. -/
def resumeCore (s : State) (v : SavedTeam) (r : LRec) : Option Nat :=
  (chooseCore s (allCores.filter fun c => resumeRoom s v c 0 []) v.team.ctx v.team.launch (v.need r) (claimsOn s)).map (·.1)

/-- The cores of a die that the teams of a saved gang take, in order; `got` are the teams placed before. -/
def resumePlan (s : State) (d : Nat) (r : LRec) : List SavedTeam → List (SavedTeam × Nat) → Option (List Nat)
  | [], got => some (got.map (·.2))
  | v :: vs, got =>
    let on (c : Nat) : List SavedTeam := (got.filter (·.2 == c)).map (·.1)
    let room (c : Nat) : Bool := resumeRoom s v c (((on c).map fun u => u.barriers.length).foldl (· + ·) 0)
      ((on c).filterMap fun u => (savedBurinOf s u).map fun x => x.burin.id)
    let claims (c : Nat) : List (Nat × LRec) := claimsOn s c ++ ((on c).map fun u => (u.team.launch, u.need r))
    match chooseCore s ((dieCores d).filter room) v.team.ctx v.team.launch (v.need r) claims with
    | none => none
    | some (c, _) => resumePlan s d r vs (got ++ [(v, c)])

/-- The cores of a saved gang, all on the lowest die that fits it. -/
def resumeCores (s : State) (us : List SavedTeam) (r : LRec) : Option (List Nat) :=
  (List.range Config.dies).findSome? fun d => resumePlan s d r us []

/-- Where a saved team, or gang, may resume: the cores of its teams in order, and whether one needs conversion first; none where
nothing fits or a head waits for the room. -/
def resumeAt (s : State) (x : Launch) (us : List SavedTeam) : Option (List Nat × Bool) :=
  let place := match us with
    | [] => none
    | [v] => (resumeCore s v x.rcd).map fun c => [c]
    | us => resumeCores s us x.rcd
  match place with
  | some cs => if headWaits s x.rcd.cls cs then none else some (cs, cs.any fun c => (resumeBalance s x.rcd (us.zip cs) c).short != 0)
  | none => none

/-- The saved teams of a launch, each with its unit: the longest saved first, ties by linear index (R316). -/
def resumeOrder (s : State) (ctx l : Nat) : List SavedTeam :=
  sortBy (·.since) (sortBy (·.team.lin) (s.saved.filter fun v => v.team.ctx == ctx && v.team.launch == l))

/-- Does this unit come first of those of its launch that may resume? -/
def resumesFirst (s : State) (x : Launch) (ctx l lin : Nat) : Bool :=
  match (resumeOrder s ctx l).find? fun v => (resumeAt s x (savedUnit s ctx l v.team.lin)).isSome with
  | some v => (gangSpan s ctx l v.team.lin).1 == (gangSpan s ctx l lin).1
  | none => false

/-- TEAM_RESUME. -/
def teamResume (s : State) (ctx l lin : Nat) : State :=
  match s.launchOf ctx l with
  | none => s
  | some x =>
    let us := savedUnit s ctx l lin
    if !resumesFirst s x ctx l lin then s
    else match resumeAt s x us with
      | some (cs, false) => resumeUnit s (us.zip cs) x
      | some (cs, true) => cs.eraseDups.foldl (fun s c => convertFor s x.rcd (us.zip cs) c) s
      | none => s

/-! ### Residency exchange (R316) -/

/-- Resident teams of a launch. -/
def residents (s : State) (ctx l : Nat) : List ((Nat × Nat) × Team) :=
  s.teams.filter fun e => e.2.ctx == ctx && e.2.launch == l && !e.2.warps.isEmpty

/-- Since when a team's unit has been blocked; none when it is not. -/
def unitBlocked (s : State) (tm : Team) : Option Nat :=
  ((unitTeams s tm).filter fun e => !e.2.warps.isEmpty).foldl (fun a e => match a, e.2.blocked with
    | some x, some y => some (max x y)
    | _, _ => none) (some 0)

/-- Is a saved team ready to resume: it is saved with its whole gang, and its launch goes on (DESIGN CHOICE, log entry 65: R316 does not
say what ready means)? -/
def savedReady (s : State) (v : SavedTeam) : Bool :=
  let (a, g) := gangSpan s v.team.ctx v.team.launch v.team.lin
  match s.launchOf v.team.ctx v.team.launch with
  | some x => !x.cancelled && !x.killed && (List.range g).all fun i =>
      x.ended.contains (a + i) || (savedUnit s v.team.ctx v.team.launch v.team.lin).any fun u => u.team.lin == a + i
  | none => false

/-- Is an exchange due: every resident team blocked for XTHR, and a team saved out and ready to resume? -/
def exchangeDue (s : State) (ctx l : Nat) : Bool :=
  let xthr := ((s.ctx ctx).map (·.xthr)).getD 100
  let rs := residents s ctx l
  !rs.isEmpty && rs.all (fun e => match e.2.blocked with | some t => decide (t + xthr * Config.cyclesPerUs ≤ s.now) | none => false) &&
  s.saved.any fun v => v.team.ctx == ctx && v.team.launch == l && savedReady s v

/-- RESIDENCY_EXCHANGE: the unit blocked longest is forced out; the saved team that has waited longest then finds its room. -/
def residencyExchange (s : State) (ctx l : Nat) : State :=
  let s := noteBlocked s
  if !exchangeDue s ctx l then s
  else
    let rs := sortBy (fun e => (unitBlocked s e.2).getD s.now) (sortBy (fun e => e.2.lin) (residents s ctx l))
    match rs with
    | [] => s
    | e :: _ =>
      let us := unitTeams s e.2
      let s := forceUnit (raisePreq s e.1) us
      { s with teams := s.teams.map fun x =>
          if x.2.ctx == ctx && x.2.launch == l then (x.1, { x.2 with blocked := x.2.blocked.map fun _ => s.now }) else x }

end Sys2Proof.Machine
end

