-- ==== Sys2Proof/Machine/Recovery.lean ====
section
/-!
DEFINITION. Link loss and fenced dies (R399, R400), fatal errors and the impression (R403, R404), power and links (R399, R405,
R407).
-/
namespace Sys2Proof.Machine

/-! ### Fatal errors (R403, R404) -/

/-- What section 2 reports of a die: its number, corrected errors, link replays and retrains, then its poisoned sectors. -/
def dieLog (s : State) (d : Nat) : List Nat :=
  let x := s.die d
  [d, x.ecc, x.replays, x.retrains] ++ s.poison.filter fun cs => homeDie (cs * 64) == some d

/-- Section 3: a core's context, the length of its stop list, whether a PLATE move is in progress, then its launches. -/
def coreLog (s : State) (c : Nat) : List Nat :=
  let x := s.core c
  [c, x.ctx, x.stopList.length, if x.move.isSome then 1 else 0] ++ ((s.teamsOn c).map (·.2.launch)).eraseDups

/-- A launch's state as section 4 reports it: 0 queued, 1 placed in part or whole, 2 complete. -/
def launchState (x : Launch) : Nat := if x.done.isSome then 2 else if x.next == 0 then 0 else 1

/-- Section 4: each launch of a context with its state. -/
def queueLog (s : State) : List (List Nat) := s.launches.map fun e => [e.1.1, e.2.rcd.queue, e.1.2, launchState e.2]

/-- Section 5: the links of the dies, then those of the stacks. -/
def linkLog (s : State) : List (List Nat) :=
  (List.range Config.dies).map (fun d => [d, if (s.die d).fenced then 1 else 0, (s.die d).failed]) ++
  s.pkg.links.map fun k => [k.identity.toNat, if k.quickOk then 1 else 0, if k.fullOk then 1 else 0]

/-- Sections of the impression: type and contents (R404 gives what each reports, the layout is free). No record is in flight between
two steps. -/
def impressionSections (s : State) : List (Nat × List Byte) :=
  [(1, []), (2, Config.impressionLayout 2 ((List.range Config.dies).map (dieLog s))),
   (3, Config.impressionLayout 3 (allCores.map (coreLog s))), (4, Config.impressionLayout 4 (queueLog s)),
   (5, Config.impressionLayout 5 (linkLog s))]

/-- The section table and the contents, from an offset on. -/
def sectionTable (off : Nat) : List (Nat × List Byte) → List Byte
  | [] => []
  | (k, b) :: rest => bytesOf 8 k ++ bytesOf 4 off ++ bytesOf 4 b.length ++ sectionTable (off + b.length) rest

def impressionBytes (s : State) (code source seq : Nat) : List Byte :=
  let ss := impressionSections s
  let head := 0x28 + 16 * ss.length
  let body := ss.flatMap (·.2)
  bytesOf 4 1 ++ bytesOf 4 ss.length ++ bytesOf 8 (head + body.length) ++ bytesOf 4 code ++ bytesOf 2 source ++ bytesOf 2 0 ++
  bytesOf 8 (refTime s) ++ bytesOf 8 seq ++ sectionTable head ss ++ body

/-- The notice of a fatal error to every open session. -/
def fatalNotices (s : State) (code : Nat) : State :=
  s.pkg.sessions.foldl (fun s e => send s
    { session := e.1, code := 0xFF, status := 0, ctx := 0, number := 0, body := bytesOf 4 1 ++ bytesOf 4 code }) s

/-- Is the package running, or stopped in recovery mode? -/
def Pkg.up (p : Pkg) : Bool := p.mode == .ready || p.mode == .recovery

/-- Does the package run, be it that a boot is under way (R403, R405, R407)? -/
def Pkg.on (p : Pkg) : Bool := p.up || p.boot.isSome

/-- FATAL_ERROR: everything stops, a boot too; notices, the audit record, the impression. -/
def fatal (s : State) (code source : Nat) : State :=
  let s := fatalNotices s code
  let imp := impressionBytes s code source s.pkg.audit.next
  let s := auditAppend s 0x0040 source 0 (w64 code)
  { s with issuing := none, pkg := { s.pkg with mode := .fatal code, boot := none, impression := some imp, impFetched := false } }

/-- A fatal error of a package that is up or boots. -/
def fatalWhenOn (s : State) (code source : Nat) : State := if s.pkg.on then fatal s code source else s

/-- The code of an internal cause: 0x80 and above (R404). -/
def internal (cause : Nat) : Nat := 0x80 + (Config.internalCode cause).toNat

/-! ### Power (R405) -/

/-- A die's ceiling one step down, and its cores' clocks under it. -/
def ceilingDown (s : State) (d : Nat) : State :=
  let top := stepDown (s.die d).ceiling
  (dieCores d).foldl (fun s c => if (s.core c).clk > top then s.modCore c fun x => x.setClk s.now top else s)
    (s.modDie d fun x => { x with ceiling := top })

def ceilingUp (s : State) (d : Nat) : State := s.modDie d fun x => { x with ceiling := stepUp 4400 x.ceiling }

/-! ### Links (R399) -/

def linkReplay (s : State) (d : Nat) : State := s.modDie d fun x => { x with replays := x.replays + 1 }

/-- A retrain succeeds, or is the next to fail. -/
def linkRetrain (s : State) (d : Nat) (ok : Bool) : State :=
  s.modDie d fun x => { x with retrains := x.retrains + 1, failed := if ok then 0 else x.failed + 1 }

/-! ### Fencing a die (R399, R400) -/

def onDie (d : Nat) (c : Nat) : Bool := c / Config.coresPerDie == d

/-- Does a leaf map memory homed on a die? -/
def leafOn (d : Nat) (e : Leaf) : Bool :=
  (List.range (min 8 (max 1 (e.size / 0x20_0000)))).any fun i => homeDie (e.base + i * 0x20_0000) == some d

/-- Is a granted range in one of a die's stacks? -/
def rangeOn (d base size : Nat) : Bool :=
  let meets (a n : Nat) : Bool := decide (a < base + size ∧ base < a + n)
  meets (2 * d * 0x10_0000_0000) 0x20_0000_0000 || meets (0x0100_0000_0000 + d * 0x20_0000_0000) 0x20_0000_0000 ||
  meets (0x0200_0000_0000 + d * 0x20_0000_0000) 0x20_0000_0000

/-- Is a die that whose Press reduces a chunk: the home of its results (R285)? -/
def pressOn (s : State) (d : Nat) (x : Chunk) : Bool :=
  match (s.launchOf x.ctx x.launch).bind fun y => bindingOf y.rcd x.bind with
  | none => false
  | some b => match (readCDesc s x.ctx b.desc).2 with
    | .error _ => false
    | .ok r => pressVia s x.ctx r x.chunk == .die d

/-- The chunks that a die's Press has still to reduce. -/
def pressChunks (s : State) (d : Nat) : List Chunk := s.chunks.filter fun x => !x.done && pressOn s d x

/-- The die that an outstanding instruction has still to hear from. -/
def Await.from (a : Await) : Nat :=
  match a with
  | .reply d _ => d
  | .ack d _ _ => d

/-- Is a context affected by the fence of a die? -/
def affected (s : State) (d ctx : Nat) (x : Ctx) : Bool :=
  s.teams.any (fun e => e.2.ctx == ctx && onDie d e.1.1) || s.burins.any (fun e => e.2.ctx == ctx && onDie d e.1.1) ||
  (pressChunks s d).any (·.ctx == ctx) || s.threads.any (fun e => e.2.ctx == ctx && e.2.outs.any fun o => o.awaits.any (·.from == d)) ||
  s.orphans.any (fun e => e.2.1.ctx == ctx && e.2.2.awaits.any (·.from == d)) ||
  x.granted.any (fun r => rangeOn d r.1 r.2) || s.gravers.any (fun e => e.2.owner == ctx && e.1 / 1024 == d) ||
  (leavesOf x).any (leafOn d)

/-- The record of a fence, of LEVEL 7. -/
def fenceRec (s : State) (ctx : Nat) : FRec :=
  { code := 0x15, level := 7, engine := 8, flags := 0, ctx := ctx, launch := 0, team := 0xFFFF_FFFF, thread := 0xFFFF_FFFF,
    pc := 0, addr := 0, progress := 0, time := w64 (s.clkAt 0), ext := [] }

/-- Does a launch hold reservations on the die's cores? -/
def reservesOn (d : Nat) (x : Launch) : Bool := x.reserve.any fun e => onDie d e.2

/-- A launch with a team on the die is severed: it places no further team, and the teams there are gone. So is a gang that was starting
there; reservations on the die's cores are given up. -/
def severLaunches (s : State) (d : Nat) : State :=
  let hit := (s.teams.filter fun e => onDie d e.1.1).map fun e => (e.2.ctx, e.2.launch)
  let hit := (hit ++ ((s.burins.filter fun e => onDie d e.1.1).map fun e => (e.2.ctx, e.2.launch)) ++
    ((s.launches.filter fun e => reservesOn d e.2).map (·.1))).eraseDups
  hit.foldl (fun s k =>
    let gone := (s.teams.filter fun e => onDie d e.1.1 && e.2.ctx == k.1 && e.2.launch == k.2 && !e.2.warps.isEmpty).length
    let starting := (s.launchOf k.1 k.2).any fun x => x.committing && reservesOn d x
    let cut := gone != 0 || starting
    let s := s.modLaunch k.1 k.2 fun x =>
      { x with severed := if x.severed.isNone && cut then some x.ended else x.severed, live := x.live - gone }
    if cut then leaveQueue s k.1 k.2
    else if (s.launchOf k.1 k.2).any (reservesOn d) then unreserved s k.1 k.2 none else s) s

/-- The fault of a reply that never comes: zero in every destination, 0x15 at the data (R378). -/
def loseReply (s : State) (d : Nat) (t : Tid) (th : Thread) (o : Out) : Out :=
  match o.awaits.find? (fun a => match a with | .reply k _ => k == d | .ack _ _ _ => false) with
  | some (.reply _ a) => { o with names := o.names.map fun e => (e.1, 0), value := 0, todo := none,
                                  late := o.late.orElse fun _ => some (threadRec s t th 0x15 0x80 o.pc a 0) }
  | _ => o

/-- The members whose stores the die has not acknowledged. -/
def lostMembers (d : Nat) (o : Out) : List Nat :=
  o.awaits.filterMap fun a => match a with
    | .ack k m _ => if k == d then some m else none
    | .reply _ _ => none

/-- They count as absent (R426). -/
def loseMembers (d : Nat) (o : Out) : Out :=
  match o.todo with
  | some (.multi g b w v left absent) => { o with todo := some (.multi g b w v left (absent ++ lostMembers d o)) }
  | _ => o

/-- What is left of an outstanding instruction that awaited something from the die. -/
def loseOut (s : State) (d : Nat) (t : Tid) (th : Thread) (o : Out) : Out :=
  { loseReply s d t th (loseMembers d o) with awaits := o.awaits.filter fun a => a.from != d }

/-- What a thread had outstanding at the die. -/
def loseAwaits (s : State) (d : Nat) (t : Tid) : State :=
  s.modThread t fun th => { th with outs := th.outs.map (loseOut s d t th) }

/-- What threads that have exited had outstanding there; what ran on the die is gone. -/
def loseOrphans (s : State) (d : Nat) (mine : Tid → Bool) : State :=
  let left : List (Tid × Thread × Out) := s.orphans.filter fun e => !mine e.1
  { s with orphans := left.map fun (e : Tid × Thread × Out) => (e.1, e.2.1, loseOut s d e.1 e.2.1 e.2.2) }

/-- A sequence that waited for a bank of the die: its issuer gets zero, and 0x15 (R378). -/
def loseGattn (s : State) (g : Gattn) : State :=
  let s := { s with gattns := s.gattns.filter (·.id != g.id) }
  let s := s.modThread g.issuer fun th => { th with outs := th.outs.map fun o =>
    if o.seq == g.seq then { o with late := some (threadRec s g.issuer th 0x15 0x80 o.pc g.table 0) } else o }
  finish s g.issuer g.seq [0] []

/-- Everything that ran on the die is gone, with what it had pushed and not performed; what others await from it is lost. -/
def stopDie (s : State) (d : Nat) : State :=
  let mine (t : Tid) : Bool := match t with
    | .graver g _ => g / 1024 == d
    | t => onDie d (coreNum t)
  let s := dropThreads (s.dropMembers mine) fun t _ => mine t
  let gone (id : Nat) : Bool := s.burins.any fun e => onDie d e.1.1 && e.2.id == id
  let burins := (s.burins.filter fun e => !onDie d e.1.1).map fun e =>
    (e.1, { e.2 with inbox := e.2.inbox.filter fun x => x.sent || !gone x.sender })
  let gravers := s.gravers.map fun e =>
    if e.1 / 1024 == d then (e.1, { e.2 with state := if e.2.state == 1 then 2 else e.2.state }) else e
  let s := { s with teams := s.teams.filter (fun e => !onDie d e.1.1), cells := s.cells.filter (fun e => !onDie d e.1.core) }
  let s := { s with copies := s.copies.filter (fun x => !onDie d x.core), notices := s.notices.filter (fun e => e.1 / 512 != d) }
  let s := { s with burins := burins, gravers := gravers, cores := s.cores.filter (fun e => !onDie d e.1) }
  let s := (byOrder s (s.threads.map (·.1))).foldl (fun s t => loseAwaits s d t) s
  let s := loseOrphans s d mine
  (s.gattns.filter fun g => g.bank / 512 == d).foldl loseGattn s

/-- Is a team of a launch resident or saved? -/
def teamLives (s : State) (c l lin : Nat) : Bool :=
  s.teams.any (fun e => e.2.ctx == c && e.2.launch == l && e.2.lin == lin && !e.2.warps.isEmpty) ||
  s.saved.any fun v => v.team.ctx == c && v.team.launch == l && v.team.lin == lin

/-- Can a local participant of a severed launch fire a chunk no more (R288, R400): the team whose exit fires it is gone or will not be
placed, or, where no exit fires it, every team of the participant (log entry 66)? -/
def severedPart (s : State) (c l : Nat) (x : Launch) (b : Binding) (d : CDesc) (n : Nat) (p : Nat × Nat) : Bool :=
  let k := max b.tpp 1
  let first := (p.1 - d.pbase) * k
  p.2 == s.pkg.node && decide (d.pbase ≤ p.1) && decide (first < x.rcd.total) &&
  if b.tpp != 0 && n < b.tpp then !teamLives s c l (first + n)
  else (List.range k).all fun i => !teamLives s c l (first + i)

/-- The chunks of severed launches that a lost participant has not fired end with 0x14, and so do those of the die's Press. -/
def severChunks (s : State) (lost : List Chunk) : State :=
  (liveBindings s).foldl (fun s b =>
    let s := match s.launchOf b.1 b.2.1 with
      | some x => if x.severed.isSome then loseParticipants s b.1 b.2.1 b.2.2 (severedPart s b.1 b.2.1 x) else s
      | none => s
    let ns := openChunks s b.1 b.2.1 b.2.2
    let here := (lost.filter fun x => x.ctx == b.1 && x.launch == b.2.1 && x.bind == b.2.2 && ns.contains x.chunk)
    match here with
    | [] => s
    | x :: _ => loseChunks s b.1 b.2.1 b.2.2 x.coll (chunkCount s b.1 b.2.1 b.2.2) (here.map (·.chunk))) s

/-- DIE_FENCE: after three failed retrains. -/
def dieFence (s : State) (d : Nat) : State :=
  if (s.die d).failed < 3 || (s.die d).fenced then s
  else
    let hit := (s.ctxs.filter fun e => affected s d e.1 e.2).map (·.1)
    let lost := pressChunks s d
    let s := severLaunches s d
    let s := stopDie s d
    let s := s.modDie d fun x => { x with fenced := true, l2 := [], tlb := [], walk := [], miss := [], baseTlb := [], entry := [] }
    let s := severChunks s lost
    hit.foldl (fun s c => (postCtx s c (fenceRec s c)).1) s

/-- SEALED_PACKET_TAG_FAILURE: the packet is dropped, and the fault of the link is recorded for its context (R356). -/
def tagFailure (s : State) (ctx : Nat) : State := if sealedCtx s ctx then (postCtx s ctx (fenceRec s ctx)).1 else s

/-! ### ECC (R402), CXL (R212), notices (R214) -/

/-- The key of a cell by its place. -/
def eccKey : EccPlace → Option CellKey
  | .cell c sl q global i => some { core := c, slot := sl, quad := q, pos := if global then .g i else .v i }
  | _ => none

/-- The die of a place. -/
def eccDie : EccPlace → Nat
  | .dram sec => homeOf (sec * 64)
  | .cell c _ _ _ _ => c / Config.coresPerDie
  | .plate c _ _ => c / Config.coresPerDie
  | .graver g _ => g / 1024

/-- The sector of a cache set that stands in a 64 B piece of it: the places of a set's lines are the model's, in the order in which the
role lists them (DESIGN CHOICE, log entry 77). -/
def pieceLine (x : Core) (m i : Nat) : Option Line := (x.lines.filter (·.set == m))[i / 8]?

/-- A row of a set has an uncorrectable error: in a cache set it is that of the sector that stands there. -/
def poisonPiece (s : State) (c m i : Nat) : State :=
  if (s.core c).roles[m]? == some .cache then match pieceLine (s.core c) m i with
    | some l => keepLine s c (lineSetSec l (i % 8) { lineSec l (i % 8) with bad := !(lineSec l (i % 8)).isAbsent })
    | none => s
  else s.modCore c fun x => { x with badRows := if x.badRows.contains (m, i) then x.badRows else (m, i) :: x.badRows }

/-- A word with an uncorrectable error: its sector, cell, piece of a set or of a Graver's local scratch is poisoned. -/
def poisonAt (s : State) (p : EccPlace) : State :=
  match p with
  | .dram sec => poisonSec s (canonSec sec)
  | .cell _ _ _ _ _ => match eccKey p with
    | some k => { s with cells := s.cells.map fun (e : CellKey × Cell) => if e.1 == k then (e.1, { e.2 with poison := true }) else e }
    | none => s
  | .plate c m i => poisonPiece s c m i
  | .graver g i => s.modGraver g fun x => { x with badRows := if x.badRows.contains i then x.badRows else i :: x.badRows }

/-- DRAM_SCRUB, and the reads that find an error elsewhere: clean, corrected (counted), uncorrectable (poisoned), or a sector of DRAM
whose bytes no longer match their check value (R401). -/
def scrub (s : State) (p : EccPlace) (found : Nat) : State :=
  match found with
  | 0 => s
  | 1 => s.modDie (eccDie p) fun x => { x with ecc := x.ecc + 1 }
  | 2 => poisonAt s p
  | _ => match p with
    | .dram sec =>
      let cs := canonSec sec
      { s with badCrc := if s.badCrc.contains cs then s.badCrc else cs :: s.badCrc }
    | _ => s

/-- CXL_BACK_INVALIDATE of a pool line: its dirty sectors go to memory, then L2 drops its copy. -/
def backInvalidate (s : State) (line : Nat) : State :=
  if regionOf (line * 512) != some .pool then s
  else
    let d := homeOf (line * 512)
    let mine (e : L2Sec) : Bool := e.sec / 8 == line
    let s := ((s.die d).l2.filter mine).foldl (fun s e => l2WriteBack s d e) s
    s.modDie d fun x => { x with l2 := x.l2.filter fun e => !mine e }

/-- BANK_NOTICE_APPLY: the oldest notice of a bank. -/
def noticeApply (s : State) (bank : Nat) : State :=
  match s.notices.find? (·.1 == bank) with
  | none => s
  | some e =>
    let s := { s with notices := s.notices.erase e }
    let d := homeOf (e.2 * 64)
    match l2Find s d e.2 with
    | some x => if x.dirty then s else l2Drop s d e.2
    | none => s

end Sys2Proof.Machine
end

