-- ==== Sys2Proof/Machine/Boot.lean ====
section
/-!
DEFINITION. Resets and boot (R361, R362, R408–R412).
-/
namespace Sys2Proof.Machine

/-! ### Images (R361, R362, R409) -/

/-- Firmware images: Lemermay's, the switch die's, the compute dies', the base dies'. -/
def imageCount : Nat := 34

/-- The register that image i is measured into. -/
def imageReg (i : Nat) : Nat := if i == 0 then 0 else if i == 1 then 1 else if i < 10 then 2 else 3

/-- Is an image accepted (R362)? -/
def imageOk (p : Pkg) (im : Image) : Bool :=
  im.sigOk && (im.signer == p.vendor1 || (im.signer == p.vendor2 && !p.revoked2)) && decide (p.secVer ≤ im.version)

/-- Accepting an image raises the security version counter to its version. -/
def raiseVer (p : Pkg) (v : DWord) : Pkg := { p with secVer := if p.secVer ≤ v then v else p.secVer }

/-- Extends a measurement register. -/
def measure (p : Pkg) (i : Nat) (d : BitVec 256) : Pkg := { p with meas := setAt p.meas i (extend (p.meas.getD i 0) d) }

/-- Image i in flash: what FWUPDATE wrote, over what the last reset found there. -/
def flashImage (p : Pkg) (i : Nat) : Option Image := (p.flash.get i).orElse fun _ => p.found[i]?

/-- n images from image i on: each is verified, then measured; the first that is refused ends them. -/
def bootImages (p : Pkg) : Nat → Nat → Pkg × Option Nat
  | 0, _ => (p, none)
  | n + 1, i =>
    match flashImage p i with
    | none => (p, some i)
    | some im =>
      if imageOk p im then bootImages (raiseVer (measure p (imageReg i) im.digest) im.version) n (i + 1)
      else (p, some i)

/-- The digest of OTP configuration and security version counter, measured into M4 (log entry 12). -/
def otpDigest (p : Pkg) : BitVec 256 :=
  sha256 (digestBytes p.vendor1 ++ digestBytes p.vendor2 ++ [if p.revoked2 then 1 else 0] ++ digestBytes p.admin ++
    bytesOf 8 p.secVer.toNat)

/-- M5 holds every update applied since cold reset. -/
def measureUpdates (p : Pkg) : Pkg := p.updates.foldl (fun p d => measure p 5 d) p

/-! ### Stack links (R410, R411) -/

/-- One byte into a CRC-32C (reflected, polynomial 0x1EDC6F41). -/
def crcByte (c : Word) (b : Byte) : Word :=
  (List.range 8).foldl (fun c _ => if c.getLsbD 0 then (c >>> 1) ^^^ 0x82F63B78 else c >>> 1) (c ^^^ b.setWidth 32)

def crc32c (bs : List Byte) : Word := ~~~(bs.foldl crcByte 0xFFFFFFFF)

/-- A training record's bytes before its CRC (R410). -/
def TrainRec.body (r : TrainRec) : List Byte :=
  bytesOf 4 r.stack.toNat ++ bytesOf 4 r.seqNo.toNat ++ bytesOf 8 r.identity.toNat ++ r.codes.flatMap fun c => bytesOf 2 c.toNat

/-- A copy is valid when its CRC matches and its identity is that of the stack now fitted. -/
def TrainRec.valid (r : TrainRec) (id : DWord) : Bool := r.crc == crc32c r.body && r.identity == id

/-- The record used: the valid copy with the higher sequence number. -/
def trainUsed (rs : List TrainRec) (id : DWord) : Option TrainRec :=
  (rs.filter fun r => r.valid id).foldl (fun a r => match a with
    | some b => if r.seqNo > b.seqNo then some r else some b
    | none => some r) none

/-- A new record of stack i over the copy `old`: everything but its CRC, which comes last. -/
def trainFresh (i : Nat) (rs : List TrainRec) (old : Option TrainRec) (k : StackLink) : TrainRec :=
  { stack := w32 i, seqNo := w32 (maxOf (rs.map (·.seqNo.toNat)) + 1), identity := k.identity, codes := k.codes,
    crc := (old.map (·.crc)).getD 0 }

/-- Is a copy whole, as its CRC says? -/
def TrainRec.intact (r : TrainRec) : Bool := r.crc == crc32c r.body

/-- A new record takes the place of the older copy, so that the other stays intact: of one whose CRC fails, else of the lower sequence
number. -/
def trainWrite (i : Nat) (rs : List TrainRec) (k : StackLink) : List TrainRec :=
  match rs with
  | [a, b] =>
    if !a.intact || (b.intact && decide (a.seqNo < b.seqNo)) then [trainFresh i rs (some a) k, b] else [a, trainFresh i rs (some b) k]
  | rs => rs ++ [trainFresh i rs none k]

/-- The CRC of the record that was written last. -/
def trainSeal (rs : List TrainRec) : List TrainRec :=
  let top := maxOf (rs.map (·.seqNo.toNat))
  rs.map fun r => if r.seqNo.toNat == top then { r with crc := crc32c r.body } else r

/-- What step 4 does with one stack: keeps its record, trains it fully and writes a new one, or fails. -/
inductive TrainPath where
  | keep | write | fail
  deriving DecidableEq, Repr

def trainPath (cold : Bool) (rs : List TrainRec) (k : StackLink) : TrainPath :=
  if !cold && (trainUsed rs k.identity).isSome && k.quickOk then .keep else if k.fullOk then .write else .fail

/-- A stack that trains: what a reset finds where it names none. -/
def goodLink : StackLink := { identity := 0, codes := [], quickOk := true, fullOk := true }

/-- The link of stack i that a boot finds. -/
def Booting.link (b : Booting) (i : Nat) : StackLink := b.links.getD i goodLink

def stackCount : Nat := 24

/-- The stacks on a path. -/
def stacksOn (p : Pkg) (b : Booting) (x : TrainPath) : List Nat :=
  (List.range stackCount).filter fun i => trainPath b.cold (p.train.getD i []) (b.link i) == x

/-- The new records go to flash, their CRCs to come. -/
def writeRecords (p : Pkg) (b : Booting) (ws : List Nat) : Pkg :=
  { p with train := ws.foldl (fun t i => setAt t i (trainWrite i (t.getD i []) (b.link i))) p.train,
           links := (List.range stackCount).map b.link }

/-- The CRCs go to flash. -/
def sealRecords (p : Pkg) (ws : List Nat) : Pkg :=
  { p with train := ws.foldl (fun t i => setAt t i (trainSeal (t.getD i []))) p.train }

/-- Bytes of flash that the images other than i and the training records take (R2, R410). A training record is written whatever is left:
the spec has no outcome for one that finds no room (DESIGN CHOICE, log entry 46). -/
def flashUsed (p : Pkg) (i : Nat) : Nat :=
  let images := ((List.range imageCount).filter (· != i)).map fun j => ((flashImage p j).map (·.size)).getD 0
  let records := p.train.flatten.map fun r => r.body.length + 4
  (images ++ records).foldl (· + ·) 0

/-! ### Resets (R408) -/

/-- What a reset leaves before boot begins. -/
def resetPkg (p : Pkg) (cold : Bool) : Pkg :=
  let a := p.audit
  { p with mode := .off, boot := none, updates := if cold then [] else p.updates, meas := List.replicate 8 0, upload := [], uploadImg := 0,
           sessions := [], impression := if cold then none else p.impression, impFetched := p.impFetched,
           audit := { a with placed := false, ring := if cold then [] else a.ring, ckpts := if cold then [] else a.ckpts } }

def resetState (s : State) (cold : Bool) : State :=
  let z := State.reset
  if cold then { z with agenda := s.agenda, ctr := s.ctr, pkg := resetPkg s.pkg true }
  else { z with agenda := s.agenda, ctr := s.ctr, now := s.now, refills := s.refills, mem := s.mem,
                sectorKeys := s.sectorKeys, poison := s.poison, badCrc := s.badCrc, pkg := resetPkg s.pkg false }

/-- A reset of either kind: boot begins at its first step, also where another was under way. -/
def restart (s : State) (cold : Bool) (images : List Image) (trained : List StackLink) : State :=
  let s := resetState s cold
  { s with pkg := { s.pkg with found := images, boot := some { cold := cold, links := trained, step := 1, writing := none } } }

/-! ### Boot (R409) -/

/-- Step 5: the audit region is placed, and takes over the recovery buffer (R368). -/
def placeAudit (a : Audit) (now : Nat) : Audit :=
  { a with placed := true, ring := a.ring ++ a.recovery, recovery := [], lastCkpt := now }

/-- The next step of a boot. -/
def bootNext (s : State) (b : Booting) : State :=
  { s with pkg := { s.pkg with boot := some { b with step := b.step + 1, writing := none } } }

/-- An image was refused: recovery mode, with its audit record (R362). M5 holds the updates there too (R361). -/
def bootRefused (s : State) (i : Nat) : State :=
  auditAppend { s with pkg := { measureUpdates s.pkg with mode := .recovery, boot := none } } 0x0003 0 0 (w64 i)

/-- Steps 1 to 3: n images from image i on; M4 and M5 follow the last. -/
def bootVerify (s : State) (b : Booting) (n i : Nat) : State :=
  match bootImages s.pkg n i with
  | (p, some k) => bootRefused { s with pkg := p } k
  | (p, none) => bootNext { s with pkg := if i + n == imageCount then measureUpdates (measure p 4 (otpDigest p)) else p } b

/-- Step 4: the records of the stacks that were trained are written, then their CRCs; a stack that fails is fatal. -/
def bootTrain (s : State) (b : Booting) : State :=
  match b.writing with
  | none =>
    let ws := stacksOn s.pkg b .write
    { s with pkg := { writeRecords s.pkg b ws with boot := some { b with writing := some ws } } }
  | some ws =>
    let s := { s with pkg := sealRecords s.pkg ws }
    if (stacksOn s.pkg b .fail).isEmpty then bootNext s b else fatal s 0x81 0

/-- One step of the boot in progress. -/
def bootStep (s : State) : State :=
  match s.pkg.boot with
  | none => s
  | some b =>
    match b.step with
    | 1 => bootVerify s b 1 0
    | 2 => bootVerify s b 1 1
    | 3 => bootVerify s b (imageCount - 2) 2
    | 4 => bootTrain s b
    | 5 => bootNext (modAudit s fun a => placeAudit a s.now) b
    | 6 => bootNext (auditAppend s 0x0001 0 0 s.pkg.secVer) b
    | _ => { s with pkg := { s.pkg with mode := .ready, boot := none } }

/-- What the boot that follows State.reset finds in flash: images that verify (log entry 4). They take no bytes: the spec gives their
sizes nowhere (DESIGN CHOICE, log entry 46). -/
def flashImages : List Image := List.replicate imageCount { digest := 0, version := 0, signer := 0, sigOk := true, size := 0 }

end Sys2Proof.Machine
end

