-- ==== Sys2Proof/Machine/System.lean ====
section
/-!
DEFINITION. Class 0xE but for the proof slot: registers, time, the capability space, PLATE and PLATEQ (R304–R309, R373–R376,
R431).
-/
namespace Sys2Proof.Machine

/-- The number of an SREAD, CAPW form: the immediate, or A. -/
def numVal (n : NumSrc) (vs : List (List Word)) : Nat :=
  match n with
  | .reg _ => (op vs 0).toNat
  | .imm i => i.toNat

/-! ### Registers (R373, R374) -/

/-- KEYMASK: filled key slots. -/
def keyMask (s : State) (c : Nat) : Nat := natOfBits (((s.ctx c).map (·.keys)).getD [] |>.map (·.isSome))

/-- TSTAT of a thread's team. -/
def tstat (s : State) (t : Tid) : Nat :=
  match s.teamOf t with
  | some (_, tm) => (if tm.brk then 1 else 0) + (if tm.preq.isSome then 2 else 0)
  | none => 0

/-- Cycles since the core took its context, or since a Graver's start, in the agent's own cycles. -/
def cycles (s : State) (t : Tid) : Nat :=
  match t with
  | .graver g _ => (s.now - (s.graver g).began) / 4
  | t => (s.core (coreNum t)).cycles s.now

/-- A register that the spec gives the threads of a launch: a Burin's and a Graver's stand-ins (R373), a free value in a proof
slot. -/
def ownReg (t : Tid) (n : Nat) (core burin graver : Nat) : Word :=
  match t with
  | .core _ _ _ => w32 core
  | .burin _ _ => w32 burin
  | .graver _ _ => w32 graver
  | .proof _ _ => Config.proofReg n

/-- The thread that FPST, VOIDST and TSTAT name: the one a proof-slot lane selected, else the reader (R373). -/
def statusThread (s : State) (t : Tid) (th : Thread) : Tid :=
  match t, th.sel with
  | .proof _ _, some u => if (s.thread u).isSome then u else t
  | _, _ => t

/-- Register n as thread t reads it at issue. -/
def sysReg (s : State) (t : Tid) (th : Thread) (n : Nat) : Word :=
  let st := statusThread s t th
  match n with
  | 0x00 => coreWord t
  | 0x01 => w32 th.ctx
  | 0x02 => ownReg t n th.launch th.launch 0
  | 0x03 => ownReg t n (th.launch / 2 ^ 32) (th.launch / 2 ^ 32) 0
  | 0x04 => ownReg t n th.team 0xFFFF_FFFF 0
  | 0x05 => ownReg t n th.gtid 0xFFFF_FFFF 0
  | 0x06 => (((s.thread st).map fun (y : Thread) => y.fpst).getD 0).setWidth 32
  | 0x07 => if ((s.thread st).map (·.voidSt)).getD false then 1 else 0
  | 0x08 => w32 (tstat s st)
  | 0x09 => w32 (cycles s t)
  | 0x0A => w32 (cycles s t / 2 ^ 32)
  | 0x0B => if t.isGraver then 1000 else w32 (s.core (coreNum t)).clk
  | 0x0C => ownReg t n (s.flagsOf t th).toNat (s.flagsOf t th).toNat 0
  | 0x0D => ownReg t n (s.depthOf t th) 64 64
  | 0x0E => w32 (keyMask s th.ctx)
  | 0x0F => w32 (s.pkg.node % 2 ^ 21)
  | 0x10 => ownReg t n (th.gtid / 2 ^ 32) 0xFFFF_FFFF 0
  | _ => 0

/-- Is this register privileged for a read (R373, R374)? -/
def readDenied (k : Nat) : Bool := decide (0x40 ≤ k)

/-- Is it outside the authority of a writer (R75, R374)? -/
def writeDenied (t : Tid) (k : Nat) : Bool := !(k == 0x08 || (t.isProof && (k == 0x06 || k == 0x07)))

/-- A form that names a register: an immediate number is privileged as the word stands, one read from a name by what a lane read; the
whole group then stops with 0x03 (R61, R379). -/
def regForm (i : Instr) (h : Hdr) (imm : Option Nat) (num : List (List Word) → Nat) (denied : Tid → Nat → Bool)
    (f : Env → State → Tid → Thread → List (List Word) → State × Res) : Form :=
  { ctlForm i h f with denied := fun t => (imm.map (denied t)).getD false, deny := fun t vs => imm.isNone && denied t (num vs) }

/-- The register number of an SREAD. -/
def readNum (n : NumSrc) (vs : List (List Word)) : Nat := numVal n vs % 256

/-- An immediate number. -/
def NumSrc.imm? : NumSrc → Option Nat
  | .reg _ => none
  | .imm i => some (i.toNat % 256)
def BSrc.imm? : BSrc → Option Nat
  | .reg _ _ => none
  | .imm i => some (i.toNat % 256)

def execSread (h : Hdr) (d : Name) (n : NumSrc) (s : State) : Out' :=
  .next (issue (regForm (.sread h d n) h (NumSrc.imm? n) (readNum n) (fun _ => readDenied) fun _ s t th vs =>
    (s, { out := [sysReg s t th (readNum n vs)] })) s)

/-- SWRITE of TSTAT: 1 in bit 0 clears BRK of the team. -/
def clearBrk (s : State) (t : Tid) : State :=
  match s.teamOf t with
  | some (key, tm) => s.setTeam key { tm with brk := false }
  | none => s

/-- The register number of an SWRITE. -/
def writeNum (n : BSrc) (vs : List (List Word)) : Nat := (bVal n vs).toNat % 256

/-- SWRITE in one lane, of a register that its writer may write. -/
def swriteLane (n : BSrc) (s : State) (t : Tid) (th : Thread) (vs : List (List Word)) : State × Res :=
  let x := op vs 0
  let st := statusThread s t th
  match writeNum n vs with
  | 0x08 => (if x.getLsbD 0 then clearBrk s st else s, {})
  | 0x06 => (s.modThread st fun y => { y with fpst := x.setWidth 7 }, {})
  | 0x07 => (s.modThread st fun y => { y with voidSt := x.getLsbD 0 }, {})
  | _ => (s, {})

def execSwrite (h : Hdr) (a : Src) (n : BSrc) (s : State) : Out' :=
  .next (issue (regForm (.swrite h a n) h (BSrc.imm? n) (writeNum n) writeDenied fun _ s t th vs =>
    swriteLane n s t th vs) s)

/-! ### Time (R375) -/

def execClk (h : Hdr) (d : Name) (s : State) : Out' :=
  .next (issue (ctlForm (.clk h d) h fun _ s t _ _ => (s, { out := pairOut (w64 (s.clkAt t.die)) })) s)

/-! ### The capability space (R376, R431) -/

/-- R206's regions: base and size. -/
def capRegions : List (Nat × Nat) :=
  [(0x0000_0000_0000, 0x0100_0000_0000), (0x0100_0000_0000, 0x0100_0000_0000), (0x0200_0000_0000, 0x0100_0000_0000),
   (0x0F00_0000_0000, 0x0100_0000_0000), (0x4000_0000_0000, 0x4000_0000_0000), (0x8000_0000_0000, 0x8000_0000_0000)]

/-- Size of the audit region: records and checkpoints (log entry 12); 0 in recovery mode (R412). -/
def auditSize (s : State) : Nat := if s.pkg.audit.placed then Config.auditSize else 0

/-- Bodies by id, with versions. -/
def capBodies (s : State) : List (Nat × List Byte) :=
  [(1, bytesOf 4 0x3AC ++ bytesOf 4 s.pkg.stepping ++ bytesOf 8 s.pkg.serial),
   (2, bytesOf 2 8 ++ bytesOf 2 40 ++ bytesOf 2 16 ++ bytesOf 2 8 ++ bytesOf 8 512),
   (3, bytesOf 1 64 ++ bytesOf 3 8 ++ bytesOf 4 4096 ++ bytesOf 1 16 ++ bytesOf 1 16 ++ bytesOf 1 24 ++ bytesOf 5 8),
   (4, capRegions.flatMap fun e => bytesOf 8 e.1 ++ bytesOf 8 e.2),
   (5, bytesOf 1 1 ++ bytesOf 1 0 ++ bytesOf 2 1 ++ bytesOf 4 16 ++ bytesOf 8 1600),
   (6, bytesOf 1 3 ++ bytesOf 1 2 ++ bytesOf 2 0 ++ bytesOf 4 8 ++ bytesOf 8 1024),
   (7, bytesOf 2 64 ++ bytesOf 2 8 ++ bytesOf 4 1 ++ bytesOf 8 (if s.pkg.audit.placed then Config.auditBase else 0) ++
     bytesOf 8 (auditSize s) ++ bytesOf 8 (if s.pkg.audit.placed then Config.ckptBase else 0)),
   (8, bytesOf 1 8 ++ bytesOf 1 4 ++ bytesOf 2 256 ++ bytesOf 2 64 ++ bytesOf 2 48 ++ bytesOf 8 100)]

/-- Entries one after the other, in ascending id (log entry 13). -/
def capEntries (at_ : Nat) : List (Nat × List Byte) → List Byte
  | [] => []
  | (id, body) :: rest =>
    let len := 16 + body.length
    bytesOf 2 id ++ bytesOf 2 1 ++ bytesOf 4 len ++ bytesOf 4 (if rest.isEmpty then 0 else at_ + len) ++ bytesOf 4 0 ++ body ++
      capEntries (at_ + len) rest

/-- Bytes of the capability space: zero past the last entry. Before step 5 of boot only entries 1 and 7 stand in it (R412). -/
def capBytes (s : State) (off n : Nat) : List Byte :=
  let bodies := (capBodies s).filter fun e => s.pkg.audit.placed || e.1 == 1 || e.1 == 7
  let l := (capEntries 0 bodies).drop off |>.take n
  l ++ List.replicate (n - l.length) 0

def capwLane (n : NumSrc) (s : State) (vs : List (List Word)) : State × Res :=
  let o := numVal n vs
  if o % 4 != 0 then (s, { fault := some (flt 0x05 o) })
  else if o ≥ 65536 then (s, { fault := some (flt 0x06 o) })
  else (s, { out := [w32 (natOf (capBytes s o 4))] })

def execCapw (h : Hdr) (d : Name) (n : NumSrc) (s : State) : Out' :=
  .next (issue (ctlForm (.capw h d n) h fun _ s _ _ vs => capwLane n s vs) s)

/-! ### PLATE and PLATEQ (R304–R309) -/

/-- A request's reserved bits. -/
def plateReserved (a b : Word) : Bool := a.toNat / 2 ^ 10 != 0 || b.toNat / 2 != 0

/-- PLATE in one lane: a refusal's word, or a move whose word, as the move then stands, comes 8 cycles later or, with WAIT, at its end
(R306). A refusal's word comes after 8 cycles too (log entry 6). -/
def plateLane (env : Env) (s : State) (t : Tid) (vs : List (List Word)) : State × Res :=
  let a := op vs 0
  let b := op vs 1
  let c := coreNum t
  let n := bits a.toNat 9 4
  let to_ := roleOf (bits a.toNat 3 2)
  let from_ := roleOf (bits a.toNat 1 0)
  let code := if plateReserved a b then some 4 else moveRefused s c n from_ to_
  match code with
  | some k => (s, { out := [plateWord k 0 (k == 1)] })
  | none => (startMove s c n from_ to_ (some (t, env.seq)), { out := [plateWord 1 0 false], held := b.getLsbD 0, later := true })

def execPlate (h : Hdr) (d : Name) (a b : Src) (s : State) : Out' :=
  .next (issue { i := .plate h d a b, h := h, lat := .fixed 8, lane := fun env s t _ vs => plateLane env s t vs } s)

/-- Four counts as one word. -/
def quadWord (a b c d : Nat) : Word := w32 (a * 2 ^ 24 + b * 2 ^ 16 + c * 2 ^ 8 + d)

/-- The current or the last move. -/
def moveWord (s : State) (c : Nat) : Word :=
  let x := s.core c
  let last := (x.lastMove.map (·.2)).getD 0
  match x.move.orElse fun _ => x.lastMove.map (·.1) with
  | none => 0
  | some m =>
    quadWord last m.moved 0 0 + w32 ((if x.move.isSome then 2 ^ 15 else 0) + (m.total - m.moved) * 2 ^ 4 +
      roleCode m.to_ * 4 + roleCode m.from_)

/-- Sets in a thread's team's map. -/
def mapSize (s : State) (t : Tid) : Nat := ((s.teamOf t).map (·.2.map.length)).getD 0

/-- Cells in use on a core. -/
def cellsInUse (s : State) (c : Nat) : Nat := ((List.range 8).map (s.cellsUsed c)).foldl (· + ·) 0

def plateqWord (s : State) (t : Tid) (a : Word) : Word :=
  let c := coreNum t
  match a.toNat with
  | 0 => quadWord (s.roleSets c .tile) (s.roleSets c .cache) (s.roleSets c .scratch) (s.roleSets c .register)
  | 1 => quadWord (s.warpsOn c) (s.teamsOn c).length (s.spareScratch c).length (mapSize s t)
  | 2 => moveWord s c
  | 3 => w32 (floorOf s c 0 [] * 2 ^ 16 + cellsInUse s c % 2 ^ 16)
  | _ => 0

def execPlateq (h : Hdr) (o : Da) (s : State) : Out' :=
  .next (issue (ctlForm (.plateq h o) h fun _ s t _ vs => (s, { out := [plateqWord s t (op vs 0)] })) s)

end Sys2Proof.Machine
end

