-- ==== Sys2Proof/Machine/Host.lean ====
section
/-!
DEFINITION. Host sessions and their commands (R369–R372): contexts, memory, keys, Gravers (R345–R359), launches (R293), the log
and the report (R363–R368), firmware updates (R362), the impression (R403, R413).
-/
namespace Sys2Proof.Req

/-- The context id that the header names. -/
def ctx (r : Req) : Nat := r.ctxId.toNat

/-- n bytes of the body from an offset on, and the number that they give. -/
def bytesAt (r : Req) (off n : Nat) : List Byte := (r.body.drop off).take n
def num (r : Req) (off n : Nat) : Nat := Machine.natOf (r.bytesAt off n)

end Sys2Proof.Req

/-- The request whose body arrives in these parts. -/
def Sys2Proof.ReqHead.carry (h : Sys2Proof.ReqHead) (parts : List (List Sys2Proof.Byte)) : Sys2Proof.Req := { toReqHead := h, body := parts.flatten }

namespace Sys2Proof.Machine

/-- The bytes of a message: its 32 B header, then its body (R370). -/
def Msg.bytes (m : Msg) : List Byte :=
  bytesOf 1 m.code ++ bytesOf 1 m.status ++ bytesOf 2 0 ++ bytesOf 4 m.ctx ++ bytesOf 8 m.number.toNat ++ bytesOf 4 m.body.length ++
  bytesOf 12 0 ++ m.body

/-! ### Sessions (R369) -/

def sessionOf (s : State) (n : Nat) : Option SessRole := s.pkg.sessions.get n

def setSessions (s : State) (l : Tab Nat SessRole) : State := { s with pkg := { s.pkg with sessions := l } }

/-- The role that a proof gives: none when it fails. -/
def roleOfProof (s : State) (p : Proof) : Option SessRole :=
  match p with
  | .admin d => if d == s.pkg.admin then some .admin else none
  | .owner c k => match s.ctx c with
    | some x => if x.key == k then some (.owner c) else none
    | none => none
  | .nothing => none

/-- SESSION_OPEN: 0x0020, or 0x0022 when the host proves neither key; a number in use, or a 257th session, opens nothing. -/
def openSession (s : State) (n : Nat) (p : Proof) : State :=
  if !s.pkg.up || s.pkg.sessions.length ≥ 256 || (sessionOf s n).isSome then s
  else match roleOfProof s p with
    | some r => auditAppend (setSessions s (s.pkg.sessions.set n r)) 0x0020 0 0 (w64 n)
    | none => auditAppend s 0x0022 0 0 (w64 n)

def closeSession (s : State) (n : Nat) : State :=
  if !s.pkg.up || (sessionOf s n).isNone then s
  else auditAppend (setSessions s (s.pkg.sessions.del n)) 0x0021 0 0 (w64 n)

/-! ### The envelope (R370) -/

/-- A command: its code, who may give it, whether it acts on a context, whether it logs (R365, R367). -/
structure Cmd where
  code : Nat
  admin : Bool
  owner : Bool
  onCtx : Bool
  logs : Bool

/-- Commands that recovery mode (R362), and a full log (R367), still accept. -/
def Cmd.inRecovery (c : Cmd) : Bool := [0x01, 0x02, 0x40, 0x41, 0x50].contains c.code
def Cmd.whenFull (c : Cmd) : Bool := [0x01, 0x02, 0x40, 0x41].contains c.code

/-- Is a request's body laid out as R371 lays out the command's: its length, and zeros where the layout has them? -/
def bodyOk (code : Nat) (r : Req) : Bool :=
  let n := r.body.length
  match code with
  | 0x01 => n == 32
  | 0x02 => n == 8
  | 0x10 => n == 68
  | 0x11 => n == 0
  | 0x12 => n == 16
  | 0x13 => n == 16
  | 0x14 => n == 8
  | 0x20 => n == 32 && r.num 25 1 == 0 && r.num 28 4 == 0
  | 0x21 => n == 16
  | 0x22 => n == 48
  | 0x23 => n == 4
  | 0x24 => n == 8
  | 0x25 => n == 8
  | 0x26 => n == 16
  | 0x30 => r.num 4 4 == 0 && (if r.num 0 4 == 0 then n == 264 else if r.num 0 4 == 1 then n == 16 else false)
  | 0x31 => n == 12
  | 0x32 => decide (12 ≤ n) && n == 12 + r.num 8 4
  | 0x33 => n == 8
  | 0x40 => n == 12
  | 0x41 => n == 8
  | 0x42 => n == 12
  | 0x50 => decide (12 ≤ n)
  | _ => false

/-- Do the reserved fields of a request hold zero, and is its body as long as its header says and as the command's layout asks? -/
def wellFormedReq (code : Nat) (r : Req) : Bool :=
  r.flags == 0 && r.reserved == 0 && r.zeros == 0 && r.length.toNat == r.body.length && decide (r.body.length ≤ 65536) && bodyOk code r

/-- The response to a request. -/
def respond (s : State) (r : Req) (c : Cmd) (status : Nat) (body : List Byte) : State :=
  send s { session := r.session, code := c.code, status := status, ctx := r.ctx, number := r.number, body := body }

/-- May the role give this command, and name this context? 0, or the status that refuses it. -/
def roleStatus (s : State) (r : Req) (c : Cmd) (role : SessRole) : Nat :=
  match role with
  | .released => 2
  | .admin =>
    if !c.admin then 1
    else if c.onCtx then (if (s.ctx r.ctx).isSome || (c.code == 0x01 && r.ctx == 0) then 0 else 2)
    else if r.ctx == 0 then 0 else 2
  | .owner k =>
    if !c.owner then 1
    else if c.onCtx then (if r.ctx == k || (c.code == 0x01 && r.ctx == 0) then 0 else 1)
    else if r.ctx == 0 then 0 else if r.ctx == k then 2 else 1

/-- The status that refuses a command before its own arguments are looked at; 0 for none. -/
def gateStatus (s : State) (r : Req) (c : Cmd) (role : SessRole) : Nat :=
  if s.pkg.mode == .recovery && !c.inRecovery then Config.recoveryStatus c.code
  else if !wellFormedReq c.code r then 2
  else if roleStatus s r c role != 0 then roleStatus s r c role
  else if auditFree s == 0 && !c.whenFull then 4
  else if c.logs && s.pkg.audit.placed && auditFree s < Config.auditReserve then 4
  else 0

/-- The answer of a command's own work: the new state, a status, a body. -/
abbrev Answer := State × Nat × List Byte

def refuse (s : State) (status : Nat) : Answer := (s, status, [])
def done (s : State) : Answer := (s, 0, [])

/-- One command of a session: refused by the envelope, or performed and answered. A refusal changes nothing. -/
def command (s : State) (r : Req) (c : Cmd) (f : State → Answer) : State :=
  match sessionOf s r.session with
  | none => s
  | some role =>
    if !s.pkg.up then s
    else
      let g := gateStatus s r c role
      if s.pkg.mode == .recovery && !c.inRecovery then respond s r c g []
      else if g != 0 then respond s r c g []
      else
        let (s', st, body) := f s
        respond s' r c st body

/-! ### ATTEST, CAPREAD (R363, R376) -/

/-- Bytes 0x000 to 0x15F of the report. -/
def reportBody (s : State) (ctx : Nat) (nonce : List Byte) : List Byte :=
  let p := s.pkg
  let sealed_ := ((s.ctx ctx).map (·.sealed_)).getD false
  let (chain, seq) := match lastRec s with
    | some r => (r.chain, r.seq)
    | none => (0, 0)
  bytesOf 4 1 ++ bytesOf 4 ((if p.mode == .recovery then 1 else 0) + (if sealed_ then 2 else 0)) ++ nonce ++
  p.meas.flatMap digestBytes ++ bytesOf 8 p.secVer.toNat ++ bytesOf 4 ctx ++ bytesOf 4 0 ++ digestBytes chain ++ bytesOf 8 seq

/-- The attestation key's certificate: by the identity secret and M0 to M4, from which the key is derived. -/
def certBytes (s : State) : List Byte :=
  Config.certificate (sha256 (digestBytes s.pkg.secret ++ (s.pkg.meas.take 5).flatMap digestBytes))

def attestDo (ctx : Nat) (nonce : List Byte) (s : State) : Answer :=
  let (n, s) := s.fresh
  let r := reportBody s ctx nonce
  (s, 0, bytesOf 4 (certBytes s).length ++ certBytes s ++ r ++ (bytesOf 64 (Config.signature n (sha256 r)).toNat).reverse)

def capreadDo (off len : Nat) (s : State) : Answer :=
  if off % 4 != 0 || len % 4 != 0 || len > 4096 || off + len > 65536 then refuse s 2 else (s, 0, capBytes s off len)

/-! ### CREATE, SETSCHED (R345, R297) -/

/-- Where the root table of a context stands (log entry 48). -/
def rootTable (k : Nat) : Nat := Config.tableBase + (k - 1) * Config.tableSpan

/-- Context k at its creation: R297's defaults, key slot 0 filled, no memory, no handler, no queue. -/
def Ctx.start (k : Nat) (sealed_ : Bool) (key : BitVec 512) (draw : Nat) : Ctx :=
  { sealed_ := sealed_, key := key, refill := 3200, cap := 6400, bcap := 3200, age := 48, xthr := 100, bal := 3200, owed := 0, debt := 0,
    keys := some (.drawn draw) :: List.replicate 7 none, granted := [], table := [], root := rootTable k,
    nextTable := rootTable k + 0x1000, handler := 0, faultQ := 0, dropped := 0, queues := List.replicate 8 [], nextLaunch := 1,
    doneUnits := [], unitFaults := [], counters := [], groups := [] }

/-- The lowest id that is free. -/
def freeCtx (s : State) : Option Nat := ((List.range Config.contexts).map (· + 1)).find? fun k => !s.ctxs.has k

def createDo (flags : Word) (key : BitVec 512) (s : State) : Answer :=
  if flags.toNat / 2 != 0 then refuse s 2
  else match freeCtx s with
    | none => refuse s 3
    | some k =>
      let (n, s) := s.fresh
      let s := s.setCtx k (Ctx.start k (flags.getLsbD 0) key n)
      let s := auditAppend (auditAppend s 0x0010 0 k (flags.setWidth 64)) 0x0012 0 k 0
      (s, 0, bytesOf 4 k)

def setschedDo (c refill cap bcap age xthr : Nat) (s : State) : Answer :=
  if refill > 2 ^ 20 || cap > 2 ^ 24 || bcap > 2 ^ 24 || age < 16 || age > 1024 || xthr == 0 || xthr > 65535 then refuse s 2
  else done (s.modCtx c fun x => { x with refill := refill, cap := cap, bcap := bcap, age := age, xthr := xthr })

/-! ### Physical ranges (R355) -/

/-- Does a range hold this byte, by either address of a Deep stack? -/
def holdsPa (base size pa : Nat) : Bool :=
  (decide (base ≤ pa) && decide (pa < base + size)) || (decide (base ≤ aliasPa pa) && decide (aliasPa pa < base + size))

def holdsSec (base size sec : Nat) : Bool := holdsPa base size (sec * 64)

/-- Firmware's memory, by either address. -/
def firmwarePa (pa : Nat) : Bool := holdsPa Config.firmwareBase (Config.firmwareEnd - Config.firmwareBase) pa

/-- May this 64 KiB unit be granted to a context? In a memory region, or the control block of one of its Graver contexts
(R432); not firmware's; no byte of it owned. -/
def unitFree (s : State) (c u : Nat) : Bool :=
  let pa := u * 0x1_0000
  (match regionOf pa with
    | none => false
    | some .device => (match graverOf pa with | some g => (s.graver g).owner == c | none => false)
    | some _ => true) && !firmwarePa pa && (List.range 128).all fun i => (ownerOf s (pa + 512 * i)).isNone

def rangeFree (s : State) (c pa size : Nat) : Bool := (List.range (size / 0x1_0000)).all fun i => unitFree s c (pa / 0x1_0000 + i)

/-- L2 drops the sectors a predicate takes, dirty bytes too. -/
def dropL2 (s : State) (f : L2Sec → Bool) : State :=
  { s with dies := s.dies.map fun e => (e.1, { e.2 with l2 := e.2.l2.filter fun x => !f x }) }

/-- A range becomes a context's, written with zeros under its key slot 0. -/
def giveRange (s : State) (c pa size : Nat) : State :=
  let out (cs : Nat) : Bool := !holdsSec pa size cs
  let s := dropL2 s fun e => holdsSec pa size e.sec
  let s := { s with mem := s.mem.filter (fun e => !holdsPa pa size e.1), poison := s.poison.filter out,
                    badCrc := s.badCrc.filter out, sectorKeys := s.sectorKeys.filter (fun e => out e.1) }
  s.modCtx c fun x => { x with granted := x.granted ++ [(pa, size)] }

/-- Does a range meet the impression region while its impression has not been fetched? -/
def guardsImpression (s : State) (pa size : Nat) : Bool :=
  s.pkg.impression.isSome && !s.pkg.impFetched &&
  decide (pa < Config.impressionBase + Config.impressionSize ∧ Config.impressionBase < pa + size)

/-- A granted range that holdsPa the impression region ends the impression. -/
def loseImpression (s : State) (pa size : Nat) : State :=
  if decide (pa < Config.impressionBase + Config.impressionSize ∧ Config.impressionBase < pa + size) then
    { s with pkg := { s.pkg with impression := none } }
  else s

def grantDo (c pa size : Nat) (s : State) : Answer :=
  if pa % 0x1_0000 != 0 || size % 0x1_0000 != 0 || !rangeFree s c pa size then refuse s 2
  else if guardsImpression s pa size then refuse s 3
  else
    let s := loseImpression (giveRange s c pa size) pa size
    done (auditAppend s 0x0014 0 c (w64 (pa / 0x1_0000 + size / 0x1_0000 * 2 ^ 40)))

/-! ### GRAVERS (R353) -/

/-- A range without the 64 KiB unit at `pa`. -/
def carve (pa : Nat) (r : Nat × Nat) : List (Nat × Nat) :=
  let (b, n) := r
  if b ≤ pa && pa < b + n then
    (if b < pa then [(b, pa - b)] else []) ++ (if pa + 0x1_0000 < b + n then [(pa + 0x1_0000, b + n - (pa + 0x1_0000))] else [])
  else [r]

/-- Assigns one Graver context: on a change of owner it is scrubbed, its threads' names with it, and its control block leaves what the
old owner was granted (log entry 16). -/
def assignGraver (s : State) (c g : Nat) : State :=
  let old := (s.graver g).owner
  let block := 0x0F00_0000_0000 + g * 0x1_0000
  let s := if old == c then s
    else
      let s := s.modCtx old fun x => { x with granted := x.granted.flatMap (carve block) }
      (dropThreads s fun t _ => ofGraver g t).setGraver g { Graver.idle with owner := c, scClock := (s.graver g).scClock }
  auditAppend s 0x0015 0 c (w64 g)

def graversDo (c first count : Nat) (s : State) : Answer :=
  let gs := (List.range count).map (first + ·)
  if first + count > Config.gravers then refuse s 2
  else if gs.any fun g => (s.graver g).state == 1 then refuse s 5
  else if count > auditFree s then refuse s 4
  else done (gs.foldl (fun s g => assignGraver s c g) s)

/-! ### MAP, UNMAP (R349, R352, R429) -/

/-- What a thread has issued under the translations of now is performed: accesses that wait (R239, R426), elements that have their
values, writes on their way to control blocks. -/
def flushThread (s : State) (t : Tid) : State := settleUnits (flushStores (performThread s t) t).1 t

/-- The same for a context, and for threads of it that have exited: it comes before a mapping changes (R352, R357). -/
def flushCtx (s : State) (c : Nat) : State :=
  performOrphans (((s.threads.filter fun e => e.2.ctx == c).map (·.1)).foldl flushThread s) c

def overlaps (a n b m : Nat) : Bool := decide (a < b + m ∧ b < a + n)

/-- Is a virtual range canonical from its first byte to its last? -/
def canonicalRange (va size : Nat) : Bool :=
  decide (va + size ≤ 2 ^ 64) && canonicalVa va && canonicalVa (va + (size - 1)) && va / 2 ^ 63 == (va + (size - 1)) / 2 ^ 63

/-- May a context map these physical bytes? They were granted to it, or are the control block of one of its Graver contexts: GRAVERS is
enough for that (R416's listing; log entry 16), and a GRANT of it is accepted too (R355, R432). -/
def mapOwned (s : State) (c pa size : Nat) : Bool :=
  match s.ctx c with
  | none => false
  | some x => (List.range (size / 0x1_0000)).all fun i =>
    let p := pa + i * 0x1_0000
    match graverOf p with
    | some g => (s.graver g).owner == c
    | none => (List.range 128).all fun j => ownsPa x (p + 512 * j)

/-- Sets one leaf in the tables from the one at `tbl` of some level down: a table that is missing is placed where the next one goes. -/
def putLeaf (page va : Nat) (leaf : DWord) : Nat → Nat → Ctx → Ctx
  | 0, tbl, x => { x with table := x.table.set (entryAt tbl va 0) leaf }
  | l + 1, tbl, x =>
    let a := entryAt tbl va (l + 1)
    let e := (x.table.getD a 0).toNat
    if page == l + 1 then { x with table := x.table.set a leaf }
    else if bitAt e 0 then putLeaf page va leaf l (nextOf e) x
    else putLeaf page va leaf l x.nextTable
      { x with table := x.table.set a (w64 (x.nextTable + 1)), nextTable := x.nextTable + 0x1000 }

/-- Does a context have a leaf in a virtual range? -/
def mapped (x : Ctx) (va size : Nat) : Bool := (leavesOf x).any fun e => overlaps e.va e.size va size

def mapDo (c va pa size page bits_ : Nat) (s : State) : Answer :=
  let n := 2 ^ vaShift page
  if page > 2 || bits_ ≥ 512 || va % n != 0 || pa % n != 0 || size % n != 0 || (size != 0 && !canonicalRange va size) ||
      decide (pa + size > 2 ^ 48) || !mapOwned s c pa size || ((s.ctx c).map fun x => mapped x va size).getD false ||
      (page == 2 && bits_ / 8 % 4 == 1) then refuse s 2
  else
    let s := s.modCtx c fun x => (List.range (size / n)).foldl (fun x i =>
      putLeaf page ((va + i * n) % 2 ^ 57) (w64 (pa + i * n + bits_ * 4 + 3)) 4 x.root x) x
    done (invalidate s c)

/-- Tables with no entry are freed, from the lowest level up. -/
def pruneTable : Nat → Nat → Tab Nat DWord → Tab Nat DWord
  | 0, _, tab => tab
  | l + 1, tbl, tab => (entriesOf tab (l + 1) tbl).foldl (fun tab e =>
      if bitAt e.2.toNat 1 then tab
      else
        let tab := pruneTable l (nextOf e.2.toNat) tab
        if (entriesOf tab l (nextOf e.2.toNat)).isEmpty then tab.del (tbl + 8 * e.1) else tab) tab

/-- Removes the leaves that a predicate takes. -/
def dropLeaves (x : Ctx) (f : Leaf → Bool) : Ctx :=
  { x with table := pruneTable 4 x.root (((leavesOf x).filter f).foldl (fun (t : Tab Nat DWord) e => t.del e.place) x.table) }

def unmapDo (c va size : Nat) (s : State) : Answer :=
  let ls := ((s.ctx c).map leavesOf).getD []
  let whole (e : Leaf) : Bool := decide (va ≤ e.va ∧ e.va + e.size ≤ va + size)
  if va % 0x1_0000 != 0 || size % 0x1_0000 != 0 || (size != 0 && !canonicalRange va size) ||
      ls.any (fun e => overlaps e.va e.size va size && !whole e) then refuse s 2
  else done (invalidate ((flushCtx s c).modCtx c fun x => dropLeaves x whole) c)

/-! ### Keys and extents (R354, R357) -/

def setKey (s : State) (c k : Nat) (v : Option KeyRef) : State := s.modCtx c fun x => { x with keys := setAt x.keys k v }

def keyaddDo (session c k mode : Nat) (wrapped : BitVec 320) (s : State) : Answer :=
  if k == 0 || k > 7 || mode > 1 || (mode == 0 && wrapped != 0) || (s.keySlot c k).isSome then refuse s 2
  else
    let (n, s) := s.fresh
    let key : KeyRef := if mode == 0 then .drawn n else .imported session wrapped
    done (auditAppend (setKey s c k (some key)) 0x0012 0 c (w64 k))

def keydelDo (c k : Nat) (s : State) : Answer :=
  if k == 0 || k > 7 || (s.keySlot c k).isNone then refuse s 2
  else done (auditAppend (invalidate (setKey (flushCtx s c) c k none) c) 0x0013 0 c (w64 k))

def extentSize : Nat := 0x4000_0000

def extentOk (pa : Nat) : Bool := pa % extentSize == 0 && regionOf pa == some .pool

def extaddDo (c pa : Nat) (s : State) : Answer :=
  if !extentOk pa then refuse s 2
  else if s.extents.contains pa || !rangeFree s c pa extentSize then refuse s 3
  else done (auditAppend { giveRange s c pa extentSize with extents := pa :: s.extents } 0x0030 0 c (w64 pa))

/-- Step 1 of EXTREL: REL in every leaf that maps the extent. -/
def markReleased (x : Ctx) (pa : Nat) : Ctx :=
  let hit := (leavesOf x).filter fun e => overlaps e.base e.size pa extentSize
  { x with table := hit.foldl (fun (t : Tab Nat DWord) e => t.set e.place (e.entry ||| 0x400)) x.table }

/-- Step 3: lines of a physical range leave every Plate cache, dirty bytes lost. -/
def dropLines (s : State) (f : Line → Bool) : State :=
  { s with cores := s.cores.map fun e => (e.1, { e.2 with lines := e.2.lines.filter fun l => !f l }) }

def extrelDo (c pa : Nat) (s : State) : Answer :=
  if !extentOk pa || !s.extents.contains pa || !(((s.ctx c).map (·.granted)).getD []).contains (pa, extentSize) then refuse s 2
  else
    let s := invalidate ((flushCtx s c).modCtx c fun x => markReleased x pa) c
    let s := dropLines s fun l => holdsPa pa extentSize (l.num * 512)
    let s := dropL2 s fun e => holdsSec pa extentSize e.sec
    let s := { s with extents := s.extents.filter (· != pa) }
    let s := s.modCtx c fun x => { x with granted := x.granted.erase (pa, extentSize) }
    done (auditAppend s 0x0031 0 c (w64 pa))

/-! ### CTXSET, LAUNCH, READ, WRITE, CANCEL (R293, R371, R372) -/

def ctxsetDo (c : Nat) (handler queue : DWord) (s : State) : Answer :=
  if (handler != 0 && !entryOk s c handler.toNat) || (queue != 0 && !writableAt s c queue.toNat 64 64) then refuse s 2
  else
    let n := ((s.ctx c).map (·.dropped)).getD 0
    (s.modCtx c fun x => { x with handler := handler, faultQ := queue, dropped := 0 }, 0, bytesOf 8 n)

/-- A record that the coordinator has: refused, queue full, or queued. -/
def launchRec (c : Nat) (bs : List Byte) (base : Nat) (s : State) : Answer :=
  let r := parseRec bs
  match recBad s c bs r with
  | some o => (refuseRec s c r o base, 2, bytesOf 8 0)
  | none =>
    let s := admitWaiting s c r.queue
    if queueFull s c r then refuse s 6
    else
      let (s, id) := enqueueLaunch s c r
      (s, 0, bytesOf 8 id)

/-- A record that could not be read. -/
def launchLost (s : State) (c va : Nat) : Answer :=
  let r : FRec := { code := 0x1E, level := 6, engine := 8, flags := 0, ctx := c, launch := 0, team := 0xFFFF_FFFF,
                    thread := 0xFFFF_FFFF, pc := 0, addr := w64 va, progress := 0, time := w64 (s.clkAt 0), ext := [] }
  ((postCtx s c r).1, 2, bytesOf 8 0)

def launchDo (c : Nat) (byAddress : Bool) (record : List Byte) (va : Nat) (s : State) : Answer :=
  if !byAddress then launchRec c record 0 s
  else if va % 64 != 0 then launchLost s c va
  else match engReadN s c va 256 with
    | (s, .error _) => launchLost s c va
    | (s, .ok bs) => launchRec c bs va s

/-- Checks 3 to 6 of R243 on one page of a host access: none, or the page's place. Device pages take 4 B and 8 B accesses. -/
def hostPage (s : State) (c va n : Nat) (need : Need) : Option Phys :=
  match walk s c va with
  | none => none
  | some (size, leaf) => match leafCheck s c va size leaf need with
    | .error _ => none
    | .ok p =>
      if fencedHome s p.pa then none
      else if p.kind == .device && !((n == 4 || n == 8) && va % n == 0 && (graverOf p.pa).isSome) then none
      else some p

def hostRange (s : State) (c va n : Nat) (need : Need) : Bool :=
  decide (va + n ≤ 2 ^ 64) && (List.range ((va % 0x1_0000 + n + 0xFFFF) / 0x1_0000)).all fun i =>
    (hostPage s c (if i == 0 then va else (va / 0x1_0000 + i) * 0x1_0000) n need).isSome

/-- The control block that an access goes to, if its page is one: Graver context and offset. -/
def hostDevice (s : State) (c va n : Nat) (need : Need) : Option (Nat × Nat) :=
  (hostPage s c va n need).bind fun p => (if p.kind == .device then graverOf p.pa else none).map fun g => (g, p.pa % 0x1_0000)

/-- The record of a transfer that a port refuses at its data (R401, R402): to the context whose bytes they are. -/
def portRec (s : State) (c code va : Nat) : FRec :=
  { code := code, level := 6, engine := 8, flags := 0, ctx := c, launch := 0, team := 0xFFFF_FFFF, thread := 0xFFFF_FFFF, pc := 0,
    addr := w64 va, progress := 0, time := w64 (s.clkAt 0), ext := [] }

def readDo (c va len : Nat) (s : State) : Answer :=
  if len > 65536 || !hostRange s c va len .read then refuse s 2
  else match hostDevice s c va len .read with
    | some (g, off) => (s, 0, bytesOf len (controlRead s g off len))
    | none => match engReadN s c va len with
      | (s, .error (code, a)) => refuse (postCtx s c (portRec s c code a)).1 2
      | (s, .ok bs) => (s, 0, bs)

def writeDo (c va : Nat) (bytes : List Byte) (s : State) : Answer :=
  if bytes.length > 65520 || !hostRange s c va bytes.length .write then refuse s 2
  else match hostDevice s c va bytes.length .write with
    | some (g, off) => done (controlOp s g off bytes.length (w64 (natOf bytes)))
    | none => done (engWriteN s c va bytes).1

def cancelDo (c : Nat) (id : DWord) (s : State) : Answer := done (cancelUnit s c id.toNat)

/-! ### LOGFETCH, LOGACK, IMPRESSION, FWUPDATE -/

/-- The records of the log in use (R368). -/
def logRecords (s : State) : List AuditRec := if s.pkg.audit.placed then s.pkg.audit.ring else s.pkg.audit.recovery

def logfetchDo (first count : Nat) (s : State) : Answer :=
  if count > 1024 then refuse s 2
  else (s, 0, (((logRecords s).filter fun r => decide (first ≤ r.seq)).take count).flatMap AuditRec.bytes)

def logackDo (seq : Nat) (s : State) : Answer :=
  let keep (l : List AuditRec) : List AuditRec := l.filter fun r => decide (seq < r.seq)
  done (modAudit s fun a => if a.placed then { a with ring := keep a.ring } else { a with recovery := keep a.recovery })

def impressionDo (off len : Nat) (s : State) : Answer :=
  match s.pkg.impression with
  | none => refuse s 3
  | some bs =>
    if len > 65536 || off + len > bs.length then refuse s 2
    else ({ s with pkg := { s.pkg with impFetched := true } }, 0, (bs.drop off).take len)

/-- An image that has arrived whole: its digest and its size are those of its bytes. -/
def fwAccept (s : State) (i : Nat) (img : Image) (bs : List Byte) : Answer :=
  let img := { img with digest := sha256 bs, size := bs.length }
  let s := { s with pkg := { s.pkg with upload := [], uploadImg := 0 } }
  if imageOk s.pkg img then
    let p := raiseVer { s.pkg with flash := s.pkg.flash.set i img, updates := s.pkg.updates ++ [img.digest] } img.version
    done (auditAppend { s with pkg := measure p 5 img.digest } 0x0002 0 0 img.version)
  else refuse s 2

/-- A chunk continues the upload of its image where it stands; offset 0 begins one. An image for which the flash has no room is refused
with status 2, as is a total beyond the flash (DESIGN CHOICE, log entry 46: no rule names the status). -/
def fwupdateDo (i off total : Nat) (bytes : List Byte) (img : Image) (s : State) : Answer :=
  let p := s.pkg
  let have_ := if off == 0 then [] else p.upload
  if i ≥ imageCount || flashUsed p i + total > Config.flashBytes || have_.length != off || (off != 0 && p.uploadImg != i) ||
      off + bytes.length > total then refuse s 2
  else
    let up := have_ ++ bytes
    if up.length == total then fwAccept s i img up
    else done { s with pkg := { p with upload := up, uploadImg := i } }

/-! ### RELEASE (R358, R359) -/

/-- Every launch that has not completed is killed: status 2. -/
def killLaunches (s : State) (c : Nat) : State :=
  ((s.launches.filter fun e => e.1.1 == c && e.2.done.isNone).map fun e => (e.1.2, e.2.rcd)).foldl (fun s e =>
    let s := s.modLaunch c e.1 fun x => { x with killed := true, done := some 2 }
    counterUpdate s c (w64 e.1) e.2.counter.toNat oneDone 4) s

/-- Nothing of a context runs or waits any more. -/
def silence (s : State) (c : Nat) : State :=
  let mine (t : Tid) : Bool := match s.thread t with | some th => th.ctx == c | none => false
  let s := dropThreads (s.dropMembers mine) fun _ th => th.ctx == c
  let s := { s with teams := s.teams.filter (fun e => e.2.ctx != c), burins := s.burins.filter (fun e => e.2.ctx != c) }
  let s := { s with copies := s.copies.filter (fun x => x.ctx != c), gattns := s.gattns.filter (fun x => x.ctx != c) }
  let s := { s with chunks := s.chunks.filter (fun x => x.ctx != c), launches := s.launches.filter (fun e => e.1.1 != c) }
  let s := { s with saved := s.saved.filter (fun v => v.team.ctx != c), savedBurins := s.savedBurins.filter (fun v => v.burin.ctx != c) }
  { s with chosen := s.chosen.filter (fun e => e.1 != c), orphans := s.orphans.filter fun e => e.2.1.ctx != c }

/-- Graver contexts of a context are scrubbed and have no owner. -/
def freeGravers (s : State) (c : Nat) : State :=
  { s with gravers := s.gravers.map fun e => if e.2.owner == c then (e.1, Graver.idle) else e }

/-- Cores that serve a context are scrubbed with nothing written back. -/
def scrubCores (s : State) (c : Nat) : State :=
  ((s.cores.filter fun e => e.2.ctx == c).map (·.1)).foldl scrubCore s

/-- What the dies hold of a context. -/
def scrubDies (s : State) (c : Nat) : State :=
  let s := dropL2 (invalidate s c) fun e => ownerOf s (canonPa (e.sec * 64)) == some c
  { s with dies := s.dies.map fun e => (e.1, { e.2 with entry := e.2.entry.filter fun x => x.1 != c }) }

/-- The key slots of a context are destroyed, each with its record. -/
def destroyKeys (s : State) (c : Nat) : State :=
  (List.range 8).foldl (fun s k => if (s.keySlot c k).isSome then auditAppend (setKey s c k none) 0x0013 0 c (w64 k) else s) s

/-- The id becomes free: memory and extents leave the context, and its owner sessions name nothing. -/
def forgetCtx (s : State) (c : Nat) : State :=
  let ranges := ((s.ctx c).map (·.granted)).getD []
  let s := { s with ctxs := s.ctxs.del c, extents := s.extents.filter (fun x => !ranges.contains (x, extentSize)) }
  setSessions s (s.pkg.sessions.map fun e => if e.2 == .owner c then (e.1, .released) else e)

def releaseDo (c : Nat) (s : State) : Answer :=
  let s := silence (killLaunches s c) c
  let s := destroyKeys (freeGravers (scrubDies (scrubCores s c) c) c) c
  let (n, s) := s.fresh
  done (forgetCtx (auditAppend s 0x0011 0 c (Config.releaseTime n)) c)

end Sys2Proof.Machine
end

