-- ==== Sys2Proof/Machine/Spawn.lean ====
section
/-!
DEFINITION. SPAWN, JOIN and CANCEL (R339–R343).
-/
namespace Sys2Proof.Machine

/-- The checks of R243 for the 256 B of a record: each of its four sectors. A device page takes no access of that width (R273). -/
def recordCheck (s : State) (t : Tid) (ctx va : Nat) : Nat → State × Option Flt
  | 0 => (s, none)
  | n + 1 => match checkAccess s t ctx va 64 .read false with
    | (s, .error e) => (s, some (flt e va))
    | (s, .ok p) => if p.kind == .device then (s, some (flt 0x05 va)) else recordCheck s t ctx (va + 64) n

/-- Does the check of a record stall, as the die's miss table is full (R351)? An unaligned record faults first. -/
def recordHolds (s : State) (t : Tid) (ctx va : Nat) : Bool :=
  va % 64 == 0 && (missStall s t ctx va || missStall s t ctx (va + 192))

/-- SPAWN in one lane: release, check of the record, then the queue. -/
def spawnLane (env : Env) (s : State) (t : Tid) (th : Thread) (vs : List (List Word)) : State × Res :=
  let a := opPair vs 0
  match recordCheck s t th.ctx a.toNat 4 with
  | (s, some f) => (s, { fault := some f })
  | (s, none) =>
    let (s, e) := release s t .dev 0
    match engReadN s th.ctx a.toNat 256 with
    | (s, .error (code, va)) => (s, { out := idWords 0, late := some (code, w64 va) })
    | (s, .ok bs) =>
      let r := parseRec bs
      match recBad s th.ctx bs r with
      | some o => (refuseRec s th.ctx r o a.toNat, { out := idWords 0, late := lateOf e a })
      | none =>
        let s := admitWaiting s th.ctx r.queue
        if queueFull s th.ctx r then
          (s.modThread t fun th => { th with status := .waiting (.spawn env.seq bs a) }, { held := true, late := lateOf e a })
        else
          let (s, id) := enqueueLaunch s th.ctx r
          (s, { out := idWords id, late := lateOf e a })

def execSpawn (h : Hdr) (o : Da) (s : State) : Out' :=
  .next (issue { ctlForm (.spawn h o) h spawnLane with stall := fun s t th vs => recordHolds s t th.ctx (opPair vs 0).toNat } s)

/-- The SPAWN of a thread, if it is the next of those that wait for its queue (R293). -/
def spawnTurn (s : State) (t : Tid) : Option (Nat × Tid × Nat × LRec) :=
  match s.thread t with
  | some th => match th.status with
    | .waiting (.spawn _ bs _) => match (spawnsFor s th.ctx (parseRec bs).queue).head? with
      | some e => if e.1 == t then some (th.ctx, e) else none
      | none => none
    | _ => none
  | none => none

/-- SPAWN_ENQUEUE: the record's queue has room again. -/
def spawnEnqueue (s : State) (t : Tid) : State :=
  match spawnTurn s t with
  | some (ctx, e) => spawnEnter s ctx e
  | none => s

/-- JOIN in one lane (R341, R342). -/
def joinLane (env : Env) (s : State) (t : Tid) (th : Thread) (vs : List (List Word)) : State × Res :=
  let v := opPair vs 0
  match unitOf v.toNat with
  | none => (acquire s t .pool 0, { out := joinUnknown })
  | some (level, id) =>
    if (members s th.ctx level id).any fun e => e.1 == th.launch && !t.isProof then (acquire s t .pool 0, { out := joinSelf })
    else if unitRunning s th.ctx level id then
      (s.modThread t fun th => { th with status := .waiting (.join env.seq v) }, { held := true })
    else match unitDone s th.ctx level id with
      | some u => (acquire s t .pool 0, { out := joinWords u })
      | none => (acquire s t .pool 0, { out := joinUnknown })

def execJoin (h : Hdr) (o : Da) (s : State) : Out' :=
  .next (issue (ctlForm (.join h o) h joinLane) s)

/-- The units that the lanes which completed a CANCEL name. -/
def cancelAfter (i : Instr) (env : Env) (s : State) : State :=
  (env.exec.filter (running s)).foldl (fun s t => match env.pre.thread t with
    | some th => cancelUnit s th.ctx (opPair ((readOps env.pre t th i.srcs).map (·.words)) 0).toNat
    | none => s) s

def execCancel (h : Hdr) (a : Src) (s : State) : Out' :=
  .next (issue { ctlForm (.cancel h a) h (fun _ s _ _ _ => (s, {})) with after := cancelAfter (.cancel h a) } s)

end Sys2Proof.Machine
end

