-- ==== Sys2Proof/Machine/Events.lean ====
section
/-!
DEFINITION. The events of the machine and the host's commands, one meaning for each row of spec/opcode_table.json that is no
instruction. An event whose conditions do not hold changes nothing (log entry 1).
-/
namespace Sys2Proof.Machine

/-! ### Events of a core -/

def execQuadrantIssue (c q : Nat) (s : State) : Out' := .next (issueAgent s (c, q))

/-- R314: a group that has been ready and unissued for 256 cycles is promoted. -/
def promote (s : State) (c : Nat) : State :=
  { s with groups := s.groups.map fun g => if g.agent.1 == c && ready256 s g then { g with promoted := true } else g }

def execReady256Promotion (c : Nat) (s : State) : Out' := .next (promote s c)
def execRenameSpill (c : Nat) (s : State) : Out' := .next (renameSpill s c)

/-- The instruction `seq` of a thread, if it is outstanding. -/
def outOf (s : State) (t : Tid) (seq : Nat) : Option Out := (s.thread t).bind fun th => th.outs.find? (·.seq == seq)

/-- The threads in which an instruction is outstanding. -/
def holders (s : State) (seq : Nat) : List Tid := (s.threads.filter fun e => e.2.outs.any fun o => o.seq == seq).map (·.1)

/-- A variable-latency instruction completes at or after its first cycle (R41), what it has still to do at memory first
(R239, R426), a special function in all its lanes together (R151); a queued class 0xD form at the head of its queue
runs (R193). -/
def completeVariable (s : State) (t : Tid) (seq : Nat) : State :=
  match outOf s t seq with
  | none => if s.orphans.any fun e => e.1 == t && e.2.2.seq == seq && e.2.2.due s.now then performOrphan s t seq else s
  | some o =>
    if o.held then (match t with | .burin c k => runTile s c k seq | _ => s)
    else if o.fixed || !o.due s.now then s
    else if o.todo.isSome then performOut s t seq
    else if o.last.isSome then (holders s seq).foldl (fun s u => complete s u seq) s
    else complete s t seq

/-- A fixed-latency instruction completes in its cycle (R41). -/
def completeFixed (s : State) (t : Tid) (seq : Nat) : State :=
  match outOf s t seq with
  | none => s
  | some o => if o.fixed && o.due s.now then complete s t seq else s

def execVariableLatencyComplete (t : Tid) (seq : Nat) (s : State) : Out' := .next (completeVariable s t seq)
def execFixedLatencyComplete (t : Tid) (seq : Nat) (s : State) : Out' := .next (completeFixed s t seq)

/-- The handler that a core's stopped threads wait for: none when its proof slot runs or no thread is stopped (R386). -/
def proofDue (s : State) (c : Nat) : Option (Nat × DWord) :=
  let x := s.core c
  if x.proofOn || x.stopList.isEmpty then none
  else match s.ctx x.ctx with
    | some k => if k.handler == 0 then none else some (x.ctx, k.handler)
    | none => none

def proofStart (s : State) (c : Nat) : State :=
  match proofDue s c with
  | some (k, h) => startProof s c k h
  | none => s

def execProofSlotStart (c : Nat) (s : State) : Out' := .next (proofStart s c)

/-- Has a bin's oldest entry waited for AGE cycles (R311)? -/
def binAged (s : State) (c : Nat) (b : Bin) : Bool :=
  let age := ((s.ctx (s.core c).ctx).map (·.age)).getD 48
  b.entries.any fun e => decide (e.filed + age ≤ s.now)

def agedDraw (s : State) (c b : Nat) : State :=
  match (s.core c).bins.get b with
  | some bin => if binAged s c bin then binDraw s c b else s
  | none => s

def execBinAgedDraw (c bin : Nat) (s : State) : Out' := .next (agedDraw s c bin)

/-! ### The coordinator and the distributors -/

def execCoordinatorArbitration (s : State) : Out' := .next (arbitrate s)
def execTokenRefill (s : State) : Out' := .next (tokenRefill s)
def execTokenCharge (s : State) : Out' := .next (tokenCharge s)
def execTeamPlace (ctx launch : Nat) (s : State) : Out' := .next (teamPlace s ctx launch)
def execPlateSetMoveDone (c : Nat) (s : State) : Out' := .next (plateSetMoveDone s c)
def execGangReserve (ctx launch : Nat) (s : State) : Out' := .next (gangReserve s ctx launch)
def execGangCommit (ctx launch : Nat) (s : State) : Out' := .next (gangCommit s ctx launch)
def execGangReservationRelease (ctx launch : Nat) (s : State) : Out' := .next (gangRelease s ctx launch)
def execLaunchComplete (ctx launch : Nat) (s : State) : Out' := .next (launchComplete s ctx launch)
def execSpawnEnqueue (t : Tid) (s : State) : Out' := .next (spawnEnqueue s t)
def execCoreHandover (c : Nat) (s : State) : Out' := .next (coreHandover s c)
def execPreqRaise (ctx queue : Nat) (s : State) : Out' := .next (preqRaise s ctx queue)
def execForcedSave (c teamSlot : Nat) (s : State) : Out' := .next (forcedSave s c teamSlot)
def execTeamSave (c teamSlot : Nat) (s : State) : Out' := .next (teamSave s c teamSlot)
def execTeamResume (ctx launch team : Nat) (s : State) : Out' := .next (teamResume s ctx launch team)
def execResidencyExchange (ctx launch : Nat) (s : State) : Out' := .next (residencyExchange s ctx launch)
def execClockStepApply (c : Nat) (s : State) : Out' := .next (clockStep s c)
def execClockDrift (c : Nat) (s : State) : Out' := .next (clockDrift s c)

/-! ### Waits -/

def execBarrierTimeout (t : Tid) (s : State) : Out' := .next (barrierTimeout s t)
def execWaitaRecheck (t : Tid) (s : State) : Out' := .next (waitaRecheck s t)
def execWaitaTimeout (t : Tid) (s : State) : Out' := .next (waitaTimeout s t)

/-! ### Engines, Gravers, Presses, Burins -/

def execCopyElement (id : Nat) (s : State) : Out' := .next (copyStep s id false)
def execCopyComplete (id : Nat) (s : State) : Out' := .next (copyComplete s id)
def execCopyElementFault (id : Nat) (s : State) : Out' := .next (copyStep s id true)
def execStreamPrefetch (t : Tid) (n : Fin 4) (s : State) : Out' := .next (streamPrefetch s t n)
def execStreamStorePerformed (t : Tid) (n : Fin 4) (s : State) : Out' := .next (streamStore s t n)

/-- A write of START of a Graver context (R274), by a writer that R4 lets through. -/
def execStartWrite (block : BlockRef) (value : DWord) (s : State) : Out' := .next (startStore s block.writer block.graver value)

def execControlBlockWrite (block : BlockRef) (off : Nat) (value : DWord) (bytes8 : Bool) (s : State) : Out' :=
  .next (controlStore s block.writer block.graver off value bytes8)
def execGraverExit (g : Nat) (s : State) : Out' := .next (graverExit s g)
def execGattnPage (id : Nat) (s : State) : Out' := .next (gattnPage s id)
def execGattnComplete (id : Nat) (s : State) : Out' := .next (gattnComplete s id)
def execPressChunkReduce (ctx launch bind chunk : Nat) (s : State) : Out' := .next (pressReduce s ctx launch bind chunk)
def execMmaStep (c k : Nat) (s : State) : Out' := .next (mmaStep s c k)

/-- Is the peer of a waiting header ready (R203)? -/
def headerReady (s : State) (b : Burin) : Bool :=
  match b.header with
  | some (_, .mdradd _ _ _ _ _ core pacc _ _) => peerArmed s b core pacc
  | _ => false

/-- A waiting header is accepted: its MDRADD issues, once its slot is ready (R203). -/
def headerAccept (s : State) (c k : Nat) : State :=
  match s.burin c k, s.groups.find? (fun g => g.mem == [.burin c k]) with
  | some b, some g =>
    if headerReady s b && s.issuing.isNone && ready s g then select (s.setBurin c k { b with header := none }) g else s
  | _, _ => s

def execDrainAddHeaderAccept (c k : Nat) (s : State) : Out' := .next (headerAccept s c k)
def execDrainAddApply (c k : Nat) (s : State) : Out' := .next (drainApply s c k)
def execBankNoticeApply (bank : Nat) (s : State) : Out' := .next (noticeApply s bank)
def execCxlBackInvalidate (line : Nat) (s : State) : Out' := .next (backInvalidate s line)
def execTlbMissWalk (die : Nat) (s : State) : Out' := .next (serveMiss s die)
def execDramScrub (place : EccPlace) (found : Fin 4) (s : State) : Out' := .next (scrub s place found.val)

/-! ### Links, power, resets, the log -/

def execLinkReplay (die : Nat) (s : State) : Out' := .next (linkReplay s die)
def execLinkRetrain (die : Nat) (ok : Bool) (s : State) : Out' := .next (linkRetrain s die ok)
def execDieFence (die : Nat) (s : State) : Out' := .next (dieFence s die)
def execFatalError (code source : Nat) (s : State) : Out' := .next (fatalWhenOn s code source)
def execThermalTrip (s : State) : Out' := .next (fatalWhenOn s (internal 0) 0)
def execPowerCeilingLower (die : Nat) (s : State) : Out' := .next (ceilingDown s die)
def execPowerCeilingRaise (die : Nat) (s : State) : Out' := .next (ceilingUp s die)
def execReferenceInputLoss (s : State) : Out' := .next (fatalWhenOn s (internal 1) 0)
def execColdReset (images : List Image) (trained : List StackLink) (s : State) : Out' := .next (restart s true images trained)
def execWarmReset (images : List Image) (trained : List StackLink) (s : State) : Out' := .next (restart s false images trained)
def execAuditCheckpoint (s : State) : Out' := .next (auditCheckpoint s)

/-! ### Host sessions and commands -/

def execSessionOpen (number : Nat) (p : Proof) (s : State) : Out' := .next (openSession s number p)
def execSessionClose (number : Nat) (s : State) : Out' := .next (closeSession s number)
def execAttest (h : ReqHead) (nonce : List Byte) (s : State) : Out' :=
  let r := h.carry [nonce]
  .next (command s r ⟨0x01, true, true, true, false⟩ (attestDo r.ctx r.body))
def execCapread (h : ReqHead) (off len : List Byte) (s : State) : Out' :=
  let r := h.carry [off, len]
  .next (command s r ⟨0x02, true, true, false, false⟩ (capreadDo (r.num 0 4) (r.num 4 4)))
def execCreate (h : ReqHead) (flags key : List Byte) (s : State) : Out' :=
  let r := h.carry [flags, key]
  .next (command s r ⟨0x10, true, false, false, true⟩ (createDo (w32 (r.num 0 4)) (BitVec.ofNat 512 (beNat (r.bytesAt 4 64)))))
def execRelease (h : ReqHead) (s : State) : Out' :=
  let r := h.carry []
  .next (command s r ⟨0x11, true, true, true, false⟩ (releaseDo r.ctx))
def execGrant (h : ReqHead) (pa size : List Byte) (s : State) : Out' :=
  let r := h.carry [pa, size]
  .next (command s r ⟨0x12, true, false, true, true⟩ (grantDo r.ctx (r.num 0 8) (r.num 8 8)))
def execSetsched (h : ReqHead) (refill cap bcap age xthr : List Byte) (s : State) : Out' :=
  let r := h.carry [refill, cap, bcap, age, xthr]
  .next (command s r ⟨0x13, true, false, true, false⟩ (setschedDo r.ctx (r.num 0 4) (r.num 4 4) (r.num 8 4) (r.num 12 2) (r.num 14 2)))
def execGravers (h : ReqHead) (first count : List Byte) (s : State) : Out' :=
  let r := h.carry [first, count]
  .next (command s r ⟨0x14, true, false, true, true⟩ (graversDo r.ctx (r.num 0 4) (r.num 4 4)))
def execMap (h : ReqHead) (va pa size page leaf : List Byte) (s : State) : Out' :=
  let r := h.carry [va, pa, size, page, leaf]
  .next (command s r ⟨0x20, false, true, true, false⟩ (mapDo r.ctx (r.num 0 8) (r.num 8 8) (r.num 16 8) (r.num 24 1) (r.num 26 2)))
def execUnmap (h : ReqHead) (va size : List Byte) (s : State) : Out' :=
  let r := h.carry [va, size]
  .next (command s r ⟨0x21, false, true, true, false⟩ (unmapDo r.ctx (r.num 0 8) (r.num 8 8)))
def execKeyadd (h : ReqHead) (slot mode wrapped : List Byte) (s : State) : Out' :=
  let r := h.carry [slot, mode, wrapped]
  .next (command s r ⟨0x22, false, true, true, true⟩ (keyaddDo r.session r.ctx (r.num 0 4) (r.num 4 4) (BitVec.ofNat 320 (r.num 8 40))))
def execKeydel (h : ReqHead) (slot : List Byte) (s : State) : Out' :=
  let r := h.carry [slot]
  .next (command s r ⟨0x23, false, true, true, true⟩ (keydelDo r.ctx (r.num 0 4)))
def execExtadd (h : ReqHead) (pa : List Byte) (s : State) : Out' :=
  let r := h.carry [pa]
  .next (command s r ⟨0x24, false, true, true, true⟩ (extaddDo r.ctx (r.num 0 8)))
def execExtrel (h : ReqHead) (pa : List Byte) (s : State) : Out' :=
  let r := h.carry [pa]
  .next (command s r ⟨0x25, false, true, true, true⟩ (extrelDo r.ctx (r.num 0 8)))
def execCtxset (h : ReqHead) (handler queue : List Byte) (s : State) : Out' :=
  let r := h.carry [handler, queue]
  .next (command s r ⟨0x26, false, true, true, false⟩ (ctxsetDo r.ctx (w64 (r.num 0 8)) (w64 (r.num 8 8))))
def execLaunch (h : ReqHead) (mode zero record : List Byte) (s : State) : Out' :=
  let r := h.carry [mode, zero, record]
  .next (command s r ⟨0x30, false, true, true, false⟩ (launchDo r.ctx (r.num 0 4 == 1) (r.body.drop 8) (r.num 8 8)))
def execRead (h : ReqHead) (va len : List Byte) (s : State) : Out' :=
  let r := h.carry [va, len]
  .next (command s r ⟨0x31, false, true, true, false⟩ (readDo r.ctx (r.num 0 8) (r.num 8 4)))
def execWrite (h : ReqHead) (place bytes : List Byte) (s : State) : Out' :=
  let r := h.carry [place, bytes]
  .next (command s r ⟨0x32, false, true, true, false⟩ (writeDo r.ctx (r.num 0 8) (r.body.drop 12)))
def execHostCancel (h : ReqHead) (id : List Byte) (s : State) : Out' :=
  let r := h.carry [id]
  .next (command s r ⟨0x33, false, true, true, false⟩ (cancelDo r.ctx (w64 (r.num 0 8))))
def execLogfetch (h : ReqHead) (first count : List Byte) (s : State) : Out' :=
  let r := h.carry [first, count]
  .next (command s r ⟨0x40, true, false, false, false⟩ (logfetchDo (r.num 0 8) (r.num 8 4)))
def execLogack (h : ReqHead) (seq : List Byte) (s : State) : Out' :=
  let r := h.carry [seq]
  .next (command s r ⟨0x41, true, false, false, false⟩ (logackDo (r.num 0 8)))
def execImpression (h : ReqHead) (off len : List Byte) (s : State) : Out' :=
  let r := h.carry [off, len]
  .next (command s r ⟨0x42, true, false, false, false⟩ (impressionDo (r.num 0 8) (r.num 8 4)))
def execFwupdate (h : ReqHead) (number off total chunk : List Byte) (img : Image) (s : State) : Out' :=
  let r := h.carry [number, off, total, chunk]
  .next (command s r ⟨0x50, true, false, false, true⟩ (fwupdateDo (r.num 0 4) (r.num 4 4) (r.num 8 4) (r.body.drop 12) img))

/-! ### Other packages -/

def execRemoteParticipantFiring (ctx coll part chunk : Nat) (values : List (Nat × Word)) (malformed : Bool) (s : State) : Out' :=
  .next (remoteFiring s ctx coll part chunk values malformed)
def execRemoteChunkResult (ctx coll chunk : Nat) (values : List Word) (flags : BitVec 7) (s : State) : Out' :=
  .next (remoteResult s ctx coll chunk values flags)
def execNodeLoss (node : Nat) (s : State) : Out' := .next (loseNode s node)
def execSealedPacketTagFailure (_die ctx : Nat) (s : State) : Out' := .next (tagFailure s ctx)

end Sys2Proof.Machine
end

