-- ==== Sys2Proof/Machine/Default.lean ====
section
/-!
DEFINITION. What happens next when no slot is being issued (log entry 1): the head of the agenda, else an event that the state
has ready, else the next cycle. Every rule that bounds an event says when it may happen; which of several ready events comes
first is the model's choice.
-/
namespace Sys2Proof.Machine

/-! ### Events that a state has ready -/

/-- Has an MSTMC only its record to write? -/
def multiEnds (o : Out) : Bool := o.todo.any (fun x => x.isMulti && !x.unsent) && o.awaits.isEmpty

/-- Outstanding instructions whose cycle has come, those of threads that have exited among them. -/
def readyOuts (s : State) : Option Instr :=
  let may (th : Thread) (o : Out) : Bool := o.due s.now && !(multiEnds o && multiBefore s th o.seq)
  (s.threads.findSome? fun e => (e.2.outs.find? (may e.2)).map fun o =>
    if o.fixed then Instr.fixedLatencyComplete e.1 o.seq else .variableLatencyComplete e.1 o.seq).orElse fun _ =>
  (s.orphans.find? fun e => may e.2.1 e.2.2).map fun e => .variableLatencyComplete e.1 e.2.2.seq

/-- What a Burin context, or its peer, may do. A waiting header is tried again with its group. -/
def readyBurins (s : State) : Option Instr :=
  s.burins.findSome? fun e =>
    let (c, k) := e.1
    let b := e.2
    let form := if turnOf s c != some k then none else match b.queue.head? with
      | some (_, .mma _ _ _ _) => some (Instr.mmaStep c k)
      | some (q, _) => some (.variableLatencyComplete (.burin c k) q)
      | none => none
    let add := match b.inbox.head? with
      | some x => if x.sent then some (Instr.drainAddApply c k) else none
      | none => none
    form.orElse fun _ => add

/-- The next event of a copy command. -/
def copyEvent (s : State) (c : Copy) : Instr :=
  match copyRel s c with
  | (_, .error _) => .copyElementFault c.id
  | (s, .ok c) =>
    if c.over then .copyComplete c.id
    else if (doElement s c).2.isSome then .copyElementFault c.id else .copyElement c.id

def readyCopies (s : State) : Option Instr := (s.copies.find? fun c => !copyHolds s c).map (copyEvent s)

/-- Stream elements to perform or to fetch. -/
def readyStreams (s : State) : Option Instr :=
  s.threads.findSome? fun e => (List.finRange 4).findSome? fun n =>
    let out := match e.2.stores.get n.val with
      | some w => if w.valued.isEmpty then none else some (Instr.streamStorePerformed e.1 n)
      | none => none
    out.orElse fun _ => match e.2.loads.get n.val with
      | some w => if w.fetched.length < 16 && w.next < w.total && !walkHolds s e.1 e.2 (w.addr w.next) w.ty.bytes
        then some (.streamPrefetch e.1 n) else none
      | none => none

def readyGattn (s : State) : Option Instr :=
  s.gattns.head?.map fun g => if g.page < gattnPages g.n g.tpg then .gattnPage g.id else .gattnComplete g.id

/-- A running Graver context all of whose threads have exited. -/
def readyGravers (s : State) : Option Instr :=
  s.gravers.findSome? fun e =>
    let mine := s.threads.filter fun x => match x.1 with | .graver i _ => i == e.1 | _ => false
    if e.2.state == 1 && !mine.isEmpty && mine.all (fun x => x.2.status == .exited) then some (.graverExit e.1) else none

def readyPress (s : State) : Option Instr :=
  (s.chunks.find? (pressReady s)).map fun x => .pressChunkReduce x.ctx x.launch x.bind x.chunk

/-- Waits that end now by themselves, and words that are to be read again. -/
def readyWaits (s : State) : Option Instr :=
  s.threads.findSome? fun e => match e.2.status with
    | .waiting (.waita _ _ _ _ _ limit _ _) =>
      if limit.any fun l => decide (l ≤ s.now) then some (.waitaTimeout e.1)
      else if waitaDue s e.1 then some (.waitaRecheck e.1) else none
    | .waiting (.barrier _ _ _ _ limit) => if limit.any fun l => decide (l ≤ s.now) then some (.barrierTimeout e.1) else none
    | .waiting (.spawn _ _ _) => match spawnTurn s e.1 with
      | some (ctx, x) => if queueFull s ctx x.2.2 then none else some (.spawnEnqueue e.1)
      | none => none
    | _ => none

/-- Does a set's handshake come further: a set joins, or a cell leaves? -/
def moveWorks (s : State) (c : Nat) : Bool :=
  let s' := plateSetMoveDone s c
  (s'.core c).move != (s.core c).move || s'.cells != s.cells

/-- What a core may do beside issuing. -/
def readyCore (s : State) (c : Nat) : Option Instr :=
  let x := s.core c
  if x.move.isSome && moveWorks s c then some (.plateSetMoveDone c)
  else if spillReady s c then some (.renameSpill c)
  else if (proofDue s c).isSome then some (.proofSlotStart c)
  else match x.bins.find? fun b => binAged s c b.2 with
    | some b => some (.binAgedDraw c b.1)
    | none =>
      if x.clkNext.isSome then some (.clockStepApply c)
      else if driftDue s c then some (.clockDrift c)
      else if handoverDue s c then some (.coreHandover c)
      else none

def readyCores (s : State) : Option Instr := s.cores.findSome? fun e => readyCore s e.1

def readyDies (s : State) : Option Instr :=
  (s.dies.findSome? fun e => if e.2.failed ≥ 3 && !e.2.fenced then some (Instr.dieFence e.1)
    else if e.2.miss.isEmpty then none else some (.tlbMissWalk e.1)).orElse fun _ =>
  s.notices.head?.map fun e => .bankNoticeApply e.1

/-- May a conversion that a claim waits for begin? -/
def moveWaits (s : State) (c l : Nat) (r : LRec) : Bool :=
  match claimState s c l r with
  | some b => (nextMove b).isSome
  | none => false

/-- What the placement of a launch that was taken may do. -/
def readyChosen (s : State) (ctx l : Nat) (x : Launch) : Option Instr :=
  let waits := (x.reserve.map (·.2)).eraseDups.any fun c => moveWaits s c l x.rcd
  if x.rcd.gang ≤ 1 then
    match x.reserve with
    | [] => some (.teamPlace ctx l)
    | (_, c) :: _ => if claimDone s c l x.rcd || waits then some (.teamPlace ctx l) else none
  else if x.reserve.isEmpty then some (.gangReserve ctx l)
  else if commitReady s ctx l x then some (.gangCommit ctx l)
  else if x.committing then none
  else if (gangRival s ctx l x).isSome then some (.gangReservationRelease ctx l)
  else if waits then some (.gangReserve ctx l)
  else none

def readyLaunches (s : State) : Option Instr :=
  (s.chosen.findSome? fun k => (s.launchOf k.1 k.2).bind (readyChosen s k.1 k.2)).orElse fun _ =>
  s.launches.findSome? fun e => if launchOver s e.1.1 e.1.2 e.2 then some (.launchComplete e.1.1 e.1.2) else none

def readyTokens (s : State) : Option Instr :=
  if s.ctxs.any fun e => chargeDue e.2 then some .tokenCharge
  else if s.refills < s.now / (10 * Config.cyclesPerUs) then some .tokenRefill
  else none

/-- Is there a team where a head's PREQ is still to be raised (R393)? -/
def preqDue (s : State) (h : Head) : Bool :=
  match h.l.ineligible with
  | none => false
  | some t => decide (t + 20 * Config.cyclesPerUs ≤ s.now) && match preqVictims s h with
    | some ks => ks.any fun k => ((s.teams.get k).map (·.preq.isNone)).getD false
    | none => false

/-- Does an event save or ask for a save, or resume or convert? -/
def saveWorks (s s' : State) : Bool :=
  let asked (x : State) : Nat := (x.burins.filter fun e => burinHeld x e.1).length
  s'.saved.length != s.saved.length || asked s' != asked s
def resumeWorks (s s' : State) : Bool :=
  let moving (x : State) : Nat := (x.cores.filter fun e => e.2.move.isSome).length
  s'.saved.length != s.saved.length || moving s' != moving s

/-- Pre-emption, saves, resumptions, exchanges. -/
def readySaves (s : State) : Option Instr :=
  (s.teams.findSome? fun e => match e.2.preq with
    | none => none
    | some t =>
      let (c, k) := e.1
      let d := ((s.launchOf e.2.ctx e.2.launch).map (·.rcd.deadline)).getD 0
      if e.2.saving || allSavable s (unitTeams s e.2) then (if saveWorks s (teamSave s c k) then some (Instr.teamSave c k) else none)
      else if t + 256 * d ≤ s.now then some (.forcedSave c k) else none).orElse fun _ =>
  (s.saved.findSome? fun v =>
    let i := (v.team.ctx, v.team.launch, v.team.lin)
    if resumeWorks s (teamResume s i.1 i.2.1 i.2.2) then some (Instr.teamResume i.1 i.2.1 i.2.2)
    else if exchangeDue (noteBlocked s) i.1 i.2.1 then some (.residencyExchange i.1 i.2.1) else none).orElse fun _ =>
  ((heads s).find? (preqDue s)).map fun h => .preqRaise h.ctx h.q

def readyAudit (s : State) : Option Instr := if ckptDue s && (lastRec s).isSome then some .auditCheckpoint else none

/-- A group that may issue, or is to be promoted first. -/
def readyGroups (s : State) : Option Instr :=
  (s.groups.findSome? fun g => if !g.promoted && ready256 s g then some (Instr.ready256Promotion g.agent.1) else none).orElse fun _ =>
  (s.groups.find? fun g => (stopGroup s g.agent).isSome || (inTurn s g.agent && !(candidates s g.agent).isEmpty)).map fun g =>
    .quadrantIssue g.agent.1 g.agent.2

/-- One of the events a running package has ready. -/
def readyEvent (s : State) : Option Instr :=
  (readyOuts s).orElse fun _ => (readyBurins s).orElse fun _ => (readyGravers s).orElse fun _ => (readyWaits s).orElse fun _ =>
  (readyCores s).orElse fun _ => (readyDies s).orElse fun _ => (readyTokens s).orElse fun _ => (readyAudit s).orElse fun _ =>
  (readyLaunches s).orElse fun _ => (readySaves s).orElse fun _ => (readyGroups s).orElse fun _ =>
  (readyCopies s).orElse fun _ => (readyStreams s).orElse fun _ => (readyGattn s).orElse fun _ => readyPress s

/-! ### The next event -/

def Instr.isReset : Instr → Bool
  | .coldReset _ _ => true
  | .warmReset _ _ => true
  | _ => false

/-- A fatal error, which reaches a package that boots too (R403). -/
def Instr.isFatal : Instr → Bool
  | .fatalError _ _ => true
  | .thermalTrip => true
  | .referenceInputLoss => true
  | _ => false

/-- Does a package that is off take an event from the agenda: a reset, or, while it boots, a fatal error (R408, R405, R407)? -/
def offTakes (s : State) (e : Instr) : Bool := Instr.isReset e || (s.pkg.boot.isSome && Instr.isFatal e)

/-- Do the fills of a RET lack cells (R28)? -/
def retShort (s : State) (g : Group) (i : Instr) : Bool :=
  match i with
  | .ret h => fillStall s (executing h s g)
  | _ => false

/-- Cores on which an instruction stalls on a cell in this cycle. -/
def stalledCores (s : State) : List Nat :=
  (s.groups.filter fun g => decide (g.agent.1 < Config.cores) && shortOfCells s g retShort).map (·.agent.1)

/-- The cores note since when they stall on cells (R29): a stall that is over is forgotten. -/
def noteStalls (s : State) : State :=
  let cs := stalledCores s
  { s with cores := s.cores.map fun e =>
      (e.1, { e.2 with stall := if cs.contains e.1 then e.2.stall.orElse fun _ => some s.now else none }) }

/-- With nothing ready the cycle ends: stalls on cells are noted, the cores have served their contexts for it (R297), and the next one
begins. The coordinator looks at its queues in every cycle. -/
def tick (s : State) : State := { serveCycle (noteStalls s) with now := s.now + 1 }

/-- What a package that is up does of itself. -/
def ownEvent (s : State) : Instr × State :=
  match (if s.pkg.mode == .ready then readyEvent s else none) with
  | some e => (e, s)
  | none => (.coordinatorArbitration, tick s)

/-- What a package that is off does of itself: the next step of its boot, on queues that are empty, or, with none begun, a cold
reset. -/
def offEvent (s : State) : Instr × State :=
  if s.pkg.boot.isSome then (.coordinatorArbitration, bootStep s) else (.coldReset flashImages [], s)

/-- The next event, and the state it acts on: none when a fatal error has stopped the package and no reset is to come. While the
package is off, only a reset or a fatal error is taken from the agenda. -/
def nextEvent (s : State) : Option (Instr × State) :=
  match s.pkg.mode with
  | .fatal _ => match s.agenda.dropWhile fun e => !Instr.isReset e with
    | e :: rest => some (e, { s with agenda := rest })
    | [] => none
  | .off => match s.agenda with
    | e :: rest => if offTakes s e then some (e, { s with agenda := rest }) else some (offEvent s)
    | [] => some (offEvent s)
  | _ => match s.agenda with
    | e :: rest => some (e, { s with agenda := rest })
    | [] => some (ownEvent s)

end Sys2Proof.Machine
end

