-- ==== Sys2Proof/Machine/Atomic.lean ====
section
/-!
DEFINITION. Class 0x8, atomics and FENCE (R231, R249–R252).
-/
namespace Sys2Proof.Machine

/-- Bytes of an atomic. -/
def atomBytes (wide : Bool) : Nat := if wide then 8 else 4

/-- A 32-bit floating operation's result word; the bits it raises go nowhere (R249). -/
def addHalves (ty : FTy) (a b : Word) : Word :=
  (perElem ty (fun f x y _ => f.add .rne .ieee (f.val x) (f.val y)) a b 0).1

/-- The new value of a w-bit location (R249). -/
def atomNew (op : AtomOp) (w : Nat) (a b : Nat) : Nat :=
  let sa := sext w a
  let sb := sext w b
  match op with
  | .add => (a + b) % 2 ^ w
  | .minS => if sb < sa then b else a
  | .maxS => if sa < sb then b else a
  | .minN => min a b
  | .maxN => max a b
  | .and => Nat.land a b
  | .or => Nat.lor a b
  | .xor => Nat.xor a b
  | .exch => b
  | .addF32 => (rnAdd (w32 a) (w32 b)).1.toNat
  | .addF16x2 => (addHalves .f16x2 (w32 a) (w32 b)).toNat
  | .addBf16x2 => (addHalves .bf16x2 (w32 a) (w32 b)).toNat
  | .minF32 => (Fmt.f32.minMax false a b).bits
  | .maxF32 => (Fmt.f32.minMax true a b).bits

/-- Names that an old value fills. -/
def oldWords (wide : Bool) (v : Nat) : List Word := if wide then [w32 v, w32 (v / 2 ^ 32)] else [w32 v]

/-- Read, then write, of an atomic at its home; `f` gives the new value, none for no write (R231, R250, R251). A read that finds
bad data writes nothing. -/
def atomicAt (s : State) (t : Tid) (p : Phys) (n : Nat) (f : Nat → Option Nat) : State × Nat × Nat :=
  match t with
  | .graver _ _ =>
    let inBank := (bankOf p.pa).isSome
    let (s, v, code) := if inBank then
        let (d, code) := dramRead s (p.pa / 64) p.key
        (s, secLoad d (p.pa % 64) n, code)
      else atomRead s p n
    if code != 0 then (s, 0, code)
    else match f v with
      | none => (s, v, 0)
      | some x => (if inBank then bankWrite s p.pa p.key n x else atomWrite s p n x, v, 0)
  | t =>
    let (s, v, code) := atomRead (atomPrep s (coreNum t) p.pa) p n
    if code != 0 then (s, 0, code)
    else match f v with
      | none => (s, v, 0)
      | some x => (atomWrite s p n x, v, 0)

/-- One lane's global atomic: its old value. -/
def globalAtomic (s : State) (t : Tid) (th : Thread) (a : DWord) (n : Nat) (o : Ord) (sc : Scope) (f : Nat → Option Nat) :
    State × Except Flt (Nat × Option (Nat × DWord)) :=
  match globalCheck s t th.ctx a.toNat n .both true o sc with
  | (s, .error e) => (s, .error e)
  | (s, .ok p) =>
    let (s, e) := beforeAccess s t o sc p
    let (s, v, code) := atomicAt s t p n f
    (afterAccess s t o sc p.pa, .ok (v, lateOf (if code == 0 then e else code) a))

/-- What a lane's atomic comes to. -/
def atomRes (wide : Bool) (r : State × Except Flt (Nat × Option (Nat × DWord))) : State × Res :=
  match r with
  | (s, .error f) => (s, { fault := some f })
  | (s, .ok (v, late)) => (s, { out := oldWords wide v, late := late })

/-- One lane's atomic in scratch. -/
def scratchAtomic (s : State) (t : Tid) (th : Thread) (a : Word) (n : Nat) (o : Ord) (sc : Scope) (f : Nat → Option Nat) :
    State × Except Flt (Nat × Option (Nat × DWord)) :=
  match scratchRead s t th a n with
  | .error e => (s, .error e)
  | .ok x =>
    let (s, e) := if ordRel o then release s t sc 0 else (s, 0)
    let v := spotLoad s x n
    let s := match f v with
      | some y => spotStore s x n y
      | none => s
    (afterAccess s t o sc 0, .ok (v, lateOf e 0))

/-- New of R249 as an update. -/
def modify (op : AtomOp) (wide : Bool) (b : List Word) (old : Nat) : Option Nat :=
  some (atomNew op (8 * atomBytes wide) old (dataVal b))

/-- R250: the swap when the old value is B. -/
def swapIf (b c : List Word) (old : Nat) : Option Nat := if old == dataVal b then some (dataVal c) else none

def execAtom (h : Hdr) (op : AtomOp) (m : AMod) (d : Name) (a b : Src) (pat : Pat) (s : State) : Out' :=
  .next (issue (globalForm (.atom h op m d a b pat) h (atomBytes m.wide) (opPair · 0) fun _ s t th vs =>
    withReply s t th (opPair vs 0) (atomRes m.wide (globalAtomic s t th (opPair vs 0) (atomBytes m.wide) m.ord m.scope
      (modify op m.wide (vs.getD 1 []))))) s)

def execAtoms (h : Hdr) (op : AtomOp) (m : AMod) (d : Name) (a b : Src) (pat : Pat) (s : State) : Out' :=
  .next (issue (scratchForm (.atoms h op m d a b pat) h (atomBytes m.wide) (Sys2Proof.Machine.op · 0) fun _ s t th vs =>
    atomRes m.wide (scratchAtomic s t th (Sys2Proof.Machine.op vs 0) (atomBytes m.wide) m.ord m.scope
      (modify op m.wide (vs.getD 1 [])))) s)

def execCas (h : Hdr) (m : AMod) (o : Dabc) (s : State) : Out' :=
  .next (issue (globalForm (.cas h m o) h (atomBytes m.wide) (opPair · 0) fun _ s t th vs =>
    withReply s t th (opPair vs 0) (atomRes m.wide (globalAtomic s t th (opPair vs 0) (atomBytes m.wide) m.ord m.scope
      (swapIf (vs.getD 1 []) (vs.getD 2 []))))) s)

def execCass (h : Hdr) (m : AMod) (o : Dabc) (s : State) : Out' :=
  .next (issue (scratchForm (.cass h m o) h (atomBytes m.wide) (op · 0) fun _ s t th vs =>
    atomRes m.wide (scratchAtomic s t th (op vs 0) (atomBytes m.wide) m.ord m.scope
      (swapIf (vs.getD 1 []) (vs.getD 2 [])))) s)

/-- RED: an atomic whose return is discarded (R231). -/
def execRed (h : Hdr) (op : AtomOp) (m : AMod) (a b : Src) (pat : Pat) (s : State) : Out' :=
  .next (issue (globalForm (.red h op m a b pat) h (atomBytes m.wide) (opPair · 0) fun _ s t th vs =>
    let (s1, r) := atomRes m.wide (globalAtomic s t th (opPair vs 0) (atomBytes m.wide) m.ord m.scope
      (modify op m.wide (vs.getD 1 [])))
    withReply s t th (opPair vs 0) (s1, { r with out := [] })) s)

/-- FENCE's check of its address at a memory-side scope: 0x06, 0x16, 0x08 (R252). -/
def fenceCheck (s : State) (t : Tid) (th : Thread) (sc : Scope) (a : DWord) : State × Except Flt Nat :=
  if !sc.memorySide then (s, .ok 0)
  else match leafFor s t th.ctx a.toNat with
    | (s, none) => (s, .error (flt 0x06 a.toNat))
    | (s, some (size, leaf)) =>
      let pa := bits leaf.toNat 47 16 * 2 ^ 16 + a.toNat % size
      if bitAt leaf.toNat 10 then (s, .error (flt 0x16 a.toNat))
      else if (regionOf pa).isNone then (s, .error (flt 0x06 a.toNat))
      else if (bankOf pa).isNone then (s, .error (flt 0x08 a.toNat))
      else if fencedHome s pa then (s, .error (flt 0x15 a.toNat))
      else (s, .ok pa)

/-- FENCE translates its address at a memory-side scope alone. -/
def fenceForm (i : Instr) (h : Hdr) (sc : Scope) (off : Option (BitVec 22))
    (f : Env → State → Tid → Thread → List (List Word) → State × Res) : Form :=
  { memForm i h f with stall := fun s t th vs => sc.memorySide && missStall s t th.ctx (globalAddr off vs).toNat }

def execFence (h : Hdr) (o : Ord) (sc : Scope) (st : Bool) (a : Addr) (s : State) : Out' :=
  .next (issue (fenceForm (.fence h o sc st a) h sc a.off fun _ s t th vs =>
    let va := globalAddr a.off vs
    match fenceCheck s t th sc va with
    | (s, .error f) => (s, { fault := some f })
    | (s, .ok pa) =>
      let (s, e) := if ordRel o then release s t sc pa else (s, 0)
      (afterAccess s t o sc pa, { late := lateOf e va })) s)

end Sys2Proof.Machine
end

