-- ==== Sys2Proof/Machine/Exact.lean ====
section
/-!
DEFINITION. Class 0x3, exact and double-word forms (R133–R141).
-/
namespace Sys2Proof.Machine

def latDw : Lat := .fixed 12

/-- The sign of a word flipped when asked (R133). -/
def negIf (n : Bool) (x : Word) : Word := if n then negW x else x

def pRes (r : Word × Word × Flags) : Res := { out := [r.1, r.2.1], fl := r.2.2 }

/-- DWCMP's condition; IV only for a signalling half (R139). -/
def dwcmpFn (cc : Nat) (ah al bh bl : Word) : Bool × Flags :=
  (condF cc ((dwVal ah al).cmp (dwVal bh bl)), sigFl [f32v ah, f32v al, f32v bh, f32v bl])

def execFaddx (h : Hdr) (neg : Bool) (d : Name) (a b : Src) (pat : Pat) (s : State) : Out' :=
  .next (issue (alu (.faddx h neg d a b pat) h latFma fun vs => pRes (twoSum (negIf neg (op vs 0)) (op vs 1))) s)
def execFsubx (h : Hdr) (neg : Bool) (d : Name) (a b : Src) (pat : Pat) (s : State) : Out' :=
  .next (issue (alu (.fsubx h neg d a b pat) h latFma fun vs => pRes (twoSum (negIf neg (op vs 0)) (negW (op vs 1)))) s)
def execFmulx (h : Hdr) (neg : Bool) (d : Name) (a b : Src) (pat : Pat) (s : State) : Out' :=
  .next (issue (alu (.fmulx h neg d a b pat) h latFma fun vs => pRes (twoProd (negIf neg (op vs 0)) (op vs 1))) s)
def execDwadd (h : Hdr) (neg : Bool) (d : Name) (a b : Src) (pat : Pat) (s : State) : Out' :=
  .next (issue (alu (.dwadd h neg d a b pat) h latDw fun vs =>
    pRes (dwAdd (negIf neg (opk vs 0 0)) (negIf neg (opk vs 0 1)) (opk vs 1 0) (opk vs 1 1))) s)
def execDwsub (h : Hdr) (neg : Bool) (d : Name) (a b : Src) (pat : Pat) (s : State) : Out' :=
  .next (issue (alu (.dwsub h neg d a b pat) h latDw fun vs =>
    pRes (dwAdd (negIf neg (opk vs 0 0)) (negIf neg (opk vs 0 1)) (negW (opk vs 1 0)) (negW (opk vs 1 1)))) s)
def execDwmul (h : Hdr) (neg : Bool) (d : Name) (a b : Src) (pat : Pat) (s : State) : Out' :=
  .next (issue (alu (.dwmul h neg d a b pat) h latDw fun vs =>
    pRes (dwMul (negIf neg (opk vs 0 0)) (negIf neg (opk vs 0 1)) (opk vs 1 0) (opk vs 1 1))) s)
def execDwaddf (h : Hdr) (neg : Bool) (d : Name) (a b : Src) (pat : Pat) (s : State) : Out' :=
  .next (issue (alu (.dwaddf h neg d a b pat) h latDw fun vs =>
    pRes (dwAddF (negIf neg (opk vs 0 0)) (negIf neg (opk vs 0 1)) (op vs 1))) s)
def execDwmulf (h : Hdr) (neg : Bool) (d : Name) (a b : Src) (pat : Pat) (s : State) : Out' :=
  .next (issue (alu (.dwmulf h neg d a b pat) h latDw fun vs =>
    pRes (dwMulF (negIf neg (opk vs 0 0)) (negIf neg (opk vs 0 1)) (op vs 1))) s)
def execDwnorm (h : Hdr) (o : Da) (s : State) : Out' :=
  .next (issue (alu (.dwnorm h o) h latDw fun vs => pRes (twoSum (opk vs 0 0) (opk vs 0 1))) s)
def execDwcmp (h : Hdr) (cc p : Fin 8) (a b : Src) (pat : Pat) (s : State) : Out' :=
  .next (issue (alu (.dwcmp h cc p a b pat) h latDw fun vs =>
    let r := dwcmpFn cc.val (opk vs 0 0) (opk vs 0 1) (opk vs 1 0) (opk vs 1 1)
    { preds := [(p, r.1)], fl := r.2 }) s)
def execCvtdw (h : Hdr) (o : Da) (s : State) : Out' :=
  .next (issue (alu (.cvtdw h o) h latDw fun vs => pRes (cvtDW (opPair vs 0))) s)
def execCvtwd (h : Hdr) (o : Da) (s : State) : Out' :=
  .next (issue (alu (.cvtwd h o) h latDw fun vs =>
    let r := cvtWD (opk vs 0 0) (opk vs 0 1)
    { out := pairOut r.1, fl := r.2 }) s)

end Sys2Proof.Machine
end

