-- ==== Sys2Proof/Machine/Logic.lean ====
section
/-!
DEFINITION. Class 0x1, logic, shift and predicate forms (R175–R180).
-/
namespace Sys2Proof.Machine

/-- A two-input function by its 4-bit code: bit 2a + b is the result for (a, b) (R176). -/
def fn2 (f : BitVec 4) (a b : Word) : Word :=
  let pick (k : Nat) (m : Word) : Word := if f.getLsbD k then m else 0
  pick 3 (a &&& b) ||| pick 2 (a &&& ~~~b) ||| pick 1 (~~~a &&& b) ||| pick 0 (~~~a &&& ~~~b)

/-- BMUX: F1 where C is 1, F0 where C is 0. -/
def bmuxFn (f1 f0 : BitVec 4) (a b c : Word) : Word := (fn2 f1 a b &&& c) ||| (fn2 f0 a b &&& ~~~c)

/-- The shift amount (R177). -/
def shAmt (b : Word) : Nat := b.toNat % 256

def shlFn (a b : Word) : Word := if shAmt b < 32 then a <<< shAmt b else 0
def shrFn (a b : Word) : Word := if shAmt b < 32 then a >>> shAmt b else 0
def sarFn (a b : Word) : Word := a.sshiftRight (min (shAmt b) 32)
def rotFn (a b : Word) : Word := a.rotateLeft (shAmt b % 32)

/-- FSHF (R178). -/
def fshfFn (a b c : Word) : Word := loOf (pairOf a b >>> (c.toNat % 64))

def execAnd (h : Hdr) (o : Dab) (s : State) : Out' :=
  .next (issue (alu (.and h o) h latInt fun vs => { out := [op vs 0 &&& bVal o.b vs] }) s)
def execOr (h : Hdr) (o : Dab) (s : State) : Out' :=
  .next (issue (alu (.or h o) h latInt fun vs => { out := [op vs 0 ||| bVal o.b vs] }) s)
def execXor (h : Hdr) (o : Dab) (s : State) : Out' :=
  .next (issue (alu (.xor h o) h latInt fun vs => { out := [op vs 0 ^^^ bVal o.b vs] }) s)
def execAndn (h : Hdr) (o : Dab) (s : State) : Out' :=
  .next (issue (alu (.andn h o) h latInt fun vs => { out := [op vs 0 &&& ~~~(bVal o.b vs)] }) s)
def execBmux (h : Hdr) (f1 f0 : BitVec 4) (d : Name) (a b c : Src) (s : State) : Out' :=
  .next (issue (alu (.bmux h f1 f0 d a b c) h latInt fun vs => { out := [bmuxFn f1 f0 (op vs 0) (op vs 1) (op vs 2)] }) s)
def execShl (h : Hdr) (o : Dab) (s : State) : Out' :=
  .next (issue (alu (.shl h o) h latInt fun vs => { out := [shlFn (op vs 0) (bVal o.b vs)] }) s)
def execShr (h : Hdr) (o : Dab) (s : State) : Out' :=
  .next (issue (alu (.shr h o) h latInt fun vs => { out := [shrFn (op vs 0) (bVal o.b vs)] }) s)
def execSar (h : Hdr) (o : Dab) (s : State) : Out' :=
  .next (issue (alu (.sar h o) h latInt fun vs => { out := [sarFn (op vs 0) (bVal o.b vs)] }) s)
def execRot (h : Hdr) (o : Dab) (s : State) : Out' :=
  .next (issue (alu (.rot h o) h latInt fun vs => { out := [rotFn (op vs 0) (bVal o.b vs)] }) s)
def execFshf (h : Hdr) (o : Dabc) (s : State) : Out' :=
  .next (issue (alu (.fshf h o) h latInt fun vs => { out := [fshfFn (op vs 0) (op vs 1) (op vs 2)] }) s)

/-- PLOP reads the predicates as they stand at issue (R163, R179). -/
def execPlop (h : Hdr) (fn pd pa pb : Fin 8) (s : State) : Out' :=
  .next (issue { i := .plop h fn pd pa pb, h := h, lat := latInt,
                 lane := fun _ s _ th _ =>
                   (s, { preds := [(pd, plopFn fn.val (getPred th.preds pa) (getPred th.preds pb))] }) } s)
def execP2g (h : Hdr) (d : Name) (s : State) : Out' :=
  .next (issue { i := .p2g h d, h := h, lat := latInt,
                 lane := fun _ s _ th _ => (s, { out := [th.preds.setWidth 32] }) } s)
def execG2p (h : Hdr) (a : Src) (s : State) : Out' :=
  .next (issue (alu (.g2p h a) h latInt fun vs =>
    { preds := (List.finRange 7).map fun k => (k.castSucc, (op vs 0).getLsbD k.val) }) s)

end Sys2Proof.Machine
end

