-- ==== Sys2Proof/Machine/Proof.lean ====
section
/-!
DEFINITION. The proof-slot forms (R387–R391): PSEL, PRDV, PWRV, PRET, FREC. The return from a fault is PRET's.
-/
namespace Sys2Proof.Machine

/-! ### Selection (R388) -/

/-- The thread that a selector word names on a core: none for a word with reserved bits, or without a resident thread. -/
def selected (s : State) (c : Nat) (a : Word) : Option Tid :=
  let n := a.toNat
  let t : Tid := .core c (bits n 10 5) (bits n 4 0)
  if bitAt n 31 || bits n 30 11 != 0 then none
  else match s.thread t with
    | some th => if th.status == .exited then none else some t
    | none => none

def execPsel (h : Hdr) (a : Src) (s : State) : Out' :=
  .next (issue (ctlForm (.psel h a) h fun _ s t _ vs =>
    (s.modThread t fun th => { th with sel := selected s (coreNum t) (op vs 0) }, {})) s)

/-- The stopped thread that a lane selected. -/
def stoppedSel (s : State) (th : Thread) : Option (Tid × Thread) :=
  match th.sel with
  | none => none
  | some u => match s.thread u with
    | some uh => if uh.status == .stopped then some (u, uh) else none
    | none => none

/-! ### Items (R389) -/

/-- The position of operand field n in a thread's window. -/
def itemPos (uh : Thread) (n : Nat) : Option Pos :=
  if n < 48 then some (.v (uh.fb + n)) else if n < 56 then some (.g (n - 48)) else none

/-- Is a name of a thread spilled? -/
def spilledName (s : State) (u : Tid) (p : Pos) : Option CellKey :=
  match State.cellKey u p with
  | some k => match s.cells.get k with
    | some c => if c.spilled then some k else none
    | none => none
  | none => none

/-- A name's value; that of a spilled name from its slot, a free value where the slot fails its check. -/
def itemValue (s : State) (u : Tid) (uh : Thread) (p : Pos) : State × Word :=
  match spilledName s u p with
  | none => (s, (s.readPos u p).getD 0)
  | some _ =>
    if (s.laneCell u p).rel then (s, 0)
    else match spillSlot s uh p with
      | none => (s, 0)
      | some va => match slotLoad s u uh va with
        | (s, .ok v) => (s, v)
        | (s, .error _) =>
          let (n, s) := s.fresh
          (s, Config.freeWord n)

def voidItem (s : State) (u : Tid) (p : Pos) : Bool :=
  match spilledName s u p with
  | none => (s.readPos u p).isNone
  | some _ => (s.laneCell u p).rel

/-- Items of space 2. -/
def stateItem (uh : Thread) (n : Nat) : Word :=
  match n with
  | 0 => loOf uh.pc
  | 1 => hiOf uh.pc
  | 2 => uh.preds.setWidth 32
  | 3 => uh.lcs.1
  | 4 => uh.lcs.2.1
  | 5 => uh.lcs.2.2
  | 6 => w32 uh.fb
  | 7 => w32 uh.lo
  | 8 => w32 uh.nrec
  | 9 => w32 uh.wtop
  | 10 => if uh.act then 1 else 0
  | 11 => uh.fpst.setWidth 32
  | 12 => if uh.voidSt then 1 else 0
  | _ => 0

/-- PRDV of one item. -/
def readItem (s : State) (u : Tid) (uh : Thread) (a : Word) : State × Word :=
  let n := a.toNat % 64
  if a.toNat / 2 ^ 9 != 0 then (s, 0)
  else match a.toNat / 64 with
    | 0 => match itemPos uh n with
      | some p => itemValue s u uh p
      | none => (s, 0)
    | 1 => match itemPos uh n with
      | some p => (s, if voidItem s u p then 1 else 0)
      | none => (s, 0)
    | 2 => (s, stateItem uh n)
    | _ => (s, 0)

/-- Does PRDV read a name whose row has an uncorrectable error (R402)? -/
def itemBad (s : State) (u : Tid) (uh : Thread) (a : Word) : Bool :=
  decide (a.toNat < 64) && match itemPos uh a.toNat with
    | some p => (spilledName s u p).isNone && !voidItem s u p && s.rowBad u p
    | none => false

/-- Does an access to a name's slots find the miss table full (R351)? A write also spills the name where no cell is free (R389). -/
def itemHolds (s : State) (writes : Bool) (th : Thread) (a : Word) : Bool :=
  decide (a.toNat < 64) && match stoppedSel s th with
    | some (u, uh) => (itemPos uh a.toNat).any fun p => (State.cellKey u p).any fun k =>
        ((spilledName s u p).isSome || (writes && s.cellsFree k.core k.quad == 0)) && slotsHold s [k]
    | none => false

def execPrdv (h : Hdr) (o : Da) (s : State) : Out' :=
  .next (issue { ctlForm (.prdv h o) h (fun _ s _ th vs => match stoppedSel s th with
    | none => (s, { out := [0] })
    | some (u, uh) =>
      if itemBad s u uh (op vs 0) then (s, { fault := some { code := 0x18 } })
      else
        let (s, v) := readItem s u uh (op vs 0)
        (s, { out := [v] })) with stall := fun s _ th vs => itemHolds s false th (op vs 0) } s)

/-- A write of a name that stays in its slots: the name's lanes go there, with the new value in this lane (R389); a slot that fails
its check stops its thread before its next issue (R430). -/
def writeSpilled (s : State) (u : Tid) (k : CellKey) (p : Pos) (v : Word) : State :=
  let c := ((s.cells.get k).getD (s.newCell k.core k.quad)).setLane (u.lane % 4) { val := v, rel := false, pend := none }
  if c.spilled then match spillLane s u p v with
    | (s, none) => { s with cells := s.cells.set k c }
    | (s, some b) => noteSpillBad s u b
  else match spillWrites s k c with
    | (s, []) => { s with cells := s.cells.set k { c with spilled := true } }
    | (s, bad) => bad.foldl (fun s b => noteSpillBad s b.1 b.2) s

/-- PWRV of a name, in that lane alone. -/
def writeName (s : State) (u : Tid) (p : Pos) (v : Word) : State :=
  match State.cellKey u p with
  | none => s
  | some k =>
    if s.cellsFree k.core k.quad == 0 then writeSpilled s u k p v
    else match spilledName s u p with
      | none => (noteAlloc s u).writeNow u p v
      | some k => match fillKey s k with
        | (s, []) => (noteAlloc s u).writeNow u p v
        | (s, _ :: _) => writeSpilled s u k p v

/-- PWRV of space 2. -/
def putItem (uh : Thread) (n : Nat) (v : Word) : Thread :=
  match n with
  | 0 => { uh with pc := pairOf v (hiOf uh.pc), pcWritten := true }
  | 1 => { uh with pc := pairOf (loOf uh.pc) v, pcWritten := true }
  | 2 => { uh with preds := v.setWidth 7, predPend := [] }
  | 3 => { uh with lcs := (v, uh.lcs.2.1, uh.lcs.2.2) }
  | 4 => { uh with lcs := (uh.lcs.1, v, uh.lcs.2.2) }
  | 5 => { uh with lcs := (uh.lcs.1, uh.lcs.2.1, v) }
  | 10 => { uh with act := v.getLsbD 0, pcWritten := true }
  | 11 => { uh with fpst := v.setWidth 7 }
  | 12 => { uh with voidSt := v.getLsbD 0 }
  | _ => uh

def writeItem (s : State) (u : Tid) (uh : Thread) (a v : Word) : State :=
  let n := a.toNat % 64
  if a.toNat / 2 ^ 9 != 0 then s
  else match a.toNat / 64 with
    | 0 => match itemPos uh n with
      | some p => writeName s u p v
      | none => s
    | 1 => match itemPos uh n with
      | some p => if v == 1 then s.markRel u p else s
      | none => s
    | 2 => s.setThread u (putItem uh n v)
    | _ => s

def execPwrv (h : Hdr) (a b : Src) (pat : Pat) (s : State) : Out' :=
  .next (issue { ctlForm (.pwrv h a b pat) h (fun _ s _ th vs => match stoppedSel s th with
    | none => (s, {})
    | some (u, uh) => (writeItem s u uh (op vs 0) (op vs 1), {})) with stall := fun s _ th vs => itemHolds s true th (op vs 0) } s)

/-! ### PRET (R390) -/

/-- Threads that go on together: same stop, nothing written. One group for each. -/
def resumeTogether (s : State) : Nat → List Tid → State
  | 0, _ => s
  | _ + 1, [] => s
  | n + 1, t :: ts =>
    let mates (u : Tid) : Bool := match s.thread t, s.thread u with
      | some a, some b => a.stopMates == b.stopMates
      | _, _ => false
    resumeTogether (s.addGroup (slotQuadrant t) false (t :: ts.filter mates)) n (ts.filter fun u => !mates u)

/-- A thread whose PC or ACT was written: into its warp bin before a warp-whole instruction, else into a bin by its PC; with no
bin free it goes on alone. -/
def refile (s : State) (t : Tid) : State :=
  let whole : Bool := match s.thread t with
    | some th => ((nextInstr s t th).map fun (i : Instr) => i.warpWhole).getD false
    | none => false
  if whole then fileWarp s [t]
  else
    let (s, ok) := fileBin s t
    if ok then s else s.addGroup (slotQuadrant t) false [t]

/-- The threads that one PRET resumes. -/
def resumeAll (s : State) (ts : List Tid) : State :=
  let acting (f : Thread → Bool) : List Tid := ts.filter fun t => match s.thread t with
    | some th => f th
    | none => false
  let exits := acting (·.act)
  let same := acting fun th => !th.act && !th.pcWritten
  let other := acting fun th => !th.act && th.pcWritten
  let c := (ts.head?.map coreNum).getD 0
  let s := s.modCore c fun x => { x with stopList := x.stopList.filter fun t => !ts.contains t }
  let s := exits.foldl exitThread s
  let s := (same ++ other).foldl (fun s t => s.modThread t fun th =>
    { th with status := .running, stop := none, act := false, pcWritten := false }) s
  let s := resumeTogether s same.length same
  drawFull (other.foldl refile s) c

/-- After PRET: each executing lane whose selection names a stopped thread resumes it, and its selection is cleared; in any other lane
PRET has no effect (R388). -/
def pretAfter (env : Env) (s : State) : State :=
  let hits := env.exec.filterMap fun t => ((env.pre.thread t).bind (stoppedSel env.pre)).map fun u => (t, u.1)
  let s := hits.foldl (fun s e => s.modThread e.1 fun th => { th with sel := none }) s
  resumeAll s (hits.map (·.2)).eraseDups

def execPret (h : Hdr) (s : State) : Out' :=
  .next (issue { ctlForm (.pret h) h (fun _ s _ _ _ => (s, {})) with after := pretAfter } s)

/-! ### FREC (R391) -/

/-- Word k of a record. -/
def recWord (r : FRec) (k : Nat) : Word := w32 (natOf ((r.bytes.drop (4 * k)).take 4))

def execFrec (h : Hdr) (o : Da) (s : State) : Out' :=
  .next (issue (ctlForm (.frec h o) h fun _ s _ th vs =>
    let a := (op vs 0).toNat
    match stoppedSel s th with
    | some (_, uh) => match uh.stop with
      | some r => (s, { out := [if a / 16 != 0 then 0 else recWord r a] })
      | none => (s, { out := [0] })
    | none => (s, { out := [0] })) s)

/-- The selector word of a thread. -/
def selectorOf (t : Tid) : Word :=
  match t with
  | .core _ sl l => w32 (sl * 32 + l)
  | _ => 0x8000_0000

def execFrecList (h : Hdr) (o : Da) (s : State) : Out' :=
  .next (issue (ctlForm (.frecList h o) h fun _ s t _ vs =>
    (s, { out := [((s.core (coreNum t)).stopList[(op vs 0).toNat]?).elim 0x8000_0000 selectorOf] })) s)

end Sys2Proof.Machine
end

