-- ==== Sys2Proof/Machine/Dispatch.lean ====
section
/-!
DEFINITION. What each instruction, event and host command does: one arm per constructor, one meaning per arm.
-/
namespace Sys2Proof.Machine

/-- The meaning of an instruction. -/
def exec (i : Instr) (s : State) : Host.Outcome State Fault Refusal :=
  match i with
  | .iadd h ty sat o => Sys2Proof.Machine.execIadd h ty sat o s
  | .isub h ty sat o => Sys2Proof.Machine.execIsub h ty sat o s
  | .imul h ty sat wide o => Sys2Proof.Machine.execImul h ty sat wide o s
  | .imulh h ty o => Sys2Proof.Machine.execImulh h ty o s
  | .imad h ty sat wide o => Sys2Proof.Machine.execImad h ty sat wide o s
  | .imin h ty o => Sys2Proof.Machine.execImin h ty o s
  | .imax h ty o => Sys2Proof.Machine.execImax h ty o s
  | .iabs h ty sat o => Sys2Proof.Machine.execIabs h ty sat o s
  | .icmp h signed o => Sys2Proof.Machine.execIcmp h signed o s
  | .isel h o => Sys2Proof.Machine.execIsel h o s
  | .popc h o => Sys2Proof.Machine.execPopc h o s
  | .clz h o => Sys2Proof.Machine.execClz h o s
  | .brev h o => Sys2Proof.Machine.execBrev h o s
  | .bfe h signed o => Sys2Proof.Machine.execBfe h signed o s
  | .bfi h o => Sys2Proof.Machine.execBfi h o s
  | .idot4 h ty sat o => Sys2Proof.Machine.execIdot4 h ty sat o s
  | .lea h signed o => Sys2Proof.Machine.execLea h signed o s
  | .mov h o => Sys2Proof.Machine.execMov h o s
  | .movi h d k => Sys2Proof.Machine.execMovi h d k s
  | .movk h d half k => Sys2Proof.Machine.execMovk h d half k s
  | .and h o => Sys2Proof.Machine.execAnd h o s
  | .or h o => Sys2Proof.Machine.execOr h o s
  | .xor h o => Sys2Proof.Machine.execXor h o s
  | .andn h o => Sys2Proof.Machine.execAndn h o s
  | .bmux h f1 f0 d a b c => Sys2Proof.Machine.execBmux h f1 f0 d a b c s
  | .shl h o => Sys2Proof.Machine.execShl h o s
  | .shr h o => Sys2Proof.Machine.execShr h o s
  | .sar h o => Sys2Proof.Machine.execSar h o s
  | .rot h o => Sys2Proof.Machine.execRot h o s
  | .fshf h o => Sys2Proof.Machine.execFshf h o s
  | .plop h fn pd pa pb => Sys2Proof.Machine.execPlop h fn pd pa pb s
  | .p2g h d => Sys2Proof.Machine.execP2g h d s
  | .g2p h a => Sys2Proof.Machine.execG2p h a s
  | .fadd h m o => Sys2Proof.Machine.execFadd h m o s
  | .fsub h m o => Sys2Proof.Machine.execFsub h m o s
  | .fmul h m o => Sys2Proof.Machine.execFmul h m o s
  | .ffma h m o => Sys2Proof.Machine.execFfma h m o s
  | .fmin h ty o => Sys2Proof.Machine.execFmin h ty o s
  | .fmax h ty o => Sys2Proof.Machine.execFmax h ty o s
  | .fcmp h o => Sys2Proof.Machine.execFcmp h o s
  | .fclass h o => Sys2Proof.Machine.execFclass h o s
  | .fscale h rm sat d a b pat => Sys2Proof.Machine.execFscale h rm sat d a b pat s
  | .frnd h ty rm o => Sys2Proof.Machine.execFrnd h ty rm o s
  | .fabs h ty o => Sys2Proof.Machine.execFabs h ty o s
  | .fcpys h ty o => Sys2Proof.Machine.execFcpys h ty o s
  | .fdiv h rm sat neg o => Sys2Proof.Machine.execFdiv h rm sat neg o s
  | .fsqrt h rm o => Sys2Proof.Machine.execFsqrt h rm o s
  | .faddx h neg d a b pat => Sys2Proof.Machine.execFaddx h neg d a b pat s
  | .fsubx h neg d a b pat => Sys2Proof.Machine.execFsubx h neg d a b pat s
  | .fmulx h neg d a b pat => Sys2Proof.Machine.execFmulx h neg d a b pat s
  | .dwadd h neg d a b pat => Sys2Proof.Machine.execDwadd h neg d a b pat s
  | .dwsub h neg d a b pat => Sys2Proof.Machine.execDwsub h neg d a b pat s
  | .dwmul h neg d a b pat => Sys2Proof.Machine.execDwmul h neg d a b pat s
  | .dwaddf h neg d a b pat => Sys2Proof.Machine.execDwaddf h neg d a b pat s
  | .dwmulf h neg d a b pat => Sys2Proof.Machine.execDwmulf h neg d a b pat s
  | .dwnorm h o => Sys2Proof.Machine.execDwnorm h o s
  | .dwcmp h cc p a b pat => Sys2Proof.Machine.execDwcmp h cc p a b pat s
  | .cvtdw h o => Sys2Proof.Machine.execCvtdw h o s
  | .cvtwd h o => Sys2Proof.Machine.execCvtwd h o s
  | .cvt h ty fs d a => Sys2Proof.Machine.execCvt h ty fs d a s
  | .cvtp h ty fs d a b pat => Sys2Proof.Machine.execCvtp h ty fs d a b pat s
  | .cvtu h ty fs o => Sys2Proof.Machine.execCvtu h ty fs o s
  | .cvts h fs o => Sys2Proof.Machine.execCvts h fs o s
  | .frcp h ty o => Sys2Proof.Machine.execFrcp h ty o s
  | .frsq h ty o => Sys2Proof.Machine.execFrsq h ty o s
  | .fexp2 h ty o => Sys2Proof.Machine.execFexp2 h ty o s
  | .flog2 h ty o => Sys2Proof.Machine.execFlog2 h ty o s
  | .fsin h ty o => Sys2Proof.Machine.execFsin h ty o s
  | .fcos h ty o => Sys2Proof.Machine.execFcos h ty o s
  | .ftanh h ty o => Sys2Proof.Machine.execFtanh h ty o s
  | .shfl h d a b pat => Sys2Proof.Machine.execShfl h d a b pat s
  | .vote h cc p a => Sys2Proof.Machine.execVote h cc p a s
  | .ballot h o => Sys2Proof.Machine.execBallot h o s
  | .matchl h o => Sys2Proof.Machine.execMatchl h o s
  | .redx h op rm o => Sys2Proof.Machine.execRedx h op rm o s
  | .redxc h o => Sys2Proof.Machine.execRedxc h o s
  | .scan h op excl rm o => Sys2Proof.Machine.execScan h op excl rm o s
  | .lmask h live d => Sys2Proof.Machine.execLmask h live d s
  | .bra h off => Sys2Proof.Machine.execBra h off s
  | .brx h a => Sys2Proof.Machine.execBrx h a s
  | .call h w off => Sys2Proof.Machine.execCall h w off s
  | .calli h w a => Sys2Proof.Machine.execCalli h w a s
  | .ret h => Sys2Proof.Machine.execRet h s
  | .reform h => Sys2Proof.Machine.execReform h s
  | .exit h => Sys2Proof.Machine.execExit h s
  | .loopSet h lc n => Sys2Proof.Machine.execLoopSet h lc n s
  | .loop h lc off => Sys2Proof.Machine.execLoop h lc off s
  | .beod h out k sn off => Sys2Proof.Machine.execBeod h out k sn off s
  | .yield h => Sys2Proof.Machine.execYield h s
  | .nop h => Sys2Proof.Machine.execNop h s
  | .spawn h o => Sys2Proof.Machine.execSpawn h o s
  | .join h o => Sys2Proof.Machine.execJoin h o s
  | .cancel h a => Sys2Proof.Machine.execCancel h a s
  | .trap h n => Sys2Proof.Machine.execTrap h n s
  | .bpt h => Sys2Proof.Machine.execBpt h s
  | .ld h m d a => Sys2Proof.Machine.execLd h m d a s
  | .st h m d a => Sys2Proof.Machine.execSt h m d a s
  | .lds h m d a => Sys2Proof.Machine.execLds h m d a s
  | .sts h m d a => Sys2Proof.Machine.execSts h m d a s
  | .ldt h m d a => Sys2Proof.Machine.execLdt h m d a s
  | .stt h m d a => Sys2Proof.Machine.execStt h m d a s
  | .pref h bp ro st a => Sys2Proof.Machine.execPref h bp ro st a s
  | .cwb h st a => Sys2Proof.Machine.execCwb h st a s
  | .cinv h st a => Sys2Proof.Machine.execCinv h st a s
  | .atom h op m d a b pat => Sys2Proof.Machine.execAtom h op m d a b pat s
  | .atoms h op m d a b pat => Sys2Proof.Machine.execAtoms h op m d a b pat s
  | .cas h m o => Sys2Proof.Machine.execCas h m o s
  | .cass h m o => Sys2Proof.Machine.execCass h m o s
  | .red h op m a b pat => Sys2Proof.Machine.execRed h op m a b pat s
  | .fence h ord scope st a => Sys2Proof.Machine.execFence h ord scope st a s
  | .bari h a n => Sys2Proof.Machine.execBari h a n s
  | .bara h a => Sys2Proof.Machine.execBara h a s
  | .barw h p a t => Sys2Proof.Machine.execBarw h p a t s
  | .baraw h p a t => Sys2Proof.Machine.execBaraw h p a t s
  | .tbar h => Sys2Proof.Machine.execTbar h s
  | .gbar h => Sys2Proof.Machine.execGbar h s
  | .waita h cc wide o => Sys2Proof.Machine.execWaita h cc wide o s
  | .copy h a => Sys2Proof.Machine.execCopy h a s
  | .copyr h a => Sys2Proof.Machine.execCopyr h a s
  | .copyq h o => Sys2Proof.Machine.execCopyq h o s
  | .strm h sn a b pat => Sys2Proof.Machine.execStrm h sn a b pat s
  | .strfIn h sn => Sys2Proof.Machine.execStrfIn h sn s
  | .strfOut h sn => Sys2Proof.Machine.execStrfOut h sn s
  | .strq h o => Sys2Proof.Machine.execStrq h o s
  | .gred h o => Sys2Proof.Machine.execGred h o s
  | .gstart h a b pat => Sys2Proof.Machine.execGstart h a b pat s
  | .gstop h a => Sys2Proof.Machine.execGstop h a s
  | .gattn h o => Sys2Proof.Machine.execGattn h o s
  | .gmbox h d a b => Sys2Proof.Machine.execGmbox h d a b s
  | .gid h d => Sys2Proof.Machine.execGid h d s
  | .mldred h d a b pat => Sys2Proof.Machine.execMldred h d a b pat s
  | .mstmc h wide d a b pat => Sys2Proof.Machine.execMstmc h wide d a b pat s
  | .mgrp h a b pat => Sys2Proof.Machine.execMgrp h a b pat s
  | .cfire h a => Sys2Proof.Machine.execCfire h a s
  | .cstat h o => Sys2Proof.Machine.execCstat h o s
  | .tdset h t a b => Sys2Proof.Machine.execTdset h t a b s
  | .tdget h hi d t => Sys2Proof.Machine.execTdget h hi d t s
  | .mma h acc ta tb tc => Sys2Proof.Machine.execMma h acc ta tb tc s
  | .mzero h s32 acc => Sys2Proof.Machine.execMzero h s32 acc s
  | .mldacc h s32 acc ta => Sys2Proof.Machine.execMldacc h s32 acc ta s
  | .mdrain h raw z fs ta acc => Sys2Proof.Machine.execMdrain h raw z fs ta acc s
  | .mdradd h raw fs a tb acc => Sys2Proof.Machine.execMdradd h raw fs a tb acc s
  | .marm h acc a => Sys2Proof.Machine.execMarm h acc a s
  | .mstep h clr mask d acc => Sys2Proof.Machine.execMstep h clr mask d acc s
  | .mfence h => Sys2Proof.Machine.execMfence h s
  | .sread h d n => Sys2Proof.Machine.execSread h d n s
  | .swrite h a n => Sys2Proof.Machine.execSwrite h a n s
  | .plate h d a b => Sys2Proof.Machine.execPlate h d a b s
  | .plateq h o => Sys2Proof.Machine.execPlateq h o s
  | .psel h a => Sys2Proof.Machine.execPsel h a s
  | .prdv h o => Sys2Proof.Machine.execPrdv h o s
  | .pwrv h a b pat => Sys2Proof.Machine.execPwrv h a b pat s
  | .pret h => Sys2Proof.Machine.execPret h s
  | .clk h d => Sys2Proof.Machine.execClk h d s
  | .frec h o => Sys2Proof.Machine.execFrec h o s
  | .frecList h o => Sys2Proof.Machine.execFrecList h o s
  | .capw h d n => Sys2Proof.Machine.execCapw h d n s
  | .quadrantIssue c q => Sys2Proof.Machine.execQuadrantIssue c q s
  | .ready256Promotion c => Sys2Proof.Machine.execReady256Promotion c s
  | .renameSpill c => Sys2Proof.Machine.execRenameSpill c s
  | .variableLatencyComplete t seq => Sys2Proof.Machine.execVariableLatencyComplete t seq s
  | .fixedLatencyComplete t seq => Sys2Proof.Machine.execFixedLatencyComplete t seq s
  | .proofSlotStart c => Sys2Proof.Machine.execProofSlotStart c s
  | .binAgedDraw c bin => Sys2Proof.Machine.execBinAgedDraw c bin s
  | .coordinatorArbitration => Sys2Proof.Machine.execCoordinatorArbitration s
  | .tokenRefill => Sys2Proof.Machine.execTokenRefill s
  | .tokenCharge => Sys2Proof.Machine.execTokenCharge s
  | .teamPlace ctx launch => Sys2Proof.Machine.execTeamPlace ctx launch s
  | .plateSetMoveDone c => Sys2Proof.Machine.execPlateSetMoveDone c s
  | .gangReserve ctx launch => Sys2Proof.Machine.execGangReserve ctx launch s
  | .gangCommit ctx launch => Sys2Proof.Machine.execGangCommit ctx launch s
  | .gangReservationRelease ctx launch => Sys2Proof.Machine.execGangReservationRelease ctx launch s
  | .launchComplete ctx launch => Sys2Proof.Machine.execLaunchComplete ctx launch s
  | .spawnEnqueue t => Sys2Proof.Machine.execSpawnEnqueue t s
  | .coreHandover c => Sys2Proof.Machine.execCoreHandover c s
  | .preqRaise ctx queue => Sys2Proof.Machine.execPreqRaise ctx queue s
  | .forcedSave c teamSlot => Sys2Proof.Machine.execForcedSave c teamSlot s
  | .teamSave c teamSlot => Sys2Proof.Machine.execTeamSave c teamSlot s
  | .teamResume ctx launch team => Sys2Proof.Machine.execTeamResume ctx launch team s
  | .residencyExchange ctx launch => Sys2Proof.Machine.execResidencyExchange ctx launch s
  | .clockStepApply c => Sys2Proof.Machine.execClockStepApply c s
  | .clockDrift c => Sys2Proof.Machine.execClockDrift c s
  | .barrierTimeout t => Sys2Proof.Machine.execBarrierTimeout t s
  | .waitaRecheck t => Sys2Proof.Machine.execWaitaRecheck t s
  | .waitaTimeout t => Sys2Proof.Machine.execWaitaTimeout t s
  | .copyElement id => Sys2Proof.Machine.execCopyElement id s
  | .copyComplete id => Sys2Proof.Machine.execCopyComplete id s
  | .copyElementFault id => Sys2Proof.Machine.execCopyElementFault id s
  | .streamPrefetch t n => Sys2Proof.Machine.execStreamPrefetch t n s
  | .streamStorePerformed t n => Sys2Proof.Machine.execStreamStorePerformed t n s
  | .startWrite block value => Sys2Proof.Machine.execStartWrite block value s
  | .controlBlockWrite block off value bytes8 => Sys2Proof.Machine.execControlBlockWrite block off value bytes8 s
  | .graverExit g => Sys2Proof.Machine.execGraverExit g s
  | .gattnPage id => Sys2Proof.Machine.execGattnPage id s
  | .gattnComplete id => Sys2Proof.Machine.execGattnComplete id s
  | .pressChunkReduce ctx launch bind chunk => Sys2Proof.Machine.execPressChunkReduce ctx launch bind chunk s
  | .mmaStep c k => Sys2Proof.Machine.execMmaStep c k s
  | .drainAddHeaderAccept c k => Sys2Proof.Machine.execDrainAddHeaderAccept c k s
  | .drainAddApply c k => Sys2Proof.Machine.execDrainAddApply c k s
  | .bankNoticeApply bank => Sys2Proof.Machine.execBankNoticeApply bank s
  | .cxlBackInvalidate line => Sys2Proof.Machine.execCxlBackInvalidate line s
  | .tlbMissWalk die => Sys2Proof.Machine.execTlbMissWalk die s
  | .dramScrub place found => Sys2Proof.Machine.execDramScrub place found s
  | .linkReplay die => Sys2Proof.Machine.execLinkReplay die s
  | .linkRetrain die ok => Sys2Proof.Machine.execLinkRetrain die ok s
  | .dieFence die => Sys2Proof.Machine.execDieFence die s
  | .fatalError code source => Sys2Proof.Machine.execFatalError code source s
  | .thermalTrip => Sys2Proof.Machine.execThermalTrip s
  | .powerCeilingLower die => Sys2Proof.Machine.execPowerCeilingLower die s
  | .powerCeilingRaise die => Sys2Proof.Machine.execPowerCeilingRaise die s
  | .referenceInputLoss => Sys2Proof.Machine.execReferenceInputLoss s
  | .coldReset images trained => Sys2Proof.Machine.execColdReset images trained s
  | .warmReset images trained => Sys2Proof.Machine.execWarmReset images trained s
  | .auditCheckpoint => Sys2Proof.Machine.execAuditCheckpoint s
  | .sessionOpen number p => Sys2Proof.Machine.execSessionOpen number p s
  | .sessionClose number => Sys2Proof.Machine.execSessionClose number s
  | .attest r nonce => Sys2Proof.Machine.execAttest r nonce s
  | .capread r off len => Sys2Proof.Machine.execCapread r off len s
  | .create r flags key => Sys2Proof.Machine.execCreate r flags key s
  | .release r => Sys2Proof.Machine.execRelease r s
  | .grant r pa size => Sys2Proof.Machine.execGrant r pa size s
  | .setsched r refill cap bcap age xthr => Sys2Proof.Machine.execSetsched r refill cap bcap age xthr s
  | .gravers r first count => Sys2Proof.Machine.execGravers r first count s
  | .map r va pa size page leaf => Sys2Proof.Machine.execMap r va pa size page leaf s
  | .unmap r va size => Sys2Proof.Machine.execUnmap r va size s
  | .keyadd r slot mode wrapped => Sys2Proof.Machine.execKeyadd r slot mode wrapped s
  | .keydel r slot => Sys2Proof.Machine.execKeydel r slot s
  | .extadd r pa => Sys2Proof.Machine.execExtadd r pa s
  | .extrel r pa => Sys2Proof.Machine.execExtrel r pa s
  | .ctxset r handler queue => Sys2Proof.Machine.execCtxset r handler queue s
  | .launch r mode zero record => Sys2Proof.Machine.execLaunch r mode zero record s
  | .read r va len => Sys2Proof.Machine.execRead r va len s
  | .write r place bytes => Sys2Proof.Machine.execWrite r place bytes s
  | .hostCancel r id => Sys2Proof.Machine.execHostCancel r id s
  | .logfetch r first count => Sys2Proof.Machine.execLogfetch r first count s
  | .logack r seq => Sys2Proof.Machine.execLogack r seq s
  | .impression r off len => Sys2Proof.Machine.execImpression r off len s
  | .fwupdate r number off total chunk img => Sys2Proof.Machine.execFwupdate r number off total chunk img s
  | .remoteParticipantFiring ctx coll part chunk values malformed => Sys2Proof.Machine.execRemoteParticipantFiring ctx coll part chunk values malformed s
  | .remoteChunkResult ctx coll chunk values flags => Sys2Proof.Machine.execRemoteChunkResult ctx coll chunk values flags s
  | .nodeLoss node => Sys2Proof.Machine.execNodeLoss node s
  | .sealedPacketTagFailure die ctx => Sys2Proof.Machine.execSealedPacketTagFailure die ctx s

end Sys2Proof.Machine
end

