-- ==== Sys2Proof/Machine/Step.lean ====
section
/-!
DEFINITION. One step of the machine (log entries 1 and 4): the slot being issued, else the head of the agenda, else what the
machine has ready.
-/
namespace Sys2Proof.Machine

/-- One step. -/
def step (s : State) : Host.Outcome State Fault Refusal :=
  match s.issuing with
  | some is => match fetchWord s is.grp with
    | (s', .bad code addr) => .next (fetchFault s' is.grp code addr)
    | (s', .word i) => exec i s'
  | none => match nextEvent s with
    | none => .fault .packageStopped
    | some (e, s') => exec e s'

/-- The instruction of `nbits` bits `w`, placed where this step fetches its next instruction: in slot 0 of a packet whose
other words are zero, with the context, page and thread that a fetch takes (log entry 4). -/
def State.withFetchWord (s : State) (_nbits w : Nat) : State := placeWord s w

end Sys2Proof.Machine
end

