-- ==== Sys2Proof/Safety.lean ====
section
/-!
DEFINITION. The terms that statements about the machine use: a group that issues a word with nothing to hold it back, and what
one issue of a word leaves (R27, R41, R45, R50, R53, R61), lane by lane or in a group of one thread; what a run keeps.
-/
namespace Sys2Proof.Machine

/-! ### Values of codes and of their rounding (R97, R98, R104, R106, R110) -/

/-- 2^e. -/
def pow2 (e : Int) : Rat := if 0 ≤ e then ((2 ^ e.toNat : Nat) : Rat) else 1 / ((2 ^ (-e).toNat : Nat) : Rat)

/-- The magnitude of a finite value. -/
def FVal.mag : FVal → Rat
  | .fin _ m e => (m : Rat) * pow2 e
  | _ => 0

/-- A finite value. -/
def FVal.rat (x : FVal) : Rat := if x.neg? then -x.mag else x.mag

/-- q × 2^lsb is the magnitude x of a number of this sign, rounded to a multiple of 2^lsb (R104); `inexact` says whether they
differ. -/
structure Rounds (rm : RM) (neg : Bool) (x : Rat) (lsb : Int) (q : Nat) (inexact : Bool) : Prop where
  differs : inexact = true ↔ (q : Rat) * pow2 lsb ≠ x
  rounded : let y := (q : Rat) * pow2 lsb
    let u := pow2 lsb
    match rm with
    | .rne => 2 * y ≤ 2 * x + u ∧ 2 * x ≤ 2 * y + u ∧ (2 * y = 2 * x + u ∨ 2 * x = 2 * y + u → q % 2 = 0)
    | .rz => y ≤ x ∧ x < y + u
    | .ru => if neg then y ≤ x ∧ x < y + u else x ≤ y ∧ y < x + u
    | .rd => if neg then x ≤ y ∧ y < x + u else y ≤ x ∧ x < y + u

/-- r is the magnitude x > 0 of this sign as a format holds it after one rounding. Up to the largest finite value it is the
rounded value, with UF where it is tiny and inexact and NX where it is inexact (R106); past that it is an infinity, E4M3's NaN, or
the largest value, as R104 and R110 place it, with OF and NX. -/
def RoundsInto (f : Fmt) (rm : RM) (ov : Over) (neg : Bool) (x : Rat) (r : FR) : Prop :=
  ∃ (ex : Int) (qU q : Nat) (iU i : Bool), pow2 ex ≤ x ∧ x < pow2 (ex + 1) ∧
    let lsb := max (ex - f.mw) (1 - (f.bias : Int) - f.mw)
    let y := (q : Rat) * pow2 lsb
    Rounds rm neg x (ex - f.mw) qU iU ∧ Rounds rm neg x lsb q i ∧
    if (f.val f.maxc).mag < y then
      let up := match rm with | .rne => true | .rz => false | .ru => !neg | .rd => neg
      r.fl = 0b0010100 ∧ r.bits = (if ov = .ieee ∧ up = true ∧ f.sp = .e4m3 then 0x7F
        else (if neg then 2 ^ f.sb else 0) + (if ov = .ieee ∧ up = true ∧ f.sp = .ieee then (2 ^ f.ew - 1) * 2 ^ f.mw else f.maxc))
    else r.bits < 2 ^ (f.sb + 1) ∧ (∃ m e, f.val r.bits = .fin neg m e ∧ (m : Rat) * pow2 e = y) ∧
      r.fl = (if (qU : Rat) * pow2 (ex - f.mw) < pow2 (1 - f.bias) ∧ i = true then 0b0001000 else 0) ||| (if i then 0b0010000 else 0)

/-! ### A group that issues (R61) -/

/-- The group g is being issued and the word passes the checks that R61 makes before a lane executes: its agent's profile (R75,
R386), pairs and four-name operands (R20), a whole warp for a warp-whole form (R53). Its threads run on, at one PC. -/
structure Fires (i : Instr) (s : State) (g : Group) : Prop where
  slot : s.issuing = some { grp := g }
  lead : ∃ t ts, g.mem = t :: ts ∧ offProfile i t = false ∧ (t.isGraver = true → badInGraver i = false) ∧
    (t.isCore = true → proofForm i = false)
  aligned : i.alignOk = true
  whole : i.warpWhole = true → isWhole s g = true
  nodup : g.mem.Nodup
  threads : ∀ t ∈ g.mem, ∃ th, s.thread t = some th ∧ th.status = .running
  onePc : ∀ t ∈ g.mem, ∀ u ∈ g.mem, s.pcOf t = s.pcOf u

/-- Nothing stalls the word: in no executing lane a stream (R18), a flag count of 15 (R41), for a release or an end a pushed element whose
value is yet to come (R270), for a release an unacknowledged MSTMC (R425), an access not yet performed (R239) or an acquire not
complete (R245), or a push whose page the miss table has no room for (R351); no cell that is missing (R28, R29) or moves (R308); no
name of it is spilled (R30). -/
structure Free (i : Instr) (h : Hdr) (s : State) (g : Group) : Prop where
  still : cellsMoving s i g (executing h s g) = false
  room : cellStall s i g (executing h s g) = false
  filled : spilledKeys s i g (executing h s g) = []
  each : ∀ t ∈ executing h s g, ∀ th, s.thread t = some th → laneStalls i h th = false ∧ pushHolds i s t th = false

/-- The state as the lanes of an issue find it: the slot is free, the issue has its number, cells are noted as allocated (R29), the
next group of a warp bin comes (R313), and the pipe is taken (R59). -/
def began (i : Instr) (h : Hdr) (s : State) (g : Group) : State :=
  let s' := match g.mem with
    | t :: _ => if (cellNeeds s i g (executing h s g)).isEmpty then { s with issuing := none } else noteAlloc { s with issuing := none } t
    | [] => { s with issuing := none }
  usePipe { s' with ctr := s.ctr + 1, groups := s.groups ++ g.after } i g

/-- What every lane of an issue may look at. -/
def envOf (i : Instr) (h : Hdr) (s : State) (g : Group) : Env :=
  { pre := began i h s g, exec := executing h s g, grp := g.mem, seq := s.ctr }

/-- Positions a word gives a last-use mark in a core thread (R25). -/
def lastPos (i : Instr) (t : Tid) (th : Thread) : List Pos :=
  if t.isCore then (i.srcs.filter (·.1.last)).flatMap fun o => (nameGroup o.1.name o.2.1).filterMap th.pos else []

/-- The outstanding instruction that an issue adds to a thread (R41), until a cycle where R59 bounds it. -/
def outFor (i : Instr) (h : Hdr) (lat : Lat) (s : State) (t : Tid) (th : Thread) (r : Res) : Out :=
  let ps := if r.keep then [] else dstPos i th
  { seq := s.ctr, pc := th.pc, ready := s.now + cyc t lat.cycles, last := lat.most.map fun n => s.now + cyc t n, held := r.held,
    flag := h.setf, names := ps.zip (r.out ++ List.replicate ps.length 0), push := pushTo i,
    value := r.out.headD 0, preds := r.preds, fpst := r.fl, late := r.late.map fun e => threadRec s t th e.1 0x80 th.pc e.2 0,
    awaits := r.awaits, todo := r.todo, acq := acquires i, tile := tileForm i }

/-- Predicates that wait for a result (R45). -/
def pendFor (s : State) (th : Thread) (r : Res) : Tab (Fin 8) Nat :=
  r.preds.foldl (fun m e => if e.1 == 7 then m else m.set e.1 s.ctr) th.predPend

/-- The instruction that holds a thread until it completes: a form that can trap, where traps are enabled (R117). -/
def heldFor (i : Instr) (s : State) (t : Tid) (th : Thread) : Option Nat :=
  if raisesFp i && s.enables t th != 0 then some s.ctr else th.hold

/-- An executing thread after its issue, but for fixed storage: PC, the outstanding instruction, VOIDST, popped streams. -/
def ranThread (i : Instr) (h : Hdr) (lat : Lat) (s : State) (t : Tid) (th : Thread) (rs : List OpRead) (r : Res) : Thread :=
  { th with pc := r.next.getD (nextSlot th.pc), outs := th.outs ++ [outFor i h lat s t th r], predPend := pendFor s th r,
            voidSt := th.voidSt || (rs.any (·.void) && !t.isGraver), loads := popLoads th.loads i.srcs,
            lastIssue := some s.now, hold := heldFor i s t th, entered := r.next.isSome }

/-- A thread of the group whose guard is false, after the issue (R50). -/
def passedThread (i : Instr) (s : State) (t : Tid) (th : Thread) : Thread :=
  { th with pc := nextSlot th.pc, lastIssue := some s.now, hold := heldFor i s t th, entered := false }

/-- A thread whose lane has stopped, as its fault finds it. -/
def stoppedThread (i : Instr) (s : State) (t : Tid) (th : Thread) : Thread :=
  { th with lastIssue := some s.now, hold := heldFor i s t th }

/-- The group that goes on together after an issue that loses no thread. -/
def goesOn (g : Group) : Group := { Group.start g.quadrant false g.mem [] with fresh := false, yld := g.yld }

/-! ### A register-only form (classes 0x0 to 0x5) -/

/-- Reads of an executing lane. -/
abbrev Reads := Env → Tid → Thread → List OpRead
/-- A register-only form's result in a lane. -/
abbrev LaneFn := Env → Tid → Thread → List (List Word) → Res

def plainReads (i : Instr) : Reads := fun env t th => readOps env.pre t th i.srcs env.un

/-- Every executing lane reads its operands without a fault, none of them void under VOIDTRAP (R27). -/
def LanesRead (i : Instr) (h : Hdr) (s : State) (g : Group) (rd : Reads) : Prop :=
  ∀ t ∈ executing h s g, ∀ th, s.thread t = some th →
    let rs := rd (envOf i h s g) t th
    (∀ o ∈ rs, o.bad = none) ∧ (rs.any (·.void) = true → s.voidTrap t th = false)

/-- No executing lane is trapped (R116, R117): its launch enables no trap, or its result raises no exception whose trap is enabled. -/
def Untrapped (i : Instr) (h : Hdr) (s : State) (g : Group) (rd : Reads) (f : LaneFn) : Prop :=
  ∀ t ∈ executing h s g, ∀ th, s.thread t = some th → s.enables t th = 0 ∨
    fpTraps (s.enables t th) (f (envOf i h s g) t th ((rd (envOf i h s g) t th).map (·.words))).fl = false

/-- What the issue of a register-only form leaves. Every executing lane has its result outstanding, to be readable at its
latency, and each destination name reads until then as it did before (R45); threads whose guard is false only advance. Every
other name of every thread reads as before, names given a last-use mark are void (R25), and nothing else of the machine changes but
the notes of allocation (R29), the pipe (R59) and the group that a warp bin releases next (R313). -/
structure Ran (i : Instr) (h : Hdr) (lat : Lat) (s : State) (g : Group) (rd : Reads) (f : LaneFn) (s' : State) : Prop where
  rest : s' = { s with issuing := none, ctr := s.ctr + 1, cores := s'.cores, threads := s'.threads, cells := s'.cells,
                       pipes := (usePipe s i g).pipes, groups := s.groups ++ g.after ++ [goesOn g] }
  cores : ∀ c, s'.core c = { s.core c with stall := (s'.core c).stall, lastAlloc := (s'.core c).lastAlloc }
  ran : ∀ t ∈ executing h s g, ∀ th, s.thread t = some th →
    let rs := rd (envOf i h s g) t th
    let r := f (envOf i h s g) t th (rs.map (·.words))
    ∃ fx, s'.thread t = some { ranThread i h lat s t th rs r with fixedNames := fx } ∧
      (t.isCore = true → fx = th.fixedNames) ∧
      (r.keep = false → ∀ p ∈ dstPos i th, s'.laneCell t p = { val := 0, rel := false, pend := some (s.ctr, s.readPos t p) }) ∧
      (∀ p ∈ lastPos i t th, p ∉ dstPos i th → s'.readPos t p = none)
  passed : ∀ t ∈ g.mem, t ∉ executing h s g → ∀ th, s.thread t = some th → s'.thread t = some (passedThread i s t th)
  apart : ∀ t, t ∉ g.mem → s'.thread t = s.thread t
  names : ∀ u p, (∀ th, u ∈ executing h s g → s.thread u = some th → p ∉ dstPos i th ∧ p ∉ lastPos i u th) →
    s'.readPos u p = s.readPos u p

/-- A register-only form completes: whenever a group fires it with nothing to stall it, its lanes read their operands and are not
trapped, exec answers the next state that its results give. `ok` is what the form's rule asks of a thread besides. -/
def Completes (i : Instr) (h : Hdr) (lat : Lat) (f : LaneFn) (rd : Reads := plainReads i)
    (ok : State → Tid → Thread → Prop := fun _ _ _ => True) : Prop :=
  ∀ s g, Fires i s g → Free i h s g → LanesRead i h s g rd → Untrapped i h s g rd f →
    (∀ t ∈ executing h s g, ∀ th, s.thread t = some th → ok s t th) →
    (∀ k w, i.dst ≠ some (.s k, w)) → ∃ s', exec i s = .next s' ∧ Ran i h lat s g rd f s'

/-! ### A group of one thread -/

/-- The group g is thread t alone, its guard is true, and it fires the word with nothing to stall it. -/
structure Solo (i : Instr) (h : Hdr) (s : State) (g : Group) (t : Tid) (th : Thread) : Prop where
  fires : Fires i s g
  free : Free i h s g
  mem : g.mem = [t]
  thread : s.thread t = some th
  on : guardOn h th = true
  plainDst : ∀ k w, i.dst ≠ some (.s k, w)

/-- The state as the lane of a group of one finds it: the issue has begun, and a void operand has set VOIDST (R27). -/
def opened (i : Instr) (h : Hdr) (s : State) (g : Group) (t : Tid) (rs : List OpRead) : State :=
  if rs.any (·.void) && !t.isGraver then (began i h s g).modThread t fun th => { th with voidSt := true } else began i h s g

/-- The lane reads its operands without a fault, none of them void under VOIDTRAP. -/
def ReadsOk (s : State) (t : Tid) (th : Thread) (rs : List OpRead) : Prop :=
  (∀ o ∈ rs, o.bad = none) ∧ (rs.any (·.void) = true → s.voidTrap t th = false)

/-- What the issue leaves when the lane's own effect is `s1` with result `r`: the effect stands; the thread has the instruction
outstanding, goes on at `r.next` or the next slot, and its streams are popped; its destination names wait for the instruction, its
last-use names are void, and no other name changes; the thread's group goes on while the thread runs. -/
structure Did (i : Instr) (h : Hdr) (lat : Lat) (s : State) (g : Group) (t : Tid) (th : Thread) (s1 : State) (r : Res)
    (s' : State) : Prop where
  rest : s' = { s1 with cells := s'.cells, threads := s'.threads, groups := s'.groups }
  thread : ∀ x, s1.thread t = some x → ∃ fx, (t.isCore = true → fx = x.fixedNames) ∧ s'.thread t = some { x with
    pc := r.next.getD (nextSlot th.pc), outs := x.outs ++ [outFor i h lat { s1 with ctr := s.ctr } t th r],
    predPend := r.preds.foldl (fun m e => if e.1 == 7 then m else m.set e.1 s.ctr) x.predPend, loads := popLoads x.loads i.srcs,
    lastIssue := some s1.now, fixedNames := fx, hold := heldFor i { s1 with ctr := s.ctr } t x, entered := r.next.isSome }
  group : ∀ x, s1.thread t = some x → s'.groups = if x.status = .running then
    s1.groups ++ [{ goesOn g with fresh := r.next.isSome }] else s1.groups
  others : ∀ u, u ≠ t → s'.thread u = s1.thread u
  dst : r.keep = false → ∀ p ∈ dstPos i th, s'.laneCell t p = { val := 0, rel := false, pend := some (s.ctr, s.readPos t p) }
  last : ∀ p ∈ lastPos i t th, p ∉ dstPos i th → s'.readPos t p = none
  names : ∀ u p, (u = t → p ∉ dstPos i th ∧ p ∉ lastPos i t th) → s'.readPos u p = s1.readPos u p

/-- What a lane's own effect may be: what every lane may look at, the state and the thread that the lane finds, the words it reads;
the state it leaves and its result. -/
abbrev Effect := Env → State → Tid → Thread → List (List Word) → State → Res → Prop

/-- A form completes in a group of one thread: whenever the group fires it with nothing to stall it, the operands read without a
fault, `free` holds, `e` is what its lane comes to and that has not removed the thread (as a store that stops its Graver context
does), exec answers the next state that this gives, with `post` applied to it once the lane has completed. -/
def Lands (i : Instr) (h : Hdr) (lat : Lat) (e : Effect) (free : State → Tid → Thread → List (List Word) → Prop := fun _ _ _ _ => True)
    (post : Env → State → State := fun _ s => s) : Prop :=
  ∀ s g t th, Solo i h s g t th → ReadsOk s t th (plainReads i (envOf i h s g) t th) →
    free { s with issuing := none } t th ((readOps { s with issuing := none } t th i.srcs).map (·.words)) →
    let rs := plainReads i (envOf i h s g) t th
    ∀ s1 r, e (envOf i h s g) (opened i h s g t rs) t th (rs.map (·.words)) s1 r → (s1.thread t).isSome = true →
      ∃ s', exec i s = .next (post (envOf i h s g) s') ∧ Did i h lat s g t th s1 r s'

/-- A form completes in a group of one thread on conditions on the state and its operands alone: whenever the group fires it with
nothing to stall it, the operands read without a fault, `free` holds before the issue and `ok` of what the lane finds, its lane has
the effect `e`, and exec answers the next state that this gives. -/
def Answers (i : Instr) (h : Hdr) (lat : Lat) (ok : State → Tid → Thread → List (List Word) → Prop) (e : Effect)
    (free : State → Tid → Thread → List (List Word) → Prop := fun _ _ _ _ => True)
    (post : Env → State → State := fun _ s => s) : Prop :=
  ∀ s g t th, Solo i h s g t th → ReadsOk s t th (plainReads i (envOf i h s g) t th) →
    free { s with issuing := none } t th ((readOps { s with issuing := none } t th i.srcs).map (·.words)) →
    let rs := plainReads i (envOf i h s g) t th
    let s0 := opened i h s g t rs
    ok s0 t th (rs.map (·.words)) →
      ∃ s1 r s', e (envOf i h s g) s0 t th (rs.map (·.words)) s1 r ∧ exec i s = .next (post (envOf i h s g) s') ∧
        Did i h lat s g t th s1 r s'

/-- A form stops the lane of a group of one thread: whenever nothing stalls it (`free`) and `e` is the fault that its lane finds and
the state it leaves, exec answers the state in which the thread has taken that fault at this slot, or past it where the fault
comes after the instruction. -/
def Stops (i : Instr) (h : Hdr) (e : State → Tid → Thread → List (List Word) → State → Flt → Prop)
    (free : State → Tid → Thread → List (List Word) → Prop := fun _ _ _ _ => True) : Prop :=
  ∀ s g t th, Solo i h s g t th → ReadsOk s t th (plainReads i (envOf i h s g) t th) →
    free { s with issuing := none } t th ((readOps { s with issuing := none } t th i.srcs).map (·.words)) →
    let rs := plainReads i (envOf i h s g) t th
    ∀ s1 b y, e (opened i h s g t rs) t th (rs.map (·.words)) s1 b → s1.thread t = some y →
      let s2 := placeCells (began i h s g) s1 i g []
      exec i s = .next (regroup (takeFaults [(t, b)] th.pc s.ctr (s2.setThread t (stoppedThread i { s1 with ctr := s.ctr } t y))) g)

/-- A form stops the lane of a group of one thread on its format slot (0x0D), the check that comes first (R61): whenever nothing stalls
it (`free`) and `bad` holds, exec answers the state in which the thread has taken that fault at this slot. -/
def SlotStops (i : Instr) (h : Hdr) (bad : State → Tid → Thread → Prop)
    (free : State → Tid → Thread → List (List Word) → Prop := fun _ _ _ _ => True) : Prop :=
  ∀ s g t th, Solo i h s g t th →
    free { s with issuing := none } t th ((readOps { s with issuing := none } t th i.srcs).map (·.words)) → bad s t th →
    let s2 := placeCells (began i h s g) (began i h s g) i g []
    exec i s = .next (regroup (takeFaults [(t, { code := 0x0D })] th.pc s.ctr (s2.setThread t (stoppedThread i s t th))) g)

/-! ### Bytes of memory as an agent reads them -/

/-- A byte as the home of its sector gives it: the home L2's copy, else memory's. -/
def homeByte (s : State) (pa : Nat) : Byte :=
  match l2Find s (homeOf (pa / 64 * 64)) (pa / 64) with
  | some e => secByte e.data (pa % 64)
  | none => secByte (dramData s (pa / 64)) (pa % 64)

/-- A byte as a plain load of a core's thread reads it: dirty or clean in the core's Plate, else the home's (R209). -/
def coreByte (s : State) (c pa : Nat) : Byte :=
  match lineOf (s.core c) (pa / 512) with
  | some l =>
    let x := lineSec l (pa / 64 % 8)
    if x.valid || x.dirty.getLsbD (pa % 64) then secByte x.data (pa % 64) else homeByte s pa
  | none => homeByte s pa

/-- No armed barrier object lies under n bytes from a place on (R253, R258). -/
def Unarmed (s : State) (x : Spot) (n : Nat) : Prop :=
  match x with
  | .team key off _ => ∀ tm, s.teams.get key = some tm → ∀ b ∈ (s.core key.1).barriers, b.key.ctx = tm.ctx →
      b.key.launch = tm.launch → b.key.team = tm.lin → b.key.off + 16 ≤ off ∨ off + n ≤ b.key.off
  | .graver _ _ => True

/-- Byte i of a number. -/
def byteOf (v i : Nat) : Byte := BitVec.ofNat 8 (v / 256 ^ i)

end Sys2Proof.Machine
end

