-- ==== Sys2Proof/Certificates/Slice0/Obligations.lean ====
section
/-!
DEFINITION. What is claimed of the machine, for the provers: one definition for each statement, from the numbered rules of spec/.
-/
open Sys2Proof Sys2Proof.Machine

/-! ### Words -/

/-- R49 to R60: the decoder reads back every well-formed instruction from its word. -/
def Obligations.DecodeOfEncode : Prop :=
  ∀ i w, i.wf = true → encode i = some w → decode w = .ok i ∧ w < 2 ^ 64

/-- R60: a 64-bit word that is an instruction is the word of that instruction alone, every bit of it. -/
def Obligations.EncodeOfDecode : Prop :=
  ∀ w i, w < 2 ^ 64 → decode w = .ok i → i.wf = true ∧ encode i = some w

/-- R49, R60: a class 0xF word, a function number past those that R65 to R74 assign in its class (they run from 0 up), guard 0b1111
and SETF 12 to 14 are no instruction. Words written out from the bit map of R49 and the tables of R18, R56 to R58 and R63 to R74. -/
def Obligations.WordsOfTheTables : Prop :=
  (∀ w, w < 2 ^ 64 →
    ([20, 13, 14, 12, 11, 8, 16, 9, 6, 7, 6, 6, 5, 10, 11, 0].getD (w / 2 ^ 60) 0 ≤ w / 2 ^ 55 % 32 → ∃ e, decode w = .error e) ∧
    (w / 2 ^ 51 % 16 = 15 → ∃ e, decode w = .error e) ∧
    (12 ≤ w / 2 ^ 4 % 16 → w / 2 ^ 4 % 16 ≤ 14 → ∃ e, decode w = .error e)) ∧
  (-- IADD.N32 v1, v2, v3 under pt, no flag
  decode (0x0 * 2 ^ 60 + 0 * 2 ^ 55 + 7 * 2 ^ 51 + 1 * 2 ^ 45 + 2 * 2 ^ 39 + 3 * 2 ^ 32 + 15 * 2 ^ 4) =
    .ok (.iadd ⟨false, 7, none⟩ .n32 false ⟨.v 1, ⟨.v 2, false⟩, .reg ⟨.v 3, false⟩ .none⟩) ∧
  -- FADD.F32 with rounding toward zero, @!p2, SETF 4, last use of A
  decode (0x2 * 2 ^ 60 + 0 * 2 ^ 55 + 1 * 2 ^ 54 + 2 * 2 ^ 51 + 9 * 2 ^ 45 + 10 * 2 ^ 39 + 1 * 2 ^ 38 + 11 * 2 ^ 32
      + 1 * 2 ^ 10 + 4 * 2 ^ 4) =
    .ok (.fadd ⟨true, 2, some 4⟩ ⟨.f32, .rz, false, false⟩ ⟨.v 9, ⟨.v 10, true⟩, .reg ⟨.v 11, false⟩ .none⟩) ∧
  -- BRA one slot back
  decode (0x6 * 2 ^ 60 + 7 * 2 ^ 51 + (2 ^ 29 - 1) * 2 ^ 16 + 15 * 2 ^ 4) = .ok (.bra ⟨false, 7, none⟩ (-1)) ∧
  -- EXIT
  decode (0x6 * 2 ^ 60 + 6 * 2 ^ 55 + 7 * 2 ^ 51 + 15 * 2 ^ 4) = .ok (.exit ⟨false, 7, none⟩))

/-! ### The step -/

/-- R45, R61: the step of a slot that is being issued runs the instruction that the group's word decodes to (that it is one step is
the model's choice, log entry 1). R38, R47, R61: fetching from memory. The packet is the 32 bytes at the address that holds the PC;
a fault of the fetch, a packet that is illegal and a word that is no instruction stop every thread of the group. A fault of the
fetch has the packet's first address as its ADDR: the model's choice (log entry 9). -/
def Obligations.StepRunsTheFetchedWord : Prop :=
  (∀ s g t ts th p i, s.issuing = some { grp := g } → g.mem = t :: ts → s.thread t = some th → slotAddr th.pc = true →
    (∀ u ∈ g.mem, heldPacket s u (packetBase th.pc) = some p) → t.isGraver = false → badPacket p (slotOf th.pc) = false →
    decode (packetWord p (slotOf th.pc + 1)) = .ok i →
    ∃ s', step s = exec i s' ∧ s' = { s with threads := s'.threads } ∧
      (∀ u, s'.thread u = if u ∈ g.mem then (s.thread u).map (fun x => { x with packet := some (w64 (packetBase th.pc), p) })
        else s.thread u)) ∧
  (∀ s g t ts th, s.issuing = some { grp := g } → g.mem = t :: ts → s.thread t = some th → slotAddr th.pc = true →
    (∀ u ∈ g.mem, heldPacket s u (packetBase th.pc) = none) → t.isGraver = false →
    (∀ s1 p s2 b, fetchPhys s t th.ctx (packetBase th.pc) = (s1, .ok p) → homeRead s1 (p.pa / 64) p.key = (s2, b, 0) →
      step s = match wordAt (BitVec.ofNat 256 (secLoad b (p.pa % 64) 32)) th.pc with
        | .word i => exec i (holdPacket s2 g.mem (packetBase th.pc) (BitVec.ofNat 256 (secLoad b (p.pa % 64) 32)))
        | .bad code a => .next (fetchFault (holdPacket s2 g.mem (packetBase th.pc)
            (BitVec.ofNat 256 (secLoad b (p.pa % 64) 32))) g code a)) ∧
    (∀ s1 e, fetchPhys s t th.ctx (packetBase th.pc) = (s1, .error e) →
      step s = .next (fetchFault s1 g e (w64 (packetBase th.pc)))) ∧
    (∀ s1 p s2 b code, fetchPhys s t th.ctx (packetBase th.pc) = (s1, .ok p) → homeRead s1 (p.pa / 64) p.key = (s2, b, code) →
      code ≠ 0 → step s = .next (fetchFault s2 g code (w64 (packetBase th.pc)))))

/-- Log entry 1: with no slot being issued, a package that is up takes the head of the agenda. A package that is off takes a reset, and
one that boots a fatal error too (R408, R403, R405, R407; that a boot is no exception is read from them, log entry 4). A package that a fatal error has
stopped takes nothing before a reset (R403); with none to come its step is the one fault of the model. -/
def Obligations.StepTakesTheAgenda : Prop :=
  (∀ s e rest, s.issuing = none → s.agenda = e :: rest → (s.pkg.mode = .ready ∨ s.pkg.mode = .recovery) →
    step s = exec e { s with agenda := rest }) ∧
  (∀ s e rest, s.issuing = none → s.agenda = e :: rest → s.pkg.mode = .off →
    (Instr.isReset e = true ∨ (s.pkg.boot.isSome = true ∧ Instr.isFatal e = true)) → step s = exec e { s with agenda := rest }) ∧
  (∀ s code, s.issuing = none → s.pkg.mode = .fatal code → (∀ e ∈ s.agenda, Instr.isReset e = false) →
    step s = .fault .packageStopped) ∧
  (∀ s f n, (∃ rest, s.agenda = .warmReset f n :: rest) → s.issuing = none → (∃ code, s.pkg.mode = .fatal code) →
    step s = exec (.warmReset f n) { s with agenda := s.agenda.tail })

/-- R345, R408: nothing is set up at reset. Log entries 3 and 4: the memory lists nothing and reads zero, and boot has yet to run. -/
def Obligations.ResetState : Prop :=
  core.reset = State.reset ∧ State.reset.pkg.mode = .off ∧ State.reset.mem.wf = true ∧ State.reset.ctxs = [] ∧
  State.reset.pkg.sessions = [] ∧ State.reset.threads = [] ∧ State.reset.pkg.audit.next = 0 ∧
  State.reset.pkg.meas = List.replicate 8 0 ∧ State.reset.issuing = none ∧
  (∀ a, State.reset.mem.get a = 0) ∧ (∀ t p, State.reset.readPos t p = if t.isCore then none else some 0)

/-- The memory keeps its one form in every step (the model's own form, log entry 3): addresses rise strictly, and no byte is listed at
the value that an unlisted one reads as. -/
def Obligations.MemoryStaysCanonical : Prop :=
  ∀ s s' : State, s.mem.wf = true → step s = .next s' → s'.mem.wf = true

/-! ### Integer and logic forms -/

/-- R165: IADD, ISUB, IMIN, IMAX and IABS complete with the INT latency of 2 cycles. Each element of a 32-bit TY is computed on its own,
exactly, and placed clamped with SAT, mod 2^w without; so is a pair of a 64-bit TY, whose B may be an immediate, sign-extended. -/
def Obligations.ElementsAndPairs : Prop :=
  (∀ (h : Hdr) (ty : ITy) (sat : Bool) (o : Dab) (u : Da),
    Completes (.iadd h ty sat o) h (.fixed 2) (fun _ _ _ vs => { out := addFn ty sat (· + ·) o.b vs }) ∧
    Completes (.isub h ty sat o) h (.fixed 2) (fun _ _ _ vs => { out := addFn ty sat (· - ·) o.b vs }) ∧
    Completes (.imin h ty o) h (.fixed 2) (fun _ _ _ vs => { out := [mapI ty false min (op vs 0) (bVal o.b vs)] }) ∧
    Completes (.imax h ty o) h (.fixed 2) (fun _ _ _ vs => { out := [mapI ty false max (op vs 0) (bVal o.b vs)] }) ∧
    Completes (.iabs h ty sat u) h (.fixed 2) (fun _ _ _ vs => { out := [mapI ty sat (fun x _ => (x.natAbs : Int)) (op vs 0) 0] })) ∧
  (∀ (ty : ITy) (sat : Bool) (f : Int → Int → Int) (b : BSrc) (vs : List (List Word)), ty.is64 = false →
    addFn ty sat f b vs = [mapI ty sat f (op vs 0) (bVal b vs)]) ∧
  (∀ (ty : ITy) (sat : Bool) (f : Int → Int → Int) (a b : Word) (i : Nat), ty.is64 = false → i < 32 / tyWidth ty →
    let w := tyWidth ty
    let elem (x : Word) : Int :=
      let c := x.toNat / 2 ^ (w * i) % 2 ^ w
      if ty.signed ∧ 2 ^ (w - 1) ≤ c then (c : Int) - (2 ^ w : Nat) else c
    let x := f (elem a) (elem b)
    let lo : Int := if ty.signed then -(2 ^ (w - 1) : Nat) else 0
    let hi : Int := if ty.signed then (2 ^ (w - 1) : Nat) - 1 else (2 ^ w : Nat) - 1
    (mapI ty sat f a b).toNat / 2 ^ (w * i) % 2 ^ w = ((if sat then max lo (min hi x) else x) % (2 ^ w : Nat)).toNat) ∧
  (∀ (ty : ITy) (sat : Bool) (f : Int → Int → Int) (x y : DWord) (r : Src) (p : Pat) (k : BitVec 22), ty.is64 = true →
    let out (y : DWord) : List Word :=
      let v : Int := if ty.signed then f x.toInt y.toInt else f x.toNat y.toNat
      let lo : Int := if ty.signed then -(2 ^ 63 : Nat) else 0
      let hi : Int := if ty.signed then (2 ^ 63 : Nat) - 1 else (2 ^ 64 : Nat) - 1
      let z := BitVec.ofInt 64 (if sat then max lo (min hi v) else v)
      [loOf z, hiOf z]
    addFn ty sat f (.reg r p) [[loOf x, hiOf x], [loOf y, hiOf y]] = out y ∧
    addFn ty sat f (.imm k) [[loOf x, hiOf x]] = out (k.signExtend 64))

/-- R170 to R172, R177, R178: the counts, the reversal, the bit fields and the shifts complete with latency 2, and their results bit by
bit. -/
def Obligations.BitFieldsAndShifts : Prop :=
  (∀ (h : Hdr) (sg : Bool) (o : Dab) (t : Dabc) (u : Da),
    Completes (.popc h u) h (.fixed 2) (fun _ _ _ vs => { out := [popcFn (op vs 0)] }) ∧
    Completes (.clz h u) h (.fixed 2) (fun _ _ _ vs => { out := [clzFn (op vs 0)] }) ∧
    Completes (.brev h u) h (.fixed 2) (fun _ _ _ vs => { out := [brevFn (op vs 0)] }) ∧
    Completes (.bfe h sg o) h (.fixed 2) (fun _ _ _ vs => { out := [bfeFn sg (op vs 0) (bVal o.b vs)] }) ∧
    Completes (.bfi h t) h (.fixed 2) (fun _ _ _ vs => { out := [bfiFn (op vs 0) (op vs 1) (op vs 2)] }) ∧
    Completes (.shl h o) h (.fixed 2) (fun _ _ _ vs => { out := [shlFn (op vs 0) (bVal o.b vs)] }) ∧
    Completes (.shr h o) h (.fixed 2) (fun _ _ _ vs => { out := [shrFn (op vs 0) (bVal o.b vs)] }) ∧
    Completes (.sar h o) h (.fixed 2) (fun _ _ _ vs => { out := [sarFn (op vs 0) (bVal o.b vs)] }) ∧
    Completes (.rot h o) h (.fixed 2) (fun _ _ _ vs => { out := [rotFn (op vs 0) (bVal o.b vs)] }) ∧
    Completes (.fshf h t) h (.fixed 2) (fun _ _ _ vs => { out := [fshfFn (op vs 0) (op vs 1) (op vs 2)] })) ∧
  (∀ (a : Word) (j : Nat), j < 32 → (brevFn a).getLsbD j = a.getLsbD (31 - j)) ∧
  (∀ a : Word, (popcFn a).toNat = ((List.range 32).filter fun j => a.getLsbD j).length) ∧
  (∀ a : Word, (clzFn a).toNat ≤ 32 ∧ (∀ j, 32 - (clzFn a).toNat ≤ j → a.getLsbD j = false) ∧
    ((clzFn a).toNat < 32 → a.getLsbD (31 - (clzFn a).toNat) = true)) ∧
  (∀ (a b c : Word) (j : Nat), j < 32 → (bfiFn a b c).getLsbD j =
    let p := c.toNat % 256
    let n := min (c.toNat / 256 % 256) 32
    if p ≤ j ∧ j < p + n then b.getLsbD (j - p) else a.getLsbD j) ∧
  (∀ (signed : Bool) (a b : Word) (j : Nat), j < 32 → (bfeFn signed a b).getLsbD j =
    let p := b.toNat % 256
    let n := min (b.toNat / 256 % 256) 32
    let ext (k : Nat) : Bool := if k < 32 then a.getLsbD k else signed && a.getLsbD 31
    if n = 0 then false else if j < n then ext (p + j) else signed && ext (p + n - 1)) ∧
  (∀ (a b c : Word) (j : Nat), j < 32 →
    (let s := b.toNat % 256
     (shlFn a b).getLsbD j = (decide (s ≤ j) && a.getLsbD (j - s)) ∧
     (shrFn a b).getLsbD j = a.getLsbD (j + s) ∧
     (sarFn a b).getLsbD j = (if j + s < 32 then a.getLsbD (j + s) else a.getLsbD 31) ∧
     (rotFn a b).getLsbD j = a.getLsbD ((j + 32 - s % 32) % 32)) ∧
    (let s := c.toNat % 64
     (fshfFn a b c).getLsbD j = (if s + j < 32 then a.getLsbD (s + j) else b.getLsbD (s + j - 32))))

/-- R163, R164, R166 to R169, R173, R174: every other form of class 0x0 completes in every group that fires it, with the INT latency of
2 cycles, or 4 for the forms on the FMA pipe. -/
def Obligations.IntegerFormsComplete : Prop :=
  ∀ (h : Hdr) (ty : ITy) (sat wide sg : Bool) (o : Dab) (t : Dabc) (u : Da),
    let placed (n : Nat) (x : Int) : Int :=
      let lo : Int := if ty.signed then -(2 ^ (n - 1) : Nat) else 0
      let hi : Int := if ty.signed then (2 ^ (n - 1) : Nat) - 1 else (2 ^ n : Nat) - 1
      if sat then max lo (min hi x) else x
    let w := tyWidth ty
    let elem (x : Word) (i : Nat) : Int := elemI w ty.signed x i
    let int (x : Word) : Int := if ty.signed then x.toInt else x.toNat
    let pair (x : DWord) : List Word := [loOf x, hiOf x]
    Completes (.imul h ty sat wide o) h (.fixed 4) (fun _ _ _ vs =>
      { out := if wide then pair (BitVec.ofInt 64 (int (op vs 0) * int (bVal o.b vs))) else [mapI ty sat (· * ·) (op vs 0) (bVal o.b vs)] }) ∧
    Completes (.imulh h ty o) h (.fixed 4)
      (fun _ _ _ vs => { out := [mapI ty false (fun x y => x * y / (2 ^ w : Nat)) (op vs 0) (bVal o.b vs)] }) ∧
    Completes (.imad h ty sat wide t) h (.fixed 4) (fun _ _ _ vs =>
      let c : DWord := opk vs 2 1 ++ opk vs 2 0
      { out := if wide then pair (BitVec.ofInt 64 (placed 64 (int (op vs 0) * int (op vs 1) + if ty.signed then c.toInt else c.toNat)))
        else [packI w ty.signed sat ((List.range (32 / w)).map fun i => elem (op vs 0) i * elem (op vs 1) i + elem (op vs 2) i)] }) ∧
    Completes (.idot4 h ty sat t) h (.fixed 4) (fun _ _ _ vs =>
      { out := [BitVec.ofInt 32 (placed 32 (((List.range (32 / w)).map fun i => elem (op vs 0) i * elem (op vs 1) i).foldl (· + ·) (int (op vs 2))))] }) ∧
    (∀ p : Pab, Completes (.icmp h sg p) h (.fixed 2) (fun _ _ _ vs =>
      let a := op vs 0
      let b := bVal p.b vs
      { preds := [(p.p, [a == b, a != b, if sg then a.slt b else a.ult b, if sg then a.sle b else a.ule b,
          if sg then b.slt a else b.ult a, if sg then b.sle a else b.ule a, a &&& b != 0, a &&& b == 0].getD p.cc.val false)] })) ∧
    Completes (.isel h t) h (.fixed 2) (fun _ _ _ vs => { out := [if op vs 2 = 0 then op vs 1 else op vs 0] }) ∧
    Completes (.lea h sg o) h (.fixed 2) (fun _ _ _ vs =>
      let x : DWord := opPair vs 0 + match o.b with
        | .imm k => k.signExtend 64
        | .reg _ _ => if sg then (op vs 1).signExtend 64 else (op vs 1).setWidth 64
      { out := [loOf x, hiOf x] }) ∧
    Completes (.mov h u) h (.fixed 2) (fun _ _ _ vs => { out := [op vs 0] }) ∧
    (∀ (d : Name) (k : BitVec 22), Completes (.movi h d k) h (.fixed 2) (fun _ _ _ _ => { out := [k.signExtend 32] })) ∧
    (∀ (d : Name) (k : BitVec 16), Completes (.movk h d sg k) h (.fixed 2) (fun _ _ _ vs =>
      { out := [if sg then k ++ (op vs 0).extractLsb' 0 16 else (op vs 0).extractLsb' 16 16 ++ k] }))

/-- R163, R175, R176, R179, R180: the logic forms of class 0x1 complete in every group that fires them, with latency 2; BMUX bit by bit.
PLOP and P2G read the predicates that stand when they issue. -/
def Obligations.LogicFormsComplete : Prop :=
  (∀ (a b c : Word) (j : Nat) (f1 f0 : BitVec 4), j < 32 → (bmuxFn f1 f0 a b c).getLsbD j =
    let k := 2 * (a.getLsbD j).toNat + (b.getLsbD j).toNat
    if c.getLsbD j then f1.getLsbD k else f0.getLsbD k) ∧
  ∀ (h : Hdr) (o : Dab),
    Completes (.and h o) h (.fixed 2) (fun _ _ _ vs => { out := [op vs 0 &&& bVal o.b vs] }) ∧
    Completes (.or h o) h (.fixed 2) (fun _ _ _ vs => { out := [op vs 0 ||| bVal o.b vs] }) ∧
    Completes (.xor h o) h (.fixed 2) (fun _ _ _ vs => { out := [op vs 0 ^^^ bVal o.b vs] }) ∧
    Completes (.andn h o) h (.fixed 2) (fun _ _ _ vs => { out := [op vs 0 &&& ~~~(bVal o.b vs)] }) ∧
    (∀ (f1 f0 : BitVec 4) (d : Name) (a b c : Src), Completes (.bmux h f1 f0 d a b c) h (.fixed 2)
      (fun _ _ _ vs => { out := [bmuxFn f1 f0 (op vs 0) (op vs 1) (op vs 2)] })) ∧
    (∀ fn pd pa pb : Fin 8, Completes (.plop h fn pd pa pb) h (.fixed 2) (fun _ _ th _ =>
      let get (k : Fin 8) : Bool := if k = 7 then true else th.preds.getLsbD k.val
      let a := get pa
      let b := get pb
      { preds := [(pd, [a && b, a || b, a != b, a && !b, a || !b, !(a && b), !(a || b), a == b].getD fn.val false)] })) ∧
    (∀ d : Name, Completes (.p2g h d) h (.fixed 2) (fun _ _ th _ => { out := [th.preds.setWidth 32] })) ∧
    (∀ a : Src, Completes (.g2p h a) h (.fixed 2) (fun _ _ _ vs =>
      { preds := (List.finRange 7).map fun k => (k.castSucc, (op vs 0).getLsbD k.val) }))

/-! ### Floating forms -/

/-- R104: a value m × 2^e rounded to a multiple q × 2^lsb. Toward nearest q is within half a unit, ties to even; the other modes take
the multiple below or above in value; the flag says whether q × 2^lsb differs from m × 2^e. -/
def Obligations.RoundingModes : Prop :=
  ∀ (rm : RM) (neg : Bool) (m : Nat) (e lsb : Int),
    let q := (quant rm neg m e lsb).1
    let inexact := (quant rm neg m e lsb).2
    (lsb ≤ e → q = m * 2 ^ (e - lsb).toNat ∧ inexact = false) ∧
    (e < lsb →
      let d := 2 ^ (lsb - e).toNat
      (inexact = true ↔ m % d ≠ 0) ∧ (inexact = false → q * d = m) ∧
      match rm with
      | .rne => 2 * (q * d) ≤ 2 * m + d ∧ 2 * m ≤ 2 * (q * d) + d ∧
          (2 * (q * d) = 2 * m + d ∨ 2 * m = 2 * (q * d) + d → q % 2 = 0)
      | .rz => q * d ≤ m ∧ m < q * d + d
      | .ru => if neg then q * d ≤ m ∧ m < q * d + d else m ≤ q * d ∧ q * d < m + d
      | .rd => if neg then m ≤ q * d ∧ q * d < m + d else q * d ≤ m ∧ m < q * d + d)

/-- R107, R108, R125, R126, R128: the cases of one element that no rounding reaches, for every register format and every operand:
NaNs, infinities, the lesser and the greater operand, the class. -/
def Obligations.FloatSpecialCases : Prop :=
  ∀ (f : Fmt) (m : FMod) (a b c : Nat), (f = .f32 ∨ f = .f16 ∨ f = .bf16) → a < 2 ^ (f.sb + 1) → b < 2 ^ (f.sb + 1) → c < 2 ^ (f.sb + 1) →
    let x := f.val a
    let y := f.val b
    let z := f.val c
    let iv : Flags := if x.isSig || y.isSig then 1 else 0
    let canonical := (2 ^ f.ew - 1) * 2 ^ f.mw + 2 ^ (f.mw - 1)
    let infinity (neg : Bool) : FR := ⟨(if neg then 2 ^ f.sb else 0) + (2 ^ f.ew - 1) * 2 ^ f.mw, 0⟩
    -- NaNs
    (x.isNan || y.isNan = true → faddFn m f a b 0 = ⟨canonical, iv⟩ ∧ fsubFn m f a b 0 = ⟨canonical, iv⟩ ∧
      fmulFn m f a b 0 = ⟨canonical, iv⟩ ∧ ((z.isSig = false) → ffmaFn m f a b c = ⟨canonical, iv⟩)) ∧
    (x.isNan = false → y.isNan = false → z.isNan = true → ¬ (x.isInf = true ∧ y.isZero = true) → ¬ (x.isZero = true ∧ y.isInf = true) →
      ffmaFn m f a b c = ⟨canonical, if z.isSig then 1 else 0⟩) ∧
    -- infinities
    (∀ s t, x = .inf s → y = .inf t →
      faddFn m f a b 0 = (if (s != m.neg) = t then infinity t else ⟨canonical, 1⟩) ∧
      fsubFn m f a b 0 = (if (s != m.neg) = t then ⟨canonical, 1⟩ else infinity (s != m.neg)) ∧
      fmulFn m f a b 0 = infinity ((s != t) != m.neg)) ∧
    (∀ s, x = .inf s → y.isFin = true →
      faddFn m f a b 0 = infinity (s != m.neg) ∧ fsubFn m f a b 0 = infinity (s != m.neg) ∧
      faddFn m f b a 0 = infinity s ∧ fsubFn m f b a 0 = infinity (!s) ∧
      (y.isZero = false → fmulFn m f a b 0 = infinity ((s != y.neg?) != m.neg) ∧ fmulFn m f b a 0 = infinity ((s != y.neg?) != m.neg))) ∧
    (x.isInf = true → y.isZero = true → fmulFn m f a b 0 = ⟨canonical, 1⟩ ∧ fmulFn m f b a 0 = ⟨canonical, 1⟩ ∧
      ffmaFn m f a b c = ⟨canonical, 1⟩ ∧ ffmaFn m f b a c = ⟨canonical, 1⟩) ∧
    (∀ s, x = .inf s → y.isNan = false → y.isZero = false → z.isNan = false →
      let p := (s != y.neg?) != m.neg
      ffmaFn m f a b c = (if z = .inf (!p) then ⟨canonical, 1⟩ else infinity p) ∧
      ffmaFn m f b a c = (if z = .inf (!p) then ⟨canonical, 1⟩ else infinity p)) ∧
    (∀ s, x.isFin = true → y.isFin = true → z = .inf s → ffmaFn m f a b c = infinity s) ∧
    -- the lesser and the greater
    (x.isNan = false → y.isNan = false →
      let before (u v : FVal) : Prop := (u = .inf true ∧ v ≠ .inf true) ∨ (v = .inf false ∧ u ≠ .inf false) ∨
        (u.isFin = true ∧ v.isFin = true ∧ (u.rat < v.rat ∨ (u.rat = 0 ∧ v.rat = 0 ∧ u.neg? = true ∧ v.neg? = false)))
      (before x y → f.minMax false a b = ⟨a, 0⟩ ∧ f.minMax true a b = ⟨b, 0⟩) ∧
      (before y x → f.minMax false a b = ⟨b, 0⟩ ∧ f.minMax true a b = ⟨a, 0⟩) ∧
      (¬ before x y → ¬ before y x → a = b ∧ f.minMax false a b = ⟨a, 0⟩ ∧ f.minMax true a b = ⟨a, 0⟩)) ∧
    (x.isNan = true → y.isNan = false → ∀ isMax, f.minMax isMax a b = ⟨b, iv⟩ ∧ f.minMax isMax b a = ⟨b, iv⟩) ∧
    (x.isNan = true → y.isNan = true → ∀ isMax, f.minMax isMax a b = ⟨canonical, iv⟩) ∧
    -- the class
    (let neg := a / 2 ^ f.sb % 2 = 1
     let e := a / 2 ^ f.mw % 2 ^ f.ew
     let fr := a % 2 ^ f.mw
     f.classOf a =
       if e = 2 ^ f.ew - 1 then (if fr = 0 then (if neg then 0 else 7) else if fr < 2 ^ (f.mw - 1) then 8 else 9)
       else if e = 0 then (if fr = 0 then (if neg then 3 else 4) else (if neg then 2 else 5))
       else (if neg then 1 else 6))

/-- R104, R106, R125, R129, R130, R132: finite results. The exact sum, difference, product, fused sum, scaled value, quotient and
root of finite operands are rounded once into the format, with their flags; zeros take the sign that R104 and R125 give. -/
def Obligations.FiniteResultsAreRoundedOnce : Prop :=
  ∀ (f : Fmt) (m : FMod) (rm : RM) (ov : Over) (a b c : Nat), (f = .f32 ∨ f = .f16 ∨ f = .bf16) →
    a < 2 ^ (f.sb + 1) → b < 2 ^ (f.sb + 1) → c < 2 ^ (f.sb + 1) →
    let x := f.val a
    let y := f.val b
    let z := f.val c
    let zero (neg : Bool) : FR := ⟨if neg then 2 ^ f.sb else 0, 0⟩
    let canonical := (2 ^ f.ew - 1) * 2 ^ f.mw + 2 ^ (f.mw - 1)
    let infinity (neg : Bool) (fl : Flags) : FR := ⟨(if neg then 2 ^ f.sb else 0) + (2 ^ f.ew - 1) * 2 ^ f.mw, fl⟩
    let beyond : Over := if m.sat then .sat else .ieee
    let neg (n : Bool) (v : Rat) : Rat := if n then -v else v
    let abs (v : Rat) : Rat := if v < 0 then -v else v
    -- a sum v of two terms with these signs
    let isSum (v : Rat) (s t : Bool) (r : FR) : Prop :=
      if v = 0 then r = zero (if s = t then s else m.rm == .rd) else RoundsInto f m.rm beyond (decide (v < 0)) (abs v) r
    (x.isFin = true → y.isFin = true →
      isSum (neg m.neg x.rat + y.rat) (x.neg? != m.neg) y.neg? (faddFn m f a b 0) ∧
      isSum (neg m.neg x.rat - y.rat) (x.neg? != m.neg) (!y.neg?) (fsubFn m f a b 0) ∧
      (let s := (x.neg? != y.neg?) != m.neg
       if x.mag * y.mag = 0 then fmulFn m f a b 0 = zero s else RoundsInto f m.rm beyond s (x.mag * y.mag) (fmulFn m f a b 0)) ∧
      (z.isFin = true → let s := (x.neg? != y.neg?) != m.neg
       isSum (neg s (x.mag * y.mag) + z.rat) s z.neg? (ffmaFn m f a b c)) ∧
      (let s := x.neg? != y.neg?
       let r := f.div rm ov x y
       if y.mag = 0 then (if x.mag = 0 then r = ⟨canonical, 1⟩ else r = infinity s 2)
       else if x.mag = 0 then r = zero s else RoundsInto f rm ov s (x.mag / y.mag) r)) ∧
    (x.isFin = true → x.mag ≠ 0 → ∀ n : Int, RoundsInto f rm ov x.neg? (x.mag * pow2 n) (f.scale rm ov a n)) ∧
    ((x.isInf = true ∨ x.isZero = true) → ∀ n : Int, f.scale rm ov a n = ⟨a, 0⟩ ∧ f.rint rm a = ⟨a, 0⟩) ∧
    (x.isFin = true → ∃ q i k e, Rounds rm x.neg? x.mag 0 q i ∧ (f.rint rm a).fl = 0 ∧ (f.rint rm a).bits < 2 ^ (f.sb + 1) ∧
      f.val (f.rint rm a).bits = .fin x.neg? k e ∧ (k : Rat) * pow2 e = (q : Rat)) ∧
    (x.isNan = true → (∀ n : Int, f.scale rm ov a n = ⟨canonical, if x.isSig then 1 else 0⟩) ∧
      f.rint rm a = ⟨canonical, if x.isSig then 1 else 0⟩ ∧ f.sqrt rm x = ⟨canonical, if x.isSig then 1 else 0⟩) ∧
    (x.isNan || y.isNan = true → f.div rm ov x y = ⟨canonical, if x.isSig || y.isSig then 1 else 0⟩) ∧
    (∀ s t, x = .inf s → (y = .inf t → f.div rm ov x y = ⟨canonical, 1⟩) ∧
      (y.isFin = true → f.div rm ov x y = infinity (s != y.neg?) 0 ∧ f.div rm ov y x = zero (s != y.neg?)) ∧
      f.sqrt rm x = (if s then ⟨canonical, 1⟩ else infinity false 0)) ∧
    (x.isFin = true → (x.mag = 0 → f.sqrt rm x = ⟨a, 0⟩) ∧ (x.mag ≠ 0 → x.neg? = true → f.sqrt rm x = ⟨canonical, 1⟩) ∧
      (x.mag ≠ 0 → x.neg? = false →
        ∃ (ex : Int) (q k : Nat) (e : Int), let u := pow2 (ex - f.mw)
          let r := (q : Rat) * u
          pow2 ex * pow2 ex ≤ x.mag ∧ x.mag < pow2 (ex + 1) * pow2 (ex + 1) ∧ (f.sqrt rm x).bits < 2 ^ (f.sb + 1) ∧
          f.val (f.sqrt rm x).bits = .fin false k e ∧ (k : Rat) * pow2 e = r ∧
          (f.sqrt rm x).fl = (if r * r = x.mag then 0 else 0b0010000) ∧
          match rm with
          | .rne => (2 * r - u) * (2 * r - u) ≤ 4 * x.mag ∧ 4 * x.mag ≤ (2 * r + u) * (2 * r + u)
          | .ru => (r - u) * (r - u) < x.mag ∧ x.mag ≤ r * r
          | _ => r * r ≤ x.mag ∧ x.mag < (r + u) * (r + u)))

/-- R117, R123 to R132: every form of class 0x2 completes in every group that fires it, and no trap comes where its launch enables
none: latency 4 on the FMA pipe, variable on the SFU from 8 to 96 cycles. Each element of a packed word is computed on its own,
and the flags are those of both. -/
def Obligations.FloatFormsComplete : Prop :=
  (∀ (h : Hdr) (m : FMod) (ty : FTy) (rm : RM) (sat neg : Bool) (o : Dab) (t : Dabc) (u : Da) (p : Pab),
    Completes (.fadd h m o) h (.fixed 4) (fun _ _ _ vs => fRes (perElem m.ty (faddFn m) (op vs 0) (bFlt m.ty o.b vs) 0)) ∧
    Completes (.fsub h m o) h (.fixed 4) (fun _ _ _ vs => fRes (perElem m.ty (fsubFn m) (op vs 0) (bFlt m.ty o.b vs) 0)) ∧
    Completes (.fmul h m o) h (.fixed 4) (fun _ _ _ vs => fRes (perElem m.ty (fmulFn m) (op vs 0) (bFlt m.ty o.b vs) 0)) ∧
    Completes (.ffma h m t) h (.fixed 4) (fun _ _ _ vs => fRes (perElem m.ty (ffmaFn m) (op vs 0) (op vs 1) (op vs 2))) ∧
    Completes (.fmin h ty o) h (.fixed 4)
      (fun _ _ _ vs => fRes (perElem ty (fun f a b _ => f.minMax false a b) (op vs 0) (bFlt ty o.b vs) 0)) ∧
    Completes (.fmax h ty o) h (.fixed 4)
      (fun _ _ _ vs => fRes (perElem ty (fun f a b _ => f.minMax true a b) (op vs 0) (bFlt ty o.b vs) 0)) ∧
    Completes (.fcmp h p) h (.fixed 4) (fun _ _ _ vs =>
      let x := f32v (op vs 0)
      let y := f32v (bFlt .f32 p.b vs)
      { preds := [(p.p, condF p.cc.val (x.cmp y))], fl := if x.isSig || y.isSig then 1 else 0 }) ∧
    Completes (.fclass h u) h (.fixed 4) (fun _ _ _ vs => { out := [BitVec.ofNat 32 (2 ^ Fmt.f32.classOf (op vs 0).toNat)] }) ∧
    (∀ (d : Name) (a b : Src) (q : Pat), Completes (.fscale h rm sat d a b q) h (.fixed 4) (fun _ _ _ vs =>
      fRes (perElem .f32 (fun f x _ _ => f.scale rm (ovOf sat) x (op vs 1).toInt) (op vs 0) 0 0))) ∧
    Completes (.frnd h ty rm u) h (.fixed 4) (fun _ _ _ vs => fRes (perElem ty (fun f a _ _ => f.rint rm a) (op vs 0) 0 0)) ∧
    Completes (.fabs h ty u) h (.fixed 4)
      (fun _ _ _ vs => { out := [op vs 0 &&& if ty = .f32 then 0x7FFF_FFFF else 0x7FFF_7FFF] }) ∧
    Completes (.fcpys h ty o) h (.fixed 4) (fun _ _ _ vs =>
      let k : Word := if ty = .f32 then 0x8000_0000 else 0x8000_8000
      { out := [(op vs 0 &&& ~~~k) ||| (bFlt ty o.b vs &&& k)] }) ∧
    Completes (.fdiv h rm sat neg o) h (.var 8 (some 96)) (fun _ _ _ vs =>
      fRes (perElem .f32 (fun f a b _ => f.div rm (ovOf sat) (flipIf neg (f.val a)) (f.val b)) (op vs 0) (bFlt .f32 o.b vs) 0)) ∧
    Completes (.fsqrt h rm u) h (.var 8 (some 96)) (fun _ _ _ vs =>
      fRes (perElem .f32 (fun f a _ _ => f.sqrt rm (f.val a)) (op vs 0) 0 0))) ∧
  (∀ (g : Fmt → Nat → Nat → Nat → FR) (a b c : Word), (∀ f x y z, (g f x y z).bits < 2 ^ (f.sb + 1)) →
    let half (x : Word) (i : Nat) : Nat := x.toNat / 2 ^ (16 * i) % 2 ^ 16
    ((perElem .f32 g a b c).1.toNat = (g .f32 a.toNat b.toNat c.toNat).bits ∧ (perElem .f32 g a b c).2 = (g .f32 a.toNat b.toNat c.toNat).fl) ∧
    (∀ ty f, (ty = .f16x2 ∧ f = Fmt.f16) ∨ (ty = .bf16x2 ∧ f = Fmt.bf16) →
      (∀ i, i < 2 → half (perElem ty g a b c).1 i = (g f (half a i) (half b i) (half c i)).bits) ∧
      (perElem ty g a b c).2 = (g f (half a 0) (half b 0) (half c 0)).fl ||| (g f (half a 1) (half b 1) (half c 1)).fl))

/-- R119 to R122, R133 to R141: every form of class 0x3 completes in every group that fires it: exact pairs with latency 4, double-
word forms with 12. NEG flips the signs of both halves of A; a subtraction those of B. -/
def Obligations.ExactPairFormsComplete : Prop :=
  ∀ (h : Hdr) (n : Bool) (d : Name) (a b : Src) (q : Pat) (u : Da) (cc p : Fin 8),
    let s (x : Word) : Word := if n then x ^^^ 0x8000_0000 else x
    let f (x : Word) : Word := x ^^^ 0x8000_0000
    let out (r : Word × Word × Flags) : Res := { out := [r.1, r.2.1], fl := r.2.2 }
    Completes (.faddx h n d a b q) h (.fixed 4) (fun _ _ _ vs => out (twoSum (s (op vs 0)) (op vs 1))) ∧
    Completes (.fsubx h n d a b q) h (.fixed 4) (fun _ _ _ vs => out (twoSum (s (op vs 0)) (f (op vs 1)))) ∧
    Completes (.fmulx h n d a b q) h (.fixed 4) (fun _ _ _ vs => out (twoProd (s (op vs 0)) (op vs 1))) ∧
    Completes (.dwadd h n d a b q) h (.fixed 12)
      (fun _ _ _ vs => out (dwAdd (s (opk vs 0 0)) (s (opk vs 0 1)) (opk vs 1 0) (opk vs 1 1))) ∧
    Completes (.dwsub h n d a b q) h (.fixed 12)
      (fun _ _ _ vs => out (dwAdd (s (opk vs 0 0)) (s (opk vs 0 1)) (f (opk vs 1 0)) (f (opk vs 1 1)))) ∧
    Completes (.dwmul h n d a b q) h (.fixed 12)
      (fun _ _ _ vs => out (dwMul (s (opk vs 0 0)) (s (opk vs 0 1)) (opk vs 1 0) (opk vs 1 1))) ∧
    Completes (.dwaddf h n d a b q) h (.fixed 12) (fun _ _ _ vs => out (dwAddF (s (opk vs 0 0)) (s (opk vs 0 1)) (op vs 1))) ∧
    Completes (.dwmulf h n d a b q) h (.fixed 12) (fun _ _ _ vs => out (dwMulF (s (opk vs 0 0)) (s (opk vs 0 1)) (op vs 1))) ∧
    Completes (.dwnorm h u) h (.fixed 12) (fun _ _ _ vs => out (twoSum (opk vs 0 0) (opk vs 0 1))) ∧
    Completes (.dwcmp h cc p a b q) h (.fixed 12) (fun _ _ _ vs =>
      let r := dwcmpFn cc.val (opk vs 0 0) (opk vs 0 1) (opk vs 1 0) (opk vs 1 1)
      { preds := [(p, r.1)], fl := r.2 }) ∧
    Completes (.cvtdw h u) h (.fixed 12) (fun _ _ _ vs => out (cvtDW (opPair vs 0))) ∧
    Completes (.cvtwd h u) h (.fixed 12) (fun _ _ _ vs =>
      let r := cvtWD (opk vs 0 0) (opk vs 0 1)
      { out := [loOf r.1, hiOf r.1], fl := r.2 })

/-- R120, R121, R135, R140: the error terms. Where the sum or product is finite, hi + lo is the exact sum, and lo is the exact rest of
the product, rounded once, with XU where that loses bits; a NaN hi has lo +0 and an infinite one a zero of its sign, with XO where
both operands are finite. The flags of hi are those of FADD and FMUL. DWADD is its list of steps. -/
def Obligations.ErrorTermsAreExact : Prop :=
  (∀ a b : Word, let s := (twoSum a b).1
    let e := (twoSum a b).2.1
    let fl := (twoSum a b).2.2
    let x := f32v a
    let y := f32v b
    s = (rnAdd a b).1 ∧
    ((f32v s).isNan = true → e = 0 ∧ fl = (rnAdd a b).2) ∧
    (∀ n, f32v s = .inf n → e = (if n then 0x8000_0000 else 0) ∧
      fl = (rnAdd a b).2 ||| (if x.isFin && y.isFin then 0b0100000 else 0)) ∧
    ((f32v s).isFin = true → fl = (rnAdd a b).2 ∧ (f32v e).isFin = true ∧ (f32v s).rat + (f32v e).rat = x.rat + y.rat ∧
      ((f32v e).rat = 0 → e = 0))) ∧
  (∀ a b : Word, let s := (twoProd a b).1
    let e := (twoProd a b).2.1
    let fl := (twoProd a b).2.2
    let x := f32v a
    let y := f32v b
    let rest := x.rat * y.rat - (f32v s).rat
    s = (rnMul a b).1 ∧
    ((f32v s).isNan = true → e = 0 ∧ fl = (rnMul a b).2) ∧
    (∀ n, f32v s = .inf n → e = (if n then 0x8000_0000 else 0) ∧
      fl = (rnMul a b).2 ||| (if x.isFin && y.isFin then 0b0100000 else 0)) ∧
    ((f32v s).isFin = true → (rest = 0 → e = 0 ∧ fl = (rnMul a b).2) ∧
      (rest ≠ 0 → (∃ r, e = BitVec.ofNat 32 r.bits ∧ RoundsInto .f32 .rne .ieee (decide (rest < 0)) (if rest < 0 then -rest else rest) r) ∧
        fl = (rnMul a b).2 ||| (if (f32v e).rat = rest then 0 else 0b1000000)))) ∧
  (∀ xh xl yh yl : Word,
    let s := twoSum xh yh
    let t := twoSum xl yl
    let c := rnAdd s.2.1 t.1
    let v := twoSum s.1 c.1
    let w := rnAdd t.2.1 v.2.1
    let z := twoSum v.1 w.1
    dwAdd xh xl yh yl = (z.1, z.2.1, s.2.2 ||| t.2.2 ||| c.2 ||| v.2.2 ||| w.2 ||| z.2.2))

/-- R112, R113, R142 to R151: every form of class 0x4 completes in every group that fires it. A conversion reads the format slot that
XTRA names from its launch's record, and needs a slot that holds a format the form takes; on another its lane stops with 0x0D. FCOS
never raises UF (R150; that this holds of F16 operands with a tiny |cos| too is log entry 83). -/
def Obligations.ConversionFormsComplete : Prop :=
  ∀ (h : Hdr) (ty : FTy) (fs : Fin 8) (d : Name) (a b : Src) (n : NumSrc) (q : Pat) (u : Da),
    let with_ (f : Slot → List (List Word) → Res) : LaneFn := fun env t th vs =>
      match Slot.ofWord (slotWord env.pre t th fs.val) with
      | some sl => f sl vs
      | none => { fault := some { code := 0x0D } }
    let takes (no : Slot → Bool) (s : State) (t : Tid) (th : Thread) : Prop :=
      ∃ sl, Slot.ofWord (slotWord s t th fs.val) = some sl ∧ no sl = false
    let no (rej : Slot → Bool) (s : State) (t : Tid) (th : Thread) : Prop :=
      ∀ sl, Slot.ofWord (slotWord s t th fs.val) = some sl → rej sl = true
    SlotStops (.cvt h ty fs d n) h (no (rejCvt ty)) ∧ SlotStops (.cvtp h ty fs d a b q) h (no (rejPack ty)) ∧
    SlotStops (.cvtu h ty fs u) h (no (rejPack ty)) ∧ SlotStops (.cvts h fs u) h (no rejScale) ∧
    Completes (.cvt h ty fs d n) h (.fixed 4) (with_ fun sl vs => fRes (cvtFn sl (srcElems ty (cvtA ty n vs)))) (ok := takes (rejCvt ty)) ∧
    Completes (.cvtp h ty fs d a b q) h (.fixed 4)
      (with_ fun sl vs => fRes (cvtFn sl (srcElems ty (op vs 0) ++ srcElems ty (op vs 1)))) (ok := takes (rejPack ty)) ∧
    Completes (.cvtu h ty fs u) h (.fixed 4)
      (with_ fun sl vs => { out := (cvtuFn sl ty (op vs 0)).1, fl := (cvtuFn sl ty (op vs 0)).2 }) (ok := takes (rejPack ty)) ∧
    Completes (.cvts h fs u) h (.var 8 (some 96))
      (with_ fun sl vs => { out := [w32 (cvtS sl.scale sl.fmt (op vs 0)).1], fl := (cvtS sl.scale sl.fmt (op vs 0)).2 })
      (ok := takes rejScale) ∧
    Completes (.frcp h ty u) h (.var 8 (some 96)) (fun _ _ _ vs => sfuRes ty Fmt.rcp (op vs 0)) ∧
    Completes (.frsq h ty u) h (.var 8 (some 96)) (fun _ _ _ vs => sfuRes ty Fmt.rsq (op vs 0)) ∧
    Completes (.fexp2 h ty u) h (.var 8 (some 96)) (fun _ _ _ vs => sfuRes ty Fmt.exp2 (op vs 0)) ∧
    Completes (.flog2 h ty u) h (.var 8 (some 96)) (fun _ _ _ vs => sfuRes ty Fmt.log2 (op vs 0)) ∧
    Completes (.fsin h ty u) h (.var 8 (some 96)) (fun _ _ _ vs => sfuRes ty Fmt.sin (op vs 0)) ∧
    Completes (.fcos h ty u) h (.var 8 (some 96)) (fun _ _ _ vs => sfuRes ty Fmt.cos (op vs 0)) ∧
    Completes (.ftanh h ty u) h (.var 8 (some 96)) (fun _ _ _ vs => sfuRes ty Fmt.tanh (op vs 0)) ∧
    (∀ x : FVal, (Fmt.cos (fmtOf ty) x).fl.getLsbD 3 = false)

/-- R97, R98, R110, R111, R142: where a conversion of a register value puts it. Floating destinations: rounded once, an infinity, a NaN
and an overflow by the rows of R110. Integer ones: rounded, clamped, 0 for a NaN, with NX and IV. The codes stand side by side. -/
def Obligations.ConversionsPlaceTheirResults : Prop :=
  (Fmt.f32.maxc = 0x7F7F_FFFF ∧ Fmt.f16.maxc = 0x7BFF ∧ Fmt.bf16.maxc = 0x7F7F ∧ Fmt.e4m3.maxc = 0x7E ∧ Fmt.e5m2.maxc = 0x7B ∧
    Fmt.e3m2.maxc = 0x1F ∧ Fmt.e2m3.maxc = 0x1F ∧ Fmt.e2m1.maxc = 0x7) ∧
  (∀ (g f : Fmt) (c : Nat) (rm : RM) (sat : Bool), (g = .f32 ∨ g = .f16 ∨ g = .bf16) → c < 2 ^ (g.sb + 1) →
    (f ∈ [Fmt.f32, .f16, .bf16, .e4m3, .e5m2, .e3m2, .e2m3, .e2m1]) →
    let x := g.val c
    let r := f.conv rm sat x
    let s : Nat := if x.neg? then 2 ^ f.sb else 0
    let narrow := f = .e3m2 ∨ f = .e2m3 ∨ f = .e2m1
    (x.isFin = true → x.mag = 0 → r = ⟨s, 0⟩) ∧
    (x.isFin = true → x.mag ≠ 0 → RoundsInto f rm (if sat then .sat else .ieee) x.neg? x.mag r) ∧
    (x.isInf = true → r = if narrow then ⟨s + f.maxc, if sat then 0 else 1⟩ else if sat then ⟨s + f.maxc, 0⟩
      else if f = .e4m3 then ⟨0x7F, 1⟩ else ⟨s + (2 ^ f.ew - 1) * 2 ^ f.mw, 0⟩) ∧
    (x.isNan = true → r = if narrow then ⟨0, 1⟩ else if f = .e4m3 then ⟨0x7F, if x.isSig then 1 else 0⟩
      else ⟨(2 ^ f.ew - 1) * 2 ^ f.mw + 2 ^ (f.mw - 1), if x.isSig then 1 else 0⟩)) ∧
  (∀ (g : Fmt) (c : Nat) (rm : RM) (sat : Bool) (el : Elem) (w : Nat) (lo hi : Int), (g = .f32 ∨ g = .f16 ∨ g = .bf16) → c < 2 ^ (g.sb + 1) →
    (el, w, lo, hi) ∈ [(Elem.int 8 true, 8, (-128 : Int), (127 : Int)), (.int 8 false, 8, 0, 255), (.int 4 true, 4, -8, 7), (.tern, 2, -1, 1)] →
    let x := g.val c
    let r := el.conv rm sat x
    let code (i : Int) : Nat := (i % (2 ^ w : Nat)).toNat
    (x.isNan = true → r = ⟨0, 1⟩) ∧ (∀ n, x = .inf n → r = ⟨code (if n then lo else hi), 1⟩) ∧
    (x.isFin = true → ∃ q i, Rounds rm x.neg? x.mag 0 q i ∧
      let k : Int := if x.neg? then -(q : Int) else q
      r = ⟨code (max lo (min hi k)), (if i then 0b0010000 else 0) ||| (if k < lo ∨ hi < k then 1 else 0)⟩)) ∧
  (∀ (sl : Slot) (xs : List FVal), sl.elem.width * xs.length ≤ 32 → (∀ x ∈ xs, (sl.elem.conv sl.round sl.sat x).bits < 2 ^ sl.elem.width) →
    (∀ k x, xs[k]? = some x → (cvtFn sl xs).1.toNat / 2 ^ (sl.elem.width * k) % 2 ^ sl.elem.width = (sl.elem.conv sl.round sl.sat x).bits) ∧
    (∀ j, j < 7 → ((cvtFn sl xs).2.getLsbD j = true ↔ ∃ x ∈ xs, (sl.elem.conv sl.round sl.sat x).fl.getLsbD j = true)))

/-- R118, R152 to R159: every form of class 0x5 completes in every group that fires it, a group that is a whole warp; what lane i gets
is a function of what every executing lane reads; a NaN that a SCAN gives is the canonical one (R107). SHFL's A is that of the lane B names, whether that lane executes or not. -/
def Obligations.CrossLaneFormsComplete : Prop :=
  (∀ (h : Hdr) (d : Name) (a b : Src) (q : Pat) (u : Da) (p : Fin 8) (rm : RM) (ro : RedOp) (so : ScanOp) (excl live : Bool),
    let A (i : Instr) (env : Env) (l : Nat) : Option Word := (aWords env i l).map (·.headD 0)
    let bits (n : Nat) (f : Nat → Bool) : Word := BitVec.ofNat 32 (natOfBits ((List.range n).map f))
    Completes (.shfl h d a b q) h (.fixed 6) (fun _ _ _ vs => { out := [op vs 0] }) (rd := shflReads (.shfl h d a b q)) ∧
    (∀ cc : Fin 3, Completes (.vote h cc p a) h (.fixed 6) (fun env t _ _ =>
      let yes := ((List.range t.width).filter fun l => match A (.vote h cc p a) env l with | some x => x != 0 | none => false).length
      let n := env.exec.length
      { preds := [(p, [yes == n, yes != 0, yes == n || yes == 0].getD cc.val false)] }) (rd := warpReads (.vote h cc p a))) ∧
    Completes (.ballot h u) h (.fixed 6) (fun env t _ _ =>
      { out := [bits t.width fun l => match A (.ballot h u) env l with | some x => x != 0 | none => false] })
      (rd := warpReads (.ballot h u)) ∧
    Completes (.matchl h u) h (.fixed 6) (fun env t _ vs =>
      { out := [bits t.width fun l => match A (.matchl h u) env l with | some x => x == op vs 0 | none => false] })
      (rd := warpReads (.matchl h u)) ∧
    Completes (.redx h ro rm u) h (.fixed 12) (fun env t _ _ =>
      let xs := (List.range t.width).map fun l => (A (.redx h ro rm u) env l).getD (redRow ro rm).2
      fRes (bfly (redRow ro rm).1 xs)) (rd := warpReads (.redx h ro rm u)) ∧
    Completes (.redxc h u) h (.fixed 18) (fun env t _ _ =>
      let r := bfly redxcOp (pairsOr env (.redxc h u) t.width)
      { out := [r.1.1, r.1.2], fl := r.2 }) (rd := warpReads (.redxc h u)) ∧
    Completes (.scan h so excl rm u) h (.fixed 12) (fun env t _ _ =>
      let xs := (List.range t.width).map fun l => (A (.scan h so excl rm u) env l).getD (scanRow so rm).2
      let r := scanAll (scanRow so rm).1 xs
      { out := [scanNan so (if !excl then r.1.getD t.lane 0 else if t.lane = 0 then (scanRow so rm).2 else r.1.getD (t.lane - 1) 0)], fl := r.2 })
      (rd := warpReads (.scan h so excl rm u)) ∧
    (∀ x : Word, (so ∈ [ScanOp.addB32, .maxS32, .maxN32, .orB32] → scanNan so x = x) ∧
      (so = .addF32 ∨ so = .maxF32 → scanNan so x = if (f32v x).isNan then 0x7FC0_0000 else x) ∧
      (∀ f, (so, f) ∈ [(ScanOp.addF16x2, Fmt.f16), (.addBf16x2, .bf16)] → ∀ k, k < 2 →
        let e := x.toNat / 2 ^ (16 * k) % 2 ^ 16
        (scanNan so x).toNat / 2 ^ (16 * k) % 2 ^ 16 = if (f.val e).isNan then f.nan else e)) ∧
    Completes (.lmask h live d) h (.fixed 6) (fun env t _ _ =>
      { out := [bits t.width fun l => if live then (warpLive env.pre t).contains (t.mate l) else env.exec.any fun x => x.lane == l] })
      (rd := warpReads (.lmask h live d))) ∧
  (∀ (h : Hdr) (d : Name) (a b : Src) (q : Pat) (env : Env) (t : Tid) (th : Thread) (ra rb : OpRead),
    let i : Instr := .shfl h d a b q
    readOps env.pre t th i.srcs env.un = [ra, rb] →
    let j := (rb.words.headD 0).toNat % 32 % t.width
    let got := (shflReads i env t th).map (·.words)
    got[1]? = some rb.words ∧
    (env.pre.thread (t.mate j) = none → got[0]? = some [0]) ∧
    (∀ x, env.pre.thread (t.mate j) = some x →
      (x.status = .exited → got[0]? = some [0]) ∧
      (x.status ≠ .exited → ∀ k, x.pos a.name = some k → env.un = [] →
        got[0]? = some [if env.pre.rowBad (t.mate j) k then 0 else (env.pre.readPos (t.mate j) k).getD 0]))) ∧
  (∀ (o : RedOp) (rm : RM) (xs : List Word), (xs.length = 32 ∨ xs.length = 8 ∨ xs.length = 1) →
    (o = .addB32 → (bfly (redRow o rm).1 xs).1 = xs.foldl (· + ·) 0) ∧
    (o = .andB32 → (bfly (redRow o rm).1 xs).1 = xs.foldl (· &&& ·) 0xFFFF_FFFF) ∧
    (o = .orB32 → (bfly (redRow o rm).1 xs).1 = xs.foldl (· ||| ·) 0) ∧
    (o = .xorB32 → (bfly (redRow o rm).1 xs).1 = xs.foldl (· ^^^ ·) 0) ∧
    (o = .minN32 → (bfly (redRow o rm).1 xs).1.toNat = xs.foldl (fun m x => min m x.toNat) 0xFFFF_FFFF) ∧
    (o = .maxN32 → (bfly (redRow o rm).1 xs).1.toNat = xs.foldl (fun m x => max m x.toNat) 0) ∧
    ((o = .addB32 ∨ o = .andB32 ∨ o = .orB32 ∨ o = .xorB32 ∨ o = .minN32 ∨ o = .maxN32) → (bfly (redRow o rm).1 xs).2 = 0))

/-! ### Results, guards, faults -/

/-- R41, R45, R46, R59, R115, R151, R163, R378: an instruction that is outstanding completes in its cycle or, with variable latency, at
any cycle from its first one on, and not before; a special function completes in every lane of its issue together. In that step
its values become readable in every destination name that still waits for it, its predicates likewise, its FPST bits are ORed in,
its flag loses one count, and a fault found at its data waits for the lane's next slot; every other name stays as it was. R29: the
value of a name that has been spilled goes to its slot. R239, R425, R426: with an access still to perform, it performs that first,
and is no more complete than before; a plain load that has waited takes the bytes that stand there then, or 0 and 0x17 or 0x18; a
plain store writes its bytes then, or gives 0x15 where its home is lost. The model's choices: which accesses wait (log entry 72); that
a name or predicate that a later instruction will write stays as it was when this one completes first (log entry 68); that an
element which it has pushed without a value gets it now (log entry 26). -/
def Obligations.ResultsBecomeReadable : Prop :=
  ∀ (s : State) (t : Tid) (th : Thread) (seq : Nat) (o : Out), s.thread t = some th → th.outs.find? (·.seq == seq) = some o →
    o.held = false →
    let i : Instr := if o.fixed then .fixedLatencyComplete t seq else .variableLatencyComplete t seq
    let lanes := if o.fixed = false ∧ o.last.isSome = true then holders s seq else [t]
    (s.now < o.ready → exec i s = .next s) ∧
    (o.ready ≤ s.now → (o.fixed = true ∨ o.todo = none) → exec i s = .next (lanes.foldl (fun s u => complete s u seq) s)) ∧
    (o.ready ≤ s.now → o.fixed = false → o.todo.isSome = true → exec i s = .next (performOut s t seq)) ∧
    (∀ p va ty bp ro s1 v code, o.todo = some (.load p va ty bp ro) → loadAt s t th.ctx p ty.bytes bp ro .plain = (s1, v, code) →
      let ws := placeWords ty (if code = 0 then v else 0)
      performOut s t seq = s1.modThread t fun x => { x with outs := x.outs.map fun y => if y.seq == seq then
        { o with names := (o.names.map (·.1)).zip ws, value := ws.headD 0, todo := none,
                 late := if code = 0 then o.late else some (threadRec s1 t th code 0x80 o.pc va 0) } else y }) ∧
    (∀ p va n v bp, o.todo = some (.store p va n v bp) →
      let lost := fencedHome s p.pa
      performOut s t seq = (if lost then s else storeAt s t th.ctx p n v bp .plain).modThread t fun x => { x with
        outs := x.outs.map fun y => if y.seq == seq then
          { o with todo := none, late := if lost then o.late.orElse fun _ => some (threadRec s t th 0x15 0x80 o.pc va 0) else o.late } else y }) ∧
    ((o.names.map (·.1)).Nodup → (o.preds.map (·.1)).Nodup → (∀ e ∈ o.names, s.isSpilled t e.1 = false) →
      ∃ s' th', complete s t seq = s' ∧ s' = { s with cells := s'.cells, threads := s'.threads } ∧
      s'.thread t = some th' ∧ (∀ u, u ≠ t → s'.thread u = s.thread u) ∧
      th' = { th with preds := th'.preds, predPend := th'.predPend, fpst := th.fpst ||| o.fpst,
                      outs := th.outs.filter (·.seq != seq), fixedNames := th'.fixedNames, stores := th'.stores,
                      deferred := th.deferred.orElse fun _ => o.late } ∧
      (o.push = none → th'.stores = th.stores) ∧
      (∀ k w, o.push = some k → th.stores.get k.val = some w → th'.stores = th.stores.set k.val { w with
        pushed := w.pushed.map fun e => if e.2.2 = some seq then (e.1, o.value, none) else e }) ∧
      (∀ p v, (p, v) ∈ o.names → ∀ old, (s.laneCell t p).pend = some (seq, old) →
        s'.laneCell t p = { s.laneCell t p with val := v, pend := none }) ∧
      (∀ u p, (u = t → p ∉ o.names.map (·.1) ∨ ∀ old, (s.laneCell t p).pend ≠ some (seq, old)) → s'.readPos u p = s.readPos u p) ∧
      (∀ k b, (k, b) ∈ o.preds → th.predPend.get k = some seq → k ≠ 7 → getPred th'.preds k = b) ∧
      (∀ k, (k ∉ o.preds.map (·.1) ∨ th.predPend.get k ≠ some seq) → getPred th'.preds k = getPred th.preds k)) ∧
    (∀ p v old s1, o.names = [(p, v)] → (s.laneCell t p).pend = some (seq, old) → s.isSpilled t p = true →
      spillLane s t p v = (s1, none) → (complete s t seq).mem = s1.mem ∧ ((complete s t seq).laneCell t p).val = v)

/-- R24, R29, R50: where the guard is false in every thread of the group, an instruction only advances their PCs: no value, predicate,
flag or memory changes, and no fault comes. Its destination names take fresh cells all the same. -/
def Obligations.FalseGuardOnlyAdvances : Prop :=
  ∀ (i : Instr) (f : Form), f.i = i → (∀ s, exec i s = .next (issue f s)) → ∀ (s : State) (g : Group), Fires i s g → Free i f.h s g →
    (∀ t ∈ g.mem, f.denied t = false) → executing f.h s g = [] → f.crowd { s with issuing := none } [] = false →
    (∀ e x, e.exec = [] → f.after e x = x) →
    ∃ s', exec i s = .next s' ∧
      s' = { s with issuing := none, ctr := s.ctr + 1, threads := s'.threads, cells := s'.cells, cores := s'.cores,
                    pipes := (usePipe s i g).pipes, groups := s.groups ++ g.after ++ [goesOn g] } ∧
      (∀ c, s'.core c = { s.core c with stall := (s'.core c).stall, lastAlloc := (s'.core c).lastAlloc }) ∧
      (∀ t ∈ g.mem, ∀ th, s.thread t = some th → s'.thread t = some (passedThread i s t th)) ∧
      (∀ t, t ∉ g.mem → s'.thread t = s.thread t) ∧ (∀ t p, s'.readPos t p = s.readPos t p)

/-- R38: the slots of a packet follow each other, and slot 0 of the next packet follows slot 2. R32, R55: BRA's target is the slot
`off` slots on, three to a packet, and 0x06 when it is outside the canonical range. -/
def Obligations.SlotsAndBranchTargets : Prop :=
  (∀ base : DWord, base.toNat % 32 = 0 →
    nextSlot (base + 8) = base + 16 ∧ nextSlot (base + 16) = base + 24 ∧ nextSlot (base + 24) = base + 40 ∧
    slotOf (base + 8) = 0 ∧ slotOf (base + 16) = 1 ∧ slotOf (base + 24) = 2) ∧
  (∀ (pc : DWord) (off : BitVec 29), slotAddr pc = true →
    let slot : Int := (pc.toNat / 32 * 3 + pc.toNat % 32 / 8 : Nat) - 1
    let target : Int := 32 * ((slot + off.toInt) / 3) + 8 * ((slot + off.toInt) % 3) + 8
    match brTarget pc off with
    | .ok a => (a.toNat : Int) = target ∧ slotAddr a = true ∧ canonicalVa a.toNat = true
    | .error f => f.code = 0x06 ∧ ¬ (0 ≤ target ∧ target < 2 ^ 64 ∧ canonicalVa target.toNat = true))

/-- R60, R61, R75, R374, R379: a word that the agent's profile does not hold, one that needs an authority its thread has not, and a
misaligned pair or quadruple stop every thread of the group, whatever the guard. SREAD of a register from 0x40 on, and SWRITE of
one that its writer may not write, are such words. -/
def Obligations.WordFaultsStopTheGroup : Prop :=
  (∀ (i : Instr) (f : Form), f.i = i → (∀ s, exec i s = .next (issue f s)) → ∀ (s : State) (g : Group) (t : Tid) (ts : List Tid),
    s.issuing = some { grp := g } → g.mem = t :: ts →
    let s0 := { s with issuing := none, groups := s.groups ++ g.after }
    let graver := t.isGraver && badInGraver i
    let off := offProfile i t
    let privileged := (t.isCore && proofForm i) || f.denied t
    (graver = true → exec i s = .next (groupFault s0 g.mem 0x02)) ∧
    (graver = false → off = true → exec i s = .next (groupFault s0 g.mem 0x04)) ∧
    (graver = false → off = false → privileged = true → exec i s = .next (groupFault s0 g.mem 0x03)) ∧
    (graver = false → off = false → privileged = false → i.alignOk = false → exec i s = .next (groupFault s0 g.mem 0x0A))) ∧
  (∀ (h : Hdr) (d : Name) (a : Src) (k : BitVec 22) (t : Tid),
    (∃ f : Form, f.i = .sread h d (.imm k) ∧ (∀ s, exec (.sread h d (.imm k)) s = .next (issue f s)) ∧
      (f.denied t = true ↔ 0x40 ≤ k.toNat % 256)) ∧
    (∃ f : Form, f.i = .swrite h a (.imm k) ∧ (∀ s, exec (.swrite h a (.imm k)) s = .next (issue f s)) ∧
      (f.denied t = false ↔ k.toNat % 256 = 0x08 ∨ (t.isProof = true ∧ (k.toNat % 256 = 0x06 ∨ k.toNat % 256 = 0x07)))))

/-- R377, R380, R385, R386: a fault of a core thread whose context has a handler. The thread stops with its record, PC and the threads
that stopped with it; it leaves its group and joins its core's stop list, after those that stopped in earlier cycles and, of those
of this cycle, by ascending global thread number; every other thread stays as it was. R385, R336: with no handler it acts as EXIT, here
with another thread of its warp and team that runs on. R181, R183: a Burin's thread stops, its queued forms stand, and its context is
free once they are done, at once if there are none (that an arming MARM is none of them is the model's reading: log entry 70). R275: a
Graver context faults with the record's code, and no thread of it runs. Faults of these reach no stop list. -/
def Obligations.TakingAFault : Prop :=
  (∀ (s : State) (c sl l : Nat) (th : Thread) (x : Ctx) (r : FRec) (pc : DWord) (mates : Nat),
    s.thread (.core c sl l) = some th → s.ctx th.ctx = some x → x.handler ≠ 0 →
    ∃ s', takeFault s (.core c sl l) r pc mates = s' ∧
      s'.thread (.core c sl l) = some { th with status := .stopped, pc := pc, stop := some r, stopMates := mates, act := false,
                                                pcWritten := false, deferred := none, stoppedAt := s.now } ∧
      (∀ u, u ≠ .core c sl l → s'.thread u = s.thread u) ∧
      (∃ a b, (s.core c).stopList = a ++ b ∧ (s'.core c).stopList = a ++ .core c sl l :: b ∧
        let now (u : Tid) (v : Thread) : Prop := u ≠ .core c sl l ∧ s.thread u = some v ∧ v.stoppedAt = s.now
        (∀ u ∈ a, ∀ v, now u v → v.gtid ≤ th.gtid) ∧ (∀ u rest, b = u :: rest → ∃ v, now u v ∧ th.gtid < v.gtid)) ∧
      (∀ d, d ≠ c → (s'.core d).stopList = (s.core d).stopList) ∧
      (∀ g ∈ s'.groups, .core c sl l ∉ g.mem) ∧
      (∀ g ∈ s.groups, ∀ u ∈ g.mem, u ≠ .core c sl l → ∃ g' ∈ s'.groups, u ∈ g'.mem ∧ g'.quadrant = g.quadrant)) ∧
  (∀ (s : State) (c sl l m : Nat) (th mate : Thread) (r : FRec) (pc : DWord) (mates : Nat), let t : Tid := .core c sl l
    s.thread t = some th → (∀ x, s.ctx th.ctx = some x → x.handler = 0) → m ≠ l → m < 32 → s.thread (.core c sl m) = some mate →
    mate.status = .running → mate.ctx = th.ctx → mate.launch = th.launch → mate.team = th.team → (∀ o ∈ th.outs, o.late = none) →
    th.stores = [] →
    ∃ s', takeFault s t r pc mates = s' ∧
      s'.thread t = some { th with status := .exited, pc := pc, stop := none, stopMates := mates, act := false, pcWritten := false,
                                   deferred := none, stoppedAt := s.now, outs := [], loads := [], stores := [], arrivals := [],
                                   spillBad := none } ∧
      (∀ u, u ≠ t → s'.thread u = s.thread u) ∧ (∀ g ∈ s'.groups, t ∉ g.mem) ∧ t ∉ (s'.core c).stopList ∧
      (∀ p, s'.readPos t p = none) ∧ s'.teams = s.teams ∧
      s'.orphans = s.orphans ++ (th.outs.filter (·.todo.isSome)).map fun o =>
        (t, ({ th with pc := pc, stopMates := mates, act := false, pcWritten := false, stoppedAt := s.now } : Thread).exit t, o)) ∧
  (∀ (s : State) (c k : Nat) (th : Thread) (b : Burin) (r : FRec) (pc : DWord) (mates : Nat), let t : Tid := .burin c k
    s.thread t = some th → s.burin c k = some b →
    ∃ s', takeFault s t r pc mates = s' ∧ (∀ u, u ≠ t → s'.thread u = s.thread u) ∧ (∀ g ∈ s'.groups, t ∉ g.mem) ∧
      (∀ d, (s'.core d).stopList = (s.core d).stopList) ∧
      (b.queue ≠ [] →
        s'.thread t = some { th with status := .stopped, pc := pc, stop := some r, stopMates := mates, act := false, pcWritten := false,
                                     deferred := none, stoppedAt := s.now } ∧ s'.burin c k = some { b with header := none }) ∧
      (b.queue = [] → b.inbox = [] → sentFrom s b.id = false → s'.thread t = none ∧ s'.burin c k = none)) ∧
  (∀ (s : State) (g i : Nat) (th : Thread) (r : FRec) (pc : DWord) (mates : Nat), s.thread (.graver g i) = some th →
    ∃ s', takeFault s (.graver g i) r pc mates = s' ∧ (s'.graver g).state = 3 ∧ (s'.graver g).code = r.code ∧
      (∀ j uh, s.thread (.graver g j) = some uh → ∃ vh, s'.thread (.graver g j) = some vh ∧ vh.status = .exited ∧ vh.fixedNames = uh.fixedNames) ∧
      (∀ u, ofGraver g u = false → s'.thread u = s.thread u) ∧ (∀ h ∈ s'.groups, ∀ u ∈ h.mem, ofGraver g u = false) ∧
      (∀ d, (s'.core d).stopList = (s.core d).stopList))

/-- R27, R61, R117, R378: operand faults. An executing thread that reads a void name under VOIDTRAP stops with 0x09 at its slot, one with
an operand that faults stops with its first such fault, one whose result raises an FPST bit that its launch traps stops with 0x1F
and that bit set; its destination names keep their values. -/
def Obligations.OperandFaultsStopTheLane : Prop :=
  ∀ (i : Instr) (h : Hdr) (lat : Machine.Lat) (F : List (List Word) → Res), (∀ s, exec i s = .next (issue (alu i h lat F) s)) →
    ∀ (s : State) (g : Group) (t : Tid) (th : Thread), Solo i h s g t th →
    let rs := readOps s t th i.srcs
    let stops (s1 : State) (b : Flt) (y : Thread) : Prop := exec i s = .next (regroup (takeFaults [(t, b)] th.pc s.ctr
      ((placeCells (began i h s g) s1 i g []).setThread t (stoppedThread i s t y))) g)
    (rs.any (·.void) = true → s.voidTrap t th = true → stops (began i h s g) { code := 0x09 } th) ∧
    (∀ b, (rs.any (·.void) = true → s.voidTrap t th = false) → (rs.filterMap (·.bad)).head? = some b → stops (began i h s g) b th) ∧
    (rs.any (·.void) = false → (∀ o ∈ rs, o.bad = none) → (F (rs.map (·.words))).fault = none →
      fpTraps (s.enables t th) (F (rs.map (·.words))).fl = true →
      let fl := (F (rs.map (·.words))).fl
      let y := { th with fpst := th.fpst ||| fl }
      stops ((began i h s g).setThread t y) { code := 0x1F, flags := fl.toNat } y)

/-- R18, R269, R270, R334: a register-only form whose destination is a store stream pushes its result as the walker's next element, once
the element's address passes its checks; a value that comes later leaves its place. No name changes and nothing is stored yet. An
element whose address fails stops the lane with that fault, at its element; with no walker bound, or none of its elements left,
the lane stops with 0x0F. -/
def Obligations.StreamDestinationsPush : Prop :=
  ∀ (i : Instr) (h : Hdr) (lat : Machine.Lat) (F : List (List Word) → Res), (∀ s, exec i s = .next (issue (alu i h lat F) s)) →
    ∀ (s : State) (g : Group) (t : Tid) (th : Thread) (k : Fin 4) (n : Nat), Fires i s g → Free i h s g → g.mem = [t] →
    s.thread t = some th → guardOn h th = true → i.dst = some (.s k, n) →
    let rs := readOps s t th i.srcs
    let r := F (rs.map (·.words))
    let stops (s1 : State) (b : Flt) : Prop :=
      exec i s = .next (regroup (takeFaults [(t, b)] th.pc s.ctr (s1.setThread t (stoppedThread i s t th))) g)
    (∀ o ∈ rs, o.bad = none) → rs.any (·.void) = false → r.fault = none → fpTraps (s.enables t th) r.fl = false →
    (∀ w, th.stores.get k.val = some w → w.next < w.total →
      (∀ s1 p, checkAccess (began i h s g) t th.ctx (w.addr w.next).toNat w.ty.bytes .write false = (s1, .ok p) →
        (p.kind = .device → w.ty.bytes = 4) →
        ∃ s' x, exec i s = .next s' ∧ s'.thread t = some x ∧ x.pc = r.next.getD (nextSlot th.pc) ∧
          x.stores.get k.val = some { w with
            pushed := w.pushed ++ [(w.addr w.next, r.out.headD 0, if r.held || r.later || r.todo.isSome || !r.awaits.isEmpty then some s.ctr else none)],
            next := w.next + 1, eod := w.eod ||| w.ends w.next } ∧
          (∀ j, j ≠ k.val → x.stores.get j = th.stores.get j) ∧ x.loads = popLoads th.loads i.srcs ∧
          (∀ u, u ≠ t → s'.thread u = s.thread u) ∧ (∀ u q, (u = t → q ∉ lastPos i t th) → s'.readPos u q = s.readPos u q) ∧
          s'.mem = s.mem) ∧
      (∀ s1 e, checkAccess (began i h s g) t th.ctx (w.addr w.next).toNat w.ty.bytes .write false = (s1, .error e) →
        stops s1 { code := e, addr := w.addr w.next, progress := w.next, engine := 3 })) ∧
    ((∀ w, th.stores.get k.val = some w → w.total ≤ w.next) → stops (began i h s g) { code := 0x0F })

/-! ### Memory -/

/-- R242, R246, R247, R402 in scratch and in the tile role: a load whose address is in bounds, on rows without an uncorrectable error,
completes with the bytes there and changes none; a store changes exactly its own bytes, in that scratch or that tile role alone.
R242, R249, R250: ATOMS and CASS complete where their scratch address is so: D gets the old bytes, and the new ones are stored
(R249) or the swap is made (R250). A release comes before the access, an acquire after. R242, R308: none of them issues while the
set of its address moves. -/
def Obligations.ScratchFormsComplete : Prop :=
  (∀ (h : Hdr) (m : MMod) (d : Name) (a : Addr),
    let n := m.ty.bytes
    let still : State → Tid → Thread → List (List Word) → Prop := fun s t th vs => scratchHolds s t th (localAddr a.off vs) n = false
    Lands (.lds h m d a) h latMem (fun _ s t th vs s1 r => ∃ x, scratchRead s t th (localAddr a.off vs) n = .ok x ∧
      s1 = afterAccess s t m.ord m.scope 0 ∧ r = { out := placeWords m.ty (spotLoad s x n) }) (free := still) ∧
    Lands (.ldt h m d a) h latMem (fun _ s t _ vs s1 r => ∃ x, tileRead s t (localAddr a.off vs) n = .ok x ∧
      s1 = s ∧ r = { out := placeWords m.ty ((s.core (coreNum t)).tile.load x n) }) ∧
    Lands (.sts h m d a) h latMem (fun _ s t th vs s1 r => ∃ x, scratchAt s t th (localAddr a.off vs) n = .ok x ∧
      ∃ s2 e, (if ordRel m.ord then release s t m.scope 0 else (s, 0)) = (s2, e) ∧
        s1 = spotStore s2 x n (storeVal m.ty (vs.getD 1 [])) ∧ r = { late := lateOf e 0 }) (free := still) ∧
    Lands (.stt h m d a) h latMem (fun _ s t _ vs s1 r => ∃ x, tileAt s t (localAddr a.off vs) n = .ok x ∧
      s1 = tileStore s (coreNum t) x n (storeVal m.ty (vs.getD 1 [])) ∧ r = {})) ∧
  (∀ (h : Hdr) (m : AMod) (op : AtomOp) (d : Name) (x y : Src) (q : Pat) (o : Dabc),
    let w := atomBytes m.wide
    let still : State → Tid → Thread → List (List Word) → Prop := fun s t th vs => scratchHolds s t th ((vs.getD 0 []).headD 0) w = false
    let eff (f : List (List Word) → Nat → Option Nat) : Effect := fun _ s t th vs s1 r =>
      ∃ sp, scratchRead s t th ((vs.getD 0 []).headD 0) w = .ok sp ∧
      ∃ s2 e, (if ordRel m.ord then release s t m.scope 0 else (s, 0)) = (s2, e) ∧
        s1 = afterAccess ((f vs (spotLoad s2 sp w)).elim s2 fun v => spotStore s2 sp w v) t m.ord m.scope 0 ∧
        r = { out := oldWords m.wide (spotLoad s2 sp w), late := lateOf e 0 }
    Lands (.atoms h op m d x y q) h latMem (eff fun vs old => some (atomNew op (8 * w) old (dataVal (vs.getD 1 [])))) (free := still) ∧
    Lands (.cass h m o) h latMem (eff fun vs old => if old = dataVal (vs.getD 1 []) then some (dataVal (vs.getD 2 [])) else none)
      (free := still))

/-- R242, R247: the bytes that a store to scratch, where no armed barrier object lies under it, or to the tile role changes, and that
nothing else changes. R246, R247: the names that the bytes of a load fill for each type, and the bytes that a store takes from its
names. -/
def Obligations.LocalStoresAndTypes : Prop :=
  (∀ (s : State) (key : Nat × Nat) (off n v : Nat) (wide : Bool) (tm : Team), s.teams.get key = some tm → tm.scratch.wf = true →
    Unarmed s (.team key off wide) n →
    ∃ tm', spotStore s (.team key off wide) n v = { s with teams := s.teams.set key tm' } ∧
      tm' = { tm with scratch := tm'.scratch } ∧ tm'.scratch.wf = true ∧
      ∀ q, tm'.scratch.get q = if off ≤ q ∧ q < off + n then byteOf v (q - off) else tm.scratch.get q) ∧
  (∀ (s : State) (g off n v : Nat), (s.graver g).local_.wf = true →
    ∃ x, spotStore s (.graver g off) n v = s.setGraver g x ∧ x = { s.graver g with local_ := x.local_ } ∧ x.local_.wf = true ∧
      ∀ q, x.local_.get q = if off ≤ q ∧ q < off + n then byteOf v (q - off) else (s.graver g).local_.get q) ∧
  (∀ (s : State) (c a n v : Nat), (s.core c).tile.wf = true →
    ∃ x, tileStore s c a n v = s.setCore c x ∧ x = { s.core c with tile := x.tile } ∧ x.tile.wf = true ∧
      ∀ q, x.tile.get q = if a ≤ q ∧ q < a + n then byteOf v (q - a) else (s.core c).tile.get q) ∧
  (∀ (v : Nat) (a b c d : Word),
    placeWords .n8 v = [BitVec.ofNat 32 (v % 256)] ∧
    placeWords .s8 v = [if v / 2 ^ 7 % 2 = 1 then BitVec.ofNat 32 (v % 256) ||| 0xFFFF_FF00 else BitVec.ofNat 32 (v % 256)] ∧
    placeWords .n16 v = [BitVec.ofNat 32 (v % 65536)] ∧
    placeWords .s16 v = [if v / 2 ^ 15 % 2 = 1 then BitVec.ofNat 32 (v % 65536) ||| 0xFFFF_0000 else BitVec.ofNat 32 (v % 65536)] ∧
    (∀ k w, (placeWords .b32 v)[k]? = some w → w = BitVec.ofNat 32 (v / 2 ^ (32 * k))) ∧ (placeWords .b32 v).length = 1 ∧
    (∀ k w, (placeWords .b64 v)[k]? = some w → w = BitVec.ofNat 32 (v / 2 ^ (32 * k))) ∧ (placeWords .b64 v).length = 2 ∧
    (∀ k w, (placeWords .b128 v)[k]? = some w → w = BitVec.ofNat 32 (v / 2 ^ (32 * k))) ∧ (placeWords .b128 v).length = 4 ∧
    storeVal .n8 [a] = a.toNat % 256 ∧ storeVal .n16 [a] = a.toNat % 65536 ∧ storeVal .b32 [a] = a.toNat ∧
    storeVal .b64 [a, b] = (b ++ a : BitVec 64).toNat ∧ storeVal .b128 [a, b, c, d] = (d ++ c ++ b ++ a : BitVec 128).toNat)

/-- R208, R210, R212: a masked write at a home changes the bytes of its mask there, and, where its L2 has a place for the line, no other
byte of any sector whose memory is apart; the memory keeps its form. A line that leaves a full L2 writes its dirty sectors back:
every byte reads at its home as before. -/
def Obligations.HomeWritesChangeTheirBytes : Prop :=
  (∀ (s : State) (sec : Nat) (kd : Kind) (k : KeyRef) (m : BitVec 64) (v : BitVec 512), s.mem.wf = true →
    let s' := homeWrite s sec kd k m v
    s'.mem.wf = true ∧
    (∀ i, i < 64 → homeByte s' (64 * sec + i) = if m.getLsbD i then secByte v i else homeByte s (64 * sec + i)) ∧
    (l2Full s (homeOf (sec * 64)) sec = false → ∀ q, canonSec (q / 64) ≠ canonSec sec → homeByte s' q = homeByte s q) ∧
    (∀ t, s'.thread t = s.thread t) ∧ (∀ t p, s'.readPos t p = s.readPos t p) ∧ (∀ c, s'.core c = s.core c) ∧
    s'.teams = s.teams ∧ s'.gravers = s.gravers) ∧
  (∀ (s : State) (d line : Nat), s.mem.wf = true → ((s.die d).l2.map (·.sec)).Nodup →
    (∀ e ∈ (s.die d).l2, canonSec e.sec = e.sec ∧ homeOf (e.sec * 64) = d) →
    let s' := l2Evict s d line
    (∀ q, canonSec (q / 64) = q / 64 → homeByte s' q = homeByte s q) ∧
    (s'.die d).l2 = (s.die d).l2.filter fun e => e.sec / 8 != line)

/-- R209, R210, R308: a store of a core's thread. In the cache role with the line present or a place free, the core reads the stored
bytes and every other byte as before, and no home changes. On a PW page, with BP, with no cache sets, or on a line whose set is
in its handshake, it reaches the home, and the core reads those bytes too. -/
def Obligations.StoresChangeTheirBytes : Prop :=
  ∀ (s : State) (c ctx : Nat) (p : Phys) (n v : Nat), p.pa % 64 + n ≤ 64 →
    (∀ l, lineOf (s.core c) (p.pa / 512) = some l → l.secs.length = 8) →
    let stored (q : Nat) : Prop := p.pa ≤ q ∧ q < p.pa + n
    let leaves := (s.core c).bpLine (p.pa / 512)
    (cacheSets (s.core c) ≠ 0 → p.kind ≠ .pw → leaves = false →
      ((lineOf (s.core c) (p.pa / 512)).isSome = true ∨ (freePlace (s.core c)).isSome = true) →
      let s' := plateStore s c ctx p n v
      (∀ q, stored q → coreByte s' c q = byteOf v (q - p.pa)) ∧ (∀ q, ¬ stored q → coreByte s' c q = coreByte s c q) ∧
      (∀ q, homeByte s' q = homeByte s q) ∧ s' = s.setCore c { s.core c with lines := (s'.core c).lines }) ∧
    (s.mem.wf = true →
      let s' := bpStore s c p n v
      (∀ q, stored q → coreByte s' c q = byteOf v (q - p.pa) ∧ homeByte s' q = byteOf v (q - p.pa)) ∧
      (l2Full s (homeOf (p.pa / 64 * 64)) (p.pa / 64) = false →
        ∀ q, ¬ stored q → q / 64 = p.pa / 64 ∨ canonSec (q / 64) ≠ canonSec (p.pa / 64) → coreByte s' c q = coreByte s c q ∧
          homeByte s' q = homeByte s q) ∧
      ((cacheSets (s.core c) = 0 ∨ p.kind = .pw ∨ leaves = true) → plateStore s c ctx p n v = s'))

/-- R209, R210, R308: a load of a core's thread whose data is good reads the core's own bytes, or, with BP or on a line whose set is in
its handshake, its dirty ones and the home's; filling a sector changes no byte that the core reads where no line leaves. R402: on a
row of the Plate with an uncorrectable error a load gives 0x18, a BP load where it takes dirty bytes from it. -/
def Obligations.LoadsReadTheirBytes : Prop :=
  ∀ (s : State) (c ctx : Nat) (p : Phys) (n : Nat) (ro : Bool), p.pa % 64 + n ≤ 64 → 0 < n →
    (∀ l, lineOf (s.core c) (p.pa / 512) = some l → l.secs.length = 8) →
    let bad (l : Line) : Bool := (lineSec l (p.pa / 64 % 8)).bad
    (∀ l, lineOf (s.core c) (p.pa / 512) = some l → bad l = true →
      ((∃ i, i < n ∧ (lineSec l (p.pa / 64 % 8)).dirty.getLsbD (p.pa % 64 + i) = true) → (bpLoad s c p n).2.2 = 0x18) ∧
      (cacheSets (s.core c) ≠ 0 → (s.core c).bpLine (p.pa / 512) = false → (lineSec l (p.pa / 64 % 8)).present (p.pa % 64) n = true →
        (plateLoad s c ctx p n ro).2.2 = 0x18)) ∧
    ((∀ l, lineOf (s.core c) (p.pa / 512) = some l → bad l = false) → s.poison.contains (canonSec (p.pa / 64)) = false →
    ((l2Find s (homeOf (p.pa / 64 * 64)) (p.pa / 64)).isSome = true ∨ crcBad s (canonSec (p.pa / 64)) p.key = false) →
    let stays (s' : State) : Prop := l2Full s (homeOf (p.pa / 64 * 64)) (p.pa / 64) = false →
      (∀ q, homeByte s' q = homeByte s q) ∧ (∀ q, coreByte s' c q = coreByte s c q)
    let leaves := (s.core c).bpLine (p.pa / 512)
    (∃ s' v, bpLoad s c p n = (s', v, 0) ∧ stays s' ∧
      (∀ i, i < n → byteOf v i = match lineOf (s.core c) (p.pa / 512) with
        | some l => if (lineSec l (p.pa / 64 % 8)).dirty.getLsbD (p.pa % 64 + i) then
            secByte (lineSec l (p.pa / 64 % 8)).data (p.pa % 64 + i) else homeByte s (p.pa + i)
        | none => homeByte s (p.pa + i)) ∧
      ((cacheSets (s.core c) = 0 ∨ leaves = true) → plateLoad s c ctx p n ro = (s', v, 0))) ∧
    (cacheSets (s.core c) ≠ 0 → leaves = false →
      ((lineOf (s.core c) (p.pa / 512)).isSome = true ∨ (freePlace (s.core c)).isSome = true) →
      ∃ s' v, plateLoad s c ctx p n ro = (s', v, 0) ∧ stays s' ∧ ∀ i, i < n → byteOf v i = coreByte s c (p.pa + i)))

/-- R240 to R252: every form of the global space completes in a group of one thread when its address passes the checks of R243; its
release comes before the access, its acquire after. The store's bytes and the atomic's go to the address its operands give. R351:
it does not issue while its die's miss table has no room for its page. R378, R399: a load and an atomic then wait for their
home's reply. R239: a plain load or store may be performed later, when the instruction's step comes (which do is the model's choice, log
entry 72), not one at a device page (R208); a store to bytes that such an access of its thread covers waits. -/
def Obligations.GlobalFormsComplete : Prop :=
  ∀ (h : Hdr) (m : MMod) (am : AMod) (op : AtomOp) (d : Name) (a : Addr) (x y : Src) (q : Pat) (o : Dabc),
    let n := m.ty.bytes
    let w := atomBytes am.wide
    let room (w : Nat) (at_ : List (List Word) → DWord) : State → Tid → Thread → List (List Word) → Prop := fun s t th vs =>
      globalHolds s t th (at_ vs) w = false
    let atomic (f : List (List Word) → Nat → Option Nat) (keep : Bool) : Effect := fun _ s t th vs s1 r =>
      ∃ s2 p, globalCheck s t th.ctx (opPair vs 0).toNat w .both true am.ord am.scope = (s2, .ok p) ∧
      ∃ s3 e s4 v code, beforeAccess s2 t am.ord am.scope p = (s3, e) ∧ atomicAt s3 t p w (f vs) = (s4, v, code) ∧
        s1 = afterAccess s4 t am.ord am.scope p.pa ∧
        r = { out := if keep then oldWords am.wide v else [], late := lateOf (if code == 0 then e else code) (opPair vs 0),
              awaits := replyOf s t th (opPair vs 0) }
    Lands (.ld h m d a) h latMem (fun _ s t th vs s1 r =>
      let s0 := if m.ord = .plain then { s with delays := s.delays.tail } else s
      ∃ s2 p, globalCheck s0 t th.ctx (globalAddr a.off vs).toNat n .read false m.ord m.scope = (s2, .ok p) ∧
      if m.ord = .plain ∧ s.delays.headD false = true ∧ p.kind ≠ .device then
        s1 = s2 ∧ r = { out := placeWords m.ty 0, todo := some (.load p (globalAddr a.off vs) m.ty m.bp m.ro),
                        awaits := replyOf s t th (globalAddr a.off vs) }
      else ∃ s3 e s4 v code, beforeAccess s2 t m.ord m.scope p = (s3, e) ∧ loadAt s3 t th.ctx p n m.bp m.ro m.ord = (s4, v, code) ∧
        s1 = afterAccess s4 t m.ord m.scope p.pa ∧
        r = { out := placeWords m.ty (if code == 0 then v else 0), late := lateOf (if code == 0 then e else code) (globalAddr a.off vs),
              awaits := replyOf s t th (globalAddr a.off vs) }) (free := room n (globalAddr a.off)) ∧
    Lands (.st h m d a) h latMem (fun _ s t th vs s1 r =>
      let s0 := if m.ord = .plain then { s with delays := s.delays.tail } else s
      let v := storeVal m.ty (vs.getD 1 [])
      ∃ s2 p, globalCheck s0 t th.ctx (globalAddr a.off vs).toNat n .write false m.ord m.scope = (s2, .ok p) ∧
      if m.ord = .plain ∧ s.delays.headD false = true ∧ p.kind ≠ .device then
        s1 = s2 ∧ r = { todo := some (.store p (globalAddr a.off vs) n v m.bp) }
      else ∃ s3 e, beforeAccess s2 t m.ord m.scope p = (s3, e) ∧
        s1 = afterAccess (storeAt s3 t th.ctx p n v m.bp m.ord) t m.ord m.scope p.pa ∧
        r = { late := lateOf e (globalAddr a.off vs) })
      (free := fun s t th vs => room n (globalAddr a.off) s t th vs ∧ lateMeets s t th (globalAddr a.off vs) n = false) ∧
    Lands (.atom h op am d x y q) h latMem (atomic (fun vs => modify op am.wide (vs.getD 1 [])) true) (free := room w (opPair · 0)) ∧
    Lands (.red h op am x y q) h latMem (atomic (fun vs => modify op am.wide (vs.getD 1 [])) false) (free := room w (opPair · 0)) ∧
    Lands (.cas h am o) h latMem (atomic (fun vs => swapIf (vs.getD 1 []) (vs.getD 2 [])) true) (free := room w (opPair · 0)) ∧
    (∀ (ord : Ord) (sc : Scope) (st : Bool), Lands (.fence h ord sc st a) h latMem (fun _ s t th vs s1 r =>
      ∃ s2 pa, fenceCheck s t th sc (globalAddr a.off vs) = (s2, .ok pa) ∧
      ∃ s3 e, (if ordRel ord then release s2 t sc pa else (s2, 0)) = (s3, e) ∧ s1 = afterAccess s3 t ord sc pa ∧
        r = { late := lateOf e (globalAddr a.off vs) })
      (free := fun s t th vs => (sc.memorySide && missStall s t th.ctx (globalAddr a.off vs).toNat) = false))

/-- R248: PREF never faults, CWB and CINV act on the line of their address alone, and on nothing where the core does not hold it;
CINV leaves the core without the line; the two stop where another check of their address fails. The model's choices: the check is one byte's, so that 0x05 can only be CWB's and CINV's and
comes of no alignment (log entry 37), and on a device page CWB and CINV complete without effect (log entry 90). -/
def Obligations.CacheForms : Prop :=
  ∀ (h : Hdr) (bp ro st : Bool) (a : Addr),
    let room : State → Tid → Thread → List (List Word) → Prop := fun s t th vs => globalHolds s t th (globalAddr a.off vs) 1 = false
    Lands (.pref h bp ro st a) h latMem (fun _ s t th vs s1 r => r = {} ∧
      ((∃ s2 f, globalCheck s t th.ctx (globalAddr a.off vs).toNat 1 .read false .plain .core = (s2, .error f) ∧ s1 = s2) ∨
       (∃ s2 p, globalCheck s t th.ctx (globalAddr a.off vs).toNat 1 .read false .plain .core = (s2, .ok p) ∧
          s1 = if p.kind = .device then s2 else prefetch s2 (coreNum t) th.ctx p bp ro))) (free := room) ∧
    (∀ inv : Bool, Lands (if inv then .cinv h st a else .cwb h st a) h latMem (fun _ s t th vs s1 r =>
      (∃ s2 f, globalCheck s t th.ctx (globalAddr a.off vs).toNat 1 .read false .plain .core = (s2, .error f) ∧ f.code = 0x05 ∧
        s1 = s2 ∧ r = {}) ∨
      (∃ s2 p, globalCheck s t th.ctx (globalAddr a.off vs).toNat 1 .read false .plain .core = (s2, .ok p) ∧
        ∃ e, cleanLine s2 (coreNum t) (p.pa / 512) inv = (s1, e) ∧ r = { late := lateOf e (globalAddr a.off vs) })) (free := room) ∧
      Stops (if inv then .cinv h st a else .cwb h st a) h (fun s t th vs s1 f =>
        globalCheck s t th.ctx (globalAddr a.off vs).toNat 1 .read false .plain .core = (s1, .error f) ∧ f.code ≠ 0x05) (free := room)) ∧
    (∀ (s : State) (c num : Nat) (inv : Bool),
      (inv = true → lineOf ((cleanLine s c num true).1.core c) num = none) ∧
      (∀ c' k, c' ≠ c ∨ k ≠ num → lineOf ((cleanLine s c num inv).1.core c') k = lineOf (s.core c') k) ∧
      (lineOf (s.core c) num = none → cleanLine s c num inv = (s, 0)))

/-- R231, R249 to R251: an atomic of a core's thread on a location whose data is good and of which its Plate holds nothing returns the
home's bytes and leaves the new ones there, no other byte changed; the operations on words. -/
def Obligations.AtomicsUpdateTheirLocation : Prop :=
  (∀ (s : State) (c sl l : Nat) (p : Phys) (n : Nat) (f : Nat → Option Nat), p.pa % 64 + n ≤ 64 → p.kind = .normal → s.mem.wf = true →
    lineOf (s.core c) (p.pa / 512) = none → s.poison.contains (canonSec (p.pa / 64)) = false →
    ((l2Find s (homeOf (p.pa / 64 * 64)) (p.pa / 64)).isSome = true ∨ crcBad s (canonSec (p.pa / 64)) p.key = false) →
    ∃ s' v, atomicAt s (.core c sl l) p n f = (s', v, 0) ∧ (∀ i, i < n → byteOf v i = homeByte s (p.pa + i)) ∧ v < 256 ^ n ∧
      (∀ x, f v = some x → ∀ i, i < n → homeByte s' (p.pa + i) = byteOf x i) ∧
      (l2Full s (homeOf (p.pa / 64 * 64)) (p.pa / 64) = false → (f v = none → ∀ q, homeByte s' q = homeByte s q) ∧
        ∀ q, ¬ (p.pa ≤ q ∧ q < p.pa + n) → q / 64 = p.pa / 64 ∨ canonSec (q / 64) ≠ canonSec (p.pa / 64) → homeByte s' q = homeByte s q) ∧
      ∀ k, s'.core k = s.core k) ∧
  (∀ a b : Word, let nw (op : AtomOp) : Nat := atomNew op 32 a.toNat b.toNat
    nw .add = (a + b).toNat ∧ nw .minS = (if b.slt a then b else a).toNat ∧ nw .maxS = (if a.slt b then b else a).toNat ∧
    nw .minN = (if b.ult a then b else a).toNat ∧ nw .maxN = (if a.ult b then b else a).toNat ∧ nw .and = (a &&& b).toNat ∧
    nw .or = (a ||| b).toNat ∧ nw .xor = (a ^^^ b).toNat ∧ nw .exch = b.toNat) ∧
  (∀ a b : DWord, let nw (op : AtomOp) : Nat := atomNew op 64 a.toNat b.toNat
    nw .add = (a + b).toNat ∧ nw .minS = (if b.slt a then b else a).toNat ∧ nw .maxS = (if a.slt b then b else a).toNat ∧
    nw .minN = (if b.ult a then b else a).toNat ∧ nw .maxN = (if a.ult b then b else a).toNat ∧ nw .and = (a &&& b).toNat ∧
    nw .or = (a ||| b).toNat ∧ nw .xor = (a ^^^ b).toNat ∧ nw .exch = b.toNat)

/-- R242, R243, R252, R255, R402: an address that fails a check stops its lane at its slot with the check's code and address, in every
form of classes 0x7 and 0x8, in WAITA and in the forms that name a barrier object; which code a misaligned address, one past the
tile role, and a row with an uncorrectable error give. PREF, CWB and CINV are CacheForms'. -/
def Obligations.AddressFaultsStopTheLane : Prop :=
  ∀ (h : Hdr) (m : MMod) (am : AMod) (op : AtomOp) (d : Name) (a : Addr) (x y : Src) (q : Pat) (o : Dabc) (p : Fin 8) (lim : Lim)
    (cc : Fin 8) (wide : Bool),
    let n := m.ty.bytes
    let w := atomBytes am.wide
    -- an atomic's address in global memory and in scratch, and a barrier object's
    let atomic (i : Instr) : Prop := Stops i h (fun s t th vs s1 f => globalCheck s t th.ctx (opPair vs 0).toNat w .both true am.ord am.scope = (s1, .error f))
      (free := fun s t th vs => globalHolds s t th (opPair vs 0) w = false)
    let local_ (i : Instr) : Prop := Stops i h (fun s t th vs s1 f => scratchRead s t th (Machine.op vs 0) w = .error f ∧ s1 = s)
      (free := fun s t th vs => scratchHolds s t th (Machine.op vs 0) w = false)
    let object (i : Instr) : Prop := Stops i h (fun s t th vs s1 f => objOf s t th (Machine.op vs 0) = .error f ∧ s1 = s)
      (free := fun s t th vs => scratchHolds s t th (Machine.op vs 0) 16 = false)
    let still : State → Tid → Thread → List (List Word) → Prop := fun s t th vs => scratchHolds s t th (localAddr a.off vs) n = false
    let room : State → Tid → Thread → List (List Word) → Prop := fun s t th vs => globalHolds s t th (globalAddr a.off vs) n = false
    Stops (.lds h m d a) h (fun s t th vs s1 f => scratchRead s t th (localAddr a.off vs) n = .error f ∧ s1 = s) (free := still) ∧
    Stops (.sts h m d a) h (fun s t th vs s1 f => scratchAt s t th (localAddr a.off vs) n = .error f ∧ s1 = s) (free := still) ∧
    Stops (.ldt h m d a) h (fun s t _ vs s1 f => tileRead s t (localAddr a.off vs) n = .error f ∧ s1 = s) ∧
    Stops (.stt h m d a) h (fun s t _ vs s1 f => tileAt s t (localAddr a.off vs) n = .error f ∧ s1 = s) ∧
    Stops (.ld h m d a) h (fun s t th vs s1 f =>
      globalCheck (if m.ord = .plain then { s with delays := s.delays.tail } else s) t th.ctx (globalAddr a.off vs).toNat n .read false m.ord m.scope = (s1, .error f)) (free := room) ∧
    Stops (.st h m d a) h (fun s t th vs s1 f =>
      globalCheck (if m.ord = .plain then { s with delays := s.delays.tail } else s) t th.ctx (globalAddr a.off vs).toNat n .write false m.ord m.scope = (s1, .error f))
      (free := fun s t th vs => room s t th vs ∧ lateMeets s t th (globalAddr a.off vs) n = false) ∧
    atomic (.atom h op am d x y q) ∧ atomic (.red h op am x y q) ∧ atomic (.cas h am o) ∧
    local_ (.atoms h op am d x y q) ∧ local_ (.cass h am o) ∧
    (∀ (ord : Ord) (sc : Scope) (st : Bool), Stops (.fence h ord sc st a) h
      (fun s t th vs s1 f => fenceCheck s t th sc (globalAddr a.off vs) = (s1, .error f))
      (free := fun s t th vs => (sc.memorySide && missStall s t th.ctx (globalAddr a.off vs).toNat) = false)) ∧
    Stops (.waita h cc wide o) h (fun s t th vs s1 f =>
      globalCheck s t th.ctx (opPair vs 0).toNat (if wide then 8 else 4) .read false .plain .core = (s1, .error f))
      (free := fun s t th vs => globalHolds s t th (opPair vs 0) (if wide then 8 else 4) = false) ∧
    object (.bari h x lim) ∧ object (.bara h x) ∧ object (.barw h p x lim) ∧ object (.baraw h p x lim) ∧
    (∀ (s : State) (t : Tid) (th : Thread) (v : Word) (w : Nat), v.toNat % w ≠ 0 →
      (∃ f, scratchAt s t th v w = .error f ∧ f.code = 0x05 ∧ f.addr.toNat = v.toNat) ∧
      (∃ f, tileAt s t v w = .error f ∧ f.code = 0x05 ∧ f.addr.toNat = v.toNat)) ∧
    (∀ (s : State) (t : Tid) (v : Word) (w : Nat), v.toNat % w = 0 → t.isProof = false →
      ((∃ f, tileAt s t v w = .error f ∧ f.code = 0x0C) ↔ 32768 * s.roleSets (coreNum t) .tile ≤ v.toNat)) ∧
    (∀ (s : State) (t : Tid) (th : Thread) (v : Word) (w : Nat),
      (∀ p, scratchAt s t th v w = .ok p → spotBad s p = true → ∃ f, scratchRead s t th v w = .error f ∧ f.code = 0x18) ∧
      (∀ p, tileAt s t v w = .ok p → tileBad s (coreNum t) p w = true → ∃ f, tileRead s t v w = .error f ∧ f.code = 0x18)) ∧
    (∀ (s : State) (t : Tid) (ctx va w : Nat) (need : Need) (at_ : Bool), va % w ≠ 0 →
      checkAccess s t ctx va w need at_ = (s, .error 0x05))

/-! ### Control -/

/-- R55, R324, R332, R334, R337, R338: branches go where R55 or the A pair says, LOOP.set and LOOP count, BEOD tests and clears its
bit, YIELD stops the thread when a save is asked of it, NOP only advances. R327, R328, R331, R335, R336: calls complete with the
call state they give, a return that has a link goes back, CALLI and REFORM file their threads, EXIT and a return without a link
end the thread. R344: TRAP stops its lane past the instruction with fault 0x19 and its number, BPT at itself with 0x1A. -/
def Obligations.ControlFormsComplete : Prop :=
  (∀ (h : Hdr) (off : BitVec 29) (a : Src) (lc : Fin 3) (n : BitVec 29) (out : Bool) (k : Fin 3) (sn : Fin 4),
    Lands (.bra h off) h latCtl (fun _ s _ th _ s1 r => ∃ pc, brTarget th.pc off = .ok pc ∧ s1 = s ∧ r = { next := some pc }) ∧
    Lands (.brx h a) h latCtl (fun _ s _ _ vs s1 r => targetFault (opPair vs 0) = none ∧ s1 = s ∧ r = { next := some (opPair vs 0) }) ∧
    Lands (.loopSet h lc n) h latCtl (fun _ s t _ _ s1 r =>
      s1 = s.modThread t (fun th => { th with lcs := setLc th.lcs lc (n.setWidth 32) }) ∧ r = {}) ∧
    Lands (.loop h lc off) h latCtl (fun _ s t th _ s1 r =>
      let m := if getLc th.lcs lc = 0 then 0 else getLc th.lcs lc - 1
      s1 = s.modThread t (fun th => { th with lcs := setLc th.lcs lc m }) ∧
      if m = 0 then r = {} else ∃ pc, brTarget th.pc off = .ok pc ∧ r = { next := some pc }) ∧
    Lands (.beod h out k sn off) h latCtl (fun _ s t th _ s1 r => ∃ w, (if out then th.stores else th.loads).get sn.val = some w ∧
      if w.eod.getLsbD k.val then
        (∃ pc, brTarget th.pc off = .ok pc ∧ r = { next := some pc }) ∧ s1 = s.modThread t fun th =>
          let w' := { w with eod := w.eod &&& ~~~(1#3 <<< k.val) }
          if out then { th with stores := th.stores.set sn.val w' } else { th with loads := th.loads.set sn.val w' }
      else r = {} ∧ s1 = s) ∧
    Lands (.yield h) h latCtl (fun _ s t _ _ s1 r =>
      s1 = (if saveAsked s t then s.modThread t (fun th => { th with status := .yielded }) else s) ∧ r = {}) ∧
    Lands (.nop h) h (.fixed 0) (fun _ s _ _ _ s1 r => s1 = s ∧ r = {}) ∧
    (∀ (c : Word × Word × Word) (v : Word) (j : Fin 3), getLc (setLc c j v) j = v ∧ ∀ i, i ≠ j → getLc (setLc c j v) i = getLc c i)) ∧
  (∀ (h : Hdr) (w : Fin 8) (off : BitVec 29) (a : Src),
    let idle : State → Tid → Thread → List (List Word) → Prop := fun s t th _ => writesPending th = false ∧ areaHolds s t th = false
    let units (s : State) (t : Tid) (th : Thread) : List (Nat × DWord) := spillUnits (s.depthOf t th) (th.fb + 8 * w.val) th.lo
      (th.nrec + 1) ((nextSlot th.pc ||| BitVec.ofNat 64 w.val) :: th.links).reverse
    -- what must leave the window has room in the area, and its stores pass their checks
    let leaves (s : State) (t : Tid) (th : Thread) : Prop := units s t th = [] ∨
      (let x := areaOf s t th
       x.start + th.wtop + ((units s t th).map fun u => unitBytes u.2).foldl (· + ·) 0 ≤ x.limit ∧
       (spillUnitsTo s t th (x.base + x.start + th.wtop) (units s t th)).2 = none ∧ ∀ g x, t = .graver g x → (s.graver g).state = 1)
    Answers (.call h w off) h latCtl (fun s t th _ => (∃ pc, brTarget th.pc off = .ok pc) ∧ leaves s t th)
      (fun _ s t th _ s1 r => ∃ pc, brTarget th.pc off = .ok pc ∧ callTo w.val pc s t th = (s1, r) ∧ r = { next := some pc })
      (free := idle) ∧
    Answers (.calli h w a) h latCtl (fun s t th vs => targetFault (opPair vs 0) = none ∧ leaves s t th)
      (fun _ s t th vs s1 r => callTo w.val (opPair vs 0) s t th = (s1, r) ∧ r = { next := some (opPair vs 0) })
      (free := idle) (post := fileExec) ∧
    Answers (.ret h) h latCtl
      (fun s t th _ => linksEmpty th = true ∨ ∃ s2 c, fillUnit s t th = (s2, .ok c) ∧ targetFault (c.links.headD 0 &&& ~~~7#64) = none)
      (fun _ s t th _ s1 r => retLane s t th = (s1, r) ∧ (linksEmpty th = true → s1 = s ∧ r = {}) ∧
        (linksEmpty th = false → ∀ s2 c, fillUnit s t th = (s2, .ok c) → r = { next := some (c.links.headD 0 &&& ~~~7#64) }))
      (free := fun s t th vs => idle s t th vs ∧ fillStall s [t] = false) (post := retAfter) ∧
    Lands (.exit h) h latCtl (fun _ s _ _ _ s1 r => s1 = s ∧ r = {}) (post := fun env s => env.exec.foldl exitThread s) ∧
    Lands (.reform h) h latCtl (fun _ s _ _ _ s1 r => s1 = s ∧ r = {}) (post := fileExec)) ∧
  (∀ (h : Hdr) (n : Fin 32),
    Stops (.trap h n) h (fun s _ _ _ s1 b => s1 = s ∧ b = { code := 0x19, flags := n.val, after := true }) ∧
    Stops (.bpt h) h (fun s _ _ _ s1 b => s1 = s ∧ b = { code := 0x1A }) ∧
    (∀ (s : State) (t : Tid) (th : Thread) (b : Flt) (pc : DWord) (seq : Nat), s.thread t = some th → b.engine = 0 →
      takeFaults [(t, b)] pc seq s = takeFault s t (threadRec s t th b.code b.flags pc b.addr b.progress)
        (if b.after then nextSlot pc else pc) seq))

/-- R326, R327: the units that leave are the oldest, and after they have left the window and its links fit again; one call needs at
most what its links allow. R325, R327, R328: a call whose frame fits in the window pushes its link and moves the frame base by its
shift; the return from it brings back frame base and links, and goes on at the slot after the call. Names of the frame it leaves
are void, no other changes. -/
def Obligations.CallsAndReturns : Prop :=
  (∀ (depth fb lo nrec : Nat) (links : List DWord), links.length = nrec →
    let us := spillUnits depth fb lo nrec links
    let out := (us.map fun u => linkShift u.2).foldl (· + ·) 0
    us.map (·.2) = links.take us.length ∧
    (us.length < nrec → fb + 48 - (lo + out) + 2 * (nrec - us.length) ≤ depth) ∧
    (∀ k, k < us.length → depth < fb + 48 - (lo + (((us.take k).map fun u => linkShift u.2).foldl (· + ·) 0)) + 2 * (nrec - k))) ∧
  (∀ (s : State) (c sl l w : Nat) (th : Thread) (a : DWord), let t : Tid := .core c sl l
    s.thread t = some th → slotAddr th.pc = true → 1 ≤ w → w ≤ 6 → th.links.length = th.nrec →
    th.fb + 8 * w + 48 - th.lo + 2 * (th.nrec + 1) ≤ s.depthOf t th →
    let link := nextSlot th.pc ||| BitVec.ofNat 64 w
    callTo w a s t th =
      (s.setThread t { th with fb := th.fb + 8 * w, nrec := th.nrec + 1, links := link :: th.links }, { next := some a }) ∧
    ∀ s2 x, s2.thread t = some x → x.fb = th.fb + 8 * w → x.nrec = th.nrec + 1 → x.links = link :: th.links →
      canonicalVa (nextSlot th.pc).toNat = true →
      ∃ s3, retLane s2 t x = (s3, { next := some (nextSlot th.pc) }) ∧
        s3.thread t = some { x with fb := th.fb, nrec := th.nrec, links := th.links } ∧
        (∀ u, u ≠ t → s3.thread u = s2.thread u) ∧
        (∀ i, i < 8 * w → s3.readPos t (.v (th.fb + 48 + i)) = none) ∧
        (∀ u p, (u = t → ∀ i, i < 8 * w → p ≠ .v (th.fb + 48 + i)) → s3.readPos u p = s2.readPos u p))

/-- R336, R383: a core thread that exits while another thread of its warp and team runs on leaves its group and every bin, its lane of
every cell counts as released, and no other thread changes. A stream element that it has pushed and not performed is performed
(R270); with none, and no fault of its loads to report, memory stays. What it has still to do at memory (R239, R425) goes on without
it. -/
def Obligations.ThreadExits : Prop :=
  ∀ (s : State) (c sl l m : Nat) (th mate : Thread), let t : Tid := .core c sl l
    s.thread t = some th → th.status ≠ .exited → m ≠ l → m < 32 → s.thread (.core c sl m) = some mate → mate.status = .running →
    mate.ctx = th.ctx → mate.launch = th.launch → mate.team = th.team → th.deferred = none → (∀ o ∈ th.outs, o.late = none) →
    let bare := (leaveBins (s.leaveGroups t) t).setThread t (th.exit t)
    (∀ k w x s2 p, th.stores = [(k, w)] → w.valued = [x] →
      checkAccess bare t th.ctx x.1.toNat w.ty.bytes .write false = (s2, .ok p) → graverOf p.pa = none →
      (exitThread s t).mem = (performElem bare t th.ctx w x).1.mem ∧ (exitThread s t).dies = (performElem bare t th.ctx w x).1.dies ∧
      ∀ c', ((exitThread s t).core c').lines = ((performElem bare t th.ctx w x).1.core c').lines) ∧
    ((∀ e ∈ th.stores, e.2.valued = []) → ∃ s', exitThread s t = s' ∧
      s'.thread t = some { th with status := .exited, outs := [], loads := [], stores := [], arrivals := [], deferred := none,
                                   spillBad := none, stop := none } ∧
      (∀ u, u ≠ t → s'.thread u = s.thread u) ∧
      (∀ g ∈ s'.groups, t ∉ g.mem) ∧ (∀ g ∈ s.groups, ∀ u ∈ g.mem, u ≠ t → ∃ g' ∈ s'.groups, u ∈ g'.mem ∧ g'.quadrant = g.quadrant) ∧
      (∀ b ∈ (s'.core c).bins, ∀ e ∈ b.2.entries, t ∉ e.mem) ∧ t ∉ (s'.core c).stopList ∧
      (∀ p, s'.readPos t p = none) ∧ s'.teams = s.teams ∧ s'.launches = s.launches ∧ s'.mem = s.mem ∧
      s'.orphans = s.orphans ++ (th.outs.filter (·.todo.isSome)).map fun o => (t, th.exit t, o))

/-- R310: filing. A thread joins the bin of its launch and PC, else takes the lowest free one; with none free it does not file. -/
def Obligations.FilingIntoBins : Prop :=
  ∀ (s : State) (c sl l : Nat) (th : Thread), let t : Tid := .core c sl l
    s.thread t = some th → ((s.core c).bins.map (·.1)).Nodup →
    (binFor (s.core c) th.launch th.pc = none → fileBin s t = (s, false)) ∧
    (∀ b, binFor (s.core c) th.launch th.pc = some b → ∃ s', fileBin s t = (s', true) ∧
      s'.thread t = some { th with status := .inBin } ∧ (∀ u, u ≠ t → s'.thread u = s.thread u) ∧ (∀ g ∈ s'.groups, t ∉ g.mem) ∧
      (∃ bin, (s'.core c).bins.get b = some bin ∧ ∃ e ∈ bin.entries, t ∈ e.mem ∧ e.slot = sl ∧ e.quad = l / 4 ∧ e.fb = th.fb) ∧
      (∀ k, k ≠ b → (s'.core c).bins.get k = (s.core c).bins.get k) ∧
      ((∃ bin, (s.core c).bins.get b = some bin ∧ bin.launch = th.launch ∧ bin.pc = th.pc) ∨
       ((s.core c).bins.get b = none ∧ b < 64 ∧ (∀ k, k < b → (s.core c).bins.has k = true) ∧
        ∃ bin, (s'.core c).bins.get b = some bin ∧ bin.launch = th.launch ∧ bin.pc = th.pc)))

/-! ### Barriers and waits -/

/-- R255, R256, R259: the forms of class 0x9 on an object of the thread's scratch complete. BARI arms or disarms, BARA arrives, BARW
and BARAW wait, and what they wait for is looked at as they issue. R257, R259, R339 to R343: TBAR and GBAR wait after their
release, WAITA ends at once when its condition holds and else waits, SPAWN queues a launch, JOIN answers or waits, CANCEL cancels.
R399: what a release of BARA, TBAR or GBAR loses gives a deferred 0x15. R351: SPAWN does not issue while its die's miss table has no
room for its record's pages. BARI with count 0 disarms without BRK, and a SPAWN whose record cannot be read gives D = 0 with a
deferred fault: the model's choices (log entries 27 and 30). -/
def Obligations.BarrierAndWaitFormsComplete : Prop :=
  (∀ (h : Hdr) (a : Src) (n : Lim) (p : Fin 8),
    let still : State → Tid → Thread → List (List Word) → Prop := fun s t th vs => scratchHolds s t th (op vs 0) 16 = false
    Lands (.bari h a n) h latCtl (fun _ s t th vs s1 r => r = {} ∧
      ∃ x k c wide, scratchAt s t th (op vs 0) 16 = .ok x ∧ objAt s x = some (k, c, wide) ∧
        let v := limVal n vs
        if v % 2 ^ 15 = 0 then s1 = ((armedAt s c k).elim s fun b => disarm s c b false false)
        else ((armedAt s c k).isSome = true ∨ (s.core c).barriers.length < Config.barrierObjects) ∧
          s1 = putObj ((armedAt s c k).elim s fun b => disarm s c b b.trap true) c
            { key := k, trap := bitAt v 15, count := v % 2 ^ 15, arrived := 0, phase := 0, cores := [] })
      (free := still) ∧
    Lands (.bara h a) h latCtl (fun _ s t th vs s1 r =>
      ∃ k c wide e, objOf s t th (op vs 0) = .ok (k, c, wide) ∧ arrive s t k c wide = (s1, e) ∧ r = { late := lateOf e 0 })
      (free := still) ∧
    (∀ again : Bool, Lands (if again then .baraw h p a n else .barw h p a n) h latCtl (fun env s t th vs s1 r =>
      r = { held := true, preds := [(p, false)] } ∧ ∃ k c wide, objOf s t th (op vs 0) = .ok (k, c, wide) ∧
        s1 = s.modThread t fun th => { th with status := .waiting (.barrier env.seq k wide p
          (if limVal n vs = 0 then none else some (s.now + 256 * limVal n vs))) }) (free := still)
      (post := settleWaits again))) ∧
  (∀ (h : Hdr) (cc : Fin 8) (wide : Bool) (o : Dabc) (u : Da) (a : Src),
    Lands (.tbar h) h latCtl (fun env s t _ _ s1 r => ∃ s2 e, release s t (if t.isGraver then .bnk else .core) 0 = (s2, e) ∧
      r = { held := true, late := lateOf e 0 } ∧ s1 = s2.modThread t fun th => { th with status := .waiting (.tbar env.seq) })
      (post := tbarAfter) ∧
    Lands (.gbar h) h latCtl (fun env s t _ _ s1 r => ∃ s2 e, release s t .die 0 = (s2, e) ∧ r = { held := true, late := lateOf e 0 } ∧
      s1 = s2.modThread t fun th => { th with status := .waiting (.gbar env.seq) }) (post := gbarAfter) ∧
    Answers (.waita h cc wide o) h latCtl
      (fun s t th vs => ∃ s2 p, globalCheck s t th.ctx (opPair vs 0).toNat (if wide then 8 else 4) .read false .plain .core = (s2, .ok p))
      (fun env s t th vs s1 r =>
        let a := opPair vs 0
        let b : DWord := if wide then opPair vs 1 else pairOf (op vs 1) 0
        let old (v : Nat) : List Word := if wide then [w32 v, w32 (v / 2 ^ 32)] else [w32 v]
        ∃ s2 v code sec, waitaRead s t th a (if wide then 8 else 4) = (s2, .ok (v, code, sec)) ∧
          if code ≠ 0 then s1 = s2 ∧ r = { out := old 0, late := some (code, a) }
          else if waitaMet cc wide (w64 v) b then
            s1 = acquire s2 t (if t.isGraver then .bnk else .sys) 0 ∧ r = { out := old v, awaits := replyOf s2 t th a }
          else r = { held := true } ∧ s1 = s2.modThread t fun th => { th with status := .waiting (.waita env.seq cc wide a b
            (if (op vs 2).toNat = 0 then none else some (s2.now + cyc t (256 * (op vs 2).toNat))) sec (s2.now + cyc t 1024)) })
      (free := fun s t th vs => globalHolds s t th (opPair vs 0) (if wide then 8 else 4) = false) ∧
    Answers (.spawn h u) h latCtl (fun s t th vs => (recordCheck s t th.ctx (opPair vs 0).toNat 4).2 = none)
      (fun env s t th vs s1 r =>
        let a := opPair vs 0
        ∃ s2, recordCheck s t th.ctx a.toNat 4 = (s2, none) ∧ ∃ s3 e, release s2 t .dev 0 = (s3, e) ∧
        ((∃ s4 code va, engReadN s3 th.ctx a.toNat 256 = (s4, .error (code, va)) ∧ s1 = s4 ∧
            r = { out := [0, 0], late := some (code, w64 va) }) ∨
         (∃ s4 bs, engReadN s3 th.ctx a.toNat 256 = (s4, .ok bs) ∧ match recBad s4 th.ctx bs (parseRec bs) with
            | some k => s1 = refuseRec s4 th.ctx (parseRec bs) k a.toNat ∧ r = { out := [0, 0], late := lateOf e a }
            | none =>
              let s5 := admitWaiting s4 th.ctx (parseRec bs).queue
              if queueFull s5 th.ctx (parseRec bs) then
                s1 = s5.modThread t (fun th => { th with status := .waiting (.spawn env.seq bs a) }) ∧
                r = { held := true, late := lateOf e a }
              else ∃ id, enqueueLaunch s5 th.ctx (parseRec bs) = (s1, id) ∧ r = { out := idWords id, late := lateOf e a })))
      (free := fun s t th vs => recordHolds s t th.ctx (opPair vs 0).toNat = false) ∧
    Answers (.join h u) h latCtl (fun _ _ _ _ => True) (fun env s t th vs s1 r =>
      let v := opPair vs 0
      let unknown : List Word := [0x8000_0000, 0, 0, 0]
      match unitOf v.toNat with
      | none => s1 = acquire s t .pool 0 ∧ r = { out := unknown }
      | some (level, id) =>
        if (members s th.ctx level id).any (fun e => e.1 == th.launch && !t.isProof) = true then
          s1 = acquire s t .pool 0 ∧ r = { out := [0x4000_0000, 0, 0, 0] }
        else if unitRunning s th.ctx level id = true then
          s1 = s.modThread t (fun th => { th with status := .waiting (.join env.seq v) }) ∧ r = { held := true }
        else s1 = acquire s t .pool 0 ∧ r = { out := (unitDone s th.ctx level id).elim unknown fun u =>
          [w32 u.status, w32 u.faults, loOf u.first, hiOf u.first] }) ∧
    Lands (.cancel h a) h latCtl (fun _ s _ _ _ s1 r => s1 = s ∧ r = {}) (post := cancelAfter (.cancel h a)))

/-- R253, R256: an arrival on an armed object counts; the one that completes the count ends the phase, and every thread that had
arrived in it finds it ended. R257: TBAR holds until every thread of the team that has not exited waits in it; then all of them
run on. R238, R270: that return is an acquire, so none keeps a prefetched stream element. -/
def Obligations.BarriersOpenForAll : Prop :=
  (∀ (s : State) (c sl l o : Nat) (th : Thread) (k : BarKey) (b : BarObj), let t : Tid := .core c sl l
    s.thread t = some th → th.stores = [] → armedAt s o k = some b → waitersOf s k = [] →
    let s' := (arrive s t k o false).1
    (b.arrived + 1 < b.count → armedAt s' o k = some { b with arrived := b.arrived + 1, cores := b.cores ++ [c] } ∧
      (∃ th', s'.thread t = some th' ∧ th'.arrivals.get k = some (.pending b.phase)) ∧ (∀ u, u ≠ t → s'.thread u = s.thread u)) ∧
    (b.count ≤ b.arrived + 1 → armedAt s' o k = some { b with arrived := 0, phase := (b.phase + 1) % 2 ^ 32, cores := [] } ∧
      (∃ th', s'.thread t = some th' ∧ th'.arrivals.get k = some (.ended true)) ∧
      (∀ u x, u ≠ t → s.thread u = some x → ∃ x', s'.thread u = some x' ∧
        x'.arrivals.get k = match x.arrivals.get k with
          | some (.pending _) => some (.ended true)
          | y => y)) ∧
    (∀ k' o', k' ≠ k → armedAt s' o' k' = armedAt s o' k') ∧ s'.mem = s.mem) ∧
  (∀ (s : State) (c l lin : Nat),
    ((∃ e ∈ s.liveThreads c l lin, isTbar e.2.status = none) → tbarCheck s c l lin = s) ∧
    (s.liveThreads c l lin ≠ [] → (s.threads.map (·.1)).Nodup → (∀ e ∈ s.liveThreads c l lin, (isTbar e.2.status).isSome = true) →
      let s' := tbarCheck s c l lin
      (∀ e ∈ s.liveThreads c l lin, ∃ x, s'.thread e.1 = some x ∧ x.status = .running ∧ x.pc = e.2.pc ∧
        (∀ w ∈ x.loads, w.2.fetched = []) ∧ ∃ g ∈ s'.groups, e.1 ∈ g.mem) ∧
      (∀ u, (∀ e ∈ s.liveThreads c l lin, e.1 ≠ u) → s'.thread u = s.thread u) ∧ s'.mem = s.mem))

/-! ### System registers, the Plate, the proof slot -/

/-- R304 to R306, R373 to R376: SREAD, SWRITE, CLK, CAPW, PLATE and PLATEQ complete, with what each register of R373 gives a core's
thread and the refusals of a move in R306's order (what reservations claim on the core counts as used: log entry 50; the word of a
refused PLATE comes after the 8 cycles that R306 gives an accepted one, the model's choice: log entry 6). R386 to R391:
the proof-slot forms complete: the selection, reads and writes of items, the records and the stop list; PRET resumes once the
form has issued. -/
def Obligations.SystemFormsComplete : Prop :=
  (∀ (h : Hdr) (d : Name) (a b : Src) (n : NumSrc) (m : BSrc) (u : Da),
    Lands (.sread h d n) h latCtl (fun _ s t th vs s1 r => numVal n vs % 256 < 0x40 ∧ s1 = s ∧
      r = { out := [sysReg s t th (numVal n vs % 256)] }) ∧
    Lands (.swrite h a m) h latCtl (fun _ s t th vs s1 r => r = {} ∧
      let k := (bVal m vs).toNat % 256
      (k = 0x08 ∧ s1 = if (op vs 0).getLsbD 0 then clearBrk s (statusThread s t th) else s) ∨
      (k = 0x06 ∧ t.isProof = true ∧ s1 = s.modThread (statusThread s t th) fun y => { y with fpst := (op vs 0).setWidth 7 }) ∨
      (k = 0x07 ∧ t.isProof = true ∧ s1 = s.modThread (statusThread s t th) fun y => { y with voidSt := (op vs 0).getLsbD 0 })) ∧
    Lands (.clk h d) h latCtl (fun _ s t _ _ s1 r => s1 = s ∧
      ∃ ns, r = { out := [loOf (w64 ns), hiOf (w64 ns)] } ∧ ns = s.now / 4 + (s.die t.die).skew - 2) ∧
    Lands (.capw h d n) h latCtl (fun _ s _ _ vs s1 r => numVal n vs % 4 = 0 ∧ numVal n vs < 65536 ∧ s1 = s ∧
      r = { out := [w32 (natOf (capBytes s (numVal n vs) 4))] }) ∧
    Lands (.plate h d a b) h (.fixed 8) (fun env s t _ vs s1 r =>
      let x := op vs 0
      let sets := bits x.toNat 9 4
      match (if plateReserved x (op vs 1) then some 4 else moveRefused s (coreNum t) sets (roleOf (bits x.toNat 1 0)) (roleOf (bits x.toNat 3 2))) with
      | some k => s1 = s ∧ r = { out := [plateWord k 0 (k == 1)] }
      | none => s1 = startMove s (coreNum t) sets (roleOf (bits x.toNat 1 0)) (roleOf (bits x.toNat 3 2)) (some (t, env.seq)) ∧
          r = { out := [plateWord 1 0 false], held := (op vs 1).getLsbD 0, later := true }) ∧
    Lands (.plateq h u) h latCtl (fun _ s t _ vs s1 r => s1 = s ∧ r = { out := [plateqWord s t (op vs 0)] })) ∧
  (∀ (s : State) (c sl l : Nat) (th : Thread) (k : Nat), let t : Tid := .core c sl l
    let reg := sysReg s t th
    s.thread t = some th →
    reg 0x00 = w32 c ∧ reg 0x01 = w32 th.ctx ∧ reg 0x02 = w32 th.launch ∧ reg 0x03 = w32 (th.launch / 2 ^ 32) ∧ reg 0x04 = w32 th.team ∧
    reg 0x05 = w32 th.gtid ∧ reg 0x10 = w32 (th.gtid / 2 ^ 32) ∧ reg 0x06 = th.fpst.setWidth 32 ∧ reg 0x07 = w32 th.voidSt.toNat ∧
    (∀ key tm, s.teamOf t = some (key, tm) → reg 0x08 = w32 ((if tm.brk then 1 else 0) + if tm.preq.isSome then 2 else 0)) ∧
    (∃ y, y * 4000 ≤ (s.core c).cycAcc + (s.now - (s.core c).cycAt) * (s.core c).clk ∧
      (s.core c).cycAcc + (s.now - (s.core c).cycAt) * (s.core c).clk < (y + 1) * 4000 ∧ reg 0x09 = w32 y ∧ reg 0x0A = w32 (y / 2 ^ 32)) ∧
    reg 0x0B = w32 (s.core c).clk ∧
    (∀ x, s.recOf th = some x → reg 0x0C = x.flags.setWidth 32 ∧ reg 0x0D = w32 (16 * x.depth16)) ∧
    (∀ x i, s.ctx th.ctx = some x → x.keys.length = 8 → ((reg 0x0E).getLsbD i = true ↔ ∃ key, x.keys[i]? = some (some key))) ∧
    reg 0x0F = w32 (s.pkg.node % 2 ^ 21) ∧ (0x11 ≤ k → reg k = 0)) ∧
  (∀ (s : State) (c n : Nat) (f t : Role),
    let have_ := ((s.core c).roles.filter (· == f)).length
    let cl := claimsOn s c
    (s.core c).roles.length = 64 →
    moveRefused s c n f t =
      (if n = 0 ∨ f = t then some 4 else if (s.core c).move.isSome then some 1 else if have_ < n then some 4
       else if f = .register ∧ have_ < floorOf s c (claimWarps cl) (cl.map (·.2)) + n then some 3
       else if f = .scratch ∧ (s.spareScratch c).length < n + claimSets cl then some 2
       else if f = .cache ∧ have_ < cacheMinOf s c (cl.map (·.2)) + n then some 5
       else if f = .tile ∧ have_ < tileKeepOf s c (cl.map (·.2)) + n then some 5 else none)) ∧
  (∀ (h : Hdr) (a b : Src) (q : Pat) (u : Da),
    Lands (.psel h a) h latCtl (fun _ s t _ vs s1 r => r = {} ∧
      s1 = s.modThread t fun th => { th with sel := selected s (coreNum t) (op vs 0) }) ∧
    Answers (.prdv h u) h latCtl (fun s _ th vs => ∀ v vh, stoppedSel s th = some (v, vh) → itemBad s v vh (op vs 0) = false)
      (fun _ s _ th vs s1 r => match stoppedSel s th with
        | none => s1 = s ∧ r = { out := [0] }
        | some (v, vh) => ∃ w, readItem s v vh (op vs 0) = (s1, w) ∧ r = { out := [w] })
      (free := fun s _ th vs => itemHolds s false th (op vs 0) = false) ∧
    Lands (.pwrv h a b q) h latCtl (fun _ s _ th vs s1 r => r = {} ∧ match stoppedSel s th with
      | none => s1 = s
      | some (v, vh) => s1 = writeItem s v vh (op vs 0) (op vs 1))
      (free := fun s _ th vs => itemHolds s true th (op vs 0) = false) ∧
    Lands (.frec h u) h latCtl (fun _ s _ th vs s1 r => s1 = s ∧ match stoppedSel s th with
      | none => r = { out := [0] }
      | some (_, vh) => r = { out := [vh.stop.elim 0 fun x => if (op vs 0).toNat / 16 ≠ 0 then 0 else recWord x (op vs 0).toNat] }) ∧
    Lands (.frecList h u) h latCtl (fun _ s t _ vs s1 r => s1 = s ∧
      r = { out := [((s.core (coreNum t)).stopList[(op vs 0).toNat]?).elim 0x8000_0000 selectorOf] }) ∧
    Lands (.pret h) h latCtl (fun _ s _ _ _ s1 r => s1 = s ∧ r = {}) (post := pretAfter))

/-- R389: what PWRV writes of a stopped thread's state, and that PRDV then reads it back; other items and other threads stay. A name
of its window, where its bank has a free cell, takes the value in that lane alone, and is void once its release bit is set. R385,
R390: returning from a fault. A stopped thread that PRET selects leaves the stop list; with neither PC nor ACT written it runs on
at its PC in a new group, its record gone from it. -/
def Obligations.ItemsReadBackAndThreadsReturn : Prop :=
  (∀ (s : State) (u : Tid) (uh : Thread) (n : Nat) (v : Word), s.thread u = some uh → n < 64 →
    let s' := writeItem s u uh (BitVec.ofNat 32 (128 + n)) v
    let mask : Word := if n = 2 ∨ n = 11 then 0x7F else if n = 10 ∨ n = 12 then 1 else 0xFFFF_FFFF
    ∃ uh', s'.thread u = some uh' ∧ (∀ t, t ≠ u → s'.thread t = s.thread t) ∧
      (∀ m, m < 64 → m ≠ n → (readItem s' u uh' (BitVec.ofNat 32 (128 + m))).2 = (readItem s u uh (BitVec.ofNat 32 (128 + m))).2) ∧
      (n ∈ [0, 1, 2, 3, 4, 5, 10, 11, 12] → readItem s' u uh' (BitVec.ofNat 32 (128 + n)) = (s', v &&& mask)) ∧
      (n ∉ [0, 1, 2, 3, 4, 5, 10, 11, 12] → s' = s)) ∧
  (∀ (s : State) (c sl l n : Nat) (uh : Thread) (p : Pos) (v : Word), let u : Tid := .core c sl l
    itemPos uh n = some p → s.isSpilled u p = false → s.cellsFree c (l / 4) ≠ 0 →
    let s1 := writeItem s u uh (BitVec.ofNat 32 n) v
    let s2 := writeItem s u uh (BitVec.ofNat 32 (64 + n)) 1
    readItem s1 u uh (BitVec.ofNat 32 n) = (s1, v) ∧ readItem s1 u uh (BitVec.ofNat 32 (64 + n)) = (s1, 0) ∧
    readItem s2 u uh (BitVec.ofNat 32 n) = (s2, 0) ∧ readItem s2 u uh (BitVec.ofNat 32 (64 + n)) = (s2, 1) ∧
    (∀ w q, w ≠ u ∨ q ≠ p → s1.readPos w q = s.readPos w q ∧ s2.readPos w q = s.readPos w q)) ∧
  (∀ (s : State) (c sl l : Nat) (th : Thread), let t : Tid := .core c sl l
    s.thread t = some th → th.status = .stopped → th.act = false → th.pcWritten = false →
    (∀ b, (s.core c).bins.get b = none) →
    ∃ s', resumeAll s [t] = s' ∧ s'.thread t = some { th with status := .running, stop := none, act := false, pcWritten := false } ∧
      (∀ u, u ≠ t → s'.thread u = s.thread u) ∧ t ∉ (s'.core c).stopList ∧ (∀ u ∈ (s.core c).stopList, u ≠ t → u ∈ (s'.core c).stopList) ∧
      s'.groups = s.groups ++ [Group.start (sl / 16) false [t] []] ∧ s'.mem = s.mem ∧ (∀ u p, s'.readPos u p = s.readPos u p))

/-! ### The tile engine -/

/-- R186 to R205: the forms of class 0xD complete in a Burin when their descriptors, slots, windows and accumulators pass the checks
of their rules and fewer than 8 forms are outstanding; those that the engine runs are queued with their descriptors as they stand.
Where a check fails they stop instead, with 0x0D for a slot, 0x0C for a descriptor or header, 0x0B for sizes, tags and ARMED, 0x14 for
a peer that does not expect the index; which of two comes first is the model's choice where its rule gives no order (log entry 62).
MFENCE waits for every earlier one but an arming MARM. -/
def Obligations.TileFormsComplete : Prop :=
  ∀ (h : Hdr) (td ta tb tc : Fin 16) (acc : Fin 4) (a b : Src) (hi s32 raw z clr mask : Bool) (fs : Fin 8) (d : Name),
    let room (bad : State → Burin → Bool) : State → Tid → Thread → List (List Word) → Prop := fun s t _ _ =>
      ∃ bn, burinAt s t = some bn ∧ bad s bn = false ∧ fullQueue s t = false
    let at_ (f : Env → State → Tid → Burin → List (List Word) → State → Res → Prop) : Effect := fun env s t _ vs s1 r =>
      ∃ bn, burinAt s t = some bn ∧ f env s t bn vs s1 r
    Lands (.tdset h td a b) h latTile (at_ fun _ s t bn vs s1 r => ∃ sl, descSlot s bn (tdWords vs) = some sl ∧
      setBad (tdWords vs) sl (tileSize s t) = false ∧ s1 = modBurinOf s t (fun x => { x with desc := setAt x.desc td.val (tdWords vs) }) ∧
      r = {}) (free := room fun _ _ => false) ∧
    Lands (.tdget h hi d td) h latTile (at_ fun _ s _ bn _ s1 r => s1 = s ∧
      r = { out := if hi then (descAt bn td).drop 4 else (descAt bn td).take 4 }) (free := room fun _ _ => false) ∧
    Lands (.mma h acc ta tb tc) h latTile (at_ fun env s t bn _ s1 r =>
      mmaFault s bn (tileSize s t) acc.val (descAt bn ta) (descAt bn tb) (descAt bn tc) = 0 ∧
      s1 = enqueueTile s t env.seq (.mma acc.val (descAt bn ta) (descAt bn tb) 0) ∧ r = { held := true })
      (free := room fun s bn => mmaSlotBad s bn (descAt bn ta) (descAt bn tb)) ∧
    Lands (.mzero h s32 acc) h latTile (at_ fun env s t bn _ s1 r => (bn.acc acc.val).armed = false ∧
      s1 = enqueueTile (modBurinOf s t fun x => x.setAcc acc.val { x.acc acc.val with tagNext := s32 }) t env.seq (.mzero acc.val s32) ∧
      r = { held := true }) (free := room fun _ _ => false) ∧
    Lands (.mldacc h s32 acc ta) h latTile (at_ fun env s t bn _ s1 r => windowBad (descAt bn ta) 32 (tileSize s t) = false ∧
      (TD.of (descAt bn ta)).rows ≤ 64 ∧ (TD.of (descAt bn ta)).cols ≤ 64 ∧ (bn.acc acc.val).armed = false ∧
      s1 = enqueueTile (modBurinOf s t fun x => x.setAcc acc.val { x.acc acc.val with tagNext := s32 }) t env.seq
        (.mldacc acc.val s32 (descAt bn ta)) ∧ r = { held := true }) (free := room fun _ _ => false) ∧
    Lands (.mdrain h raw z fs ta acc) h latTile (at_ fun env s t bn _ s1 r =>
      windowBad (descAt bn ta) (drainWidth s bn raw fs.val) (tileSize s t) = false ∧
      (TD.of (descAt bn ta)).cols ≤ 64 * (4 - acc.val) ∧ (TD.of (descAt bn ta)).rows ≤ 64 ∧
      s1 = enqueueTile s t env.seq (.mdrain acc.val raw z fs.val (descAt bn ta)) ∧ r = { held := true })
      (free := room fun s bn => drainSlotBad s bn raw fs.val acc.val) ∧
    Answers (.mdradd h raw fs a tb acc) h latTile
      (fun s t _ vs =>
        let w := (op vs 0).toNat
        ∃ bn pk p, burinAt s t = some bn ∧ draddFault t w (descAt bn tb) = 0 ∧ peerBurin s (bits w 8 0) bn.ctx bn.launch = some (pk, p) ∧
          (p.acc (bits w 12 11)).expect.getLsbD (bits w 20 16) = true ∧ (p.acc (bits w 12 11)).tagNext = (bn.acc acc.val).tagNext)
      (fun env s t th vs s1 r =>
        let w := (op vs 0).toNat
        let n := bits w 12 11
        let i := bits w 20 16
        r = { held := true } ∧ ∃ bn pk p, burinAt s t = some bn ∧
          peerBurin s (bits w 8 0) bn.ctx bn.launch = some (pk, p) ∧
          let s2 := modBurinOf s t fun x => { x with header := none }
          -- a second contribution of an index is discarded with its record; the first is marked received and accepted
          let s3 := if (p.acc n).recv.getLsbD i then dupRecord s2 t th i else s2.modBurin (bits w 8 0) pk fun x =>
            { (x.setAcc n { x.acc n with recv := (x.acc n).recv ||| (1#32 <<< i) }) with
              inbox := x.inbox ++ [{ acc := n, arm := (x.acc n).armSeq, idx := i, tag := (x.acc n).tagNext, sent := false,
                                     elems := [], sender := bn.id, seq := env.seq }] }
          s1 = enqueueTile s3 t env.seq (.mdradd acc.val raw fs.val (TD.of (descAt bn tb)).rows (TD.of (descAt bn tb)).cols (bits w 8 0)
            n i pk))
      (free := fun s t th vs => room (fun s bn => draddSlotBad s bn raw fs.val acc.val) s t th vs ∧
        headerWaits raw fs.val acc.val tb s t vs = false) ∧
    Lands (.marm h acc a) h latTile (at_ fun env s t bn vs s1 r => (op vs 0 = 0 ∨ (bn.acc acc.val).armed = false) ∧
      s1 = armNow s t env.seq acc.val (op vs 0) ∧ r = { held := op vs 0 != 0 }) (free := room fun _ _ => false) ∧
    Lands (.mstep h clr mask d acc) h latTile (at_ fun _ s t bn _ s1 r =>
      s1 = (if clr then modBurinOf s t (fun x => x.setAcc acc.val { x.acc acc.val with sticky := 0 }) else s) ∧
      r = { out := [(bn.acc acc.val).status, if mask then (bn.acc acc.val).recv else stepWord s bn acc.val] })
      (free := room fun _ _ => false) ∧
    Lands (.mfence h) h latTile (at_ fun _ s _ _ _ s1 r => s1 = s ∧ r = {}) (free := fun s t _ _ => tileIdle s t = true) ∧
    -- where they stop
    (let halts (i : Instr) (f : State → Tid → Burin → List (List Word) → Nat → Prop)
        (free : State → Tid → Thread → List (List Word) → Prop) : Prop :=
      Stops i h (fun s t _ vs s1 y => s1 = s ∧ ∃ bn code, burinAt s t = some bn ∧ f s t bn vs code ∧ y = { code := code }) (free := free)
    let open_ := room fun _ _ => false
    let slot (i : Instr) (bad : State → Burin → Bool) : Prop :=
      SlotStops i h (fun s t _ => ∃ bn, burinAt s t = some bn ∧ bad s bn = true) (free := fun s t _ _ => fullQueue s t = false)
    halts (.tdset h td a b) (fun s t bn vs code => (descSlot s bn (tdWords vs) = none ∧ code = 0x0D) ∨
      ∃ sl, descSlot s bn (tdWords vs) = some sl ∧ setBad (tdWords vs) sl (tileSize s t) = true ∧ code = 0x0C) open_ ∧
    slot (.mma h acc ta tb tc) (fun s bn => mmaSlotBad s bn (descAt bn ta) (descAt bn tb)) ∧
    halts (.mma h acc ta tb tc) (fun s t bn _ code => code ≠ 0 ∧
      code = mmaFault s bn (tileSize s t) acc.val (descAt bn ta) (descAt bn tb) (descAt bn tc))
      (room fun s bn => mmaSlotBad s bn (descAt bn ta) (descAt bn tb)) ∧
    halts (.mzero h s32 acc) (fun _ _ bn _ code => (bn.acc acc.val).armed = true ∧ code = 0x0B) open_ ∧
    halts (.mldacc h s32 acc ta) (fun s t bn _ code => (windowBad (descAt bn ta) 32 (tileSize s t) = true ∧ code = 0x0C) ∨
      (windowBad (descAt bn ta) 32 (tileSize s t) = false ∧ code = 0x0B ∧
        (64 < (TD.of (descAt bn ta)).rows ∨ 64 < (TD.of (descAt bn ta)).cols ∨ (bn.acc acc.val).armed = true))) open_ ∧
    slot (.mdrain h raw z fs ta acc) (fun s bn => drainSlotBad s bn raw fs.val acc.val) ∧
    halts (.mdrain h raw z fs ta acc) (fun s t bn _ code =>
      let big := 64 * (4 - acc.val) < (TD.of (descAt bn ta)).cols ∨ 64 < (TD.of (descAt bn ta)).rows
      (big ∧ code = 0x0B) ∨ (¬ big ∧ windowBad (descAt bn ta) (drainWidth s bn raw fs.val) (tileSize s t) = true ∧ code = 0x0C))
      (room fun s bn => drainSlotBad s bn raw fs.val acc.val) ∧
    slot (.mdradd h raw fs a tb acc) (fun s bn => draddSlotBad s bn raw fs.val acc.val) ∧
    halts (.mdradd h raw fs a tb acc) (fun s t bn vs code =>
      let w := (op vs 0).toNat
      let e := draddFault t w (descAt bn tb)
      (e ≠ 0 ∧ code = e) ∨ (e = 0 ∧ ∃ pk p, peerBurin s (bits w 8 0) bn.ctx bn.launch = some (pk, p) ∧
        let has := (p.acc (bits w 12 11)).expect.getLsbD (bits w 20 16)
        (has = false ∧ code = 0x14) ∨ (has = true ∧ (p.acc (bits w 12 11)).tagNext ≠ (bn.acc acc.val).tagNext ∧ code = 0x0B)))
      (fun s t th vs => room (fun s bn => draddSlotBad s bn raw fs.val acc.val) s t th vs ∧
        headerWaits raw fs.val acc.val tb s t vs = false) ∧
    halts (.marm h acc a) (fun _ _ bn vs code => op vs 0 ≠ 0 ∧ (bn.acc acc.val).armed = true ∧ code = 0x0B) open_)

/-- R188, R192: one step of an MMA gives each output its own 32 products, taken onto what it held, and changes no other element; a
bitmap bit 0 skips its product. R202, R203: a contribution that the peer applies adds its elements to the accumulator one by one,
in FP32 or, where its header matched an s32 tag, mod 2^32 with WRAP, and changes no other element. -/
def Obligations.TileWorkIsElementwise : Prop :=
  (∀ (b : Burin) (m : Memory) (acc s : Nat) (ta tb : Opnd), b.accs.length = 4 → ta.d.rows ≤ 64 → acc * 64 + tb.d.cols ≤ 256 →
    let b' := mmaStepOn b m acc ta tb s
    (∀ i j, i < ta.d.rows → j < tb.d.cols →
      (b'.acc (acc + j / 64)).at_ i (j % 64) = (mmaOut m (isFlt ta.sl) ta tb s i j ((b.acc (acc + j / 64)).at_ i (j % 64))).1) ∧
    (∀ n i j, n < 4 → i < 64 → j < 64 → ¬ (i < ta.d.rows ∧ acc ≤ n ∧ 64 * (n - acc) + j < tb.d.cols) →
      (b'.acc n).at_ i j = (b.acc n).at_ i j) ∧
    (∀ n, (b'.acc n).tag = (b.acc n).tag ∧ (b'.acc n).armed = (b.acc n).armed) ∧ b'.desc = b.desc ∧ b'.queue = b.queue ∧
    (∀ flt i j c, (∀ q, q < 32 → ta.d.bit m i (32 * s + q) = false) → mmaOut m flt ta tb s i j c = (c, 0))) ∧
  (∀ (tag : Bool) (a : Acc) (es : List (Nat × Word)), (es.map (·.1)).Nodup → (∀ e ∈ es, e.1 < 4096) →
    let a' := es.foldl (addElem tag) a
    (∀ k x, (k, x) ∈ es → a'.at_ (k / 64) (k % 64) =
      if tag then a.at_ (k / 64) (k % 64) + x else (rnAdd (a.at_ (k / 64) (k % 64)) x).1) ∧
    (∀ k, k < 4096 → k ∉ es.map (·.1) → a'.at_ (k / 64) (k % 64) = a.at_ (k / 64) (k % 64)) ∧
    a'.tag = a.tag ∧ a'.armed = a.armed ∧ a'.expect = a.expect ∧
    (tag = true → (a'.sticky.getLsbD 5 = true ↔ a.sticky.getLsbD 5 = true ∨ ∃ k x, (k, x) ∈ es ∧
      ((a.at_ (k / 64) (k % 64)).toInt + x.toInt < -(2 ^ 31) ∨ 2 ^ 31 ≤ (a.at_ (k / 64) (k % 64)).toInt + x.toInt))))

/-! ### Engines, Gravers, collectives -/

/-- R261 to R271: the forms of class 0xA complete where their block or descriptor keeps its rules; a copy is queued with every field
captured, and COPYQ answers for a command of the team that is outstanding, else from its block. R272 to R280: the forms of class 0xB
complete where their addresses pass: GRED gives a lane its element of the rows' sums, GSTART and GSTOP start and stop a Graver
context, GMBOX exchanges a mailbox word, GID gives the number, GATTN queues a sequence with every field captured. A block in a set
that moves, and an address whose translation waits, hold the form back (R242, R351). Where an address fails or a block, descriptor or
argument breaks its rules, the lane stops with the rule's code and the address. -/
def Obligations.EngineFormsComplete : Prop :=
  (∀ (h : Hdr) (a b : Src) (q : Pat) (sn : Fin 4) (u : Da) (again : Bool),
    let still (n : Nat) : State → Tid → Thread → List (List Word) → Prop := fun s t th vs => blockHolds s t th (op vs 0) n = false
    Lands (if again then .copyr h a else .copy h a) h latMem (fun env s t th vs s1 r => ∃ x, blockAt s t th (op vs 0) 128 128 0x05 = .ok x ∧
      let blk := spotLoad s x 128
      blkBad blk = false ∧
      (if again then fieldAt blk 0x60 4 % 16 = 3 ∧ iterBad blk = false else fieldAt blk 0x60 4 % 16 ≠ 1) ∧
      ∃ s2, s2 = { s with ctr := s.ctr + 1 } ∧ ∃ s3, (match x with
        | .team key off w => s3 = spotStore s2 (.team key (off + 0x60) w) 4 1
        | .graver _ _ => s3 = s2) ∧
      s1 = { s3 with copies := s3.copies ++ [captureBlk s.ctr t env.seq th (op vs 0) blk (if again then blkIter blk else [0, 0, 0, 0, 0])] } ∧
      r = { held := true }) (free := fun s t th vs => still 128 s t th vs ∧ copyCrowd s [t] = false) ∧
    Answers (.copyq h u) h latMem (fun s t th vs => ∃ x, blockAt s t th (op vs 0) 128 128 0x05 = .ok x)
      (fun _ s t th vs s1 r => s1 = s ∧ ∃ x, blockAt s t th (op vs 0) 128 128 0x05 = .ok x ∧
        let mine (c : Copy) : Bool := c.core == coreNum t && c.ctx == th.ctx && c.launch == th.launch && c.team == th.team && c.blk == op vs 0
        (∀ c, s.copies.find? mine = some c → r = { out := [BitVec.ofNat 32 (1 + 2 ^ 16 * (c.done % 2 ^ 16))] }) ∧
        (s.copies.find? mine = none → r = { out := [BitVec.ofNat 32 (fieldAt (spotLoad s x 128) 0x60 4)] }))
      (free := still 128) ∧
    Lands (.strm h sn a b q) h latMem (fun _ s t th vs s1 r => ∃ x store w, blockAt s t th (op vs 0) 48 16 0x0F = .ok x ∧
      walkerOf (spotLoad s x 48) (op vs 1) = some (store, w) ∧ ∃ s2 e, (if store then flushStores s t else (s, 0)) = (s2, e) ∧
      s1 = s2.modThread t (fun th => if store then { th with stores := th.stores.set sn.val w }
        else { th with loads := th.loads.set sn.val w }) ∧ r = { late := lateOf e 0 })
      (free := fun s t th vs => strmHolds s t th vs = false) ∧
    Lands (.strfIn h sn) h latMem (fun _ s t _ _ s1 r => s1 = s.modThread t (fun th => { th with loads := th.loads.del sn.val }) ∧ r = {}) ∧
    Lands (.strfOut h sn) h latMem (fun _ s t _ _ s1 r => ∃ s2 e, flushStores s t = (s2, e) ∧
      s1 = s2.modThread t (fun th => { th with stores := th.stores.del sn.val }) ∧ r = { late := lateOf e 0 })
      (free := fun _ _ th _ => th.pushPends = false) ∧
    Lands (.strq h u) h latMem (fun _ s _ th vs s1 r => (op vs 0).toNat < 8 ∧ s1 = s ∧
      let out := (op vs 0).getLsbD 2
      r = { out := [strqWord ((if out then th.stores else th.loads).get ((op vs 0).toNat % 4)) out] }) ∧
    Stops (if again then .copyr h a else .copy h a) h (fun s t th vs s1 f => s1 = s ∧ (blockAt s t th (op vs 0) 128 128 0x05 = .error f ∨
      ∃ x, blockAt s t th (op vs 0) 128 128 0x05 = .ok x ∧
        let blk := spotLoad s x 128
        (blkBad blk = true ∨ if again then fieldAt blk 0x60 4 % 16 ≠ 3 ∨ iterBad blk = true else fieldAt blk 0x60 4 % 16 = 1) ∧
        f = { code := 0x11, addr := (op vs 0).setWidth 64 }))
      (free := fun s t th vs => still 128 s t th vs ∧ copyCrowd s [t] = false) ∧
    Stops (.copyq h u) h (fun s t th vs s1 f => s1 = s ∧ blockAt s t th (op vs 0) 128 128 0x05 = .error f) (free := still 128) ∧
    Stops (.strm h sn a b q) h (fun s t th vs s1 f => s1 = s ∧ (blockAt s t th (op vs 0) 48 16 0x0F = .error f ∨
      ∃ x, blockAt s t th (op vs 0) 48 16 0x0F = .ok x ∧ walkerOf (spotLoad s x 48) (op vs 1) = none ∧
        f = { code := 0x0F, addr := (op vs 0).setWidth 64 })) (free := fun s t th vs => strmHolds s t th vs = false) ∧
    Stops (.strq h u) h (fun s _ _ vs s1 f => s1 = s ∧ 8 ≤ (op vs 0).toNat ∧ f = { code := 0x0F })) ∧
  (∀ (h : Hdr) (a b : Src) (q : Pat) (u : Da) (d : Name) (mb : Option (Src × Pat)),
    let room (n : Nat) : State → Tid → Thread → List (List Word) → Prop := fun s t th vs => globalHolds s t th (opPair vs 0) n = false
    -- alone in its warp, a lane gets its own row as P[0]
    Answers (.gred h u) h latMem (fun s t th vs => t.lane < 32 ∧ ∀ f, gredRow s t th (opPair vs 0) ≠ some (.error f))
      (fun _ s t th vs s1 r => s1 = s ∧ match gredRow s t th (opPair vs 0) with
        | some (.ok (_, ws, code)) => r = { out := if code = 0 then canonNan (ws.getD t.lane 0) :: List.replicate 7 0 else List.replicate 8 0,
                                            late := lateOf code (opPair vs 0), awaits := replyOf s t th (opPair vs 0) }
        | _ => r = { out := List.replicate 8 0, awaits := replyOf s t th (opPair vs 0) }) (free := room 128) ∧
    Lands (.gstart h a b q) h latMem (fun _ s t th vs s1 r => ∃ s2 g e, blockOf s t th (opPair vs 0) = (s2, .ok (g, e)) ∧
      s1 = startOp s2 g ((op vs 1).setWidth 64) ∧ (s1.graver g).refused = false ∧ r = { late := lateOf e (opPair vs 0) }) (free := room 8) ∧
    Lands (.gstop h a) h latMem (fun _ s t th vs s1 r => ∃ s2 g e, blockOf s t th (opPair vs 0) = (s2, .ok (g, e)) ∧
      s1 = (if (s2.graver g).state = 1 then graverStop s2 g 2 0 else s2) ∧ r = { late := lateOf e (opPair vs 0) }) (free := room 8) ∧
    Lands (.gmbox h d a mb) h latMem (fun _ s t th vs s1 r =>
      let g := bits (op vs 0).toNat 15 3
      let k := bits (op vs 0).toNat 2 0
      (op vs 0).toNat < 2 ^ 16 ∧
      (match t with | .graver i _ => i / 2 = g / 2 | _ => (s.graver g).owner = th.ctx) ∧ (s.die (g / 1024)).fenced = false ∧
      -- after what the thread has sent to control blocks (R208, R273)
      ∃ s2 e, unitFirst s t = (s2, e) ∧
      s1 = (if mb.isNone then s2 else s2.modGraver g fun x => { x with mbox := setAt x.mbox k (op vs 1) }) ∧
      r = { out := [(s2.graver g).mbox.getD k 0], late := lateOf e ((op vs 0).setWidth 64) }) (free := fun _ _ th _ => th.pushPends = false) ∧
    Lands (.gid h d) h latMem (fun _ s t _ _ s1 r => s1 = s ∧ r = { out := [match t with
      | .graver g _ => 0x8000_0000 + BitVec.ofNat 32 g
      | t => BitVec.ofNat 32 (coreNum t)] }) ∧
    Answers (.gattn h u) h latMem (fun s t th vs => ∃ x bank, blockAt s t th (op vs 0) 64 16 0x05 = .ok x ∧
        gattnBad (spotLoad s x 64) = false ∧ gattnBank s t th (spotLoad s x 64) = .ok bank)
      (fun env s t th vs s1 r => r = { held := true } ∧ ∃ x bank, blockAt s t th (op vs 0) 64 16 0x05 = .ok x ∧
        gattnBank s t th (spotLoad s x 64) = .ok bank ∧
        let f := fieldAt (spotLoad s x 64)
        let g : Gattn :=
          { id := s.ctr, issuer := t, tix := th.tix, seq := env.seq, ctx := th.ctx, launch := th.launch, team := th.team, bank := bank,
            table := BitVec.ofNat 64 (f 0 8), query := BitVec.ofNat 64 (f 8 8), record := BitVec.ofNat 64 (f 0x10 8), n := f 0x18 4,
            dim := f 0x1C 2, tpg := f 0x1E 2, sigma := BitVec.ofNat 32 (f 0x20 4), fp16 := bitAt (f 0x24 4) 0,
            cont := bitAt (f 0x24 4) 1, page := f 0x28 4, m := 0xFF80_0000, l := 0, o := List.replicate (f 0x1C 2) 0 }
        s1 = { s with ctr := s.ctr + 1, gattns := s.gattns ++ [g] })
      (free := fun s t th vs => blockHolds s t th (op vs 0) 64 = false) ∧
    Stops (.gred h u) h (fun s t th vs s1 f => gredRow s t th (opPair vs 0) = some (.error f) ∧
      s1 = (leafFor s t th.ctx (opPair vs 0).toNat).1) (free := room 128) ∧
    Stops (.gstart h a b q) h (fun s t th vs s1 f => blockOf s t th (opPair vs 0) = (s1, .error f) ∨
      ∃ s2 g e, blockOf s t th (opPair vs 0) = (s2, .ok (g, e)) ∧ s1 = startOp s2 g ((op vs 1).setWidth 64) ∧
        (s1.graver g).refused = true ∧ f = { code := 0x12, addr := opPair vs 0 }) (free := room 8) ∧
    Stops (.gstop h a) h (fun s t th vs s1 f => blockOf s t th (opPair vs 0) = (s1, .error f)) (free := room 8) ∧
    Stops (.gmbox h d a mb) h (fun s t th vs s1 f =>
      let g := bits (op vs 0).toNat 15 3
      let own : Bool := match t with | .graver i _ => i / 2 == g / 2 | _ => (s.graver g).owner == th.ctx
      s1 = s ∧ f.addr = (op vs 0).setWidth 64 ∧ f = { code := f.code, addr := f.addr } ∧
      if 2 ^ 16 ≤ (op vs 0).toNat then f.code = 0x12
      else if own then (s.die (g / 1024)).fenced = true ∧ f.code = 0x15 else f.code = if t.isGraver then 0x04 else 0x07)
      (free := fun _ _ th _ => th.pushPends = false) ∧
    Stops (.gattn h u) h (fun s t th vs s1 f => s1 = s ∧ (blockAt s t th (op vs 0) 64 16 0x05 = .error f ∨
      ∃ x, blockAt s t th (op vs 0) 64 16 0x05 = .ok x ∧
        ((gattnBad (spotLoad s x 64) = true ∧ f = { code := 0x12, addr := (op vs 0).setWidth 64 }) ∨
          (gattnBad (spotLoad s x 64) = false ∧ gattnBank s t th (spotLoad s x 64) = .error f))))
      (free := fun s t th vs => blockHolds s t th (op vs 0) 64 = false)) ∧
  (∀ (b : Nat), let f := fieldAt b
    gattnBad b = false ↔ (1 ≤ f 0x18 4 ∧ f 0x18 4 ≤ 2 ^ 24 ∧ 8 ≤ f 0x1C 2 ∧ f 0x1C 2 ≤ 256 ∧ f 0x1C 2 % 8 = 0 ∧ 1 ≤ f 0x1E 2 ∧ f 0x1E 2 ≤ 256 ∧
      f 0x24 4 < 4 ∧ f 0x2C 20 = 0 ∧ f 0x28 4 * f 0x1E 2 < f 0x18 4))

/-- R262, R265: a command goes through its elements with i0 fastest, one after the other, and past the last it stands at the end
vector (ITER4 = COUNT4, the rest 0), never before. R268, R269, R271: the elements of a walker. Element number e has indices with
i0 fastest, at BASE plus the strides; the last index of a dimension sets its end bit; STRQ gives what is left. -/
def Obligations.ElementsInOrder : Prop :=
  (∀ (i0 i1 i2 i3 i4 c0 c1 c2 c3 c4 : Nat), i0 < c0 → i1 < c1 → i2 < c2 → i3 < c3 → i4 < c4 →
    let place (l : List Nat) : Nat := l.getD 0 0 + c0 * (l.getD 1 0 + c1 * (l.getD 2 0 + c2 * (l.getD 3 0 + c3 * l.getD 4 0)))
    let it := [i0, i1, i2, i3, i4]
    let cs := [c0, c1, c2, c3, c4]
    place (nextIter it cs) = place it + 1 ∧ (nextIter it cs).length = 5 ∧ place (endVec cs) = c0 * c1 * c2 * c3 * c4 ∧ it ≠ endVec cs ∧
    (nextIter it cs = endVec cs ∨ ∀ k, k < 5 → (nextIter it cs).getD k 0 < cs.getD k 0)) ∧
  (∀ (w : Walker) (c0 c1 c2 : Nat) (s0 s1 s2 : Word) (i0 i1 i2 : Nat), w.counts = [c0, c1, c2] → w.strides = [s0, s1, s2] →
    i0 < c0 → i1 < c1 → i2 < c2 →
    let e := i0 + c0 * (i1 + c1 * i2)
    w.addr e = w.base + BitVec.ofNat 64 i0 * s0.signExtend 64 + BitVec.ofNat 64 i1 * s1.signExtend 64 + BitVec.ofNat 64 i2 * s2.signExtend 64 ∧
    (w.ends e).getLsbD 0 = decide (i0 + 1 = c0) ∧ (w.ends e).getLsbD 1 = decide (i0 + 1 = c0 ∧ i1 + 1 = c1) ∧
    (w.ends e).getLsbD 2 = decide (i0 + 1 = c0 ∧ i1 + 1 = c1 ∧ i2 + 1 = c2) ∧
    w.total = c0 * c1 * c2 ∧
    (w.fetched = [] → w.next < w.total → w.total - w.next < 2 ^ 30 →
      strqWord (some w) false = BitVec.ofNat 32 (w.total - w.next) ||| 0x4000_0000) ∧
    (w.fetched = [] → w.next = w.total → strqWord (some w) false = 0x8000_0000) ∧ strqWord none false = 0 ∧ strqWord none true = 0)

/-- R286: a chunk is reduced in ascending participant order: the first contribution as it is, each further one added by R125; an
element that no participant holds is zero, and a NaN that nothing was added to is the canonical one (R107). R279: GRED's rows are
summed by bank, in lane order within a bank; the banks in ascending order give P[0] on, and P[7] takes every further one; a lane
reads its element of each. -/
def Obligations.ReductionsAddInOrder : Prop :=
  (∀ (vs : List (List (Nat × Word))) (e : Nat), (∀ l ∈ vs, ∀ x ∈ l, x.1 ≠ e) → reduceSum vs e = (0, 0)) ∧
  (∀ (vs : List (List (Nat × Word))) (e : Nat), reduceElem vs e =
    (if (f32v (reduceSum vs e).1).isNan then 0x7FC0_0000 else (reduceSum vs e).1, (reduceSum vs e).2)) ∧
  (∀ (vs : List (List (Nat × Word))) (l : List (Nat × Word)) (e : Nat) (x : Word),
    (∀ l ∈ vs, ∀ x ∈ l, x.1 ≠ e) → l.find? (·.1 == e) = some (e, x) →
    reduceSum (vs ++ [l]) e = (x, 0) ∧
    ∀ ys y l', l'.find? (·.1 == e) = some (e, y) →
      reduceSum (vs ++ [l] ++ ys ++ [l']) e =
        ((rnAdd (reduceSum (vs ++ [l] ++ ys) e).1 y).1, (reduceSum (vs ++ [l] ++ ys) e).2 ||| (rnAdd (reduceSum (vs ++ [l] ++ ys) e).1 y).2) ∧
      ((∀ x ∈ l', x.1 ≠ e + 1) → reduceSum (vs ++ [l] ++ ys ++ [l']) (e + 1) = reduceSum (vs ++ [l] ++ ys) (e + 1))) ∧
  (∀ (a b : List Word) (rs : List (List Word)) (i : Nat), a.length = 32 → b.length = 32 → i < 32 →
    (addRows a b)[i]? = some (rnAdd (a.getD i 0) (b.getD i 0)).1 ∧ (sumRows [a])[i]? = some (canonNan (a.getD i 0)) ∧ (rs ≠ [] → sumRows (rs ++ [b]) = addRows (sumRows rs) b)) ∧
  (∀ (rows : List (Nat × List Word)) (b : Nat) (ws : List Word),
    let rank (b : Nat) : Nat := (((rows.map (·.1)).filter (· < b)).eraseDups).length
    let count := ((rows.map (·.1)).eraseDups).length
    (gredSums rows).length = 8 ∧ (∀ n, count ≤ n → n < 8 → (gredSums rows)[n]? = some (List.replicate 32 0)) ∧
    (b ∈ rows.map (·.1) → rank b < 7 → (gredSums rows)[rank b]? = some (sumRows ((rows.filter (·.1 == b)).map (·.2)))) ∧
    -- a row of a bank above all others: it is P[count], or is added to P[7]
    ((∀ r ∈ rows, r.1 < b) →
      (count < 8 → (gredSums (rows ++ [(b, ws)]))[count]? = some (sumRows [ws])) ∧
      (8 ≤ count → (gredSums (rows ++ [(b, ws)]))[7]? = some (addRows ((gredSums rows).getD 7 []) (sumRows [ws]))) ∧
      (∀ n, n < 7 → n ≠ count → (gredSums (rows ++ [(b, ws)]))[n]? = (gredSums rows)[n]?))) ∧
  (∀ (i : Instr) (env : Env) (s : State) (t : Tid) (th : Thread) (vs : List (List Word)) (rows : List (Nat × List Word)),
    (∀ f, gredRow env.pre t th (opPair vs 0) ≠ some (.error f)) →
    ((∃ f, Except.error f ∈ gredRows env i) → gredLane i env s t th vs = (s, { keep := true })) ∧
    (gredRows env i = rows.map (fun r => .ok (r.1, r.2, 0)) → (∀ r, gredRow env.pre t th (opPair vs 0) = some (.ok r) → r.2.2 = 0) →
      gredLane i env s t th vs = (s, { out := (gredSums rows).map fun p => p.getD t.lane 0 })))

/-- R287 to R291: the forms of class 0xC complete. MGRP sets or clears the group of its descriptor; MLDRED adds its present members,
BF16 made FP32, in ascending order; MSTMC stores to each of them; both tell of absent members, MSTMC in a record that comes once all
its stores are acknowledged or lost and those of the issue's lower threads are reported (R425). R426: either may have its members
still to go to, one at each step, a member whose die is fenced by then being absent, and the members' answers come one by one between
them (which do, and when an answer comes, is the model's choice, log entry 72). R351: they wait for room in the miss table.
CFIRE counts its participant's firing of the chunk, or reports a second one; CSTAT reads, with the acquire of R235 when every chunk
is complete. Where one stops: 0x1D in a sealed context, 0x13 for a group, a binding, a chunk or a descriptor that breaks its rules, and
the codes of the addresses that fail. -/
def Obligations.CollectiveFormsComplete : Prop :=
  (∀ (h : Hdr) (d : Name) (a b : Src) (q : Pat) (wide : Bool),
    let w := if wide then 4 else 2
    Answers (.mgrp h a b q) h latMem
      (fun s t th vs => sealedCtx s th.ctx = false ∧ (op vs 1).toNat < 64 ∧ ∃ x, blockAt s t th (op vs 0) 80 16 0x05 = .ok x ∧
        let blk := spotLoad s x 80
        fieldAt blk 4 12 = 0 ∧ ∀ m, m < 8 → bitAt (fieldAt blk 0 1) m = true → baseOk s th.ctx blk m = true)
      (fun _ s t th vs s1 r => r = {} ∧ ∃ x, blockAt s t th (op vs 0) 80 16 0x05 = .ok x ∧
        let f := fieldAt (spotLoad s x 80)
        let g := (op vs 1).toNat
        let grp : SwGroup := { mask := BitVec.ofNat 8 (f 0 1), dies := (List.range 8).map (fun m => f 1 3 / 8 ^ m % 8),
                               bases := (List.range 8).map fun m => BitVec.ofNat 64 (f (0x10 + 8 * m) 8) }
        s1 = s.modCtx th.ctx fun c => { c with groups := if f 0 1 = 0 then c.groups.del g else c.groups.set g grp })
      (free := fun s t th vs => blockHolds s t th (op vs 0) 80 = false) ∧
    Answers (.mldred h d a b q) h latMem
      (fun s t th vs => sealedCtx s th.ctx = false ∧ ∃ g, groupAt s th.ctx (op vs 0) = some g ∧ (op vs 1).toNat % 2 = 0 ∧
        membersCheck s t th g (op vs 1).toNat 2 .read = none)
      (fun _ s t th vs s1 r => ∃ g, groupAt s th.ctx (op vs 0) = some g ∧
        let s0 := { s with delays := s.delays.tail }
        if s.delays.headD false = true then
          s1 = s0 ∧ r = { out := [0, 0], todo := some (.reduce g (op vs 1).toNat g.members 0 true []) }
        else ∃ sum first code, (g.present s).foldl (addMember t th g (op vs 1).toNat) (s0, 0, true, 0) = (s1, sum, first, code) ∧
        r = if code = 0 then { out := [0, 0], todo := some (.reduce g (op vs 1).toNat [] sum first (g.absent s1)),
                               awaits := (g.present s1).map fun m => .reply (g.dies.getD m 0) (g.bases.getD m 0 + w64 (op vs 1).toNat) }
          else { out := [0, 0], late := some (code, w64 (op vs 1).toNat) })
      (free := fun s t th vs => membersHold s t th vs = false) ∧
    Answers (.mstmc h wide d a b q) h latMem
      (fun s t th vs => sealedCtx s th.ctx = false ∧ ∃ g, groupAt s th.ctx (op vs 0) = some g ∧ (op vs 1).toNat % w = 0 ∧
        membersCheck s t th g (op vs 1).toNat w .write = none)
      (fun _ s t th vs s1 r => ∃ g, groupAt s th.ctx (op vs 0) = some g ∧
        let s0 := { s with delays := s.delays.tail }
        let b := (op vs 1).toNat
        let v := (op vs 2).toNat % 2 ^ (8 * w)
        if s.delays.headD false = true then s1 = s0 ∧ r = { todo := some (.multi g b w v g.members []) }
        else s1 = (g.present s).foldl (storeMember t th g b w v) s0 ∧
          r = { awaits := (g.present s1).map fun m => .ack (g.dies.getD m 0) m (g.bases.getD m 0 + w64 b),
                todo := some (.multi g b w v [] (g.absent s1)) })
      (free := fun s t th vs => membersHold s t th vs = false) ∧
    Stops (.mgrp h a b q) h (fun s t th vs s1 f => s1 = s ∧
      if sealedCtx s th.ctx then f = { code := 0x1D }
      else blockAt s t th (op vs 0) 80 16 0x05 = .error f ∨ ∃ x, blockAt s t th (op vs 0) 80 16 0x05 = .ok x ∧
        let blk := spotLoad s x 80
        (64 ≤ (op vs 1).toNat ∨ fieldAt blk 4 12 ≠ 0 ∨ ∃ m, m < 8 ∧ bitAt (fieldAt blk 0 1) m = true ∧ baseOk s th.ctx blk m = false) ∧
        f = { code := 0x13, addr := (op vs 0).setWidth 64 })
      (free := fun s t th vs => blockHolds s t th (op vs 0) 80 = false) ∧
    (let halts (n : Nat) (need : Need) (s : State) (t : Tid) (th : Thread) (vs : List (List Word)) (s1 : State) (f : Flt) : Prop :=
      s1 = s ∧ if sealedCtx s th.ctx then f = { code := 0x1D }
      else match groupAt s th.ctx (op vs 0) with
        | none => f = { code := 0x13, addr := (op vs 1).setWidth 64 }
        | some g => if (op vs 1).toNat % n ≠ 0 then f = { code := 0x05, addr := (op vs 1).setWidth 64 }
          else membersCheck s t th g (op vs 1).toNat n need = some f
    Stops (.mldred h d a b q) h (halts 2 .read) (free := fun s t th vs => membersHold s t th vs = false) ∧
    Stops (.mstmc h wide d a b q) h (halts w .write) (free := fun s t th vs => membersHold s t th vs = false))) ∧
  (∀ (s s' s'' : State) (t : Tid) (th : Thread) (g : SwGroup) (b w v m : Nat) (sum : Word) (first : Bool) (code c' : Nat) (p : Phys)
      (x : BitVec 512) (ms absent : List Nat) (o : Out) (a pc : DWord) (as : List (Nat × DWord)),
    let va := g.bases.getD m 0 + w64 b
    let gone := (s.die (g.dies.getD m 0)).fenced
    -- of one that has still to go to its members: an answer it awaits comes, or the next member
    let s0 := if o.awaits = [] then s else { s with delays := s.delays.tail }
    let answered := o.awaits ≠ [] ∧ s.delays.headD false = true
    (answered → performMulti s t th o g b w v absent (m :: ms) = (s0, { o with awaits := o.awaits.tail }) ∧
      performReduce s t th o g b sum first absent (m :: ms) = (s0, { o with awaits := o.awaits.tail })) ∧
    (¬ answered → performMulti s t th o g b w v absent (m :: ms) =
      (if gone then (s0, { o with todo := some (.multi g b w v ms (absent ++ [m])) })
       else (storeMember t th g b w v s0 m, { o with todo := some (.multi g b w v ms absent),
                                                     awaits := o.awaits ++ [.ack (g.dies.getD m 0) m va] }))) ∧
    (¬ answered → gone = true → performReduce s t th o g b sum first absent (m :: ms) =
      (s0, { o with todo := some (.reduce g b ms sum first (absent ++ [m])) })) ∧
    (¬ answered → gone = false → ∀ s1 y f, addMember t th g b (s0, sum, first, 0) m = (s1, y, f, 0) →
      performReduce s t th o g b sum first absent (m :: ms) = (s1, { o with
        todo := some (.reduce g b ms y false absent), awaits := o.awaits ++ [.reply (g.dies.getD m 0) va] })) ∧
    -- with none left: the answers, one by one, then the results or the record
    (o.awaits = [] → performReduce s t th o g b sum first absent [] =
      (s, { o with names := (o.names.map (·.1)).zip [sum, mldredStatus absent], value := sum, todo := none })) ∧
    (∀ e rest, o.awaits = e :: rest → performMulti s t th o g b w v absent [] = (s, { o with awaits := rest }) ∧
      performReduce s t th o g b sum first absent [] = (s, { o with awaits := rest })) ∧
    (o.awaits = [] → multiBefore s th o.seq = false → performMulti s t th o g b w v absent [] =
      (memberRec s t th o.pc ((g.members.filter absent.contains).map fun m => (m, g.bases.getD m 0 + w64 b)), { o with todo := none })) ∧
    (checkAccess s t th.ctx (g.bases.getD m 0 + w64 b).toNat 2 .read false = (s', .ok p) → homeRead s' (p.pa / 64) p.key = (s'', x, c') →
      let c := x.toNat / 2 ^ (8 * (p.pa % 64)) % 2 ^ 16
      let y : Word := if 0x7F80 < c % 2 ^ 15 then 0x7FC0_0000 else BitVec.ofNat 32 (2 ^ 16 * c)
      p.pa % 64 + 2 ≤ 64 → addMember t th g b (s, sum, first, code) m =
        (s'', if first then y else (rnAdd sum y).1, false, if code = 0 then c' else code)) ∧
    (checkAccess s t th.ctx (g.bases.getD m 0 + w64 b).toNat w .write false = (s', .ok p) →
      storeMember t th g b w v s m = bpStore s' (coreNum t) p w v) ∧
    mldredStatus [] = 0 ∧ mldredStatus (m :: ms) = BitVec.ofNat 32 (0x14 + 256 * m + 65536 * maskOfMembers (m :: ms)) ∧
    memberRec s t th pc [] = s ∧
    memberRec s t th pc ((m, a) :: as) = post s th.ctx th.launch { threadRec s t th 0x14 0 pc a (maskOfMembers (m :: as.map (·.1))) with
      engine := 7, level := asyncLevel s (some (t, th.tix)) th.ctx th.launch th.team }) ∧
  (∀ (h : Hdr) (a : Src) (u : Da),
    Answers (.cfire h a) h latMem
      (fun s _ th vs => bits (op vs 0).toNat 15 2 = 0 ∧ ∃ x b s2 d, s.recOf th = some x ∧ bindingOf x ((op vs 0).toNat % 4) = some b ∧
        readCDesc s th.ctx b.desc = (s2, .ok d) ∧ (op vs 0).toNat / 2 ^ 16 < d.chunks)
      (fun _ s t th vs s1 r =>
        let i := (op vs 0).toNat % 4
        let n := (op vs 0).toNat / 2 ^ 16
        ∃ x b s2 d, s.recOf th = some x ∧ bindingOf x i = some b ∧ readCDesc s th.ctx b.desc = (s2, .ok d) ∧
        ∃ s3 e, release s2 t .pool 0 = (s3, e) ∧ r = { late := lateOf e 0 } ∧ ∃ s4, s4 = (coreRelease s3 (coreNum t) .pool 0).1 ∧
        let part := d.pbase + th.team / max b.tpp 1
        let mine := chunkIs th.ctx th.launch i n
        let by_ := some (coreNum t, th.team, th.tix)
        match s4.chunks.find? mine with
        | none =>
          let new : Chunk := { ctx := th.ctx, launch := th.launch, bind := i, coll := d.id, chunk := n, fired := [part], teams := [th.team],
                               issuer := by_, remote := [], done := false, code := 0, flags := 0 }
          s1 = { s4 with chunks := s4.chunks ++ [new] }
        | some y =>
          let again := pressRec s4 th.ctx th.launch th.team 0x1C 0 n (asyncLevel s4 (some (t, th.tix)) th.ctx th.launch th.team)
          let more (y : Chunk) : Chunk := { y with fired := part :: y.fired, teams := th.team :: y.teams, issuer := by_ }
          s1 = if y.fired.contains part then post s4 th.ctx th.launch { again with thread := BitVec.ofNat 32 th.tix, pc := th.pc }
            else { s4 with chunks := s4.chunks.map fun y => if mine y then more y else y }) ∧
    Answers (.cstat h u) h latMem
      (fun s _ th vs => (op vs 0).toNat < 4 ∧ ∃ x b s2 d, s.recOf th = some x ∧ bindingOf x (op vs 0).toNat = some b ∧
        readCDesc s th.ctx b.desc = (s2, .ok d))
      (fun _ s t th vs s1 r => ∃ x b s2 d, s.recOf th = some x ∧ bindingOf x (op vs 0).toNat = some b ∧
        readCDesc s th.ctx b.desc = (s2, .ok d) ∧
        let mine := s.chunks.filter fun y => y.ctx == th.ctx && y.launch == th.launch && y.bind == (op vs 0).toNat
        let ends := (mine.filter fun y => y.done && y.code == 0).length
        s1 = (if d.chunks ≤ ends then acquireResult s2 t th.ctx d else s2) ∧
        r = { out := [BitVec.ofNat 32 (ends % 2 ^ 16 * 2 ^ 16 + ((mine.find? (·.code != 0)).elim 0 (·.code)) * 256 +
          (orAll (mine.map (·.flags))).toNat % 32)] }) ∧
    (let no (vs : List (List Word)) (s s1 : State) (f : Flt) : Prop := s1 = s ∧ f = { code := 0x13, addr := (op vs 0).setWidth 64 }
    Stops (.cfire h a) h (fun s _ th vs s1 f =>
      let b := (s.recOf th).bind fun x => bindingOf x ((op vs 0).toNat % 4)
      if bits (op vs 0).toNat 15 2 ≠ 0 ∨ b = none then no vs s s1 f
      else ∃ x, b = some x ∧ ((∃ e, readCDesc s th.ctx x.desc = (s1, .error e) ∧ f = flt e.1 e.2) ∨
        ∃ s2 d, readCDesc s th.ctx x.desc = (s2, .ok d) ∧ d.chunks ≤ (op vs 0).toNat / 2 ^ 16 ∧ no vs s2 s1 f)) ∧
    Stops (.cstat h u) h (fun s _ th vs s1 f =>
      let b := (s.recOf th).bind fun x => bindingOf x (op vs 0).toNat
      if 4 ≤ (op vs 0).toNat ∨ b = none then no vs s s1 f
      else ∃ x e, b = some x ∧ readCDesc s th.ctx x.desc = (s1, .error e) ∧ f = flt e.1 e.2))) ∧
  (∀ (s : State) (t : Tid) (ctx : Nat) (d : CDesc) (y : Thread), (acquireResult s t ctx d).thread t = some y → ∀ e ∈ y.loads, e.2.fetched = [])

/-! ### Events of cores -/

/-- R29, R307, R311, R314, R315, R317, R346, R386: what the events of a core leave. Threads of a quadrant that must stop before their next
slot stop first, and their groups keep the others (R378, R430). In its turn a quadrant issues the best ready group that reads no set
already being read, or begins the first of two cycles of its read; a group that then stalls gives the turn back; groups that have
waited for 256 cycles are promoted; spills, a proof slot's start, an aged bin's draw, one set of a move, the handover, and clock
steps, over which the cycles already counted stay (R373, R405). The model's choices: another 256 cycles are counted from a spill
(log entry 58); a chained slot takes no turn of its own, and which reads take two cycles (log entry 60); a handover ends the core's
proof slot (log entry 33). -/
def Obligations.CoreEventsComplete : Prop :=
  ∀ (s : State) (c q b : Nat),
    let x := s.core c
    (s.issuing.isSome = true → exec (.quadrantIssue c q) s = .next s) ∧
    (s.issuing = none → ∀ g, stopGroup s (c, q) = some g → exec (.quadrantIssue c q) s = .next (stopDeferred s g)) ∧
    (s.issuing = none → stopGroup s (c, q) = none → inTurn s (c, q) = false → exec (.quadrantIssue c q) s = .next s) ∧
    (∀ g, stopGroup s (c, q) = some g → g ∈ s.groups ∧ g.agent = (c, q) ∧ ∃ t ∈ g.mem, stopsNow s t = true) ∧
    (∀ g, g.agent = (c, q) → c < Config.cores → chained s g = false → let s' := stallGroup s g
      (∀ e ∈ turnNow s' c, e.1 ≠ q) ∧ (∀ e ∈ turnNow s c, e.1 ≠ q → e ∈ turnNow s' c) ∧ s'.threads = s.threads ∧
      s'.groups = s.groups ++ [{ g with readyAt := none, promoted := false, stalled := some s.now }]) ∧
    (s.issuing = none → stopGroup s (c, q) = none → inTurn s (c, q) = true →
      let s1 := noteReady s (c, q)
      let gs := candidates s1 (c, q)
      (gs = [] → exec (.quadrantIssue c q) s = .next s1) ∧
      (gs ≠ [] → ∃ g ∈ gs, (∀ h ∈ gs, rankBefore s1 h g = false) ∧ ∃ s2, s2 = takeTurn s1 (c, q) g ∧
        exec (.quadrantIssue c q) s = .next (if beginsRead s2 g then
          { s2 with groups := s2.groups.map fun h => if h == g then { h with reading := some s2.now } else h } else select s2 g))) ∧
    (∀ g ∈ candidates s (c, q), g ∈ readyOf s (c, q) ∧ (c < Config.cores → q < 4 → g.readOn s.now = true ∨ chained s g = true ∨
      (turnsPast s c ≤ turnOfQuadrant s q ∧ ∀ m ∈ useOf s g, m ∉ setsRead s c q))) ∧
    (q < 4 → (turnOfQuadrant s q = 0 ↔ s.now % 4 = q)) ∧
    exec (.ready256Promotion c) s = .next { s with groups := s.groups.map fun g =>
      if g.agent.1 = c ∧ (g.promoted || (g.readyAt.map fun r => decide (r + 256 ≤ s.now)).getD false) = true then { g with promoted := true } else g } ∧
    ((∀ t, x.stall = some t → s.now < max t x.lastAlloc + 256) → exec (.renameSpill c) s = .next s) ∧
    (∀ t w, x.stall = some t → max t x.lastAlloc + 256 ≤ s.now → spillVictim s c = some w → slotsHold s (spillableOf s c w) = false →
      exec (.renameSpill c) s = .next (((spillableOf s c w).foldl spillCell s).modCore c fun y => { y with stall := some s.now })) ∧
    (∀ w, spillVictim s c = some w → slotsHold s (spillableOf s c w) = true → exec (.renameSpill c) s = .next s) ∧
    (∀ k, s.ctx x.ctx = some k → k.handler ≠ 0 → x.proofOn = false → x.stopList ≠ [] →
      ∃ s', exec (.proofSlotStart c) s = .next s' ∧ s'.core c = { x with proofOn := true } ∧
        (∀ l, l < 32 → s'.thread (.proof c l) = some (Thread.start x.ctx 0 0 l l (k.handler + 8))) ∧
        (∃ g, s'.groups = s.groups ++ [g] ∧ g.mem = (List.range 32).map fun l => .proof c l) ∧
        (∀ t, (∀ l, l < 32 → t ≠ .proof c l) → s'.thread t = s.thread t)) ∧
    ((x.proofOn = true ∨ x.stopList = []) → exec (.proofSlotStart c) s = .next s) ∧
    (x.bins.get b = none → exec (.binAgedDraw c b) s = .next s) ∧
    (∀ bin, x.bins.get b = some bin →
      let age := ((s.ctx x.ctx).map (·.age)).getD 48
      ((∃ e ∈ bin.entries, e.filed + age ≤ s.now) → exec (.binAgedDraw c b) s = .next (binDraw s c b)) ∧
      ((∀ e ∈ bin.entries, s.now < e.filed + age) → exec (.binAgedDraw c b) s = .next s)) ∧
    (x.move = none → exec (.plateSetMoveDone c) s = .next s) ∧
    (∀ mv, x.move = some mv → moveNext s c mv = none → exec (.plateSetMoveDone c) s = .next s) ∧
    (∀ mv m, x.move = some mv → mv.from_ = .scratch → mv.issuer = none → x.moveStep mv = some (m, m) →
      let mv' := { mv with moved := mv.moved + 1, used := m :: mv.used }
      exec (.plateSetMoveDone c) s = .next (s.setCore c { x with
        roles := setAt x.roles m mv.to_, tile := x.tile.clear (m * Config.setBytes) Config.setBytes,
        badRows := x.badRows.filter fun e => e.1 != m, move := if mv.total ≤ mv.moved + 1 then none else some mv',
        lastMove := if mv.total ≤ mv.moved + 1 then some (mv', 0) else x.lastMove })) ∧
    (∀ mv m g, x.move = some mv → mv.from_ = .register → moveNext s c mv = some (m, g) → cellsOf (emptyRegs s c g) c g ≠ [] →
      exec (.plateSetMoveDone c) s = .next (emptyRegs s c g)) ∧
    (handoverDue s c = false → exec (.coreHandover c) s = .next s) ∧
    (handoverDue s c = true → ∃ s', exec (.coreHandover c) s = .next s' ∧ s'.core c = { Core.free with scClock := x.scClock } ∧
      (∀ e ∈ s'.cells, e.1.core ≠ c) ∧ (∀ k, k ≠ c → s'.core k = s.core k)) ∧
    (x.clkNext = none → exec (.clockStepApply c) s = .next s) ∧
    (∀ v, x.clkNext = some v → exec (.clockStepApply c) s = .next (s.setCore c (x.setClk s.now (min v (s.die (c / 40)).ceiling)))) ∧
    (∀ v, (x.setClk s.now v).clk = v ∧ (x.setClk s.now v).cycles s.now = x.cycles s.now) ∧
    (let v := if x.clk < 4000 then (if x.clk + 100 ≤ (s.die (c / 40)).ceiling then x.clk + 100 else x.clk)
       else if 4000 < x.clk then x.clk - 100 else x.clk
     let due := x.ctx ≠ 0 ∧ x.clk ≠ v ∧ max x.lastPhase x.since + 100 * Config.cyclesPerUs ≤ s.now
     (due → exec (.clockDrift c) s = .next (s.setCore c { x.setClk s.now v with lastPhase := s.now })) ∧
     (¬ due → exec (.clockDrift c) s = .next s))

/-- R293 to R302, R318 to R319, R339: what the coordinator's and the distributors' events leave. Of the heads in order, each that may be
taken draws what it must borrow and the first that fits is taken, one in a cycle; balances are charged by whole core-µs served and
refilled; teams are placed, with the moves they need; a gang reserves on the lowest die that holds it, starts its teams one in a
cycle, and gives way to a head of a lower class number that fits only without it, until that head is placed; a launch that is over
completes; the SPAWN that has waited longest enters its queue. -/
def Obligations.SchedulingEventsComplete : Prop :=
  ∀ (s : State) (ctx l : Nat) (t : Tid),
    (let s1 := noteIneligible (noteBlocked s)
     let open_ (h : Head) : Prop := considered s1 h = true ∧ predsDone s1 h = true
     (s1.taken = some s.now → exec .coordinatorArbitration s = .next s1) ∧
     (s1.taken ≠ some s.now → ∀ h pre post, orderedHeads s1 = pre ++ h :: post → (∀ k ∈ pre, open_ k → headFits s1 k = false) → open_ h →
       headFits s1 h = true → ∃ s2, s2 = (pre.filter fun k => considered s1 k && predsDone s1 k).foldl (fun s k => (borrow s k.ctx).1) s1 ∧
       ∀ s3, borrow s2 h.ctx = (s3, true) →
         exec .coordinatorArbitration s = .next { s3 with chosen := s.chosen ++ [(h.ctx, h.id)], taken := some s.now }) ∧
     ((∀ k ∈ orderedHeads s1, open_ k → headFits s1 k = false) → ∃ s', exec .coordinatorArbitration s = .next s' ∧ s'.chosen = s.chosen)) ∧
    (∃ s', exec .tokenCharge s = .next s' ∧ s' = { s with ctxs := s'.ctxs } ∧
      ∀ k, s'.ctx k = (s.ctx k).map fun x => if Config.cyclesPerUs ≤ x.owed then { x with owed := x.owed - Config.cyclesPerUs, bal := x.bal - 1 } else x) ∧
    (∀ k, (serveCycle s).ctx k = (s.ctx k).map fun x => { x with owed := x.owed + coresHolding s k }) ∧
    (∃ s', exec .tokenRefill s = .next s' ∧
      if s.refills < s.now / (10 * Config.cyclesPerUs) then s'.refills = s.refills + 1 ∧
        ((s.ctxs.map (·.1)).Nodup → ∀ k x, s.ctx k = some x →
          let repay := min x.debt (x.refill / 2)
          s'.ctx k = some { x with debt := x.debt - repay, bal := min (x.bal + ((x.refill : Int) - (repay : Int))) x.cap })
      else s' = s) ∧
    (∀ x, s.launchOf ctx l = some x → x.rcd.gang ≤ 1 → s.chosen.contains (ctx, l) = true →
      (x.reserve = [] → chooseCore s allCores ctx l x.rcd (claimsOn s) = none →
        exec (.teamPlace ctx l) s = .next { s with chosen := s.chosen.filter (· != (ctx, l)) }) ∧
      (∀ c, x.reserve = [] → chooseCore s allCores ctx l x.rcd (claimsOn s) = some (c, false) →
        exec (.teamPlace ctx l) s = .next (placeDone (startTeam s ctx l x.next c) ctx l)) ∧
      (∀ c, x.reserve = [] → chooseCore s allCores ctx l x.rcd (claimsOn s) = some (c, true) →
        exec (.teamPlace ctx l) s = .next (claimMove (s.setLaunch ctx l { x with reserve := [(x.next, c)] }) c l x.rcd)) ∧
      (∀ lin c, x.reserve = [(lin, c)] →
        exec (.teamPlace ctx l) s = .next (if claimDone s c l x.rcd then
          placeDone (startTeam (s.setLaunch ctx l { x with reserve := [] }) ctx l lin c) ctx l else claimMove s c l x.rcd))) ∧
    (∀ x, s.launchOf ctx l = some x → 1 < x.rcd.gang → s.chosen.contains (ctx, l) = true → x.reserve = [] →
      (gangPlan s ctx l x.rcd = none → ∃ s', exec (.gangReserve ctx l) s = .next s' ∧ s'.chosen = s.chosen.filter (· != (ctx, l)) ∧
        s'.teams = s.teams ∧ ∀ k m, s'.launchOf k m = s.launchOf k m) ∧
      (∀ cs, gangPlan s ctx l x.rcd = some cs → (∃ s', exec (.gangReserve ctx l) s = .next s' ∧ s'.chosen = s.chosen ∧ s'.teams = s.teams ∧
          s'.launchOf ctx l = some { x with reserve := (List.range cs.length).zip cs |>.map fun e => (x.next + e.1, e.2) }) ∧
        cs.length = x.rcd.gang ∧ ∃ d, (∀ c ∈ cs, c / 40 = d) ∧ (∀ e, e < d → gangPlanGo s e ctx l x.rcd x.rcd.gang [] = none) ∧
        ∀ i c, cs[i]? = some c → ∃ conv, teamFits s c ctx l x.rcd (claimsOn s c ++ ((cs.take i).filter (· == c)).map fun _ => (l, x.rcd)) = some conv)) ∧
    (∀ x, s.launchOf ctx l = some x → 1 < x.rcd.gang →
      (x.reserve = [] → exec (.gangCommit ctx l) s = .next s) ∧
      (commitReady s ctx l x = false → exec (.gangCommit ctx l) s = .next s) ∧
      (∀ lin c rest, x.reserve = (lin, c) :: rest → commitReady s ctx l x = true → ∃ s1,
        s1 = startTeam (s.setLaunch ctx l { x with reserve := rest, committing := !rest.isEmpty }) ctx l lin c ∧
        exec (.gangCommit ctx l) s = .next (if rest = [] then placeDone s1 ctx l else s1)) ∧
      ((x.reserve = [] ∨ x.committing = true) → exec (.gangReservationRelease ctx l) s = .next s) ∧
      (x.reserve ≠ [] → x.committing = false →
        let bare := unreserved s ctx l none
        let rival (h : Head) : Prop := h.l.rcd.cls < x.rcd.cls ∧ considered s h = true ∧ predsDone s h = true ∧ balanceOk s h.ctx = true ∧
          headFits s h = false ∧ headFits bare h = true
        ((∀ h ∈ orderedHeads s, ¬ rival h) → exec (.gangReservationRelease ctx l) s = .next s) ∧
        ((∃ h ∈ orderedHeads s, rival h) → ∃ h ∈ orderedHeads s, rival h ∧ ∃ s', exec (.gangReservationRelease ctx l) s = .next s' ∧
          s'.launchOf ctx l = some { x with reserve := [], yieldTo := some (h.ctx, h.id) } ∧ (ctx, l) ∉ s'.chosen))) ∧
    (∀ h k, h.l.yieldTo = some k → (∃ y ∈ heads s, (y.ctx, y.id) = k) → considered s h = false) ∧
    (∀ x, s.launchOf ctx l = some x →
      (launchOver s ctx l x = false → exec (.launchComplete ctx l) s = .next s) ∧
      (launchOver s ctx l x = true → ∃ s' y, exec (.launchComplete ctx l) s = .next s' ∧ s'.launchOf ctx l = some y ∧
        y.done = some (if x.severed.isSome then 4 else if x.killed then 2 else if x.cancelled then 3 else if x.marked then 1 else 0) ∧
        (ctx, l) ∉ s'.chosen)) ∧
    (∀ th seq bs a, s.thread t = some th → th.status = .waiting (.spawn seq bs a) →
      let q := spawnsFor s th.ctx (parseRec bs).queue
      (∀ e ∈ q.head?, ∀ k ∈ q, e.2.1 ≤ k.2.1) ∧
      ((∀ e ∈ q.head?, e.1 ≠ t) → exec (.spawnEnqueue t) s = .next s) ∧
      (∀ e, q.head? = some e → e.1 = t →
        (queueFull s th.ctx (parseRec bs) = true → exec (.spawnEnqueue t) s = .next s) ∧
        (queueFull s th.ctx (parseRec bs) = false → ∀ s1 id, enqueueLaunch s th.ctx (parseRec bs) = (s1, id) →
          exec (.spawnEnqueue t) s = .next ((finish s1 t seq (idWords id) []).wake [t]))))

/-- R316, R393 to R396: saves and resumptions. PREQ is raised for the victims of a head held back for 20 µs, a forced save comes after
the deadline, a team is saved once all its threads have stopped, and resumes where it fits and no lower class waits. -/
def Obligations.SaveEventsComplete : Prop :=
  ∀ (s : State) (ctx q c k l lin : Nat),
    (((heads s).find? fun h => h.ctx == ctx && h.q == q) = none → exec (.preqRaise ctx q) s = .next s) ∧
    (∀ h t, ((heads s).find? fun h => h.ctx == ctx && h.q == q) = some h → h.l.ineligible = some t →
      (s.now < t + 20 * Config.cyclesPerUs → exec (.preqRaise ctx q) s = .next s) ∧
      (t + 20 * Config.cyclesPerUs ≤ s.now → ∀ ks, preqVictims s h = some ks → exec (.preqRaise ctx q) s = .next (ks.foldl raisePreq s))) ∧
    (∀ tm, s.teams.get (c, k) = some tm →
      let us := unitTeams s tm
      let d := ((s.launchOf tm.ctx tm.launch).map (·.rcd.deadline)).getD 0
      (tm.saving = true → exec (.forcedSave c k) s = .next s) ∧
      ((s.threads.map (·.1)).Nodup → ∀ e ∈ unitThreads s us, e.2.status.savable = false →
        (holdUnit s us).thread e.1 = some { e.2 with status := .yielded } ∧ ∀ g ∈ (holdUnit s us).groups, e.1 ∉ g.mem) ∧
      (tm.saving = false → tm.preq = none → exec (.forcedSave c k) s = .next s ∧ exec (.teamSave c k) s = .next s) ∧
      (tm.saving = false → ∀ t, tm.preq = some t →
        (s.now < t + 256 * d → exec (.forcedSave c k) s = .next s) ∧
        (t + 256 * d ≤ s.now → allSavable s us = false → exec (.forcedSave c k) s = .next (forceUnit s us)) ∧
        (allSavable s us = false → exec (.teamSave c k) s = .next s) ∧
        (allSavable s us = true → (s.threads.map (·.1)).Nodup → (∀ e ∈ unitThreads s us, e.2.outs = []) →
          s.copies = [] → s.burins = [] →
          exec (.teamSave c k) s = .next (us.foldl (fun s u => saveTeam s u.1) ((unitThreads s us).foldl (fun s e => beforeSave s e.1) s))))) ∧
    (∀ x, s.launchOf ctx l = some x →
      let us := savedUnit s ctx l lin
      (resumesFirst s x ctx l lin = false → exec (.teamResume ctx l lin) s = .next s) ∧
      (resumesFirst s x ctx l lin = true →
        (∀ cs, resumeAt s x us = some (cs, false) → exec (.teamResume ctx l lin) s = .next (resumeUnit s (us.zip cs) x)) ∧
        (∀ cs, resumeAt s x us = some (cs, true) → exec (.teamResume ctx l lin) s = .next (cs.eraseDups.foldl (fun s c => convertFor s x.rcd (us.zip cs) c) s)) ∧
        ∀ v ∈ s.saved, v.team.ctx = ctx → v.team.launch = l → (resumeAt s x (savedUnit s ctx l v.team.lin)).isSome = true →
          ∃ u ∈ s.saved, (gangSpan s ctx l u.team.lin).1 = (gangSpan s ctx l lin).1 ∧ u.since ≤ v.since) ∧
      (∀ cs conv, resumeAt s x us = some (cs, conv) → headWaits s x.rcd.cls cs = false)) ∧
    (exchangeDue (noteBlocked s) ctx l = false → exec (.residencyExchange ctx l) s = .next (noteBlocked s)) ∧
    (exchangeDue (noteBlocked s) ctx l = true → ∃ s' e, exec (.residencyExchange ctx l) s = .next s' ∧ e ∈ residents (noteBlocked s) ctx l ∧
      (∀ f ∈ residents (noteBlocked s) ctx l, (unitBlocked (noteBlocked s) e.2).getD s.now ≤ (unitBlocked (noteBlocked s) f.2).getD s.now) ∧
      s'.threads = (forceUnit (raisePreq (noteBlocked s) e.1) (unitTeams (noteBlocked s) e.2)).threads ∧
      ∀ k tm, s'.teams.get k = some tm → tm.ctx = ctx → tm.launch = l → tm.blocked = none ∨ tm.blocked = some s.now)

/-- R253, R255 to R282: the ends of waits, copies and streams, Graver contexts and paged-attention sequences. -/
def Obligations.WaitAndEngineEventsComplete : Prop :=
  ∀ (s : State) (t : Tid) (th : Thread) (id g : Nat) (n : Fin 4),
    s.thread t = some th →
    (∀ seq k wide p l, th.status = .waiting (.barrier seq k wide p (some l)) →
      (s.now < l → exec (.barrierTimeout t) s = .next s) ∧
      (l ≤ s.now → exec (.barrierTimeout t) s = .next ((finish s t seq [] [(p, false)]).wake [t]))) ∧
    (∀ seq cc wide a b lim seen next, th.status = .waiting (.waita seq cc wide a b lim seen next) →
      (s.now < next → sectorWritten s t th a (if wide then 8 else 4) seen = false → exec (.waitaRecheck t) s = .next s) ∧
      ∀ s1 v sec, waitaRead s t th a (if wide then 8 else 4) = (s1, .ok (v, 0, sec)) →
      (waitaDue s t = true →
        (waitaMet cc wide (w64 v) b = true → exec (.waitaRecheck t) s = .next (waitaEnd s1 t seq wide v)) ∧
        (waitaMet cc wide (w64 v) b = false → exec (.waitaRecheck t) s = .next (s1.modThread t fun th =>
          { th with status := .waiting (.waita seq cc wide a b lim sec (s1.now + cyc t 1024)) }))) ∧
      (∀ l, lim = some l → (l ≤ s.now → exec (.waitaTimeout t) s = .next (waitaEnd s1 t seq wide v)) ∧
        (s.now < l → exec (.waitaTimeout t) s = .next s))) ∧
    (∀ c, copyOf s id = some c → copyHolds s c = true → exec (.copyElement id) s = .next s ∧ exec (.copyComplete id) s = .next s) ∧
    (∀ c, copyOf s id = some c → c.rel = false → copyHolds s c = false →
      (c.over = false → ∀ s1, doElement s c = (s1, none) →
        exec (.copyElement id) s = .next (setCopy s1 { c with iter := nextIter c.iter c.counts, done := c.done + 1 }) ∧
        exec (.copyElementFault id) s = .next s) ∧
      (c.over = false → ∀ s1 code a, doElement s c = (s1, some (code, a)) →
        exec (.copyElementFault id) s = .next (copyFail s1 c code) ∧ exec (.copyElement id) s = .next s) ∧
      (c.over = false → exec (.copyComplete id) s = .next s) ∧
      (c.over = true → bitAt c.flags 2 = false → exec (.copyComplete id) s = .next (endCopy (writeBlk s c 2 none) c)) ∧
      (c.over = true → bitAt c.flags 2 = true → ∀ s1, engWord s c.ctx c.caddr.toNat 4 c.cval.toNat c.via = (s1, none) →
        exec (.copyComplete id) s = .next (endCopy (writeBlk s1 c 2 none) c))) ∧
    (∀ w, th.loads.get n.val = some w →
      (16 ≤ w.fetched.length ∨ w.total ≤ w.next → exec (.streamPrefetch t n) s = .next s) ∧
      (w.fetched.length < 16 → w.next < w.total → walkHolds s t th (w.addr w.next) w.ty.bytes = false → ∀ s1 v, globalLoad s t th (w.addr w.next) w.ty.bytes w.bp false .plain .core = (s1, .ok (v, none)) →
        exec (.streamPrefetch t n) s = .next (s1.modThread t fun th => 
          { th with loads := th.loads.set n.val { w with fetched := w.fetched ++ [((placeWords w.ty v).headD 0, 0)], next := w.next + 1 } }))) ∧
    (∀ w, th.stores.get n.val = some w →
      (w.pushed = [] → exec (.streamStorePerformed t n) s = .next s) ∧
      (∀ a v q rest, w.pushed = (a, v, some q) :: rest → exec (.streamStorePerformed t n) s = .next s) ∧
      (∀ e rest s1, w.pushed = e :: rest → e.2.2 = none → performElem s t th.ctx w e = (s1, 0) →
        exec (.streamStorePerformed t n) s = .next (s1.modThread t fun th => { th with stores := th.stores.set n.val { w with pushed := rest } }))) ∧
    (∀ wr : Writer,
      (mayWrite s wr g = true ↔ g < 8192 ∧ (s.graver g).owner ≠ 0 ∧ writerCtx s wr = some (s.graver g).owner) ∧
      (mayWrite s wr g = false → ∀ v off b, exec (.startWrite ⟨wr, g⟩ v) s = .next s ∧ exec (.controlBlockWrite ⟨wr, g⟩ off v b) s = .next s) ∧
      (mayWrite s wr g = true →
        (∀ v : DWord, (v.toNat % 32 ≠ 0 ∨ v.toNat / 2 ^ 30 ≠ 0 ∨ (s.graver g).state = 1) →
          exec (.startWrite ⟨wr, g⟩ v) s = .next (s.setGraver g { s.graver g with refused := true })) ∧
        (∀ v : DWord, v.toNat % 32 = 0 → v.toNat / 2 ^ 30 = 0 → (s.graver g).state ≠ 1 →
          ∀ va leaf, vaOf s (s.graver g).owner (bankBase (g / 2) + v.toNat % 2 ^ 28) = some (va, leaf) → leaf.getLsbD 4 = true →
          ∃ s', exec (.startWrite ⟨wr, g⟩ v) s = .next s' ∧ (s'.graver g).state = 1 ∧ (s'.graver g).refused = false ∧ (s'.graver g).start = v ∧
            ∀ x, x < 8 * (v.toNat / 2 ^ 28 + 1) → s'.thread (.graver g x) = some (Thread.start (s.graver g).owner 0 0 x x (w64 va + 8))) ∧
        (∀ v : DWord, exec (.controlBlockWrite ⟨wr, g⟩ 0x18 v false) s = .next (s.setGraver g { s.graver g with cval := loOf v }) ∧
          exec (.controlBlockWrite ⟨wr, g⟩ 0x10 v true) s = .next (s.setGraver g { s.graver g with cptr := v }) ∧
          (∀ k : Fin 8, exec (.controlBlockWrite ⟨wr, g⟩ (0x20 + 4 * k.val) v false) s =
            .next (s.setGraver g { s.graver g with mbox := setAt (s.graver g).mbox k.val (loOf v) })) ∧
          exec (.controlBlockWrite ⟨wr, g⟩ 0x08 v true) s = .next (s.setGraver g (s.graver g))))) ∧
    ((s.graver g).state ≠ 1 → exec (.graverExit g) s = .next s) ∧
    (∀ x, t = .graver g x → (th.status ≠ .exited → exec (.graverExit g) s = .next s) ∧
      ((s.graver g).state = 1 → (∀ u uh, s.thread (.graver g u) = some uh → uh.status = .exited) → (s.threads.map (·.1)).Nodup →
        (s.graver g).cptr = 0 → exec (.graverExit g) s = .next (graverStop (applyNotices s (some (g / 2))) g 0 0))) ∧
    (∀ x, gattnOf s id = some x →
      ∃ s1, s1 = gattnMisses s x ∧
      (∀ y, x.page < gattnPages x.n x.tpg → applyPage s x = .ok y →
        exec (.gattnPage id) s = .next { s1 with gattns := s1.gattns.map fun z => if z.id == id then y else z } ∧
        exec (.gattnComplete id) s = .next s) ∧
      (∀ code, x.page < gattnPages x.n x.tpg → applyPage s x = .error code →
        exec (.gattnPage id) s = .next (gattnEnd (gattnRec s1 x code) x (w32 (code + 256 * x.page)))) ∧
      (gattnPages x.n x.tpg ≤ x.page → exec (.gattnPage id) s = .next s ∧
        exec (.gattnComplete id) s = .next (gattnEnd s x (w32 (256 * (gattnPages x.n x.tpg - 1))))))

/-- R192, R193, R203, R285, R286: the steps of the tile engine, of drain-adds and of a Press. A step runs only in its context's turn;
a chunk is reduced once every participant has fired it. The model's choices: a contribution accepted under an earlier arming adds its
elements and counts for no later one (log entry 22), and a contribution is applied at once, before forms that its peer has queued
(log entry 76). -/
def Obligations.TileAndPressEventsComplete : Prop :=
  ∀ (s : State) (c k : Nat),
    ((∀ b, s.burin c k = some b → turnOf s c ≠ some k) → exec (.mmaStep c k) s = .next s) ∧
    (turnOf s c = some k →
      let after (i : Nat) : Nat := ((s.core c).tileTurn + 1 + i) % 4
      let works (i : Nat) : Bool := ((s.burin c (after i)).map (tileWork s)).getD false
      ∃ i, i < 4 ∧ k = after i ∧ works i = true ∧ ∀ j, j < i → works j = false) ∧
    (∀ b seq acc ta tb step rest oa ob, s.burin c k = some b → b.queue = (seq, .mma acc ta tb step) :: rest → turnOf s c = some k →
      opndOf s b ta = some oa → opndOf s b tb = some ob →
      (stepBad s c oa ob step = true → exec (.mmaStep c k) s = .next (tileFault s c k seq step)) ∧
      (stepBad s c oa ob step = false → ∃ b', b'.queue = (seq, .mma acc ta tb (step + 1)) :: rest ∧
        b'.desc = b.desc ∧ (∀ n i j, (b'.acc n).at_ i j = ((mmaStepOn b (s.core c).tile acc oa ob step).acc n).at_ i j) ∧
        let s1 := (served s c k).setBurin c k b'
        exec (.mmaStep c k) s = .next (if oa.d.cols / 32 ≤ step + 1 then tileDone s1 c k seq else s1))) ∧
    (∀ seq step th, s.thread (.burin c k) = some th → th.status ≠ .exited →
      let b (x : Burin) : Burin := { x with queue := x.queue.filter (·.1 != seq) }
      tileFault s c k seq step = takeFault (abandon (s.modBurin c k b) (.burin c k) seq) (.burin c k)
        (threadRec s (.burin c k) th 0x18 0 (outPc th seq) 0 step) (outPc th seq) seq) ∧
    (∀ b, s.burin c k = some b → b.inbox = [] → exec (.drainAddApply c k) s = .next s) ∧
    (∀ b x rest, s.burin c k = some b → b.inbox = x :: rest →
      (x.sent = false → exec (.drainAddApply c k) s = .next s) ∧
      (x.sent = true →
        let a := x.elems.foldl (addElem x.tag) (b.acc x.acc)
        let a := if x.arm == a.armSeq then { a with applied := a.applied ||| (1#32 <<< x.idx) } else a
        let s1 := s.setBurin c k { b.setAcc x.acc a with inbox := rest }
        exec (.drainAddApply c k) s = .next (burinReap (armCheck (senderDone s1 x) c k x.acc) c k))) ∧
    (∀ x d m, burinKey s x.sender = some (d, m) → senderDone s x = burinReap (finish s (.burin d m) x.seq [] []) d m) ∧
    (∀ b, s.burin c k = some b → headerReady s b = false → exec (.drainAddHeaderAccept c k) s = .next s) ∧
    (∀ b g, s.burin c k = some b → headerReady s b = true → s.issuing = none →
      s.groups.find? (fun g => g.mem == [.burin c k]) = some g →
      (ready s g = false → exec (.drainAddHeaderAccept c k) s = .next s) ∧
      (ready s g = true → exec (.drainAddHeaderAccept c k) s = .next (select (s.setBurin c k { b with header := none }) g))) ∧
    (∀ (ctx l i n : Nat) (x : Chunk) (y : Launch) (b : Binding), s.chunks.find? (chunkIs ctx l i n) = some x → s.launchOf ctx l = some y →
      bindingOf y.rcd i = some b →
      (x.done = true ∨ y.stopped = true → exec (.pressChunkReduce ctx l i n) s = .next s) ∧
      (x.done = false → y.stopped = false → ∀ s1 code va, readCDesc s ctx b.desc = (s1, .error (code, va)) →
        exec (.pressChunkReduce ctx l i n) s = .next (collFault s1 ctx l i (knownChunks s1 ctx l i) code va x.issuer)) ∧
      (x.done = false → y.stopped = false → ∀ s1 d s2 nodes, readCDesc s ctx b.desc = (s1, .ok d) → peerNodes s1 ctx d = (s2, .ok nodes) →
        (collFaulted s2 ctx l i = true → exec (.pressChunkReduce ctx l i n) s = .next (endChunks s2 ctx l i 0x13 (· == n))) ∧
        (collFaulted s2 ctx l i = false →
        (nodes.head? ≠ some s2.pkg.node ∨ (∃ p ∈ withNodes nodes, hasFired s2 ctx d.id n s2.pkg.node p = false) →
          exec (.pressChunkReduce ctx l i n) s = .next s2) ∧
        (nodes.head? = some s2.pkg.node → (∀ p ∈ withNodes nodes, hasFired s2 ctx d.id n s2.pkg.node p = true) →
          ∀ s3 vs, contributions s2 ctx d b.sparse nodes n = (s3, .ok vs) →
          exec (.pressChunkReduce ctx l i n) s = .next (writeResult s3 ctx l i d n ((List.range (chunkSize d n)).map fun e => (reduceElem vs e).1)
            (orAll ((List.range (chunkSize d n)).map fun e => (reduceElem vs e).2)))))))

/-! ### Memory, links, power -/

/-- R212, R214, R351, R378, R399 to R405, R407, R426: notices, invalidations, table walks, scrubs, link replays and retrains, the fence
of a die and the replies and acknowledgements it loses, fatal errors, power steps. Which sector stands in which piece of a cache set
is the model's choice (log entry 77). -/
def Obligations.PackageEventsComplete : Prop :=
  ∀ (s : State) (d bank line code source : Nat) (p : EccPlace),
    let x := s.die d
    (s.notices.find? (·.1 == bank) = none → exec (.bankNoticeApply bank) s = .next s) ∧
    (∀ e, s.notices.find? (·.1 == bank) = some e → ∃ s', exec (.bankNoticeApply bank) s = .next s' ∧ s'.notices = s.notices.erase e ∧
      s'.mem = s.mem ∧ (∀ y, l2Find s (homeOf (e.2 * 64)) e.2 = some y → y.dirty = false → l2Find s' (homeOf (e.2 * 64)) e.2 = none) ∧
      (∀ j k, k ≠ e.2 → l2Find s' j k = l2Find s j k)) ∧
    (regionOf (line * 512) ≠ some .pool → exec (.cxlBackInvalidate line) s = .next s) ∧
    (regionOf (line * 512) = some .pool → s.mem.wf = true → ∃ s', exec (.cxlBackInvalidate line) s = .next s' ∧ s'.mem.wf = true ∧
      (∀ e ∈ (s'.die (homeOf (line * 512))).l2, e.sec / 8 ≠ line) ∧ (∀ t, s'.thread t = s.thread t)) ∧
    (x.miss = [] → exec (.tlbMissWalk d) s = .next s) ∧
    (∀ ctx page die base rest, x.miss = (ctx, page, die, base) :: rest →
      ∃ s', exec (.tlbMissWalk d) s = .next s' ∧ (s'.die d).miss = rest ∧ (∀ e, e ≠ d → s'.die e = s.die e) ∧ s'.mem = s.mem ∧
        (walk s ctx (page * 0x1_0000) = none → (s'.die d).tlb = x.tlb ∧ (s'.die d).baseTlb = x.baseTlb) ∧
        (∀ size leaf, walk s ctx (page * 0x1_0000) = some (size, leaf) →
          let e := some { ctx := ctx, va := page * 0x1_0000 / size, size := size, leaf := leaf }
          (if die then tlbFind (s'.die d).tlb ctx (page * 0x1_0000) = e else (s'.die d).tlb = x.tlb) ∧
          (if base then tlbFind (s'.die d).baseTlb ctx (page * 0x1_0000) = e else (s'.die d).baseTlb = x.baseTlb))) ∧
    exec (.dramScrub p 0) s = .next s ∧
    exec (.dramScrub p 1) s = .next (s.setDie (eccDie p) { s.die (eccDie p) with ecc := (s.die (eccDie p)).ecc + 1 }) ∧
    (∀ sec, p = .dram sec → ∃ s' s'', exec (.dramScrub p 2) s = .next s' ∧ exec (.dramScrub p 3) s = .next s'' ∧
      s' = { s with poison := s'.poison } ∧ s'' = { s with badCrc := s''.badCrc } ∧
      ∀ k, s'.poison.contains k = (s.poison.contains k || k == canonSec sec) ∧
        s''.badCrc.contains k = (s.badCrc.contains k || k == canonSec sec)) ∧
    ((∀ sec, p ≠ .dram sec) → exec (.dramScrub p 3) s = .next s) ∧
    (∀ k, eccKey p = some k → ∃ s', exec (.dramScrub p 2) s = .next s' ∧ s' = { s with cells := s'.cells } ∧
      ∀ j, s'.cells.get j = (s.cells.get j).map fun y => if j = k then { y with poison := true } else y) ∧
    (∀ c m n, p = .plate c m n → (s.core c).roles[m]? = some .cache → ∀ l, pieceLine (s.core c) m n = some l →
      ∃ s', exec (.dramScrub p 2) s = .next s' ∧ (∀ k, k ≠ c → s'.core k = s.core k) ∧ s'.mem = s.mem ∧ s'.threads = s.threads ∧
        (∀ k, k ≠ l.num → lineOf (s'.core c) k = lineOf (s.core c) k) ∧ lineOf (s'.core c) l.num = some (lineSetSec l (n % 8)
          { lineSec l (n % 8) with bad := !(lineSec l (n % 8)).isAbsent })) ∧
    (∀ g n, p = .graver g n → ∃ x', exec (.dramScrub p 2) s = .next (s.setGraver g x') ∧ x' = { s.graver g with badRows := x'.badRows } ∧
      ∀ k, x'.badRows.contains k = ((s.graver g).badRows.contains k || k == n)) ∧
    (∀ c m n, p = .plate c m n → (s.core c).roles[m]? ≠ some .cache →
      ∃ s', exec (.dramScrub p 2) s = .next s' ∧ (∀ k, k ≠ c → s'.core k = s.core k) ∧
      (∀ k, (s'.core c).badRows.contains k = ((s.core c).badRows.contains k || k == (m, n))) ∧ s'.mem = s.mem ∧ s'.threads = s.threads) ∧
    exec (.linkReplay d) s = .next (s.setDie d { x with replays := x.replays + 1 }) ∧
    exec (.linkRetrain d true) s = .next (s.setDie d { x with retrains := x.retrains + 1, failed := 0 }) ∧
    exec (.linkRetrain d false) s = .next (s.setDie d { x with retrains := x.retrains + 1, failed := x.failed + 1 }) ∧
    ((x.failed < 3 ∨ x.fenced = true) → exec (.dieFence d) s = .next s) ∧
    (3 ≤ x.failed → x.fenced = false → d < 8 → ∃ s', exec (.dieFence d) s = .next s' ∧ (s'.die d).fenced = true ∧
      (∀ t, t.isGraver = false → coreNum t / Config.coresPerDie = d → s'.thread t = none) ∧
      (∀ e ∈ s'.teams, e.1.1 / Config.coresPerDie ≠ d) ∧ (∀ e ∈ s'.burins, e.1.1 / Config.coresPerDie ≠ d)) ∧
    (∀ t th o a, s.thread t = some th → o ∈ th.outs → a ∈ o.awaits → a.from = d →
      ∃ th' o', (loseAwaits s d t).thread t = some th' ∧ o' ∈ th'.outs ∧ o'.seq = o.seq ∧ (∀ b ∈ o'.awaits, b.from ≠ d) ∧
        (∀ m va g b w v left absent, a = .ack d m va → (∀ va, .reply d va ∉ o.awaits) → o.todo = some (.multi g b w v left absent) →
          ∃ lost, o'.todo = some (.multi g b w v left (absent ++ lost)) ∧ m ∈ lost) ∧
        ∀ va, a = .reply d va → (∀ e ∈ o'.names, e.2 = 0) ∧ o'.late.isSome = true ∧ (o.late = none → o'.late.map (·.code) = some 0x15)) ∧
    (s.pkg.up = false → s.pkg.boot = none → exec (.fatalError code source) s = .next s ∧ exec .thermalTrip s = .next s ∧ exec .referenceInputLoss s = .next s) ∧
    (s.pkg.up = true ∨ s.pkg.boot.isSome = true → ∀ e, e = .fatalError code source ∨ e = .thermalTrip ∨ e = .referenceInputLoss →
      ∃ s' n, exec e s = .next s' ∧ s'.pkg.mode = .fatal n ∧ (e = .fatalError code source → n = code) ∧ s'.issuing = none ∧
        s'.mem = s.mem ∧ s'.threads = s.threads ∧ s'.pkg.impression.isSome = true ∧
        s'.pkg.outbox = s.pkg.outbox ++ (s.pkg.sessions.map fun k =>
          { session := k.1, code := 0xFF, status := 0, ctx := 0, number := 0, body := bytesOf 4 1 ++ bytesOf 4 n })) ∧
    exec (.powerCeilingRaise d) s = .next (s.setDie d { x with ceiling := if x.ceiling + 100 ≤ 4400 then x.ceiling + 100 else x.ceiling }) ∧
    (∃ s', exec (.powerCeilingLower d) s = .next s' ∧ (s'.die d).ceiling = (if 3700 ≤ x.ceiling then x.ceiling - 100 else x.ceiling) ∧
      (∀ c, c / Config.coresPerDie = d → (s'.core c).clk = min (s.core c).clk (s'.die d).ceiling) ∧
      (∀ c, c / Config.coresPerDie ≠ d → s'.core c = s.core c))

/-- R361, R362, R364, R366, R408 to R411, R413: a reset, the boot after it, and the log. A cold reset leaves no memory, a warm one all
of it; neither leaves a context, a session or a thread, and keys and counters in fuses stay. A boot verifies and measures image by
image, trains the stack links with a record in two writes, places the log and ends ready. Each record is chained to the one before
it. The model's choices: with an empty agenda a step of an off package is one of its boot (log entry 4); what is measured into M4, and
that a training record is written with its CRC in the next step (log entry 12). -/
def Obligations.ResetsAndTheLog : Prop :=
  (∀ (s : State) (images : List Image) (trained : List StackLink),
    ∃ c w, exec (.coldReset images trained) s = .next c ∧ exec (.warmReset images trained) s = .next w ∧
      c.mem = [] ∧ c.pkg.updates = [] ∧ w.mem = s.mem ∧ w.poison = s.poison ∧ w.badCrc = s.badCrc ∧ w.sectorKeys = s.sectorKeys ∧
      w.pkg.updates = s.pkg.updates ∧ w.pkg.audit.ring = s.pkg.audit.ring ∧
      c.pkg.found = images ∧ w.pkg.found = images ∧
      c.pkg.boot = some { cold := true, links := trained, step := 1, writing := none } ∧
      w.pkg.boot = some { cold := false, links := trained, step := 1, writing := none } ∧
      ∀ x, x = c ∨ x = w → x.ctxs = [] ∧ x.threads = [] ∧ x.pkg.sessions = [] ∧ x.issuing = none ∧ x.agenda = s.agenda ∧
        x.pkg.mode = .off ∧ x.pkg.meas = List.replicate 8 0 ∧ x.pkg.admin = s.pkg.admin ∧ x.pkg.vendor1 = s.pkg.vendor1 ∧
        x.pkg.secVer = s.pkg.secVer ∧ x.pkg.flash = s.pkg.flash ∧ x.pkg.train = s.pkg.train ∧ x.pkg.audit.chain = s.pkg.audit.chain) ∧
  (∀ (s : State) (b : Booting), s.pkg.boot = some b → let s1 := bootStep s; let p := s.pkg
    let image (i : Nat) : Option Image := (p.flash.get i).orElse fun _ => p.found[i]?
    let next (k : Nat) : Option Booting := some { b with step := k, writing := none }
    (p.mode = .off → s.issuing = none → s.agenda = [] → step s = exec .coordinatorArbitration s1) ∧
    (∀ i im, (b.step = 1 ∧ i = 0) ∨ (b.step = 2 ∧ i = 1) → image i = some im → imageOk p im = true →
      s1 = { s with pkg := { p with boot := next (i + 2), secVer := im.version,
                                    meas := setAt p.meas i (extend (p.meas.getD i 0) im.digest) } }) ∧
    (∀ i, (b.step = 1 ∧ i = 0) ∨ (b.step = 2 ∧ i = 1) ∨ (b.step = 3 ∧ 2 ≤ i ∧ i < 34) →
      (image i = none ∨ ∃ im, image i = some im ∧ imageOk p im = false) → s1.pkg.mode = .recovery ∧ s1.pkg.boot = none ∧
      (p.meas.length = 8 → s1.pkg.meas.getD 5 0 = p.updates.foldl extend (p.meas.getD 5 0)) ∧
      (auditFree s ≠ 0 → s1.pkg.audit.last.map (·.event) = some 0x0003)) ∧
    (b.step = 3 → (∀ i, 2 ≤ i → i < 34 → ∃ im, image i = some im ∧ imageOk p im = true ∧ im.version = p.secVer) → p.meas.length = 8 →
      s1.pkg.boot = next 4 ∧ s1.pkg.meas.getD 5 0 = p.updates.foldl extend (p.meas.getD 5 0) ∧
      s1.pkg.meas.getD 4 0 = extend (p.meas.getD 4 0) (otpDigest p) ∧ s1.pkg.meas.getD 0 0 = p.meas.getD 0 0) ∧
    (b.step = 4 → b.writing = none → p.train.length = 24 → ∀ i, i < 24 → let rs := p.train.getD i []; let k := b.link i
      let kept := b.cold = false ∧ (trainUsed rs k.identity).isSome = true ∧ k.quickOk = true
      s1.pkg.train.getD i [] = if kept ∨ k.fullOk = false then rs else trainWrite i rs k) ∧
    (b.step = 4 → ∀ ws, b.writing = some ws → ws.Nodup → p.train.length = 24 → (∀ i ∈ ws, (b.link i).fullOk = true) →
      (∀ i, i < 24 → s1.pkg.train.getD i [] = if i ∈ ws then trainSeal (p.train.getD i []) else p.train.getD i []) ∧
      ((∀ i, i < 24 → i ∉ ws → trainPath b.cold (p.train.getD i []) (b.link i) ≠ .fail) → s1.pkg.boot = next 5) ∧
      ((∃ i, i < 24 ∧ i ∉ ws ∧ trainPath b.cold (p.train.getD i []) (b.link i) = .fail) →
        s1.pkg.mode = .fatal 0x81 ∧ s1.pkg.boot = none ∧ s1.pkg.impression.isSome = true)) ∧
    (b.step = 5 → s1.pkg.boot = next 6 ∧ s1.pkg.audit.placed = true ∧ s1.pkg.audit.ring = p.audit.ring ++ p.audit.recovery ∧
      s1.pkg.audit.recovery = []) ∧
    (b.step = 6 → s1.pkg.boot = next 7 ∧ (auditFree s ≠ 0 → s1.pkg.audit.last.map (·.event) = some 0x0001)) ∧
    (b.step = 7 → s1 = { s with pkg := { p with mode := .ready, boot := none } })) ∧
  (∀ (i : Nat) (rs : List TrainRec) (k : StackLink), (∀ r ∈ rs, r.seqNo.toNat + 1 < 2 ^ 32) →
    (∃ r, trainUsed (trainSeal (trainWrite i rs k)) k.identity = some r ∧ r.stack = w32 i ∧ r.codes = k.codes ∧ r.identity = k.identity ∧
      ∀ q ∈ rs, q.seqNo.toNat < r.seqNo.toNat) ∧
    (∀ u ∈ rs, u.intact = true → (∀ v ∈ rs, v ≠ u → v.intact = true → v.seqNo.toNat < u.seqNo.toNat) → u ∈ trainWrite i rs k)) ∧
  (∀ (s : State) (ev src ctx : Nat) (det : DWord), let a := s.pkg.audit
    (auditFree s = 0 → auditAppend s ev src ctx det = s) ∧
    (auditFree s ≠ 0 → ∃ r, r.seq = a.next ∧ r.event = ev ∧ r.source = src ∧ r.ctx = ctx ∧ r.detail = det ∧ r.chain = a.chain ∧
      auditAppend s ev src ctx det = modAudit s fun _ => { a with
        next := a.next + 1, last := some r, chain := sha256 r.bytes, sinceCkpt := a.sinceCkpt + 1,
        ring := if a.placed then a.ring ++ [r] else a.ring, recovery := if a.placed then a.recovery else a.recovery ++ [r] })) ∧
  (∀ (s : State), (ckptDue s = false → exec .auditCheckpoint s = .next s) ∧
    (ckptDue s = true → ∀ r, s.pkg.audit.last = some r → ∃ s' k, exec .auditCheckpoint s = .next s' ∧ s'.pkg.audit.ckpts = s.pkg.audit.ckpts ++ [k] ∧
      k.seq = r.seq ∧ k.chain = r.chain ∧ s'.pkg.audit.sinceCkpt = 0 ∧ s'.pkg.audit.lastCkpt = s.now ∧ s'.mem = s.mem))

/-! ### The host -/

/-- R365, R367, R369 to R371: a session opens for a key that is proved. A command of a session is answered once, with its session, code
and number, in the layout of R370: refused by the envelope it changes nothing else; else its own work is done on the fields that its
body has at R371's offsets, and answered. A reserved header field that is not zero, a body whose length is not the header's or not
the layout's, or a zero field of the layout that is not zero: status 2. The order of the refusals is the model's choice (log entry 47):
recovery mode, a malformed request (2), the session's role, a full log (4). -/
def Obligations.CommandsAreAnsweredOnce : Prop :=
  ∀ (s : State) (h : ReqHead),
    let c := h.ctxId.toNat
    let header (b : List Byte) : Prop := h.flags = 0 ∧ h.reserved = 0 ∧ h.zeros = 0 ∧ h.length.toNat = b.length ∧ b.length ≤ 65536
    let num (b : List Byte) (off n : Nat) : Nat := natOf ((b.drop off).take n)
    let answered (x : State) (k : Cmd) (st : Nat) (body : List Byte) : State := { x with pkg := { x.pkg with outbox := x.pkg.outbox ++
      [{ session := h.session, code := k.code, status := st, ctx := c, number := h.number, body := body }] } }
    let keeps (e : Instr) (k : Cmd) (b : List Byte) (layout : Prop) (f : State → Answer) : Prop :=
      ((sessionOf s h.session = none ∨ s.pkg.up = false) → exec e s = .next s) ∧
      (∀ role, sessionOf s h.session = some role → s.pkg.up = true →
        (s.pkg.mode = .recovery → k.inRecovery = false → exec e s = .next (answered s k (Config.recoveryStatus k.code) [])) ∧
        ((s.pkg.mode = .ready ∨ k.inRecovery = true) →
          (¬ (header b ∧ layout) → exec e s = .next (answered s k 2 [])) ∧
          (header b → layout → roleStatus s { toReqHead := h, body := b } k role ≠ 0 →
            exec e s = .next (answered s k (roleStatus s { toReqHead := h, body := b } k role) [])) ∧
          (header b → layout → roleStatus s { toReqHead := h, body := b } k role = 0 →
            let full := (auditFree s = 0 ∧ k.whenFull = false) ∨
              (k.logs = true ∧ s.pkg.audit.placed = true ∧ auditFree s < Config.auditReserve)
            (full → exec e s = .next (answered s k 4 [])) ∧
            (¬ full → ∀ s' st body, f s = (s', st, body) → exec e s = .next (answered s' k st body)))))
    (∀ b, keeps (.attest h b) ⟨0x01, true, true, true, false⟩ b (b.length = 32) (attestDo c b)) ∧
    keeps (.release h) ⟨0x11, true, true, true, false⟩ [] True (releaseDo c) ∧
    (∀ b, keeps (.keydel h b) ⟨0x23, false, true, true, true⟩ b (b.length = 4) (keydelDo c (num b 0 4))) ∧
    (∀ b, keeps (.extadd h b) ⟨0x24, false, true, true, true⟩ b (b.length = 8) (extaddDo c (num b 0 8))) ∧
    (∀ b, keeps (.extrel h b) ⟨0x25, false, true, true, true⟩ b (b.length = 8) (extrelDo c (num b 0 8))) ∧
    (∀ b, keeps (.hostCancel h b) ⟨0x33, false, true, true, false⟩ b (b.length = 8) (cancelDo c (w64 (num b 0 8)))) ∧
    (∀ b, keeps (.logack h b) ⟨0x41, true, false, false, false⟩ b (b.length = 8) (logackDo (num b 0 8))) ∧
    (∀ p q : List Byte, ∀ b, b = p ++ q →
      keeps (.capread h p q) ⟨0x02, true, true, false, false⟩ b (b.length = 8) (capreadDo (num b 0 4) (num b 4 4)) ∧
      keeps (.create h p q) ⟨0x10, true, false, false, true⟩ b (b.length = 68)
        (createDo (w32 (num b 0 4)) (BitVec.ofNat 512 (beNat ((b.drop 4).take 64)))) ∧
      keeps (.grant h p q) ⟨0x12, true, false, true, true⟩ b (b.length = 16) (grantDo c (num b 0 8) (num b 8 8)) ∧
      keeps (.gravers h p q) ⟨0x14, true, false, true, true⟩ b (b.length = 8) (graversDo c (num b 0 4) (num b 4 4)) ∧
      keeps (.unmap h p q) ⟨0x21, false, true, true, false⟩ b (b.length = 16) (unmapDo c (num b 0 8) (num b 8 8)) ∧
      keeps (.ctxset h p q) ⟨0x26, false, true, true, false⟩ b (b.length = 16) (ctxsetDo c (w64 (num b 0 8)) (w64 (num b 8 8))) ∧
      keeps (.read h p q) ⟨0x31, false, true, true, false⟩ b (b.length = 12) (readDo c (num b 0 8) (num b 8 4)) ∧
      keeps (.write h p q) ⟨0x32, false, true, true, false⟩ b (12 ≤ b.length ∧ b.length = 12 + num b 8 4) (writeDo c (num b 0 8) (b.drop 12)) ∧
      keeps (.logfetch h p q) ⟨0x40, true, false, false, false⟩ b (b.length = 12) (logfetchDo (num b 0 8) (num b 8 4)) ∧
      keeps (.impression h p q) ⟨0x42, true, false, false, false⟩ b (b.length = 12) (impressionDo (num b 0 8) (num b 8 4))) ∧
    (∀ p q v : List Byte, ∀ b, b = p ++ q ++ v →
      keeps (.keyadd h p q v) ⟨0x22, false, true, true, true⟩ b (b.length = 48)
        (keyaddDo h.session c (num b 0 4) (num b 4 4) (BitVec.ofNat 320 (num b 8 40))) ∧
      keeps (.launch h p q v) ⟨0x30, false, true, true, false⟩ b
        (num b 4 4 = 0 ∧ ((num b 0 4 = 0 ∧ b.length = 264) ∨ (num b 0 4 = 1 ∧ b.length = 16)))
        (launchDo c (num b 0 4 == 1) (b.drop 8) (num b 8 8)) ∧
      ∀ (w : List Byte) im, keeps (.fwupdate h p q v w im) ⟨0x50, true, false, false, true⟩ (b ++ w) (12 ≤ (b ++ w).length)
        (fwupdateDo (num (b ++ w) 0 4) (num (b ++ w) 4 4) (num (b ++ w) 8 4) ((b ++ w).drop 12) im)) ∧
    (∀ p q v w x : List Byte, ∀ b, b = p ++ q ++ v ++ w ++ x →
      keeps (.setsched h p q v w x) ⟨0x13, true, false, true, false⟩ b (b.length = 16)
        (setschedDo c (num b 0 4) (num b 4 4) (num b 8 4) (num b 12 2) (num b 14 2)) ∧
      keeps (.map h p q v w x) ⟨0x20, false, true, true, false⟩ b (b.length = 32 ∧ num b 25 1 = 0 ∧ num b 28 4 = 0)
        (mapDo c (num b 0 8) (num b 8 8) (num b 16 8) (num b 24 1) (num b 26 2))) ∧
    (∀ m : Msg, m.code < 256 → m.status < 256 → m.ctx < 2 ^ 32 → m.body.length < 2 ^ 32 →
      let f (off n : Nat) : Nat := natOf ((m.bytes.drop off).take n)
      m.bytes.length = 32 + m.body.length ∧ m.bytes.drop 32 = m.body ∧ f 0 1 = m.code ∧ f 1 1 = m.status ∧ f 2 2 = 0 ∧ f 4 4 = m.ctx ∧
        f 8 8 = m.number.toNat ∧ f 16 4 = m.body.length ∧ f 20 12 = 0) ∧
    (∀ (n : Nat) (p : Proof), s.pkg.up = true → s.pkg.sessions.length < 256 → sessionOf s n = none →
      (∀ role, roleOfProof s p = some role →
        exec (.sessionOpen n p) s = .next (auditAppend { s with pkg := { s.pkg with sessions := s.pkg.sessions.set n role } } 0x0020 0 0 (w64 n))) ∧
      (roleOfProof s p = none → exec (.sessionOpen n p) s = .next (auditAppend s 0x0022 0 0 (w64 n)))) ∧
    (∀ (n : Nat) (role : SessRole), s.pkg.up = true → sessionOf s n = some role →
      exec (.sessionClose n) s = .next (auditAppend { s with pkg := { s.pkg with sessions := s.pkg.sessions.del n } } 0x0021 0 0 (w64 n)))

/-- R297, R345, R348 to R358, R367, R368: what the commands on contexts do: a fresh context, the scheduling values in their ranges, a
granted range that reads zero, a page that MAP makes translate and UNMAP no more, key slots, the acknowledged log, a released context.
The model's choices: tables stand in the order they were placed (log entry 48); CREATE takes the lowest free context id, and KEYADD on
a filled slot is answered with status 2 (log entry 46). -/
def Obligations.CommandsOnContexts : Prop :=
  ∀ (s : State) (c : Nat) (x : Ctx), s.ctx c = some x →
    (∀ (fl : Word) (key : BitVec 512) (k : Nat), fl.toNat < 2 → freeCtx s = some k → ∃ s', createDo fl key s = (s', 0, bytesOf 4 k) ∧
      s.ctx k = none ∧ 1 ≤ k ∧ (∀ j, 1 ≤ j → j < k → s.ctxs.has j = true) ∧ (∀ j, j ≠ k → s'.ctx j = s.ctx j) ∧
      ∃ y, s'.ctx k = some y ∧ y.key = key ∧ y.sealed_ = fl.getLsbD 0 ∧ y.granted = [] ∧ y.table = [] ∧ y.root + 0x1000 = y.nextTable ∧ y.handler = 0 ∧ y.faultQ = 0 ∧
        y.refill = 3200 ∧ y.cap = 6400 ∧ y.bcap = 3200 ∧ y.age = 48 ∧ y.xthr = 100 ∧ (y.keys[0]?).join.isSome = true) ∧
    (∀ a b d e f : Nat, (a ≤ 2 ^ 20 ∧ b ≤ 2 ^ 24 ∧ d ≤ 2 ^ 24 ∧ 16 ≤ e ∧ e ≤ 1024 ∧ 1 ≤ f ∧ f ≤ 65535 →
        setschedDo c a b d e f s = (s.setCtx c { x with refill := a, cap := b, bcap := d, age := e, xthr := f }, 0, [])) ∧
      (¬ (a ≤ 2 ^ 20 ∧ b ≤ 2 ^ 24 ∧ d ≤ 2 ^ 24 ∧ 16 ≤ e ∧ e ≤ 1024 ∧ 1 ≤ f ∧ f ≤ 65535) → setschedDo c a b d e f s = (s, 2, []))) ∧
    (∀ pa n : Nat, pa % 65536 = 0 → n % 65536 = 0 → rangeFree s c pa n = true → guardsImpression s pa n = false → s.mem.wf = true →
      ∃ s', grantDo c pa n s = (s', 0, []) ∧ s'.mem.wf = true ∧ (∀ a, holdsPa pa n a = true → s'.mem.get a = 0) ∧
        (∀ a, holdsPa pa n a = false → s'.mem.get a = s.mem.get a) ∧ s'.ctx c = some { x with granted := x.granted ++ [(pa, n)] }) ∧
    (∀ va pa b : Nat, b < 512 → va % 65536 = 0 → pa % 65536 = 0 → canonicalRange va 65536 = true → pa + 65536 ≤ 2 ^ 48 →
      mapOwned s c pa 65536 = true → (∀ e ∈ leavesOf x, overlaps e.va e.size va 65536 = false) →
      x.root + 0x1000 ≤ x.nextTable → x.nextTable % 0x1000 = 0 → x.nextTable + 0x4000 ≤ 2 ^ 48 →
      (∀ e ∈ x.table, e.1 < x.nextTable ∧ (e.2.getLsbD 0 = true → e.2.getLsbD 1 = false →
        e.2.toNat % 256 = 1 ∧ e.2.toNat < 2 ^ 48 ∧ e.1 < nextOf e.2.toNat ∧ nextOf e.2.toNat + 0x1000 ≤ x.nextTable)) →
      ∃ s', mapDo c va pa 65536 0 b s = (s', 0, []) ∧
        ∀ o, o < 65536 → walk s' c (va + o) = some (65536, BitVec.ofNat 64 (pa + 4 * b + 3))) ∧
    (∀ va : Nat, va % 65536 = 0 → canonicalRange va 65536 = true →
      (∀ e ∈ leavesOf x, overlaps e.va e.size va 65536 = false ∨ (va ≤ e.va ∧ e.va + e.size ≤ va + 65536)) →
      (∀ t ∈ s.threads, t.2.stores = []) → ∃ s', unmapDo c va 65536 s = (s', 0, []) ∧ ∀ o, o < 65536 → walk s' c (va + o) = none) ∧
    (∀ (ss k : Nat) (w : BitVec 320), x.keys.length = 8 → 1 ≤ k → k ≤ 7 → (s.keySlot c k).isSome = false →
      ∃ s', keyaddDo ss c k 0 0 s = (s', 0, []) ∧ s'.keySlot c k = some (.drawn s.ctr) ∧ (∀ j, j ≠ k → s'.keySlot c j = s.keySlot c j) ∧
      ∃ s'', keyaddDo ss c k 1 w s = (s'', 0, []) ∧ s''.keySlot c k = some (.imported ss w)) ∧
    (∀ ss k m w, (k = 0 ∨ 7 < k ∨ 1 < m ∨ (m = 0 ∧ w ≠ 0) ∨ (s.keySlot c k).isSome = true) → keyaddDo ss c k m w s = (s, 2, [])) ∧
    (∀ k, s.pkg.audit.placed = true → ∃ s', logackDo k s = (s', 0, []) ∧ s'.pkg.audit.ring = s.pkg.audit.ring.filter (fun r => k < r.seq) ∧
      s'.pkg.audit.next = s.pkg.audit.next ∧ s'.pkg.audit.chain = s.pkg.audit.chain ∧ s'.mem = s.mem) ∧
    (∃ s', releaseDo c s = (s', 0, []) ∧ s'.ctx c = none ∧ (∀ t th, s'.thread t = some th → th.ctx ≠ c) ∧
      (∀ e ∈ s'.teams, e.2.ctx ≠ c) ∧ (∀ e ∈ s'.launches, e.1.1 ≠ c) ∧ (∀ n, s'.pkg.sessions.get n ≠ some (.owner c)))

/-- R286, R288, R356: what other packages send: firings and results of other nodes, a node that is lost, a packet whose tag fails. That a
firing is kept whether or not a launch here binds its collective is the model's choice (log entry 41). R356 records a failed tag as
R399 does a fence; the level and the engine of that record are the model's reading (log entry 45). -/
def Obligations.OtherPackagesComplete : Prop :=
  ∀ (s : State) (ctx coll part n node d : Nat) (vals : List (Nat × Word)) (ws : List Word) (fl : BitVec 7),
    ((sameChunk s ctx coll n).any (fun x => x.remote.any (·.1 == part)) = true →
      exec (.remoteParticipantFiring ctx coll part n vals false) s = .next s) ∧
    ((sameChunk s ctx coll n).any (fun x => x.remote.any (·.1 == part)) = false →
      ∃ s', exec (.remoteParticipantFiring ctx coll part n vals false) s = .next s' ∧ s' = { s with chunks := s'.chunks } ∧
        (sameChunk s' ctx coll n).any (fun x => x.remote.contains (part, vals)) = true) ∧
    (bindingById s ctx coll = none → exec (.remoteParticipantFiring ctx coll part n vals true) s = .next s ∧
      exec (.remoteChunkResult ctx coll n ws fl) s = .next s) ∧
    (∀ l i c, bindingById s ctx coll = some (l, i, c) →
      exec (.remoteParticipantFiring ctx coll part n vals true) s = .next (collFault s ctx l i c.chunks 0x13 0 none) ∧
      (c.chunks ≤ n ∨ (∃ x ∈ s.chunks, chunkIs ctx l i n x = true ∧ x.done = true) → exec (.remoteChunkResult ctx coll n ws fl) s = .next s) ∧
      (n < c.chunks → (∀ x ∈ s.chunks, chunkIs ctx l i n x = true → x.done = false) →
        ∃ x, chunkIs ctx l i n x = true ∧ x.coll = coll ∧ x.done = false ∧ x.fired = [] ∧
        let s1 := if s.chunks.any (chunkIs ctx l i n) then s else { s with chunks := s.chunks ++ [x] }
        exec (.remoteChunkResult ctx coll n ws fl) s = .next (writeResult s1 ctx l i c n (ws.take (chunkSize c n)) fl))) ∧
    (liveBindings s = [] → exec (.nodeLoss node) s = .next s) ∧
    (∀ c l i, liveBindings s = [(c, l, i)] → exec (.nodeLoss node) s = .next (loseParticipants s c l i fun _ _ _ p => p.2 == node)) ∧
    (∀ c l i count ns, ∀ m ∈ ns, ∃ x ∈ (loseChunks s c l i coll count ns).chunks, chunkIs c l i m x = true ∧ x.done = true ∧ x.code = 0x14) ∧
    (sealedCtx s ctx = false → exec (.sealedPacketTagFailure d ctx) s = .next s) ∧
    (sealedCtx s ctx = true → exec (.sealedPacketTagFailure d ctx) s = .next (postCtx s ctx (fenceRec s ctx)).1)
end

