-- ==== Sys2Proof/Laws/State.lean ====
section
/-!
SUPPORT. Each update of State leaves every other field as it was: one lemma per field per update, and what a table reads
after a write.
-/
namespace Sys2Proof.Machine

/-! ### Tables -/

namespace Tab
variable {κ α : Type} [DecidableEq κ]

theorem get_set (t : Tab κ α) (q k : κ) (x : α) : (t.set q x).get k = if q = k then some x else t.get k := by
  induction t with
  | nil => simp only [set, get]
  | cons e t ih =>
    obtain ⟨a, v⟩ := e
    by_cases h : a = q
    · subst h; by_cases hk : a = k <;> simp [set, get, hk]
    · by_cases hk : a = k
      · subst hk; have : ¬ q = a := fun e => h e.symm
        simp [set, get, h, this]
      · simp [set, get, h, hk, ih]

@[simp] theorem get_set_self (t : Tab κ α) (q : κ) (x : α) : (t.set q x).get q = some x := by simp [get_set]
theorem get_set_ne (t : Tab κ α) {q k : κ} (x : α) (h : q ≠ k) : (t.set q x).get k = t.get k := by simp [get_set, h]

theorem get_del (t : Tab κ α) (q k : κ) : (t.del q).get k = if q = k then none else t.get k := by
  induction t with
  | nil => simp [del, get]
  | cons e t ih =>
    obtain ⟨a, v⟩ := e
    simp only [del] at ih
    by_cases h : a = q
    · subst h
      by_cases hk : a = k
      · subst hk; simpa [del, get] using ih
      · simpa [del, get, hk] using ih
    · by_cases hk : a = k
      · subst hk; have : ¬ q = a := fun e => h e.symm
        simp [del, get, h, this]
      · simpa [del, get, h, hk] using ih

end Tab

/-! ### Fields that an update leaves alone -/

namespace State
variable (s : State)


section
variable (c : Nat) (x : Core)
@[simp] theorem setCore_agenda : (s.setCore c x).agenda = s.agenda := rfl
@[simp] theorem setCore_issuing : (s.setCore c x).issuing = s.issuing := rfl
@[simp] theorem setCore_ctr : (s.setCore c x).ctr = s.ctr := rfl
@[simp] theorem setCore_now : (s.setCore c x).now = s.now := rfl
@[simp] theorem setCore_pkg : (s.setCore c x).pkg = s.pkg := rfl
@[simp] theorem setCore_mem : (s.setCore c x).mem = s.mem := rfl
@[simp] theorem setCore_sectorKeys : (s.setCore c x).sectorKeys = s.sectorKeys := rfl
@[simp] theorem setCore_poison : (s.setCore c x).poison = s.poison := rfl
@[simp] theorem setCore_badCrc : (s.setCore c x).badCrc = s.badCrc := rfl
@[simp] theorem setCore_notices : (s.setCore c x).notices = s.notices := rfl
@[simp] theorem setCore_homeClocks : (s.setCore c x).homeClocks = s.homeClocks := rfl
@[simp] theorem setCore_dies : (s.setCore c x).dies = s.dies := rfl
@[simp] theorem setCore_teams : (s.setCore c x).teams = s.teams := rfl
@[simp] theorem setCore_threads : (s.setCore c x).threads = s.threads := rfl
@[simp] theorem setCore_cells : (s.setCore c x).cells = s.cells := rfl
@[simp] theorem setCore_groups : (s.setCore c x).groups = s.groups := rfl
@[simp] theorem setCore_pipes : (s.setCore c x).pipes = s.pipes := rfl
@[simp] theorem setCore_burins : (s.setCore c x).burins = s.burins := rfl
@[simp] theorem setCore_gravers : (s.setCore c x).gravers = s.gravers := rfl
@[simp] theorem setCore_copies : (s.setCore c x).copies = s.copies := rfl
@[simp] theorem setCore_gattns : (s.setCore c x).gattns = s.gattns := rfl
@[simp] theorem setCore_chunks : (s.setCore c x).chunks = s.chunks := rfl
@[simp] theorem setCore_ctxs : (s.setCore c x).ctxs = s.ctxs := rfl
@[simp] theorem setCore_pool : (s.setCore c x).pool = s.pool := rfl
@[simp] theorem setCore_refills : (s.setCore c x).refills = s.refills := rfl
@[simp] theorem setCore_launches : (s.setCore c x).launches = s.launches := rfl
@[simp] theorem setCore_chosen : (s.setCore c x).chosen = s.chosen := rfl
@[simp] theorem setCore_taken : (s.setCore c x).taken = s.taken := rfl
@[simp] theorem setCore_saved : (s.setCore c x).saved = s.saved := rfl
@[simp] theorem setCore_savedBurins : (s.setCore c x).savedBurins = s.savedBurins := rfl
@[simp] theorem setCore_delays : (s.setCore c x).delays = s.delays := rfl
@[simp] theorem setCore_orphans : (s.setCore c x).orphans = s.orphans := rfl
@[simp] theorem setCore_extents : (s.setCore c x).extents = s.extents := rfl
end

section
variable (c : Nat) (f : Core → Core)
@[simp] theorem modCore_agenda : (s.modCore c f).agenda = s.agenda := rfl
@[simp] theorem modCore_issuing : (s.modCore c f).issuing = s.issuing := rfl
@[simp] theorem modCore_ctr : (s.modCore c f).ctr = s.ctr := rfl
@[simp] theorem modCore_now : (s.modCore c f).now = s.now := rfl
@[simp] theorem modCore_pkg : (s.modCore c f).pkg = s.pkg := rfl
@[simp] theorem modCore_mem : (s.modCore c f).mem = s.mem := rfl
@[simp] theorem modCore_sectorKeys : (s.modCore c f).sectorKeys = s.sectorKeys := rfl
@[simp] theorem modCore_poison : (s.modCore c f).poison = s.poison := rfl
@[simp] theorem modCore_badCrc : (s.modCore c f).badCrc = s.badCrc := rfl
@[simp] theorem modCore_notices : (s.modCore c f).notices = s.notices := rfl
@[simp] theorem modCore_homeClocks : (s.modCore c f).homeClocks = s.homeClocks := rfl
@[simp] theorem modCore_dies : (s.modCore c f).dies = s.dies := rfl
@[simp] theorem modCore_teams : (s.modCore c f).teams = s.teams := rfl
@[simp] theorem modCore_threads : (s.modCore c f).threads = s.threads := rfl
@[simp] theorem modCore_cells : (s.modCore c f).cells = s.cells := rfl
@[simp] theorem modCore_groups : (s.modCore c f).groups = s.groups := rfl
@[simp] theorem modCore_pipes : (s.modCore c f).pipes = s.pipes := rfl
@[simp] theorem modCore_burins : (s.modCore c f).burins = s.burins := rfl
@[simp] theorem modCore_gravers : (s.modCore c f).gravers = s.gravers := rfl
@[simp] theorem modCore_copies : (s.modCore c f).copies = s.copies := rfl
@[simp] theorem modCore_gattns : (s.modCore c f).gattns = s.gattns := rfl
@[simp] theorem modCore_chunks : (s.modCore c f).chunks = s.chunks := rfl
@[simp] theorem modCore_ctxs : (s.modCore c f).ctxs = s.ctxs := rfl
@[simp] theorem modCore_pool : (s.modCore c f).pool = s.pool := rfl
@[simp] theorem modCore_refills : (s.modCore c f).refills = s.refills := rfl
@[simp] theorem modCore_launches : (s.modCore c f).launches = s.launches := rfl
@[simp] theorem modCore_chosen : (s.modCore c f).chosen = s.chosen := rfl
@[simp] theorem modCore_taken : (s.modCore c f).taken = s.taken := rfl
@[simp] theorem modCore_saved : (s.modCore c f).saved = s.saved := rfl
@[simp] theorem modCore_savedBurins : (s.modCore c f).savedBurins = s.savedBurins := rfl
@[simp] theorem modCore_delays : (s.modCore c f).delays = s.delays := rfl
@[simp] theorem modCore_orphans : (s.modCore c f).orphans = s.orphans := rfl
@[simp] theorem modCore_extents : (s.modCore c f).extents = s.extents := rfl
end

section
variable (d : Nat) (x : Die)
@[simp] theorem setDie_agenda : (s.setDie d x).agenda = s.agenda := rfl
@[simp] theorem setDie_issuing : (s.setDie d x).issuing = s.issuing := rfl
@[simp] theorem setDie_ctr : (s.setDie d x).ctr = s.ctr := rfl
@[simp] theorem setDie_now : (s.setDie d x).now = s.now := rfl
@[simp] theorem setDie_pkg : (s.setDie d x).pkg = s.pkg := rfl
@[simp] theorem setDie_mem : (s.setDie d x).mem = s.mem := rfl
@[simp] theorem setDie_sectorKeys : (s.setDie d x).sectorKeys = s.sectorKeys := rfl
@[simp] theorem setDie_poison : (s.setDie d x).poison = s.poison := rfl
@[simp] theorem setDie_badCrc : (s.setDie d x).badCrc = s.badCrc := rfl
@[simp] theorem setDie_notices : (s.setDie d x).notices = s.notices := rfl
@[simp] theorem setDie_homeClocks : (s.setDie d x).homeClocks = s.homeClocks := rfl
@[simp] theorem setDie_cores : (s.setDie d x).cores = s.cores := rfl
@[simp] theorem setDie_teams : (s.setDie d x).teams = s.teams := rfl
@[simp] theorem setDie_threads : (s.setDie d x).threads = s.threads := rfl
@[simp] theorem setDie_cells : (s.setDie d x).cells = s.cells := rfl
@[simp] theorem setDie_groups : (s.setDie d x).groups = s.groups := rfl
@[simp] theorem setDie_pipes : (s.setDie d x).pipes = s.pipes := rfl
@[simp] theorem setDie_burins : (s.setDie d x).burins = s.burins := rfl
@[simp] theorem setDie_gravers : (s.setDie d x).gravers = s.gravers := rfl
@[simp] theorem setDie_copies : (s.setDie d x).copies = s.copies := rfl
@[simp] theorem setDie_gattns : (s.setDie d x).gattns = s.gattns := rfl
@[simp] theorem setDie_chunks : (s.setDie d x).chunks = s.chunks := rfl
@[simp] theorem setDie_ctxs : (s.setDie d x).ctxs = s.ctxs := rfl
@[simp] theorem setDie_pool : (s.setDie d x).pool = s.pool := rfl
@[simp] theorem setDie_refills : (s.setDie d x).refills = s.refills := rfl
@[simp] theorem setDie_launches : (s.setDie d x).launches = s.launches := rfl
@[simp] theorem setDie_chosen : (s.setDie d x).chosen = s.chosen := rfl
@[simp] theorem setDie_taken : (s.setDie d x).taken = s.taken := rfl
@[simp] theorem setDie_saved : (s.setDie d x).saved = s.saved := rfl
@[simp] theorem setDie_savedBurins : (s.setDie d x).savedBurins = s.savedBurins := rfl
@[simp] theorem setDie_delays : (s.setDie d x).delays = s.delays := rfl
@[simp] theorem setDie_orphans : (s.setDie d x).orphans = s.orphans := rfl
@[simp] theorem setDie_extents : (s.setDie d x).extents = s.extents := rfl
end

section
variable (d : Nat) (f : Die → Die)
@[simp] theorem modDie_agenda : (s.modDie d f).agenda = s.agenda := rfl
@[simp] theorem modDie_issuing : (s.modDie d f).issuing = s.issuing := rfl
@[simp] theorem modDie_ctr : (s.modDie d f).ctr = s.ctr := rfl
@[simp] theorem modDie_now : (s.modDie d f).now = s.now := rfl
@[simp] theorem modDie_pkg : (s.modDie d f).pkg = s.pkg := rfl
@[simp] theorem modDie_mem : (s.modDie d f).mem = s.mem := rfl
@[simp] theorem modDie_sectorKeys : (s.modDie d f).sectorKeys = s.sectorKeys := rfl
@[simp] theorem modDie_poison : (s.modDie d f).poison = s.poison := rfl
@[simp] theorem modDie_badCrc : (s.modDie d f).badCrc = s.badCrc := rfl
@[simp] theorem modDie_notices : (s.modDie d f).notices = s.notices := rfl
@[simp] theorem modDie_homeClocks : (s.modDie d f).homeClocks = s.homeClocks := rfl
@[simp] theorem modDie_cores : (s.modDie d f).cores = s.cores := rfl
@[simp] theorem modDie_teams : (s.modDie d f).teams = s.teams := rfl
@[simp] theorem modDie_threads : (s.modDie d f).threads = s.threads := rfl
@[simp] theorem modDie_cells : (s.modDie d f).cells = s.cells := rfl
@[simp] theorem modDie_groups : (s.modDie d f).groups = s.groups := rfl
@[simp] theorem modDie_pipes : (s.modDie d f).pipes = s.pipes := rfl
@[simp] theorem modDie_burins : (s.modDie d f).burins = s.burins := rfl
@[simp] theorem modDie_gravers : (s.modDie d f).gravers = s.gravers := rfl
@[simp] theorem modDie_copies : (s.modDie d f).copies = s.copies := rfl
@[simp] theorem modDie_gattns : (s.modDie d f).gattns = s.gattns := rfl
@[simp] theorem modDie_chunks : (s.modDie d f).chunks = s.chunks := rfl
@[simp] theorem modDie_ctxs : (s.modDie d f).ctxs = s.ctxs := rfl
@[simp] theorem modDie_pool : (s.modDie d f).pool = s.pool := rfl
@[simp] theorem modDie_refills : (s.modDie d f).refills = s.refills := rfl
@[simp] theorem modDie_launches : (s.modDie d f).launches = s.launches := rfl
@[simp] theorem modDie_chosen : (s.modDie d f).chosen = s.chosen := rfl
@[simp] theorem modDie_taken : (s.modDie d f).taken = s.taken := rfl
@[simp] theorem modDie_saved : (s.modDie d f).saved = s.saved := rfl
@[simp] theorem modDie_savedBurins : (s.modDie d f).savedBurins = s.savedBurins := rfl
@[simp] theorem modDie_delays : (s.modDie d f).delays = s.delays := rfl
@[simp] theorem modDie_orphans : (s.modDie d f).orphans = s.orphans := rfl
@[simp] theorem modDie_extents : (s.modDie d f).extents = s.extents := rfl
end

section
variable (t : Tid) (x : Thread)
@[simp] theorem setThread_agenda : (s.setThread t x).agenda = s.agenda := rfl
@[simp] theorem setThread_issuing : (s.setThread t x).issuing = s.issuing := rfl
@[simp] theorem setThread_ctr : (s.setThread t x).ctr = s.ctr := rfl
@[simp] theorem setThread_now : (s.setThread t x).now = s.now := rfl
@[simp] theorem setThread_pkg : (s.setThread t x).pkg = s.pkg := rfl
@[simp] theorem setThread_mem : (s.setThread t x).mem = s.mem := rfl
@[simp] theorem setThread_sectorKeys : (s.setThread t x).sectorKeys = s.sectorKeys := rfl
@[simp] theorem setThread_poison : (s.setThread t x).poison = s.poison := rfl
@[simp] theorem setThread_badCrc : (s.setThread t x).badCrc = s.badCrc := rfl
@[simp] theorem setThread_notices : (s.setThread t x).notices = s.notices := rfl
@[simp] theorem setThread_homeClocks : (s.setThread t x).homeClocks = s.homeClocks := rfl
@[simp] theorem setThread_dies : (s.setThread t x).dies = s.dies := rfl
@[simp] theorem setThread_cores : (s.setThread t x).cores = s.cores := rfl
@[simp] theorem setThread_teams : (s.setThread t x).teams = s.teams := rfl
@[simp] theorem setThread_cells : (s.setThread t x).cells = s.cells := rfl
@[simp] theorem setThread_groups : (s.setThread t x).groups = s.groups := rfl
@[simp] theorem setThread_pipes : (s.setThread t x).pipes = s.pipes := rfl
@[simp] theorem setThread_burins : (s.setThread t x).burins = s.burins := rfl
@[simp] theorem setThread_gravers : (s.setThread t x).gravers = s.gravers := rfl
@[simp] theorem setThread_copies : (s.setThread t x).copies = s.copies := rfl
@[simp] theorem setThread_gattns : (s.setThread t x).gattns = s.gattns := rfl
@[simp] theorem setThread_chunks : (s.setThread t x).chunks = s.chunks := rfl
@[simp] theorem setThread_ctxs : (s.setThread t x).ctxs = s.ctxs := rfl
@[simp] theorem setThread_pool : (s.setThread t x).pool = s.pool := rfl
@[simp] theorem setThread_refills : (s.setThread t x).refills = s.refills := rfl
@[simp] theorem setThread_launches : (s.setThread t x).launches = s.launches := rfl
@[simp] theorem setThread_chosen : (s.setThread t x).chosen = s.chosen := rfl
@[simp] theorem setThread_taken : (s.setThread t x).taken = s.taken := rfl
@[simp] theorem setThread_saved : (s.setThread t x).saved = s.saved := rfl
@[simp] theorem setThread_savedBurins : (s.setThread t x).savedBurins = s.savedBurins := rfl
@[simp] theorem setThread_delays : (s.setThread t x).delays = s.delays := rfl
@[simp] theorem setThread_orphans : (s.setThread t x).orphans = s.orphans := rfl
@[simp] theorem setThread_extents : (s.setThread t x).extents = s.extents := rfl
end

section
variable (t : Tid) (f : Thread → Thread)
@[simp] theorem modThread_agenda : (s.modThread t f).agenda = s.agenda := by unfold modThread; split <;> rfl
@[simp] theorem modThread_issuing : (s.modThread t f).issuing = s.issuing := by unfold modThread; split <;> rfl
@[simp] theorem modThread_ctr : (s.modThread t f).ctr = s.ctr := by unfold modThread; split <;> rfl
@[simp] theorem modThread_now : (s.modThread t f).now = s.now := by unfold modThread; split <;> rfl
@[simp] theorem modThread_pkg : (s.modThread t f).pkg = s.pkg := by unfold modThread; split <;> rfl
@[simp] theorem modThread_mem : (s.modThread t f).mem = s.mem := by unfold modThread; split <;> rfl
@[simp] theorem modThread_sectorKeys : (s.modThread t f).sectorKeys = s.sectorKeys := by unfold modThread; split <;> rfl
@[simp] theorem modThread_poison : (s.modThread t f).poison = s.poison := by unfold modThread; split <;> rfl
@[simp] theorem modThread_badCrc : (s.modThread t f).badCrc = s.badCrc := by unfold modThread; split <;> rfl
@[simp] theorem modThread_notices : (s.modThread t f).notices = s.notices := by unfold modThread; split <;> rfl
@[simp] theorem modThread_homeClocks : (s.modThread t f).homeClocks = s.homeClocks := by unfold modThread; split <;> rfl
@[simp] theorem modThread_dies : (s.modThread t f).dies = s.dies := by unfold modThread; split <;> rfl
@[simp] theorem modThread_cores : (s.modThread t f).cores = s.cores := by unfold modThread; split <;> rfl
@[simp] theorem modThread_teams : (s.modThread t f).teams = s.teams := by unfold modThread; split <;> rfl
@[simp] theorem modThread_cells : (s.modThread t f).cells = s.cells := by unfold modThread; split <;> rfl
@[simp] theorem modThread_groups : (s.modThread t f).groups = s.groups := by unfold modThread; split <;> rfl
@[simp] theorem modThread_pipes : (s.modThread t f).pipes = s.pipes := by unfold modThread; split <;> rfl
@[simp] theorem modThread_burins : (s.modThread t f).burins = s.burins := by unfold modThread; split <;> rfl
@[simp] theorem modThread_gravers : (s.modThread t f).gravers = s.gravers := by unfold modThread; split <;> rfl
@[simp] theorem modThread_copies : (s.modThread t f).copies = s.copies := by unfold modThread; split <;> rfl
@[simp] theorem modThread_gattns : (s.modThread t f).gattns = s.gattns := by unfold modThread; split <;> rfl
@[simp] theorem modThread_chunks : (s.modThread t f).chunks = s.chunks := by unfold modThread; split <;> rfl
@[simp] theorem modThread_ctxs : (s.modThread t f).ctxs = s.ctxs := by unfold modThread; split <;> rfl
@[simp] theorem modThread_pool : (s.modThread t f).pool = s.pool := by unfold modThread; split <;> rfl
@[simp] theorem modThread_refills : (s.modThread t f).refills = s.refills := by unfold modThread; split <;> rfl
@[simp] theorem modThread_launches : (s.modThread t f).launches = s.launches := by unfold modThread; split <;> rfl
@[simp] theorem modThread_chosen : (s.modThread t f).chosen = s.chosen := by unfold modThread; split <;> rfl
@[simp] theorem modThread_taken : (s.modThread t f).taken = s.taken := by unfold modThread; split <;> rfl
@[simp] theorem modThread_saved : (s.modThread t f).saved = s.saved := by unfold modThread; split <;> rfl
@[simp] theorem modThread_savedBurins : (s.modThread t f).savedBurins = s.savedBurins := by unfold modThread; split <;> rfl
@[simp] theorem modThread_delays : (s.modThread t f).delays = s.delays := by unfold modThread; split <;> rfl
@[simp] theorem modThread_orphans : (s.modThread t f).orphans = s.orphans := by unfold modThread; split <;> rfl
@[simp] theorem modThread_extents : (s.modThread t f).extents = s.extents := by unfold modThread; split <;> rfl
end

section
variable (k : Nat) (x : Ctx)
@[simp] theorem setCtx_agenda : (s.setCtx k x).agenda = s.agenda := rfl
@[simp] theorem setCtx_issuing : (s.setCtx k x).issuing = s.issuing := rfl
@[simp] theorem setCtx_ctr : (s.setCtx k x).ctr = s.ctr := rfl
@[simp] theorem setCtx_now : (s.setCtx k x).now = s.now := rfl
@[simp] theorem setCtx_pkg : (s.setCtx k x).pkg = s.pkg := rfl
@[simp] theorem setCtx_mem : (s.setCtx k x).mem = s.mem := rfl
@[simp] theorem setCtx_sectorKeys : (s.setCtx k x).sectorKeys = s.sectorKeys := rfl
@[simp] theorem setCtx_poison : (s.setCtx k x).poison = s.poison := rfl
@[simp] theorem setCtx_badCrc : (s.setCtx k x).badCrc = s.badCrc := rfl
@[simp] theorem setCtx_notices : (s.setCtx k x).notices = s.notices := rfl
@[simp] theorem setCtx_homeClocks : (s.setCtx k x).homeClocks = s.homeClocks := rfl
@[simp] theorem setCtx_dies : (s.setCtx k x).dies = s.dies := rfl
@[simp] theorem setCtx_cores : (s.setCtx k x).cores = s.cores := rfl
@[simp] theorem setCtx_teams : (s.setCtx k x).teams = s.teams := rfl
@[simp] theorem setCtx_threads : (s.setCtx k x).threads = s.threads := rfl
@[simp] theorem setCtx_cells : (s.setCtx k x).cells = s.cells := rfl
@[simp] theorem setCtx_groups : (s.setCtx k x).groups = s.groups := rfl
@[simp] theorem setCtx_pipes : (s.setCtx k x).pipes = s.pipes := rfl
@[simp] theorem setCtx_burins : (s.setCtx k x).burins = s.burins := rfl
@[simp] theorem setCtx_gravers : (s.setCtx k x).gravers = s.gravers := rfl
@[simp] theorem setCtx_copies : (s.setCtx k x).copies = s.copies := rfl
@[simp] theorem setCtx_gattns : (s.setCtx k x).gattns = s.gattns := rfl
@[simp] theorem setCtx_chunks : (s.setCtx k x).chunks = s.chunks := rfl
@[simp] theorem setCtx_pool : (s.setCtx k x).pool = s.pool := rfl
@[simp] theorem setCtx_refills : (s.setCtx k x).refills = s.refills := rfl
@[simp] theorem setCtx_launches : (s.setCtx k x).launches = s.launches := rfl
@[simp] theorem setCtx_chosen : (s.setCtx k x).chosen = s.chosen := rfl
@[simp] theorem setCtx_taken : (s.setCtx k x).taken = s.taken := rfl
@[simp] theorem setCtx_saved : (s.setCtx k x).saved = s.saved := rfl
@[simp] theorem setCtx_savedBurins : (s.setCtx k x).savedBurins = s.savedBurins := rfl
@[simp] theorem setCtx_delays : (s.setCtx k x).delays = s.delays := rfl
@[simp] theorem setCtx_orphans : (s.setCtx k x).orphans = s.orphans := rfl
@[simp] theorem setCtx_extents : (s.setCtx k x).extents = s.extents := rfl
end

section
variable (k : Nat) (f : Ctx → Ctx)
@[simp] theorem modCtx_agenda : (s.modCtx k f).agenda = s.agenda := by unfold modCtx; split <;> rfl
@[simp] theorem modCtx_issuing : (s.modCtx k f).issuing = s.issuing := by unfold modCtx; split <;> rfl
@[simp] theorem modCtx_ctr : (s.modCtx k f).ctr = s.ctr := by unfold modCtx; split <;> rfl
@[simp] theorem modCtx_now : (s.modCtx k f).now = s.now := by unfold modCtx; split <;> rfl
@[simp] theorem modCtx_pkg : (s.modCtx k f).pkg = s.pkg := by unfold modCtx; split <;> rfl
@[simp] theorem modCtx_mem : (s.modCtx k f).mem = s.mem := by unfold modCtx; split <;> rfl
@[simp] theorem modCtx_sectorKeys : (s.modCtx k f).sectorKeys = s.sectorKeys := by unfold modCtx; split <;> rfl
@[simp] theorem modCtx_poison : (s.modCtx k f).poison = s.poison := by unfold modCtx; split <;> rfl
@[simp] theorem modCtx_badCrc : (s.modCtx k f).badCrc = s.badCrc := by unfold modCtx; split <;> rfl
@[simp] theorem modCtx_notices : (s.modCtx k f).notices = s.notices := by unfold modCtx; split <;> rfl
@[simp] theorem modCtx_homeClocks : (s.modCtx k f).homeClocks = s.homeClocks := by unfold modCtx; split <;> rfl
@[simp] theorem modCtx_dies : (s.modCtx k f).dies = s.dies := by unfold modCtx; split <;> rfl
@[simp] theorem modCtx_cores : (s.modCtx k f).cores = s.cores := by unfold modCtx; split <;> rfl
@[simp] theorem modCtx_teams : (s.modCtx k f).teams = s.teams := by unfold modCtx; split <;> rfl
@[simp] theorem modCtx_threads : (s.modCtx k f).threads = s.threads := by unfold modCtx; split <;> rfl
@[simp] theorem modCtx_cells : (s.modCtx k f).cells = s.cells := by unfold modCtx; split <;> rfl
@[simp] theorem modCtx_groups : (s.modCtx k f).groups = s.groups := by unfold modCtx; split <;> rfl
@[simp] theorem modCtx_pipes : (s.modCtx k f).pipes = s.pipes := by unfold modCtx; split <;> rfl
@[simp] theorem modCtx_burins : (s.modCtx k f).burins = s.burins := by unfold modCtx; split <;> rfl
@[simp] theorem modCtx_gravers : (s.modCtx k f).gravers = s.gravers := by unfold modCtx; split <;> rfl
@[simp] theorem modCtx_copies : (s.modCtx k f).copies = s.copies := by unfold modCtx; split <;> rfl
@[simp] theorem modCtx_gattns : (s.modCtx k f).gattns = s.gattns := by unfold modCtx; split <;> rfl
@[simp] theorem modCtx_chunks : (s.modCtx k f).chunks = s.chunks := by unfold modCtx; split <;> rfl
@[simp] theorem modCtx_pool : (s.modCtx k f).pool = s.pool := by unfold modCtx; split <;> rfl
@[simp] theorem modCtx_refills : (s.modCtx k f).refills = s.refills := by unfold modCtx; split <;> rfl
@[simp] theorem modCtx_launches : (s.modCtx k f).launches = s.launches := by unfold modCtx; split <;> rfl
@[simp] theorem modCtx_chosen : (s.modCtx k f).chosen = s.chosen := by unfold modCtx; split <;> rfl
@[simp] theorem modCtx_taken : (s.modCtx k f).taken = s.taken := by unfold modCtx; split <;> rfl
@[simp] theorem modCtx_saved : (s.modCtx k f).saved = s.saved := by unfold modCtx; split <;> rfl
@[simp] theorem modCtx_savedBurins : (s.modCtx k f).savedBurins = s.savedBurins := by unfold modCtx; split <;> rfl
@[simp] theorem modCtx_delays : (s.modCtx k f).delays = s.delays := by unfold modCtx; split <;> rfl
@[simp] theorem modCtx_orphans : (s.modCtx k f).orphans = s.orphans := by unfold modCtx; split <;> rfl
@[simp] theorem modCtx_extents : (s.modCtx k f).extents = s.extents := by unfold modCtx; split <;> rfl
end

section
variable (c l : Nat) (x : Launch)
@[simp] theorem setLaunch_agenda : (s.setLaunch c l x).agenda = s.agenda := rfl
@[simp] theorem setLaunch_issuing : (s.setLaunch c l x).issuing = s.issuing := rfl
@[simp] theorem setLaunch_ctr : (s.setLaunch c l x).ctr = s.ctr := rfl
@[simp] theorem setLaunch_now : (s.setLaunch c l x).now = s.now := rfl
@[simp] theorem setLaunch_pkg : (s.setLaunch c l x).pkg = s.pkg := rfl
@[simp] theorem setLaunch_mem : (s.setLaunch c l x).mem = s.mem := rfl
@[simp] theorem setLaunch_sectorKeys : (s.setLaunch c l x).sectorKeys = s.sectorKeys := rfl
@[simp] theorem setLaunch_poison : (s.setLaunch c l x).poison = s.poison := rfl
@[simp] theorem setLaunch_badCrc : (s.setLaunch c l x).badCrc = s.badCrc := rfl
@[simp] theorem setLaunch_notices : (s.setLaunch c l x).notices = s.notices := rfl
@[simp] theorem setLaunch_homeClocks : (s.setLaunch c l x).homeClocks = s.homeClocks := rfl
@[simp] theorem setLaunch_dies : (s.setLaunch c l x).dies = s.dies := rfl
@[simp] theorem setLaunch_cores : (s.setLaunch c l x).cores = s.cores := rfl
@[simp] theorem setLaunch_teams : (s.setLaunch c l x).teams = s.teams := rfl
@[simp] theorem setLaunch_threads : (s.setLaunch c l x).threads = s.threads := rfl
@[simp] theorem setLaunch_cells : (s.setLaunch c l x).cells = s.cells := rfl
@[simp] theorem setLaunch_groups : (s.setLaunch c l x).groups = s.groups := rfl
@[simp] theorem setLaunch_pipes : (s.setLaunch c l x).pipes = s.pipes := rfl
@[simp] theorem setLaunch_burins : (s.setLaunch c l x).burins = s.burins := rfl
@[simp] theorem setLaunch_gravers : (s.setLaunch c l x).gravers = s.gravers := rfl
@[simp] theorem setLaunch_copies : (s.setLaunch c l x).copies = s.copies := rfl
@[simp] theorem setLaunch_gattns : (s.setLaunch c l x).gattns = s.gattns := rfl
@[simp] theorem setLaunch_chunks : (s.setLaunch c l x).chunks = s.chunks := rfl
@[simp] theorem setLaunch_ctxs : (s.setLaunch c l x).ctxs = s.ctxs := rfl
@[simp] theorem setLaunch_pool : (s.setLaunch c l x).pool = s.pool := rfl
@[simp] theorem setLaunch_refills : (s.setLaunch c l x).refills = s.refills := rfl
@[simp] theorem setLaunch_chosen : (s.setLaunch c l x).chosen = s.chosen := rfl
@[simp] theorem setLaunch_taken : (s.setLaunch c l x).taken = s.taken := rfl
@[simp] theorem setLaunch_saved : (s.setLaunch c l x).saved = s.saved := rfl
@[simp] theorem setLaunch_savedBurins : (s.setLaunch c l x).savedBurins = s.savedBurins := rfl
@[simp] theorem setLaunch_delays : (s.setLaunch c l x).delays = s.delays := rfl
@[simp] theorem setLaunch_orphans : (s.setLaunch c l x).orphans = s.orphans := rfl
@[simp] theorem setLaunch_extents : (s.setLaunch c l x).extents = s.extents := rfl
end

section
variable (c l : Nat) (f : Launch → Launch)
@[simp] theorem modLaunch_agenda : (s.modLaunch c l f).agenda = s.agenda := by unfold modLaunch; split <;> rfl
@[simp] theorem modLaunch_issuing : (s.modLaunch c l f).issuing = s.issuing := by unfold modLaunch; split <;> rfl
@[simp] theorem modLaunch_ctr : (s.modLaunch c l f).ctr = s.ctr := by unfold modLaunch; split <;> rfl
@[simp] theorem modLaunch_now : (s.modLaunch c l f).now = s.now := by unfold modLaunch; split <;> rfl
@[simp] theorem modLaunch_pkg : (s.modLaunch c l f).pkg = s.pkg := by unfold modLaunch; split <;> rfl
@[simp] theorem modLaunch_mem : (s.modLaunch c l f).mem = s.mem := by unfold modLaunch; split <;> rfl
@[simp] theorem modLaunch_sectorKeys : (s.modLaunch c l f).sectorKeys = s.sectorKeys := by unfold modLaunch; split <;> rfl
@[simp] theorem modLaunch_poison : (s.modLaunch c l f).poison = s.poison := by unfold modLaunch; split <;> rfl
@[simp] theorem modLaunch_badCrc : (s.modLaunch c l f).badCrc = s.badCrc := by unfold modLaunch; split <;> rfl
@[simp] theorem modLaunch_notices : (s.modLaunch c l f).notices = s.notices := by unfold modLaunch; split <;> rfl
@[simp] theorem modLaunch_homeClocks : (s.modLaunch c l f).homeClocks = s.homeClocks := by unfold modLaunch; split <;> rfl
@[simp] theorem modLaunch_dies : (s.modLaunch c l f).dies = s.dies := by unfold modLaunch; split <;> rfl
@[simp] theorem modLaunch_cores : (s.modLaunch c l f).cores = s.cores := by unfold modLaunch; split <;> rfl
@[simp] theorem modLaunch_teams : (s.modLaunch c l f).teams = s.teams := by unfold modLaunch; split <;> rfl
@[simp] theorem modLaunch_threads : (s.modLaunch c l f).threads = s.threads := by unfold modLaunch; split <;> rfl
@[simp] theorem modLaunch_cells : (s.modLaunch c l f).cells = s.cells := by unfold modLaunch; split <;> rfl
@[simp] theorem modLaunch_groups : (s.modLaunch c l f).groups = s.groups := by unfold modLaunch; split <;> rfl
@[simp] theorem modLaunch_pipes : (s.modLaunch c l f).pipes = s.pipes := by unfold modLaunch; split <;> rfl
@[simp] theorem modLaunch_burins : (s.modLaunch c l f).burins = s.burins := by unfold modLaunch; split <;> rfl
@[simp] theorem modLaunch_gravers : (s.modLaunch c l f).gravers = s.gravers := by unfold modLaunch; split <;> rfl
@[simp] theorem modLaunch_copies : (s.modLaunch c l f).copies = s.copies := by unfold modLaunch; split <;> rfl
@[simp] theorem modLaunch_gattns : (s.modLaunch c l f).gattns = s.gattns := by unfold modLaunch; split <;> rfl
@[simp] theorem modLaunch_chunks : (s.modLaunch c l f).chunks = s.chunks := by unfold modLaunch; split <;> rfl
@[simp] theorem modLaunch_ctxs : (s.modLaunch c l f).ctxs = s.ctxs := by unfold modLaunch; split <;> rfl
@[simp] theorem modLaunch_pool : (s.modLaunch c l f).pool = s.pool := by unfold modLaunch; split <;> rfl
@[simp] theorem modLaunch_refills : (s.modLaunch c l f).refills = s.refills := by unfold modLaunch; split <;> rfl
@[simp] theorem modLaunch_chosen : (s.modLaunch c l f).chosen = s.chosen := by unfold modLaunch; split <;> rfl
@[simp] theorem modLaunch_taken : (s.modLaunch c l f).taken = s.taken := by unfold modLaunch; split <;> rfl
@[simp] theorem modLaunch_saved : (s.modLaunch c l f).saved = s.saved := by unfold modLaunch; split <;> rfl
@[simp] theorem modLaunch_savedBurins : (s.modLaunch c l f).savedBurins = s.savedBurins := by unfold modLaunch; split <;> rfl
@[simp] theorem modLaunch_delays : (s.modLaunch c l f).delays = s.delays := by unfold modLaunch; split <;> rfl
@[simp] theorem modLaunch_orphans : (s.modLaunch c l f).orphans = s.orphans := by unfold modLaunch; split <;> rfl
@[simp] theorem modLaunch_extents : (s.modLaunch c l f).extents = s.extents := by unfold modLaunch; split <;> rfl
end

section
variable (c k : Nat) (x : Burin)
@[simp] theorem setBurin_agenda : (s.setBurin c k x).agenda = s.agenda := rfl
@[simp] theorem setBurin_issuing : (s.setBurin c k x).issuing = s.issuing := rfl
@[simp] theorem setBurin_ctr : (s.setBurin c k x).ctr = s.ctr := rfl
@[simp] theorem setBurin_now : (s.setBurin c k x).now = s.now := rfl
@[simp] theorem setBurin_pkg : (s.setBurin c k x).pkg = s.pkg := rfl
@[simp] theorem setBurin_mem : (s.setBurin c k x).mem = s.mem := rfl
@[simp] theorem setBurin_sectorKeys : (s.setBurin c k x).sectorKeys = s.sectorKeys := rfl
@[simp] theorem setBurin_poison : (s.setBurin c k x).poison = s.poison := rfl
@[simp] theorem setBurin_badCrc : (s.setBurin c k x).badCrc = s.badCrc := rfl
@[simp] theorem setBurin_notices : (s.setBurin c k x).notices = s.notices := rfl
@[simp] theorem setBurin_homeClocks : (s.setBurin c k x).homeClocks = s.homeClocks := rfl
@[simp] theorem setBurin_dies : (s.setBurin c k x).dies = s.dies := rfl
@[simp] theorem setBurin_cores : (s.setBurin c k x).cores = s.cores := rfl
@[simp] theorem setBurin_teams : (s.setBurin c k x).teams = s.teams := rfl
@[simp] theorem setBurin_threads : (s.setBurin c k x).threads = s.threads := rfl
@[simp] theorem setBurin_cells : (s.setBurin c k x).cells = s.cells := rfl
@[simp] theorem setBurin_groups : (s.setBurin c k x).groups = s.groups := rfl
@[simp] theorem setBurin_pipes : (s.setBurin c k x).pipes = s.pipes := rfl
@[simp] theorem setBurin_gravers : (s.setBurin c k x).gravers = s.gravers := rfl
@[simp] theorem setBurin_copies : (s.setBurin c k x).copies = s.copies := rfl
@[simp] theorem setBurin_gattns : (s.setBurin c k x).gattns = s.gattns := rfl
@[simp] theorem setBurin_chunks : (s.setBurin c k x).chunks = s.chunks := rfl
@[simp] theorem setBurin_ctxs : (s.setBurin c k x).ctxs = s.ctxs := rfl
@[simp] theorem setBurin_pool : (s.setBurin c k x).pool = s.pool := rfl
@[simp] theorem setBurin_refills : (s.setBurin c k x).refills = s.refills := rfl
@[simp] theorem setBurin_launches : (s.setBurin c k x).launches = s.launches := rfl
@[simp] theorem setBurin_chosen : (s.setBurin c k x).chosen = s.chosen := rfl
@[simp] theorem setBurin_taken : (s.setBurin c k x).taken = s.taken := rfl
@[simp] theorem setBurin_saved : (s.setBurin c k x).saved = s.saved := rfl
@[simp] theorem setBurin_savedBurins : (s.setBurin c k x).savedBurins = s.savedBurins := rfl
@[simp] theorem setBurin_delays : (s.setBurin c k x).delays = s.delays := rfl
@[simp] theorem setBurin_orphans : (s.setBurin c k x).orphans = s.orphans := rfl
@[simp] theorem setBurin_extents : (s.setBurin c k x).extents = s.extents := rfl
end

section
variable (c k : Nat) (f : Burin → Burin)
@[simp] theorem modBurin_agenda : (s.modBurin c k f).agenda = s.agenda := by unfold modBurin; split <;> rfl
@[simp] theorem modBurin_issuing : (s.modBurin c k f).issuing = s.issuing := by unfold modBurin; split <;> rfl
@[simp] theorem modBurin_ctr : (s.modBurin c k f).ctr = s.ctr := by unfold modBurin; split <;> rfl
@[simp] theorem modBurin_now : (s.modBurin c k f).now = s.now := by unfold modBurin; split <;> rfl
@[simp] theorem modBurin_pkg : (s.modBurin c k f).pkg = s.pkg := by unfold modBurin; split <;> rfl
@[simp] theorem modBurin_mem : (s.modBurin c k f).mem = s.mem := by unfold modBurin; split <;> rfl
@[simp] theorem modBurin_sectorKeys : (s.modBurin c k f).sectorKeys = s.sectorKeys := by unfold modBurin; split <;> rfl
@[simp] theorem modBurin_poison : (s.modBurin c k f).poison = s.poison := by unfold modBurin; split <;> rfl
@[simp] theorem modBurin_badCrc : (s.modBurin c k f).badCrc = s.badCrc := by unfold modBurin; split <;> rfl
@[simp] theorem modBurin_notices : (s.modBurin c k f).notices = s.notices := by unfold modBurin; split <;> rfl
@[simp] theorem modBurin_homeClocks : (s.modBurin c k f).homeClocks = s.homeClocks := by unfold modBurin; split <;> rfl
@[simp] theorem modBurin_dies : (s.modBurin c k f).dies = s.dies := by unfold modBurin; split <;> rfl
@[simp] theorem modBurin_cores : (s.modBurin c k f).cores = s.cores := by unfold modBurin; split <;> rfl
@[simp] theorem modBurin_teams : (s.modBurin c k f).teams = s.teams := by unfold modBurin; split <;> rfl
@[simp] theorem modBurin_threads : (s.modBurin c k f).threads = s.threads := by unfold modBurin; split <;> rfl
@[simp] theorem modBurin_cells : (s.modBurin c k f).cells = s.cells := by unfold modBurin; split <;> rfl
@[simp] theorem modBurin_groups : (s.modBurin c k f).groups = s.groups := by unfold modBurin; split <;> rfl
@[simp] theorem modBurin_pipes : (s.modBurin c k f).pipes = s.pipes := by unfold modBurin; split <;> rfl
@[simp] theorem modBurin_gravers : (s.modBurin c k f).gravers = s.gravers := by unfold modBurin; split <;> rfl
@[simp] theorem modBurin_copies : (s.modBurin c k f).copies = s.copies := by unfold modBurin; split <;> rfl
@[simp] theorem modBurin_gattns : (s.modBurin c k f).gattns = s.gattns := by unfold modBurin; split <;> rfl
@[simp] theorem modBurin_chunks : (s.modBurin c k f).chunks = s.chunks := by unfold modBurin; split <;> rfl
@[simp] theorem modBurin_ctxs : (s.modBurin c k f).ctxs = s.ctxs := by unfold modBurin; split <;> rfl
@[simp] theorem modBurin_pool : (s.modBurin c k f).pool = s.pool := by unfold modBurin; split <;> rfl
@[simp] theorem modBurin_refills : (s.modBurin c k f).refills = s.refills := by unfold modBurin; split <;> rfl
@[simp] theorem modBurin_launches : (s.modBurin c k f).launches = s.launches := by unfold modBurin; split <;> rfl
@[simp] theorem modBurin_chosen : (s.modBurin c k f).chosen = s.chosen := by unfold modBurin; split <;> rfl
@[simp] theorem modBurin_taken : (s.modBurin c k f).taken = s.taken := by unfold modBurin; split <;> rfl
@[simp] theorem modBurin_saved : (s.modBurin c k f).saved = s.saved := by unfold modBurin; split <;> rfl
@[simp] theorem modBurin_savedBurins : (s.modBurin c k f).savedBurins = s.savedBurins := by unfold modBurin; split <;> rfl
@[simp] theorem modBurin_delays : (s.modBurin c k f).delays = s.delays := by unfold modBurin; split <;> rfl
@[simp] theorem modBurin_orphans : (s.modBurin c k f).orphans = s.orphans := by unfold modBurin; split <;> rfl
@[simp] theorem modBurin_extents : (s.modBurin c k f).extents = s.extents := by unfold modBurin; split <;> rfl
end

section
variable (g : Nat) (x : Graver)
@[simp] theorem setGraver_agenda : (s.setGraver g x).agenda = s.agenda := rfl
@[simp] theorem setGraver_issuing : (s.setGraver g x).issuing = s.issuing := rfl
@[simp] theorem setGraver_ctr : (s.setGraver g x).ctr = s.ctr := rfl
@[simp] theorem setGraver_now : (s.setGraver g x).now = s.now := rfl
@[simp] theorem setGraver_pkg : (s.setGraver g x).pkg = s.pkg := rfl
@[simp] theorem setGraver_mem : (s.setGraver g x).mem = s.mem := rfl
@[simp] theorem setGraver_sectorKeys : (s.setGraver g x).sectorKeys = s.sectorKeys := rfl
@[simp] theorem setGraver_poison : (s.setGraver g x).poison = s.poison := rfl
@[simp] theorem setGraver_badCrc : (s.setGraver g x).badCrc = s.badCrc := rfl
@[simp] theorem setGraver_notices : (s.setGraver g x).notices = s.notices := rfl
@[simp] theorem setGraver_homeClocks : (s.setGraver g x).homeClocks = s.homeClocks := rfl
@[simp] theorem setGraver_dies : (s.setGraver g x).dies = s.dies := rfl
@[simp] theorem setGraver_cores : (s.setGraver g x).cores = s.cores := rfl
@[simp] theorem setGraver_teams : (s.setGraver g x).teams = s.teams := rfl
@[simp] theorem setGraver_threads : (s.setGraver g x).threads = s.threads := rfl
@[simp] theorem setGraver_cells : (s.setGraver g x).cells = s.cells := rfl
@[simp] theorem setGraver_groups : (s.setGraver g x).groups = s.groups := rfl
@[simp] theorem setGraver_pipes : (s.setGraver g x).pipes = s.pipes := rfl
@[simp] theorem setGraver_burins : (s.setGraver g x).burins = s.burins := rfl
@[simp] theorem setGraver_copies : (s.setGraver g x).copies = s.copies := rfl
@[simp] theorem setGraver_gattns : (s.setGraver g x).gattns = s.gattns := rfl
@[simp] theorem setGraver_chunks : (s.setGraver g x).chunks = s.chunks := rfl
@[simp] theorem setGraver_ctxs : (s.setGraver g x).ctxs = s.ctxs := rfl
@[simp] theorem setGraver_pool : (s.setGraver g x).pool = s.pool := rfl
@[simp] theorem setGraver_refills : (s.setGraver g x).refills = s.refills := rfl
@[simp] theorem setGraver_launches : (s.setGraver g x).launches = s.launches := rfl
@[simp] theorem setGraver_chosen : (s.setGraver g x).chosen = s.chosen := rfl
@[simp] theorem setGraver_taken : (s.setGraver g x).taken = s.taken := rfl
@[simp] theorem setGraver_saved : (s.setGraver g x).saved = s.saved := rfl
@[simp] theorem setGraver_savedBurins : (s.setGraver g x).savedBurins = s.savedBurins := rfl
@[simp] theorem setGraver_delays : (s.setGraver g x).delays = s.delays := rfl
@[simp] theorem setGraver_orphans : (s.setGraver g x).orphans = s.orphans := rfl
@[simp] theorem setGraver_extents : (s.setGraver g x).extents = s.extents := rfl
end

section
variable (g : Nat) (f : Graver → Graver)
@[simp] theorem modGraver_agenda : (s.modGraver g f).agenda = s.agenda := rfl
@[simp] theorem modGraver_issuing : (s.modGraver g f).issuing = s.issuing := rfl
@[simp] theorem modGraver_ctr : (s.modGraver g f).ctr = s.ctr := rfl
@[simp] theorem modGraver_now : (s.modGraver g f).now = s.now := rfl
@[simp] theorem modGraver_pkg : (s.modGraver g f).pkg = s.pkg := rfl
@[simp] theorem modGraver_mem : (s.modGraver g f).mem = s.mem := rfl
@[simp] theorem modGraver_sectorKeys : (s.modGraver g f).sectorKeys = s.sectorKeys := rfl
@[simp] theorem modGraver_poison : (s.modGraver g f).poison = s.poison := rfl
@[simp] theorem modGraver_badCrc : (s.modGraver g f).badCrc = s.badCrc := rfl
@[simp] theorem modGraver_notices : (s.modGraver g f).notices = s.notices := rfl
@[simp] theorem modGraver_homeClocks : (s.modGraver g f).homeClocks = s.homeClocks := rfl
@[simp] theorem modGraver_dies : (s.modGraver g f).dies = s.dies := rfl
@[simp] theorem modGraver_cores : (s.modGraver g f).cores = s.cores := rfl
@[simp] theorem modGraver_teams : (s.modGraver g f).teams = s.teams := rfl
@[simp] theorem modGraver_threads : (s.modGraver g f).threads = s.threads := rfl
@[simp] theorem modGraver_cells : (s.modGraver g f).cells = s.cells := rfl
@[simp] theorem modGraver_groups : (s.modGraver g f).groups = s.groups := rfl
@[simp] theorem modGraver_pipes : (s.modGraver g f).pipes = s.pipes := rfl
@[simp] theorem modGraver_burins : (s.modGraver g f).burins = s.burins := rfl
@[simp] theorem modGraver_copies : (s.modGraver g f).copies = s.copies := rfl
@[simp] theorem modGraver_gattns : (s.modGraver g f).gattns = s.gattns := rfl
@[simp] theorem modGraver_chunks : (s.modGraver g f).chunks = s.chunks := rfl
@[simp] theorem modGraver_ctxs : (s.modGraver g f).ctxs = s.ctxs := rfl
@[simp] theorem modGraver_pool : (s.modGraver g f).pool = s.pool := rfl
@[simp] theorem modGraver_refills : (s.modGraver g f).refills = s.refills := rfl
@[simp] theorem modGraver_launches : (s.modGraver g f).launches = s.launches := rfl
@[simp] theorem modGraver_chosen : (s.modGraver g f).chosen = s.chosen := rfl
@[simp] theorem modGraver_taken : (s.modGraver g f).taken = s.taken := rfl
@[simp] theorem modGraver_saved : (s.modGraver g f).saved = s.saved := rfl
@[simp] theorem modGraver_savedBurins : (s.modGraver g f).savedBurins = s.savedBurins := rfl
@[simp] theorem modGraver_delays : (s.modGraver g f).delays = s.delays := rfl
@[simp] theorem modGraver_orphans : (s.modGraver g f).orphans = s.orphans := rfl
@[simp] theorem modGraver_extents : (s.modGraver g f).extents = s.extents := rfl
end

section
variable (k : Nat × Nat) (x : Team)
@[simp] theorem setTeam_agenda : (s.setTeam k x).agenda = s.agenda := rfl
@[simp] theorem setTeam_issuing : (s.setTeam k x).issuing = s.issuing := rfl
@[simp] theorem setTeam_ctr : (s.setTeam k x).ctr = s.ctr := rfl
@[simp] theorem setTeam_now : (s.setTeam k x).now = s.now := rfl
@[simp] theorem setTeam_pkg : (s.setTeam k x).pkg = s.pkg := rfl
@[simp] theorem setTeam_mem : (s.setTeam k x).mem = s.mem := rfl
@[simp] theorem setTeam_sectorKeys : (s.setTeam k x).sectorKeys = s.sectorKeys := rfl
@[simp] theorem setTeam_poison : (s.setTeam k x).poison = s.poison := rfl
@[simp] theorem setTeam_badCrc : (s.setTeam k x).badCrc = s.badCrc := rfl
@[simp] theorem setTeam_notices : (s.setTeam k x).notices = s.notices := rfl
@[simp] theorem setTeam_homeClocks : (s.setTeam k x).homeClocks = s.homeClocks := rfl
@[simp] theorem setTeam_dies : (s.setTeam k x).dies = s.dies := rfl
@[simp] theorem setTeam_cores : (s.setTeam k x).cores = s.cores := rfl
@[simp] theorem setTeam_threads : (s.setTeam k x).threads = s.threads := rfl
@[simp] theorem setTeam_cells : (s.setTeam k x).cells = s.cells := rfl
@[simp] theorem setTeam_groups : (s.setTeam k x).groups = s.groups := rfl
@[simp] theorem setTeam_pipes : (s.setTeam k x).pipes = s.pipes := rfl
@[simp] theorem setTeam_burins : (s.setTeam k x).burins = s.burins := rfl
@[simp] theorem setTeam_gravers : (s.setTeam k x).gravers = s.gravers := rfl
@[simp] theorem setTeam_copies : (s.setTeam k x).copies = s.copies := rfl
@[simp] theorem setTeam_gattns : (s.setTeam k x).gattns = s.gattns := rfl
@[simp] theorem setTeam_chunks : (s.setTeam k x).chunks = s.chunks := rfl
@[simp] theorem setTeam_ctxs : (s.setTeam k x).ctxs = s.ctxs := rfl
@[simp] theorem setTeam_pool : (s.setTeam k x).pool = s.pool := rfl
@[simp] theorem setTeam_refills : (s.setTeam k x).refills = s.refills := rfl
@[simp] theorem setTeam_launches : (s.setTeam k x).launches = s.launches := rfl
@[simp] theorem setTeam_chosen : (s.setTeam k x).chosen = s.chosen := rfl
@[simp] theorem setTeam_taken : (s.setTeam k x).taken = s.taken := rfl
@[simp] theorem setTeam_saved : (s.setTeam k x).saved = s.saved := rfl
@[simp] theorem setTeam_savedBurins : (s.setTeam k x).savedBurins = s.savedBurins := rfl
@[simp] theorem setTeam_delays : (s.setTeam k x).delays = s.delays := rfl
@[simp] theorem setTeam_orphans : (s.setTeam k x).orphans = s.orphans := rfl
@[simp] theorem setTeam_extents : (s.setTeam k x).extents = s.extents := rfl
end

section
variable (k : Nat × Nat) (f : Team → Team)
@[simp] theorem modTeam_agenda : (s.modTeam k f).agenda = s.agenda := by unfold modTeam; split <;> rfl
@[simp] theorem modTeam_issuing : (s.modTeam k f).issuing = s.issuing := by unfold modTeam; split <;> rfl
@[simp] theorem modTeam_ctr : (s.modTeam k f).ctr = s.ctr := by unfold modTeam; split <;> rfl
@[simp] theorem modTeam_now : (s.modTeam k f).now = s.now := by unfold modTeam; split <;> rfl
@[simp] theorem modTeam_pkg : (s.modTeam k f).pkg = s.pkg := by unfold modTeam; split <;> rfl
@[simp] theorem modTeam_mem : (s.modTeam k f).mem = s.mem := by unfold modTeam; split <;> rfl
@[simp] theorem modTeam_sectorKeys : (s.modTeam k f).sectorKeys = s.sectorKeys := by unfold modTeam; split <;> rfl
@[simp] theorem modTeam_poison : (s.modTeam k f).poison = s.poison := by unfold modTeam; split <;> rfl
@[simp] theorem modTeam_badCrc : (s.modTeam k f).badCrc = s.badCrc := by unfold modTeam; split <;> rfl
@[simp] theorem modTeam_notices : (s.modTeam k f).notices = s.notices := by unfold modTeam; split <;> rfl
@[simp] theorem modTeam_homeClocks : (s.modTeam k f).homeClocks = s.homeClocks := by unfold modTeam; split <;> rfl
@[simp] theorem modTeam_dies : (s.modTeam k f).dies = s.dies := by unfold modTeam; split <;> rfl
@[simp] theorem modTeam_cores : (s.modTeam k f).cores = s.cores := by unfold modTeam; split <;> rfl
@[simp] theorem modTeam_threads : (s.modTeam k f).threads = s.threads := by unfold modTeam; split <;> rfl
@[simp] theorem modTeam_cells : (s.modTeam k f).cells = s.cells := by unfold modTeam; split <;> rfl
@[simp] theorem modTeam_groups : (s.modTeam k f).groups = s.groups := by unfold modTeam; split <;> rfl
@[simp] theorem modTeam_pipes : (s.modTeam k f).pipes = s.pipes := by unfold modTeam; split <;> rfl
@[simp] theorem modTeam_burins : (s.modTeam k f).burins = s.burins := by unfold modTeam; split <;> rfl
@[simp] theorem modTeam_gravers : (s.modTeam k f).gravers = s.gravers := by unfold modTeam; split <;> rfl
@[simp] theorem modTeam_copies : (s.modTeam k f).copies = s.copies := by unfold modTeam; split <;> rfl
@[simp] theorem modTeam_gattns : (s.modTeam k f).gattns = s.gattns := by unfold modTeam; split <;> rfl
@[simp] theorem modTeam_chunks : (s.modTeam k f).chunks = s.chunks := by unfold modTeam; split <;> rfl
@[simp] theorem modTeam_ctxs : (s.modTeam k f).ctxs = s.ctxs := by unfold modTeam; split <;> rfl
@[simp] theorem modTeam_pool : (s.modTeam k f).pool = s.pool := by unfold modTeam; split <;> rfl
@[simp] theorem modTeam_refills : (s.modTeam k f).refills = s.refills := by unfold modTeam; split <;> rfl
@[simp] theorem modTeam_launches : (s.modTeam k f).launches = s.launches := by unfold modTeam; split <;> rfl
@[simp] theorem modTeam_chosen : (s.modTeam k f).chosen = s.chosen := by unfold modTeam; split <;> rfl
@[simp] theorem modTeam_taken : (s.modTeam k f).taken = s.taken := by unfold modTeam; split <;> rfl
@[simp] theorem modTeam_saved : (s.modTeam k f).saved = s.saved := by unfold modTeam; split <;> rfl
@[simp] theorem modTeam_savedBurins : (s.modTeam k f).savedBurins = s.savedBurins := by unfold modTeam; split <;> rfl
@[simp] theorem modTeam_delays : (s.modTeam k f).delays = s.delays := by unfold modTeam; split <;> rfl
@[simp] theorem modTeam_orphans : (s.modTeam k f).orphans = s.orphans := by unfold modTeam; split <;> rfl
@[simp] theorem modTeam_extents : (s.modTeam k f).extents = s.extents := by unfold modTeam; split <;> rfl
end

section
variable (k : CellKey) (c : Cell)
@[simp] theorem putCell_agenda : (s.putCell k c).agenda = s.agenda := by unfold putCell; split <;> rfl
@[simp] theorem putCell_issuing : (s.putCell k c).issuing = s.issuing := by unfold putCell; split <;> rfl
@[simp] theorem putCell_ctr : (s.putCell k c).ctr = s.ctr := by unfold putCell; split <;> rfl
@[simp] theorem putCell_now : (s.putCell k c).now = s.now := by unfold putCell; split <;> rfl
@[simp] theorem putCell_pkg : (s.putCell k c).pkg = s.pkg := by unfold putCell; split <;> rfl
@[simp] theorem putCell_mem : (s.putCell k c).mem = s.mem := by unfold putCell; split <;> rfl
@[simp] theorem putCell_sectorKeys : (s.putCell k c).sectorKeys = s.sectorKeys := by unfold putCell; split <;> rfl
@[simp] theorem putCell_poison : (s.putCell k c).poison = s.poison := by unfold putCell; split <;> rfl
@[simp] theorem putCell_badCrc : (s.putCell k c).badCrc = s.badCrc := by unfold putCell; split <;> rfl
@[simp] theorem putCell_notices : (s.putCell k c).notices = s.notices := by unfold putCell; split <;> rfl
@[simp] theorem putCell_homeClocks : (s.putCell k c).homeClocks = s.homeClocks := by unfold putCell; split <;> rfl
@[simp] theorem putCell_dies : (s.putCell k c).dies = s.dies := by unfold putCell; split <;> rfl
@[simp] theorem putCell_cores : (s.putCell k c).cores = s.cores := by unfold putCell; split <;> rfl
@[simp] theorem putCell_teams : (s.putCell k c).teams = s.teams := by unfold putCell; split <;> rfl
@[simp] theorem putCell_threads : (s.putCell k c).threads = s.threads := by unfold putCell; split <;> rfl
@[simp] theorem putCell_groups : (s.putCell k c).groups = s.groups := by unfold putCell; split <;> rfl
@[simp] theorem putCell_pipes : (s.putCell k c).pipes = s.pipes := by unfold putCell; split <;> rfl
@[simp] theorem putCell_burins : (s.putCell k c).burins = s.burins := by unfold putCell; split <;> rfl
@[simp] theorem putCell_gravers : (s.putCell k c).gravers = s.gravers := by unfold putCell; split <;> rfl
@[simp] theorem putCell_copies : (s.putCell k c).copies = s.copies := by unfold putCell; split <;> rfl
@[simp] theorem putCell_gattns : (s.putCell k c).gattns = s.gattns := by unfold putCell; split <;> rfl
@[simp] theorem putCell_chunks : (s.putCell k c).chunks = s.chunks := by unfold putCell; split <;> rfl
@[simp] theorem putCell_ctxs : (s.putCell k c).ctxs = s.ctxs := by unfold putCell; split <;> rfl
@[simp] theorem putCell_pool : (s.putCell k c).pool = s.pool := by unfold putCell; split <;> rfl
@[simp] theorem putCell_refills : (s.putCell k c).refills = s.refills := by unfold putCell; split <;> rfl
@[simp] theorem putCell_launches : (s.putCell k c).launches = s.launches := by unfold putCell; split <;> rfl
@[simp] theorem putCell_chosen : (s.putCell k c).chosen = s.chosen := by unfold putCell; split <;> rfl
@[simp] theorem putCell_taken : (s.putCell k c).taken = s.taken := by unfold putCell; split <;> rfl
@[simp] theorem putCell_saved : (s.putCell k c).saved = s.saved := by unfold putCell; split <;> rfl
@[simp] theorem putCell_savedBurins : (s.putCell k c).savedBurins = s.savedBurins := by unfold putCell; split <;> rfl
@[simp] theorem putCell_delays : (s.putCell k c).delays = s.delays := by unfold putCell; split <;> rfl
@[simp] theorem putCell_orphans : (s.putCell k c).orphans = s.orphans := by unfold putCell; split <;> rfl
@[simp] theorem putCell_extents : (s.putCell k c).extents = s.extents := by unfold putCell; split <;> rfl
end

/-! ### What an update writes -/

@[simp] theorem thread_setThread (t : Tid) (x : Thread) : (s.setThread t x).thread t = some x := by simp [thread, setThread]
theorem thread_setThread_ne {t u : Tid} (x : Thread) (h : t ≠ u) : (s.setThread t x).thread u = s.thread u := by
  simp [thread, setThread, Tab.get_set, h]
theorem thread_modThread (t u : Tid) (f : Thread → Thread) :
    (s.modThread t f).thread u = if t = u then (s.thread u).map f else s.thread u := by
  unfold modThread
  by_cases h : t = u
  · subst h; cases e : s.thread t <;> simp [e]
  · cases e : s.thread t
    · simp [h]
    · simp [h, thread_setThread_ne]
@[simp] theorem core_setCore (c : Nat) (x : Core) : (s.setCore c x).core c = x := by simp [core, setCore, Tab.getD]
theorem core_setCore_ne {c k : Nat} (x : Core) (h : c ≠ k) : (s.setCore c x).core k = s.core k := by
  simp [core, setCore, Tab.getD, Tab.get_set, h]
theorem core_modCore (c k : Nat) (f : Core → Core) : (s.modCore c f).core k = if c = k then f (s.core k) else s.core k := by
  by_cases h : c = k
  · subst h; simp [modCore]
  · simp [modCore, h, core_setCore_ne]
@[simp] theorem graver_setGraver (g : Nat) (x : Graver) : (s.setGraver g x).graver g = x := by
  simp [graver, setGraver, Tab.getD]
@[simp] theorem ctx_setCtx (k : Nat) (x : Ctx) : (s.setCtx k x).ctx k = some x := by simp [ctx, setCtx]
@[simp] theorem launchOf_setLaunch (c l : Nat) (x : Launch) : (s.setLaunch c l x).launchOf c l = some x := by
  simp [launchOf, setLaunch]
@[simp] theorem burin_setBurin (c k : Nat) (x : Burin) : (s.setBurin c k x).burin c k = some x := by simp [burin, setBurin]

@[simp] theorem core_setThread (t : Tid) (x : Thread) (c : Nat) : (s.setThread t x).core c = s.core c := rfl
@[simp] theorem core_modThread (t : Tid) (f : Thread → Thread) (c : Nat) : (s.modThread t f).core c = s.core c := by
  simp [core]
@[simp] theorem thread_modCore (c : Nat) (f : Core → Core) (t : Tid) : (s.modCore c f).thread t = s.thread t := rfl

end State
end Sys2Proof.Machine
end

