-- ==== Sys2Proof/Laws/Names.lean ====
section
/-!
SUPPORT. What one write, one last-use mark and one fill of a name change, and that every other name of every thread reads as
before.
-/
namespace Sys2Proof.Machine

/-! ### Lanes of a cell -/

theorem Cell.lane_setLane (c : Cell) (i j : Nat) (x : LaneCell) (hi : i < 4) (hj : j < 4) :
    (c.setLane i x).lane j = if i = j then x else c.lane j := by
  have hi' : i = 0 ∨ i = 1 ∨ i = 2 ∨ i = 3 := by omega
  have hj' : j = 0 ∨ j = 1 ∨ j = 2 ∨ j = 3 := by omega
  rcases hi' with rfl | rfl | rfl | rfl <;> rcases hj' with rfl | rfl | rfl | rfl <;> simp [Cell.setLane, Cell.lane]

theorem Cell.rel_of_dead {c : Cell} (h : c.dead = true) (j : Nat) : (c.lane j).rel = true := by
  simp only [Cell.dead, Bool.and_eq_true] at h
  unfold Cell.lane
  split <;> simp_all

theorem Cell.not_dead {c : Cell} {j : Nat} (h : (c.lane j).rel = false) : c.dead = false := by
  cases e : c.dead
  · rfl
  · rw [Cell.rel_of_dead e j] at h; cases h

theorem newCell_lane (s : State) (c k j : Nat) : (s.newCell c k).lane j = LaneCell.empty := by
  unfold Cell.lane; split <;> rfl

namespace State

/-! ### Cell keys -/

theorem cellKey_isCore {t : Tid} {p : Pos} {k : CellKey} (h : cellKey t p = some k) : t.isCore = true := by
  cases t <;> simp_all [cellKey, Tid.isCore]

theorem cellKey_none {t : Tid} {p : Pos} : cellKey t p = none ↔ t.isCore = false := by
  cases t <;> simp [cellKey, Tid.isCore]

/-- Two names that share a key and a lane are one name of one thread. -/
theorem cellKey_inj {t u : Tid} {p q : Pos} {k : CellKey} (ht : cellKey t p = some k) (hu : cellKey u q = some k)
    (hl : t.lane % 4 = u.lane % 4) : t = u ∧ p = q := by
  cases t <;> cases u <;> simp_all only [cellKey, Option.some.injEq, reduceCtorEq]
  obtain ⟨rfl, rfl, hq, rfl⟩ := ht
  simp only [CellKey.mk.injEq] at hu
  simp only [Tid.lane] at hl
  obtain ⟨rfl, rfl, h1, rfl⟩ := hu
  refine ⟨?_, rfl⟩
  congr 1
  omega

/-! ### One name written -/

theorem laneCell_core {s : State} {t : Tid} {p : Pos} {k : CellKey} (h : cellKey t p = some k) :
    s.laneCell t p = match s.cells.get k with | some c => c.lane (t.lane % 4) | none => .empty := by
  simp only [laneCell, h] <;> rfl

theorem laneCell_putCell (s : State) (k : CellKey) (c : Cell) (hd : c.dead = false) (u : Tid) (q : Pos) :
    (s.putCell k c).laneCell u q = if cellKey u q = some k then c.lane (u.lane % 4) else s.laneCell u q := by
  unfold putCell
  rw [if_neg (by simp [hd])]
  cases e : cellKey u q with
  | none => simp [laneCell, e, thread]
  | some k' =>
    simp only [laneCell, e, Option.some.injEq, Tab.get_set]
    by_cases hk : k = k'
    · subst hk; simp
    · rw [if_neg hk, if_neg (fun h => hk h.symm)]

/-- A write that holds a value (its release bit clear) changes that name of that thread alone. -/
theorem laneCell_setLaneCell (s : State) {t : Tid} {th : Thread} (ht : s.thread t = some th) (p : Pos) (x : LaneCell)
    (hx : x.rel = false) (u : Tid) (q : Pos) :
    (s.setLaneCell t p x).laneCell u q = if t = u ∧ p = q then x else s.laneCell u q := by
  unfold setLaneCell
  cases e : cellKey t p with
  | some k =>
    have hl : t.lane % 4 < 4 := Nat.mod_lt _ (by omega)
    have hnd : (((s.cells.get k).getD (s.newCell k.core k.quad)).setLane (t.lane % 4) x).dead = false := by
      apply Cell.not_dead (j := t.lane % 4)
      rw [Cell.lane_setLane _ _ _ _ hl hl, if_pos rfl]; exact hx
    simp only
    rw [laneCell_putCell _ _ _ hnd]
    by_cases hk : cellKey u q = some k
    · rw [if_pos hk, Cell.lane_setLane _ _ _ _ hl (Nat.mod_lt _ (by omega))]
      by_cases hm : t.lane % 4 = u.lane % 4
      · have := cellKey_inj e hk hm
        rw [if_pos hm, if_pos this]
      · rw [if_neg hm, if_neg (fun h => hm (by rw [h.1]))]
        rw [laneCell_core hk]
        cases s.cells.get k <;> simp [newCell_lane]
    · rw [if_neg hk, if_neg]
      rintro ⟨rfl, rfl⟩; exact hk e
  | none =>
    simp only
    have hx' : { x with rel := false } = x := by cases x; simp_all
    rw [hx']
    cases eu : cellKey u q with
    | some k =>
      have : ¬ t = u := by
        rintro rfl
        rw [cellKey_none] at e
        rw [cellKey_isCore eu] at e; cases e
      simp [laneCell, eu, this]
    | none =>
      simp only [laneCell, eu, thread_modThread]
      by_cases htu : t = u
      · subst htu
        by_cases hpq : p = q
        · subst hpq; simp [ht, Tab.getD]
        · simp [ht, Tab.getD, Tab.get_set, hpq]
      · simp [htu]

theorem readPos_eq (s : State) (t : Tid) (p : Pos) :
    s.readPos t p = if t.isCore then (s.laneCell t p).read
      else match (s.laneCell t p).pend with | some (_, old) => some (old.getD 0) | none => some (s.laneCell t p).val := by
  unfold readPos
  cases e : cellKey t p with
  | some k => simp [cellKey_isCore e]
  | none => rw [cellKey_none] at e; simp only [e]; rfl

/-- A read depends on the lane's part of the cell alone. -/
theorem readPos_congr {s s' : State} {u : Tid} {q : Pos} (h : s'.laneCell u q = s.laneCell u q) :
    s'.readPos u q = s.readPos u q := by simp only [readPos_eq, h]

theorem laneCell_writePend (s : State) {t : Tid} {th : Thread} (ht : s.thread t = some th) (p : Pos) (seq : Nat)
    (old : Option Word) (u : Tid) (q : Pos) :
    (s.writePend t p seq old).laneCell u q =
      if t = u ∧ p = q then { val := 0, rel := false, pend := some (seq, old) } else s.laneCell u q :=
  laneCell_setLaneCell s ht p _ rfl u q

/-- A last-use mark makes that name of that thread void, and changes what no other name reads. -/
theorem readPos_markRel (s : State) (t : Tid) (p : Pos) (u : Tid) (q : Pos) :
    (s.markRel t p).readPos u q = if t = u ∧ p = q ∧ t.isCore = true then none else s.readPos u q := by
  unfold markRel
  cases e : cellKey t p with
  | none => rw [cellKey_none] at e; simp [e]
  | some k =>
    have hc := cellKey_isCore e
    have hl : t.lane % 4 < 4 := Nat.mod_lt _ (by omega)
    simp only
    cases ec : s.cells.get k with
    | none =>
      simp only
      split
      · next h =>
        obtain ⟨rfl, rfl, _⟩ := h
        rw [readPos_eq, if_pos hc, laneCell_core e, ec]
        simp [LaneCell.empty, LaneCell.read]
      · rfl
    | some c =>
      simp only
      cases hd : (c.setLane (t.lane % 4) { c.lane (t.lane % 4) with rel := true }).dead with
      | false =>
        by_cases hk : cellKey u q = some k
        · rw [readPos_eq, readPos_eq, if_pos (cellKey_isCore hk), if_pos (cellKey_isCore hk), laneCell_putCell _ _ _ hd, if_pos hk,
            Cell.lane_setLane _ _ _ _ hl (Nat.mod_lt _ (by omega))]
          by_cases hm : t.lane % 4 = u.lane % 4
          · have h2 := cellKey_inj e hk hm
            rw [if_pos hm, if_pos ⟨h2.1, h2.2, hc⟩]
            simp [LaneCell.read]
          · rw [if_neg hm, if_neg (fun h => hm (by rw [h.1])), laneCell_core hk, ec]
        · rw [if_neg (by rintro ⟨rfl, rfl, _⟩; exact hk e)]
          exact readPos_congr (by rw [laneCell_putCell _ _ _ hd, if_neg hk])
      | true =>
        unfold putCell
        rw [if_pos hd]
        by_cases hk : cellKey u q = some k
        · rw [readPos_eq, readPos_eq, if_pos (cellKey_isCore hk), if_pos (cellKey_isCore hk), laneCell_core hk, laneCell_core hk, ec]
          simp only [Tab.get_del, if_pos]
          by_cases hm : t.lane % 4 = u.lane % 4
          · have h2 := cellKey_inj e hk hm
            rw [if_pos ⟨h2.1, h2.2, hc⟩]
            simp [LaneCell.empty, LaneCell.read]
          · rw [if_neg (fun h => hm (by rw [h.1]))]
            have := Cell.rel_of_dead hd (u.lane % 4)
            rw [Cell.lane_setLane _ _ _ _ hl (Nat.mod_lt _ (by omega)), if_neg hm] at this
            simp [LaneCell.empty, LaneCell.read, this]
        · rw [if_neg (by rintro ⟨rfl, rfl, _⟩; exact hk e)]
          refine readPos_congr ?_
          cases eu : cellKey u q with
          | none => simp [laneCell, eu, thread]
          | some k' =>
            have : ¬ k = k' := fun h => hk (by rw [eu, h])
            simp [laneCell, eu, Tab.get_del, this]

/-- A mark leaves every other lane that holds a value as it was. -/
theorem laneCell_markRel (s : State) (t : Tid) (p : Pos) (u : Tid) (q : Pos) (hne : ¬ (t = u ∧ p = q))
    (hv : (s.laneCell u q).rel = false) : (s.markRel t p).laneCell u q = s.laneCell u q := by
  unfold markRel
  cases e : cellKey t p with
  | none => rfl
  | some k =>
    simp only
    cases ec : s.cells.get k with
    | none => rfl
    | some c =>
      have hl : t.lane % 4 < 4 := Nat.mod_lt _ (by omega)
      have hlane : ∀ j, (c.setLane (t.lane % 4) { c.lane (t.lane % 4) with rel := true }).lane (u.lane % 4) = j →
          cellKey u q = some k → j = c.lane (u.lane % 4) := by
        intro j hj hk
        rw [← hj, Cell.lane_setLane _ _ _ _ hl (Nat.mod_lt _ (by omega)), if_neg]
        intro hm; exact hne (cellKey_inj e hk hm)
      simp only
      cases hd : (c.setLane (t.lane % 4) { c.lane (t.lane % 4) with rel := true }).dead with
      | false =>
        rw [laneCell_putCell _ _ _ hd]
        split
        · next hk => rw [hlane _ rfl hk, laneCell_core hk, ec]
        · rfl
      | true =>
        unfold putCell
        rw [if_pos hd]
        by_cases hk : cellKey u q = some k
        · have := Cell.rel_of_dead hd (u.lane % 4)
          rw [hlane _ rfl hk] at this
          rw [laneCell_core hk, ec] at hv
          simp only at hv
          rw [this] at hv; cases hv
        · cases eu : cellKey u q with
          | none => simp [laneCell, eu, thread]
          | some k' =>
            have : ¬ k = k' := fun h => hk (by rw [eu, h])
            simp [laneCell, eu, Tab.get_del, this]

/-! ### What these leave alone -/

theorem setLaneCell_rest (s : State) (t : Tid) (p : Pos) (x : LaneCell) :
    s.setLaneCell t p x = { s with cells := (s.setLaneCell t p x).cells, threads := (s.setLaneCell t p x).threads } := by
  unfold setLaneCell
  cases cellKey t p with
  | some k => simp only; unfold putCell; split <;> rfl
  | none =>
    simp only; unfold modThread
    split <;> rfl

theorem markRel_rest (s : State) (t : Tid) (p : Pos) : s.markRel t p = { s with cells := (s.markRel t p).cells } := by
  unfold markRel
  split
  · split
    · unfold putCell; split <;> rfl
    · rfl
  · rfl

/-- A write touches no thread's record but the fixed storage of an agent that is no core thread. -/
theorem thread_setLaneCell (s : State) (t : Tid) (p : Pos) (x : LaneCell) (u : Tid) :
    (s.setLaneCell t p x).thread u =
      if t = u ∧ t.isCore = false then (s.thread u).map fun th => { th with fixedNames := th.fixedNames.set p { x with rel := false } }
      else s.thread u := by
  unfold setLaneCell
  cases e : cellKey t p with
  | some k => simp [cellKey_isCore e, thread]
  | none =>
    rw [cellKey_none] at e
    simp only [thread_modThread, e, and_true]

theorem thread_markRel (s : State) (t : Tid) (p : Pos) (u : Tid) : (s.markRel t p).thread u = s.thread u := by
  rw [markRel_rest]; rfl

end State
end Sys2Proof.Machine
end

