-- ==== Sys2Proof/Laws/Issue.lean ====
section
/-!
SUPPORT. What the issue of a register-only form does to a group of any size, proved once for every such form.
-/
namespace Sys2Proof.Machine

/-! ### Sorting by global thread number -/

theorem insertBy_perm {α : Type} (key : α → Nat) (x : α) (l : List α) : (insertBy key x l).Perm (x :: l) := by
  induction l with
  | nil => exact .refl _
  | cons y l ih =>
    unfold insertBy
    split
    · exact .refl _
    · exact (ih.cons y).trans (List.Perm.swap x y l)

theorem foldl_insertBy_perm {α : Type} (key : α → Nat) (l a : List α) :
    (l.foldl (fun a x => insertBy key x a) a).Perm (l ++ a) := by
  induction l generalizing a with
  | nil => exact .refl _
  | cons x l ih =>
    refine (ih _).trans ?_
    refine ((insertBy_perm key x a).append_left l).trans ?_
    exact List.perm_middle

theorem sortBy_perm {α : Type} (key : α → Nat) (l : List α) : (sortBy key l).Perm l := by
  simpa [sortBy] using foldl_insertBy_perm key l []

theorem byOrder_perm (s : State) (l : List Tid) : (byOrder s l).Perm l := sortBy_perm _ l

theorem mem_executing {h : Hdr} {s : State} {g : Group} {t : Tid} :
    t ∈ executing h s g ↔ t ∈ g.mem ∧ ∃ th, s.thread t = some th ∧ guardOn h th = true := by
  unfold executing
  rw [(byOrder_perm _ _).mem_iff, List.mem_filter]
  refine and_congr_right fun _ => ?_
  cases s.thread t <;> simp

theorem executing_nodup {h : Hdr} {s : State} {g : Group} (hn : g.mem.Nodup) : (executing h s g).Nodup := by
  unfold executing
  exact (byOrder_perm _ _).nodup_iff.2 (hn.filter _)

/-! ### One lane -/

namespace State

theorem writeDst_facts (pre : State) {t : Tid} (ps : List Pos) (seq : Nat) :
    ∀ (s : State) (th : Thread), s.thread t = some th →
    (∃ fx, (writeDst pre s t ps seq).thread t = some { th with fixedNames := fx } ∧ (t.isCore = true → fx = th.fixedNames)) ∧
    (∀ u, t ≠ u → (writeDst pre s t ps seq).thread u = s.thread u) ∧
    writeDst pre s t ps seq = { s with cells := (writeDst pre s t ps seq).cells, threads := (writeDst pre s t ps seq).threads } ∧
    (∀ p ∈ ps, (writeDst pre s t ps seq).laneCell t p = { val := 0, rel := false, pend := some (seq, pre.readPos t p) }) ∧
    (∀ u p, (u = t → p ∉ ps) → (writeDst pre s t ps seq).laneCell u p = s.laneCell u p) := by
  induction ps with
  | nil =>
    intro s th ht
    refine ⟨⟨th.fixedNames, ht, fun _ => rfl⟩, fun _ _ => rfl, rfl, ?_, fun _ _ _ => rfl⟩
    intro p hp; cases hp
  | cons p ps ih =>
    intro s th ht
    have hstep : writeDst pre s t (p :: ps) seq = writeDst pre (s.writePend t p seq (pre.readPos t p)) t ps seq := rfl
    have ht' : ∃ fx, (s.writePend t p seq (pre.readPos t p)).thread t = some { th with fixedNames := fx } ∧
        (t.isCore = true → fx = th.fixedNames) := by
      rw [writePend, thread_setLaneCell, ht]
      by_cases hc : t.isCore = false
      · exact ⟨_, by simp [hc]; rfl, fun h => by simp [hc] at h⟩
      · exact ⟨th.fixedNames, by simp [hc], fun _ => rfl⟩
    obtain ⟨fx, hfx, hfc⟩ := ht'
    obtain ⟨⟨fx2, h1, h1c⟩, h2, h3, h4, h5⟩ := ih _ _ hfx
    rw [hstep]
    refine ⟨⟨fx2, h1, fun hc => (h1c hc).trans (hfc hc)⟩, ?_, ?_, ?_, ?_⟩
    · intro u hu
      rw [h2 u hu, writePend, thread_setLaneCell, if_neg (fun h => hu h.1)]
    · rw [h3]
      rw [writePend, setLaneCell_rest]
    · intro q hq
      by_cases hqs : q ∈ ps
      · exact h4 q hqs
      · have : q = p := by simpa [hqs] using hq
        subst this
        rw [h5 t q (fun _ => hqs), laneCell_writePend s ht, if_pos ⟨rfl, rfl⟩]
    · intro u q hq
      rw [h5 u q (fun h => fun hm => hq h (List.mem_cons_of_mem _ hm)), laneCell_writePend s ht, if_neg]
      rintro ⟨rfl, rfl⟩
      exact hq rfl (List.mem_cons_self)

/-- The marks of a list of names. -/
theorem markNames_facts (t : Tid) (th : Thread) (ns : List Name) :
    ∀ s : State,
    let s' := ns.foldl (fun s n => match th.pos n with | some p => s.markRel t p | none => s) s
    (∀ u, s'.thread u = s.thread u) ∧ s' = { s with cells := s'.cells } ∧
    (∀ u p, s'.readPos u p = if u = t ∧ t.isCore = true ∧ p ∈ ns.filterMap th.pos then none else s.readPos u p) := by
  induction ns with
  | nil => intro s; refine ⟨fun _ => rfl, rfl, fun u p => ?_⟩; simp
  | cons n ns ih =>
    intro s
    cases hp : th.pos n with
    | none =>
      obtain ⟨h1, h2, h3⟩ := ih s
      simp only [List.foldl_cons, hp]
      refine ⟨h1, h2, fun u p => ?_⟩
      rw [h3]; simp [hp]
    | some q =>
      obtain ⟨h1, h2, h3⟩ := ih (s.markRel t q)
      simp only [List.foldl_cons, hp]
      refine ⟨fun u => (h1 u).trans (thread_markRel _ _ _ _), ?_, fun u p => ?_⟩
      · rw [h2, markRel_rest]
      · rw [h3, readPos_markRel]
        simp only [List.filterMap_cons, hp, List.mem_cons]
        by_cases hu : u = t
        · subst hu
          by_cases hc : u.isCore = true
          · by_cases h1 : p ∈ ns.filterMap th.pos
            · simp [hc, h1]
            · by_cases h2 : q = p
              · subst h2; simp [hc]
              · have : ¬ p = q := fun h => h2 h.symm
                simp [hc, h1, h2, this]
          · simp [hc]
        · have : ¬ t = u := fun h => hu h.symm
          simp [hu, this]

theorem markNames_live (t : Tid) (th : Thread) (u : Tid) (hu : t ≠ u) (q : Pos) (ns : List Name) :
    ∀ s : State, (s.laneCell u q).rel = false →
      (ns.foldl (fun s n => match th.pos n with | some p => s.markRel t p | none => s) s).laneCell u q = s.laneCell u q := by
  induction ns with
  | nil => intro s _; rfl
  | cons n ns ih =>
    intro s hv
    simp only [List.foldl_cons]
    cases th.pos n with
    | none => exact ih s hv
    | some p =>
      have h1 := laneCell_markRel s t p u q (fun h => hu h.1) hv
      exact (ih _ (by rw [h1]; exact hv)).trans h1

theorem markLast_live (t : Tid) (th : Thread) (u : Tid) (hu : t ≠ u) (q : Pos) (ops : List SrcOp) :
    ∀ s : State, (s.laneCell u q).rel = false → (markLast s t th ops).laneCell u q = s.laneCell u q := by
  induction ops with
  | nil => intro s _; rfl
  | cons o ops ih =>
    intro s hv
    simp only [markLast, List.foldl_cons]
    split
    · have h1 := markNames_live t th u hu q (nameGroup o.1.name o.2.1) s hv
      exact (ih _ ((congrArg LaneCell.rel h1).trans hv)).trans h1
    · exact ih s hv

theorem markLast_facts (t : Tid) (th : Thread) (ops : List SrcOp) :
    ∀ s : State,
    (∀ u, (markLast s t th ops).thread u = s.thread u) ∧ markLast s t th ops = { s with cells := (markLast s t th ops).cells } ∧
    (∀ u p, (markLast s t th ops).readPos u p =
      if u = t ∧ t.isCore = true ∧ p ∈ (ops.filter (·.1.last)).flatMap (fun o => (nameGroup o.1.name o.2.1).filterMap th.pos)
      then none else s.readPos u p) := by
  induction ops with
  | nil => intro s; refine ⟨fun _ => rfl, rfl, fun u p => ?_⟩; simp [markLast]
  | cons o ops ih =>
    intro s
    cases hl : o.1.last with
    | false =>
      have hstep : markLast s t th (o :: ops) = markLast s t th ops := by
        simp only [markLast, List.foldl_cons, hl]; rfl
      rw [hstep]
      obtain ⟨h1, h2, h3⟩ := ih s
      exact ⟨h1, h2, fun u p => by rw [h3, List.filter_cons_of_neg (by simp [hl])]⟩
    | true =>
      have hstep : markLast s t th (o :: ops) = markLast ((nameGroup o.1.name o.2.1).foldl
          (fun s n => match th.pos n with | some p => s.markRel t p | none => s) s) t th ops := by
        simp only [markLast, List.foldl_cons, hl]; rfl
      rw [hstep]
      obtain ⟨m1, m2, m3⟩ := markNames_facts t th (nameGroup o.1.name o.2.1) s
      obtain ⟨h1, h2, h3⟩ := ih ((nameGroup o.1.name o.2.1).foldl
          (fun s n => match th.pos n with | some p => s.markRel t p | none => s) s)
      refine ⟨fun u => (h1 u).trans (m1 u), ?_, fun u p => ?_⟩
      · rw [h2, m2]
      · rw [h3, m3]
        rw [List.filter_cons_of_pos (by simp [hl]), List.flatMap_cons]
        simp only [List.mem_append]
        by_cases hu : u = t ∧ t.isCore = true
        · by_cases ha : p ∈ (nameGroup o.1.name o.2.1).filterMap th.pos <;>
          by_cases hb : p ∈ (ops.filter (·.1.last)).flatMap (fun o => (nameGroup o.1.name o.2.1).filterMap th.pos) <;>
          simp [hu, ha, hb]
        · simp only [← and_assoc, hu, false_and, if_false]

end State

/-- A change of a thread's record that keeps its fixed storage changes no name. -/
theorem State.laneCell_modThread (s : State) (t : Tid) (f : Thread → Thread) (hf : ∀ x, (f x).fixedNames = x.fixedNames)
    (u : Tid) (p : Pos) : (s.modThread t f).laneCell u p = s.laneCell u p := by
  cases e : State.cellKey u p with
  | some k => rw [State.laneCell_core e, State.laneCell_core e]; simp
  | none =>
    simp only [State.laneCell, e, State.thread_modThread]
    by_cases hu : t = u
    · subst hu
      rw [if_pos rfl]
      cases s.thread t with
      | none => rfl
      | some th => simp only [Option.map_some, hf]
    · rw [if_neg hu]

theorem State.modThread_rest (s : State) (t : Tid) (f : Thread → Thread) :
    s.modThread t f = { s with threads := (s.modThread t f).threads } := by
  unfold State.modThread; split <;> rfl

theorem pushTo_none {i : Instr} (hd : ∀ k w, i.dst ≠ some (.s k, w)) : pushTo i = none := by
  unfold pushTo
  split
  · next k w h => exact absurd h (hd k w)
  · rfl

theorem outOf_eq (f : Form) (s : State) (t : Tid) (th : Thread) (seq : Nat) (r : Res) :
    f.outOf s t th seq r = outFor f.i f.h f.lat { s with ctr := seq } t th r := rfl

/-- What a lane that completes leaves, when its destination is no stream. -/
structure LaneDone (f : Form) (env : Env) (s : State) (t : Tid) (th x : Thread) (r : Res) (s' : State) : Prop where
  rest : s' = { s with cells := s'.cells, threads := s'.threads }
  self : ∃ fx, (t.isCore = true → fx = x.fixedNames) ∧ s'.thread t = some { x with
    pc := r.next.getD (nextSlot th.pc), outs := x.outs ++ [outFor f.i f.h f.lat { s with ctr := env.seq } t th r],
    predPend := r.preds.foldl (fun m e => if e.1 == 7 then m else m.set e.1 env.seq) x.predPend,
    loads := popLoads x.loads f.i.srcs, fixedNames := fx, entered := r.next.isSome }
  others : ∀ u, u ≠ t → s'.thread u = s.thread u
  dst : r.keep = false → ∀ p ∈ dstPos f.i th, s'.laneCell t p = { val := 0, rel := false, pend := some (env.seq, env.pre.readPos t p) }
  last : ∀ p ∈ lastPos f.i t th, p ∉ dstPos f.i th → s'.readPos t p = none
  names : ∀ u p, (u = t → p ∉ dstPos f.i th ∧ p ∉ lastPos f.i t th) → s'.readPos u p = s.readPos u p
  cells : ∀ u, t ≠ u → ∀ p, (s.laneCell u p).rel = false → s'.laneCell u p = s.laneCell u p

theorem laneDone_facts {f : Form} {env : Env} {s : State} {t : Tid} {th x : Thread} {r : Res}
    (hd : ∀ k w, f.i.dst ≠ some (.s k, w)) (h1 : s.thread t = some x) : LaneDone f env s t th x r (laneDone f env s t th r) := by
  have hpu : lanePush f env s t r = s := by unfold lanePush; rw [pushTo_none hd]
  obtain ⟨m1, m2, m3⟩ := State.markLast_facts t th f.i.srcs s
  obtain ⟨s2, hs2⟩ : ∃ s2, s2 = popStreams (markLast s t th f.i.srcs) t f.i.srcs := ⟨_, rfl⟩
  have h2t : s2.thread t = some { x with loads := popLoads x.loads f.i.srcs } := by
    subst hs2; simp [popStreams, State.thread_modThread, m1, h1]
  have h2u : ∀ u, u ≠ t → s2.thread u = s.thread u := by
    intro u hu; subst hs2
    have : ¬ t = u := fun h => hu h.symm
    simp [popStreams, State.thread_modThread, this, m1]
  have h2r : s2 = { s with cells := s2.cells, threads := s2.threads } := by
    subst hs2
    rw [popStreams, State.modThread_rest, m2]
  have h2l : ∀ u p, s2.laneCell u p = (markLast s t th f.i.srcs).laneCell u p := by
    intro u p
    subst hs2
    refine State.laneCell_modThread _ t _ ?_ u p
    intro y; rfl
  have h2p : ∀ u p, s2.readPos u p = (markLast s t th f.i.srcs).readPos u p := fun u p => State.readPos_congr (h2l u p)
  obtain ⟨⟨fx, w1, w1c⟩, w2, w3, w4, w5⟩ := State.writeDst_facts env.pre (if r.keep then [] else dstPos f.i th) env.seq s2 _ h2t
  obtain ⟨s3, hs3⟩ : ∃ s3, s3 = writeDst env.pre s2 t (if r.keep then [] else dstPos f.i th) env.seq := ⟨_, rfl⟩
  rw [← hs3] at w1 w2 w3 w4 w5
  have hout : f.outOf s3 t th env.seq r = outFor f.i f.h f.lat { s with ctr := env.seq } t th r := by
    rw [outOf_eq, w3, h2r]; rfl
  obtain ⟨s', hs'⟩ : ∃ s', s' = laneDone f env s t th r := ⟨_, rfl⟩
  have hs'' : s' = (addOut s3 t (outFor f.i f.h f.lat { s with ctr := env.seq } t th r)).modThread t
      (fun x => { x with pc := r.next.getD (nextSlot th.pc), entered := r.next.isSome }) := by
    rw [hs', laneDone]
    simp only [hpu, ← hs2, ← hs3, hout]
  rw [← hs']
  have hlane : ∀ u p, s'.laneCell u p = s3.laneCell u p := by
    intro u p
    rw [hs'', addOut]
    refine (State.laneCell_modThread _ t _ ?_ u p).trans (State.laneCell_modThread s3 t _ ?_ u p) <;> intro x <;> rfl
  have hread : ∀ u p, s'.readPos u p = s3.readPos u p := fun u p => State.readPos_congr (hlane u p)
  refine { rest := ?_, self := ⟨fx, w1c, ?_⟩, others := ?_, dst := ?_, last := ?_, names := ?_, cells := ?_ }
  · rw [hs'', addOut, State.modThread_rest, State.modThread_rest, w3, h2r]
  · rw [hs'', addOut]
    simp only [State.thread_modThread, if_true, w1, Option.map_some]
    simp only [outFor]
  · intro u hu
    rw [hs'', addOut]
    have : ¬ t = u := fun h => hu h.symm
    simp only [State.thread_modThread, this, if_false]
    rw [w2 u this, h2u u hu]
  · intro hk p hp
    rw [hlane]
    exact w4 p (by rw [if_neg (by simp [hk])]; exact hp)
  · intro p hp hnp
    rw [hread, State.readPos_congr (w5 t p (fun _ => by split <;> simp [hnp])), h2p, m3, if_pos]
    by_cases hc : t.isCore = true
    · rw [lastPos, if_pos hc] at hp
      exact ⟨rfl, hc, hp⟩
    · rw [lastPos, if_neg hc] at hp; cases hp
  · intro u p hu
    rw [hread, State.readPos_congr (w5 u p (fun h => by split <;> simp [(hu h).1])), h2p, m3, if_neg]
    rintro ⟨rfl, hc, hm⟩
    have := (hu rfl).2
    rw [lastPos, if_pos hc] at this
    exact this hm
  · intro u hu p hv
    rw [hlane, w5 u p (fun h => absurd h.symm hu), h2l, State.markLast_live t th u hu p _ _ hv]

/-- A lane whose operands read without a fault and whose own effect is `s1` with result `r`, neither a fault nor a trap. -/
theorem laneIssue_any {f : Form} {env : Env} {s s1 : State} {t : Tid} {th : Thread} {r : Res} (ht : s.thread t = some th)
    (hs : f.slotBad s t th = false) (hv : (f.reads env t th).any (·.void) = true → s.voidTrap t th = false)
    (hb : ∀ o ∈ f.reads env t th, o.bad = none)
    (hl : f.lane env (if (f.reads env t th).any (·.void) && !t.isGraver then s.modThread t (fun th => { th with voidSt := true }) else s)
      t th ((f.reads env t th).map (·.words)) = (s1, r)) (hf : r.fault = none)
    (hx : fpTraps (s1.enables t th) r.fl = false) (hd : ∀ k w, f.i.dst ≠ some (.s k, w)) :
    laneIssue f env s t = (laneDone f env s1 t th r, none) := by
  have hvt : ((f.reads env t th).any (·.void) && s.voidTrap t th) = false := by
    cases hv' : (f.reads env t th).any (·.void)
    · rfl
    · rw [hv hv']; rfl
  have hbad : ((f.reads env t th).filterMap (·.bad)).head? = none := by
    rw [List.filterMap_eq_nil_iff.2 hb]; rfl
  unfold laneIssue laneRun wordPush
  simp only [ht, hs, hvt, hbad, Bool.false_eq_true, if_false, pushTo_none hd, hl, hf, hx]

/-- A lane whose operands read without a fault and whose own effect is `s1` with a fault. -/
theorem laneIssue_stop {f : Form} {env : Env} {s s1 : State} {t : Tid} {th : Thread} {r : Res} {b : Flt} (ht : s.thread t = some th)
    (hs : f.slotBad s t th = false) (hv : (f.reads env t th).any (·.void) = true → s.voidTrap t th = false)
    (hb : ∀ o ∈ f.reads env t th, o.bad = none)
    (hl : f.lane env (if (f.reads env t th).any (·.void) && !t.isGraver then s.modThread t (fun th => { th with voidSt := true }) else s)
      t th ((f.reads env t th).map (·.words)) = (s1, r)) (hf : r.fault = some b) (hd : ∀ k w, f.i.dst ≠ some (.s k, w)) :
    laneIssue f env s t = (s1, some b) := by
  have hvt : ((f.reads env t th).any (·.void) && s.voidTrap t th) = false := by
    cases hv' : (f.reads env t th).any (·.void)
    · rfl
    · rw [hv hv']; rfl
  have hbad : ((f.reads env t th).filterMap (·.bad)).head? = none := by
    rw [List.filterMap_eq_nil_iff.2 hb]; rfl
  unfold laneIssue laneRun wordPush
  simp only [ht, hs, hvt, hbad, Bool.false_eq_true, if_false, pushTo_none hd, hl, hf]

/-- A thread as its lane of a register-only form leaves it, before the group's issue is noted. -/
def laneThread (f : Form) (s : State) (t : Tid) (th : Thread) (rs : List OpRead) (r : Res) (fx : Tab Pos LaneCell) : Thread :=
  let x := ranThread f.i f.h f.lat s t th rs r
  { x with lastIssue := th.lastIssue, hold := th.hold, fixedNames := fx }

/-- What a lane of a register-only form that reads and computes without a fault leaves; `s0` gives the issue's number and time. -/
structure LaneRan (f : Form) (env : Env) (s0 s : State) (t : Tid) (th : Thread) (r : Res) (s' : State) : Prop where
  self : ∃ fx, s'.thread t = some (laneThread f s0 t th (f.reads env t th) r fx) ∧ (t.isCore = true → fx = th.fixedNames)
  others : ∀ u, t ≠ u → s'.thread u = s.thread u
  rest : s' = { s with cells := s'.cells, threads := s'.threads }
  dst : r.keep = false → ∀ p ∈ dstPos f.i th, s'.laneCell t p = { val := 0, rel := false, pend := some (env.seq, env.pre.readPos t p) }
  last : ∀ p ∈ lastPos f.i t th, p ∉ dstPos f.i th → s'.readPos t p = none
  lanes : ∀ u, t ≠ u → ∀ p, s'.readPos u p = s.readPos u p
  names : ∀ p, p ∉ dstPos f.i th → p ∉ lastPos f.i t th → s'.readPos t p = s.readPos t p
  cells : ∀ u, t ≠ u → ∀ p, (s.laneCell u p).rel = false → s'.laneCell u p = s.laneCell u p

theorem laneIssue_pure {f : Form} {env : Env} {s0 s : State} {t : Tid} {th : Thread} {r : Res} (ht : s.thread t = some th)
    (hseq : env.seq = s0.ctr) (hnow : s.now = s0.now)
    (hs : f.slotBad s t th = false) (hv : (f.reads env t th).any (·.void) = true → s.voidTrap t th = false)
    (hb : ∀ o ∈ f.reads env t th, o.bad = none)
    (hl : ∀ s, f.lane env s t th ((f.reads env t th).map (·.words)) = (s, r)) (hf : r.fault = none)
    (hx : fpTraps (s.enables t th) r.fl = false) (hd : ∀ k w, f.i.dst ≠ some (.s k, w)) (hlate : r.late = none) :
    ∃ s', laneIssue f env s t = (s', none) ∧ LaneRan f env s0 s t th r s' := by
  -- the state after VOIDST
  obtain ⟨s1, hs1⟩ : ∃ s1, s1 = (if ((f.reads env t th).any (·.void) && !t.isGraver) = true then
      s.modThread t (fun th => { th with voidSt := true }) else s) := ⟨_, rfl⟩
  have h1t : s1.thread t = some { th with voidSt := th.voidSt || ((f.reads env t th).any (·.void) && !t.isGraver) } := by
    subst hs1
    cases hc : ((f.reads env t th).any (·.void) && !t.isGraver)
    · simp [ht]
    · simp [State.thread_modThread, ht]
  have h1u : ∀ u, t ≠ u → s1.thread u = s.thread u := by
    intro u hu; subst hs1; split
    · simp [State.thread_modThread, hu]
    · rfl
  have h1r : s1 = { s with threads := s1.threads } := by
    subst hs1; split
    · exact State.modThread_rest _ _ _
    · rfl
  have h1p : ∀ u p, s1.laneCell u p = s.laneCell u p := by
    intro u p
    subst hs1; split
    · refine State.laneCell_modThread _ t _ ?_ u p
      intro y; rfl
    · rfl
  have hrd : ∀ u p, s1.readPos u p = s.readPos u p := fun u p => State.readPos_congr (h1p u p)
  have henab : s1.enables t th = s.enables t th := by
    have : s1.launches = s.launches := by rw [h1r]
    simp only [State.enables, State.flagsOf, State.recOf, State.launchOf, this]
  have hd' := laneDone_facts (f := f) (env := env) (th := th) (r := r) hd h1t
  refine ⟨_, laneIssue_any ht hs hv hb (by rw [← hs1]; exact hl s1) hf (by rw [henab]; exact hx) hd, ?_⟩
  obtain ⟨fx, hfx, hself⟩ := hd'.self
  have hout : outFor f.i f.h f.lat { s1 with ctr := env.seq } t th r = outFor f.i f.h f.lat s0 t th r := by
    have : s1.now = s0.now := by rw [h1r]; exact hnow
    simp only [outFor, this, hseq, hlate, Option.map_none]
  refine { self := ⟨fx, ?_, hfx⟩, others := ?_, rest := ?_, dst := hd'.dst, last := hd'.last, lanes := ?_, names := ?_, cells := ?_ }
  · rw [hself, hout]
    simp only [laneThread, ranThread, pendFor, hseq]
  · intro u hu
    rw [hd'.others u (fun h => hu h.symm), h1u u hu]
  · rw [hd'.rest, h1r]
  · intro u hu p
    rw [hd'.names u p (fun h => absurd h.symm hu), hrd]
  · intro p hp hl'
    rw [hd'.names t p (fun _ => ⟨hp, hl'⟩), hrd]
  · intro u hu p hr
    rw [hd'.cells u hu p (by rw [h1p]; exact hr), h1p]

/-! ### Every executing lane -/

/-- A form whose lanes change no state of their own and go on to the next slot. -/
structure Pure (f : Form) (F : LaneFn) : Prop where
  lane : ∀ env s t th vs, f.lane env s t th vs = (s, F env t th vs)
  next : ∀ env t th vs, (F env t th vs).next = none
  late : ∀ env t th vs, (F env t th vs).late = none
  slot : ∀ (s s' : State) t th, s'.launches = s.launches → f.slotBad s' t th = f.slotBad s t th
  nofault : ∀ env t th vs, f.slotBad env.pre t th = false → (F env t th vs).fault = none
  denied : ∀ t, f.denied t = false
  deny : ∀ t vs, f.deny t vs = false
  stall : ∀ s t th w, f.stall s t th w = false
  crowd : ∀ s ts, f.crowd s ts = false
  after : ∀ env s, f.after env s = s
  dst : ∀ k w, f.i.dst ≠ some (.s k, w)

/-- The issue of the executing lanes one after another. -/
def laneFold (f : Form) (env : Env) (ts : List Tid) (a : State × List (Tid × Flt)) : State × List (Tid × Flt) :=
  ts.foldl (fun a t => match laneIssue f env a.1 t with
    | (s, some b) => (s, a.2 ++ [(t, b)])
    | (s, none) => (s, a.2)) a

/-- A lane that reads its operands without a fault, and pushes nothing, is stopped by nothing before it executes. -/
theorem laneBad_none {f : Form} {env : Env} {s : State} {t : Tid} {th : Thread} (ht : s.thread t = some th) (hs : f.slotBad s t th = false)
    (hb : ∀ o ∈ f.reads env t th, o.bad = none) (hd : ∀ k w, f.i.dst ≠ some (.s k, w)) : laneBad f env s t = none := by
  have h : (f.reads env t th).filterMap (·.bad) = [] := List.filterMap_eq_nil_iff.2 hb
  unfold laneBad wordPush
  simp only [ht, hs, h, pushTo_none hd, Bool.false_eq_true, if_false, List.head?_nil, Option.orElse]
  split <;> rfl

/-- So no fault finds the form not issued (R153). -/
theorem wholeBad_nil {f : Form} {env : Env} {s : State} (h : f.whole = false ∨ ∀ t ∈ env.exec, laneBad f env s t = none) :
    wholeBad f env s = [] := by
  unfold wholeBad
  split
  · next hw =>
    rcases h with h | h
    · rw [h] at hw; cases hw
    · exact List.filterMap_eq_nil_iff.2 fun t ht => by rw [h t ht]; rfl
  · rfl

/-- The lanes then run. -/
theorem finishLanes_run {f : Form} {g : Group} {env : Env} {pc0 : DWord} {s : State} (h : wholeBad f env s = []) :
    finishLanes f g env pc0 s =
      let a := runLanes f env s
      let s := placeCells env.pre a.1 f.i g (env.exec.filter fun t => !a.2.any (·.1 == t))
      let s := g.mem.foldl (fun s t => s.modThread t (stamp f env.exec env.seq s t)) s
      f.after env (regroup (takeFaults a.2 pc0 env.seq s) g) := by
  unfold finishLanes
  rw [h]
  rfl

theorem runLanes_eq (f : Form) (env : Env) (s : State) : runLanes f env s = laneFold f env env.exec (s, []) := rfl

/-- What the lanes of `ts` leave, when each of them completes. -/
structure LanesRan (f : Form) (F : LaneFn) (env : Env) (s0 s : State) (ts : List Tid) (s' : State) : Prop where
  ran : ∀ t ∈ ts, ∀ th, s.thread t = some th →
    let r := F env t th ((f.reads env t th).map (·.words))
    ∃ fx, s'.thread t = some (laneThread f s0 t th (f.reads env t th) r fx) ∧ (t.isCore = true → fx = th.fixedNames) ∧
      (r.keep = false → ∀ p ∈ dstPos f.i th,
        s'.laneCell t p = { val := 0, rel := false, pend := some (env.seq, env.pre.readPos t p) }) ∧
      (∀ p ∈ lastPos f.i t th, p ∉ dstPos f.i th → s'.readPos t p = none)
  apart : ∀ t, t ∉ ts → s'.thread t = s.thread t
  rest : s' = { s with cells := s'.cells, threads := s'.threads }
  names : ∀ u p, (∀ th, u ∈ ts → s.thread u = some th → p ∉ dstPos f.i th ∧ p ∉ lastPos f.i u th) → s'.readPos u p = s.readPos u p
  cells : ∀ u, u ∉ ts → ∀ p, (s.laneCell u p).rel = false → s'.laneCell u p = s.laneCell u p

theorem laneFold_pure {f : Form} {F : LaneFn} (hp : Pure f F) {env : Env} {s0 : State} (hseq : env.seq = s0.ctr) (ts : List Tid) :
    ∀ s : State, ts.Nodup → s.now = s0.now → (∀ t ∈ ts, ∃ th, s.thread t = some th) →
    (∀ t ∈ ts, ∀ th, s.thread t = some th → f.slotBad s t th = false ∧
      (∀ o ∈ f.reads env t th, o.bad = none) ∧ ((f.reads env t th).any (·.void) = true → s.voidTrap t th = false) ∧
      (F env t th ((f.reads env t th).map (·.words))).fault = none ∧
      fpTraps (s.enables t th) (F env t th ((f.reads env t th).map (·.words))).fl = false) →
    ∃ s', laneFold f env ts (s, []) = (s', []) ∧ LanesRan f F env s0 s ts s' := by
  induction ts with
  | nil =>
    intro s _ _ _ _
    exact ⟨s, rfl, fun t h => by simp at h, fun _ _ => rfl, rfl, fun _ _ _ => rfl, fun _ _ _ _ => rfl⟩
  | cons t ts ih =>
    intro s hnd hnow hth hok
    obtain ⟨hnt, hnd'⟩ := List.nodup_cons.1 hnd
    obtain ⟨th, ht⟩ := hth t List.mem_cons_self
    obtain ⟨hsl, hb, hv, hf, hx⟩ := hok t List.mem_cons_self th ht
    obtain ⟨s1, e1, l1⟩ := laneIssue_pure (s0 := s0) ht hseq hnow hsl hv hb (fun s => hp.lane env s t th _) hf hx hp.dst
      (hp.late _ _ _ _)
    have hne : ∀ u ∈ ts, t ≠ u := fun u hu h => hnt (h ▸ hu)
    have hrest : s1 = { s with cells := s1.cells, threads := s1.threads } := l1.rest
    have hnow1 : s1.now = s0.now := by rw [hrest]; exact hnow
    have hflags : ∀ u uh, s1.flagsOf u uh = s.flagsOf u uh := by
      intro u uh
      have : s1.launches = s.launches := by rw [hrest]
      simp only [State.flagsOf, State.recOf, State.launchOf, this]
    obtain ⟨s2, e2, l2⟩ := ih s1 hnd' hnow1 (fun u hu => by rw [l1.others u (hne u hu)]; exact hth u (List.mem_cons_of_mem _ hu))
      (fun u hu uh huh => by
        rw [l1.others u (hne u hu)] at huh
        obtain ⟨k1, k2⟩ := hok u (List.mem_cons_of_mem _ hu) uh huh
        refine ⟨(hp.slot _ _ _ _ (by rw [hrest])).trans k1, ?_⟩
        simpa only [State.voidTrap, State.enables, hflags] using k2)
    refine ⟨s2, ?_, ?_, ?_, ?_, ?_, ?_⟩
    · rw [← e2]; simp only [laneFold, List.foldl_cons, e1]
    · intro u hu uh huh
      rcases List.mem_cons.1 hu with rfl | hu'
      · have : uh = th := by rw [ht] at huh; exact (Option.some.inj huh).symm
        subst this
        obtain ⟨fx, a1, a2⟩ := l1.self
        refine ⟨fx, (l2.apart u hnt).trans a1, a2, fun hk p hpd => ?_, fun p hpl hpd => ?_⟩
        · have h1 := l1.dst hk p hpd
          rw [l2.cells u hnt p (by rw [h1])]; exact h1
        · rw [l2.names u p (fun _ h _ => absurd h hnt)]; exact l1.last p hpl hpd
      · obtain ⟨fx, b1, b2⟩ := l2.ran u hu' uh (by rw [l1.others u (hne u hu')]; exact huh)
        exact ⟨fx, b1, b2⟩
    · intro u hu
      rw [l2.apart u (fun h => hu (List.mem_cons_of_mem _ h)), l1.others u (fun h => hu (h ▸ List.mem_cons_self))]
    · rw [l2.rest, hrest]
    · intro u p hu
      by_cases htu : t = u
      · subst htu
        rw [l2.names t p (fun _ h _ => absurd h hnt)]
        obtain ⟨h1, h2⟩ := hu th List.mem_cons_self ht
        exact l1.names p h1 h2
      · rw [l2.names u p (fun uh hm huh => hu uh (List.mem_cons_of_mem _ hm) (by rw [← l1.others u htu]; exact huh))]
        exact l1.lanes u htu p
    · intro u hu p hr
      have h1 := l1.cells u (fun h => hu (h ▸ List.mem_cons_self)) p hr
      rw [l2.cells u (fun h => hu (List.mem_cons_of_mem _ h)) p (by rw [h1]; exact hr)]; exact h1

/-- A change of each thread of a list. -/
theorem thread_foldl_modThread (G : State → Tid → Thread → Thread) (hG : ∀ s t x f, G (s.modThread x f) t = G s t) (ts : List Tid) :
    ∀ s : State, ts.Nodup →
    let s' := ts.foldl (fun s t => s.modThread t (G s t)) s
    (∀ u, s'.thread u = if u ∈ ts then (s.thread u).map (G s u) else s.thread u) ∧ s' = { s with threads := s'.threads } := by
  induction ts with
  | nil => intro s _; exact ⟨fun _ => by simp, rfl⟩
  | cons t ts ih =>
    intro s hnd
    obtain ⟨hnt, hnd'⟩ := List.nodup_cons.1 hnd
    obtain ⟨h1, h2⟩ := ih (s.modThread t (G s t)) hnd'
    refine ⟨fun u => ?_, ?_⟩
    · simp only [List.foldl_cons]
      rw [h1]
      simp only [State.thread_modThread, hG]
      by_cases hu : u ∈ ts
      · have : ¬ t = u := fun h => hnt (h ▸ hu)
        simp [hu, this]
      · by_cases h : t = u
        · subst h; simp [hnt]
        · have : ¬ u = t := fun x => h x.symm
          simp [hu, h, this]
    · simp only [List.foldl_cons]
      rw [h2, State.modThread_rest]

/-! ### Where the written names stand -/

/-- Placing a cell changes no lane of it, and no more of the machine than the cell. -/
theorem placeCell_facts (pre s : State) (ts : List Tid) (k : CellKey) :
    placeCell pre s ts k = { s with cells := (placeCell pre s ts k).cells } ∧
    ∀ u p, (placeCell pre s ts k).laneCell u p = s.laneCell u p := by
  unfold placeCell
  split
  · next c0 c _ hc =>
    refine ⟨rfl, fun u p => ?_⟩
    cases e : State.cellKey u p with
    | none => simp only [State.laneCell, e, State.thread]
    | some k' =>
      rw [State.laneCell_core e, State.laneCell_core e]
      simp only [Tab.get_set]
      by_cases h : k = k'
      · subst h
        rw [if_pos rfl, hc]
        simp only
        split <;> rfl
      · rw [if_neg h]
  · exact ⟨rfl, fun _ _ => rfl⟩

theorem placeCells_facts (pre : State) (i : Instr) (g : Group) (ts : List Tid) (s : State) :
    placeCells pre s i g ts = { s with cells := (placeCells pre s i g ts).cells } ∧
    ∀ u p, (placeCells pre s i g ts).laneCell u p = s.laneCell u p := by
  unfold placeCells
  induction dstKeys pre i g generalizing s with
  | nil => exact ⟨rfl, fun _ _ => rfl⟩
  | cons k ks ih =>
    obtain ⟨h1, h2⟩ := placeCell_facts pre s ts k
    obtain ⟨h3, h4⟩ := ih (placeCell pre s ts k)
    simp only [List.foldl_cons]
    refine ⟨?_, fun u p => (h4 u p).trans (h2 u p)⟩
    rw [h3, h1]

/-! ### The whole group -/

/-- Threads that run on at one PC, none of them by a transfer, stay one group. -/
theorem regroup_same {s : State} {g : Group} {pc : DWord} (hne : g.mem ≠ []) (hr : ∀ t ∈ g.mem, running s t = true)
    (hpc : ∀ t ∈ g.mem, s.pcOf t = pc) (hin : ∀ t ∈ g.mem, cameIn s t = false) :
    regroup s g = { s with groups := s.groups ++ [goesOn g] } := by
  have hf : g.mem.filter (running s) = g.mem := List.filter_eq_self.2 hr
  have hany : g.mem.any (cameIn s) = false := by
    rw [List.any_eq_false]
    intro t ht
    rw [hin t ht]; simp
  cases hm : g.mem with
  | nil => exact absurd hm hne
  | cons t ts =>
    have ht : s.pcOf t = pc := hpc t (by rw [hm]; exact List.mem_cons_self)
    have hts : ∀ u ∈ ts, s.pcOf u = pc := fun u hu => hpc u (by rw [hm]; exact List.mem_cons_of_mem _ hu)
    have hall : ((t :: ts).all fun u => s.pcOf u == s.pcOf t) = true := by
      rw [List.all_eq_true]
      intro u hu
      rcases List.mem_cons.1 hu with rfl | hu
      · simp
      · simp [ht, hts u hu]
    have hself : (ts.filter fun u => s.pcOf u == s.pcOf t) = ts :=
      List.filter_eq_self.2 fun u hu => by simp [ht, hts u hu]
    have hnone : ∀ x : State, x.threads = s.threads → (ts.filter fun u => x.pcOf u != s.pcOf t) = [] := fun x hx =>
      List.filter_eq_nil_iff.2 fun u hu => by
        have : x.pcOf u = s.pcOf u := by simp only [State.pcOf, State.thread, hx]
        simp [this, ht, hts u hu]
    have hng : ∀ (s : State) q fr y n, regroupGo s q fr y n [] = s := by
      intro s q fr y n; cases n <;> rfl
    unfold regroup
    rw [hf, hm]
    have hgo : ∀ (x : State) q fr y n, x.threads = s.threads →
        regroupGo x q fr y n (ts.filter fun u => x.pcOf u != s.pcOf t) = x := fun x q fr y n hx => by rw [hnone x hx, hng]
    have hfr : (!true || ts.length + 1 != ts.length + 1 || (t :: ts).any (cameIn s)) = false := by rw [← hm, hany]; simp
    simp only [hall, List.length_cons, regroupGo, hself, goesOn, hm, hfr]
    exact hgo _ _ _ _ _ rfl

theorem noteAlloc_rest (s : State) (t : Tid) : noteAlloc s t = { s with cores := (noteAlloc s t).cores } := by
  unfold noteAlloc; split <;> rfl

theorem noteAlloc_core (s : State) (t : Tid) (c : Nat) :
    (noteAlloc s t).core c = { s.core c with stall := ((noteAlloc s t).core c).stall, lastAlloc := ((noteAlloc s t).core c).lastAlloc } := by
  unfold noteAlloc
  split
  · next c' _ _ =>
    rw [State.core_modCore]
    split
    · next h => subst h; rfl
    · rfl
  · rfl

theorem usePipe_rest (s : State) (i : Instr) (g : Group) : usePipe s i g = { s with pipes := (usePipe s i g).pipes } := by
  unfold usePipe; split <;> rfl

theorem usePipe_pipes {s s' : State} (hp : s'.pipes = s.pipes) (hn : s'.now = s.now) (i : Instr) (g : Group) :
    (usePipe s' i g).pipes = (usePipe s i g).pipes := by
  unfold usePipe
  split
  · exact hp
  · exact hp
  · simp only [hp, hn]

theorem began_rest (i : Instr) (h : Hdr) (s : State) (g : Group) :
    began i h s g = { s with issuing := none, ctr := s.ctr + 1, groups := s.groups ++ g.after, pipes := (usePipe s i g).pipes,
                             cores := (began i h s g).cores } := by
  unfold began
  simp only
  rw [usePipe_rest]
  cases g.mem with
  | nil =>
    simp only
    congr 1
    exact usePipe_pipes (by rfl) (by rfl) i g
  | cons t ts =>
    simp only
    split
    · congr 1
      exact usePipe_pipes (by rfl) (by rfl) i g
    · rw [noteAlloc_rest]
      congr 1
      exact usePipe_pipes (by rfl) (by rfl) i g

theorem began_core (i : Instr) (h : Hdr) (s : State) (g : Group) (c : Nat) :
    (began i h s g).core c = { s.core c with stall := ((began i h s g).core c).stall, lastAlloc := ((began i h s g).core c).lastAlloc } := by
  have hu : ∀ (x : State), (usePipe x i g).core c = x.core c := fun x => by
    rw [usePipe_rest]; rfl
  unfold began
  simp only [hu]
  cases g.mem with
  | nil => rfl
  | cons t ts =>
    simp only
    split
    · rfl
    · exact noteAlloc_core _ _ _

/-- A group that nothing holds back comes to its lanes. -/
theorem issue_lanes {f : Form} {s : State} {g : Group} {t : Tid} {ts : List Tid} (hfi : Fires f.i s g) (hd : f.denied t = false)
    (hm : g.mem = t :: ts) : issue f s = issueLanes f g t { s with issuing := none } := by
  obtain ⟨t0, ts0, hm', hprof, hgrav, hproof⟩ := hfi.lead
  have ht : t0 = t := by rw [hm] at hm'; exact (List.cons.inj hm').1.symm
  subst ht
  have h1 : (t0.isGraver && badInGraver f.i) = false := by
    cases hg : t0.isGraver
    · rfl
    · rw [hgrav hg]; rfl
  have h2 : (t0.isCore && proofForm f.i) = false := by
    cases hg : t0.isCore
    · rfl
    · rw [hproof hg]; rfl
  have h3 : (f.i.warpWhole && !isWhole { s with issuing := none } g) = false := by
    cases hg : f.i.warpWhole
    · rfl
    · have : isWhole { s with issuing := none } g = isWhole s g := rfl
      rw [this, hfi.whole hg]; rfl
  have hw : wordFault f t0 = none := by
    unfold wordFault faultOf
    simp only [h1, hprof, h2, hd, hfi.aligned, Bool.not_true, Bool.or_false, Bool.false_eq_true, if_false]
  unfold issue
  simp only [hfi.slot]
  split
  · next h => rw [hm] at h; cases h
  · next u us h =>
    have hu : u = t0 := by rw [hm] at h; exact (List.cons.inj h).1.symm
    subst hu
    simp only [hw, h3, Bool.false_eq_true, if_false]

/-- Lanes that nothing stalls run. -/
theorem issueLanes_free {f : Form} {s : State} {g : Group} {t : Tid} {ts : List Tid} (hm : g.mem = t :: ts)
    (hfr : Free f.i f.h s g) (hh : formHolds f { s with issuing := none } (executing f.h s g) = false)
    (hdeny : ((executing f.h s g).any (laneDenied f (envOf f.i f.h s g))) = false) :
    issueLanes f g t { s with issuing := none } = finishLanes f g (envOf f.i f.h s g) (s.pcOf t) (began f.i f.h s g) := by
  have he : executing f.h { s with issuing := none } g = executing f.h s g := rfl
  have hhold : laneHolds f.i f.h { s with issuing := none } (executing f.h s g) = false := by
    unfold laneHolds
    rw [List.any_eq_false]
    intro u hu
    obtain ⟨_, th, hth, _⟩ := mem_executing.1 hu
    have hth' : State.thread { s with issuing := none } u = some th := hth
    have hph : pushHolds f.i { s with issuing := none } u th = false := (hfr.each u hu th hth).2
    simp [hth', hph, (hfr.each u hu th hth).1]
  have hmv : cellsMoving { s with issuing := none } f.i g (executing f.h s g) = false := hfr.still
  have hrm : cellStall { s with issuing := none } f.i g (executing f.h s g) = false := hfr.room
  have hsl : slotsHold { s with issuing := none } (spilledKeys { s with issuing := none } f.i g (executing f.h s g)) = false := by
    have : spilledKeys { s with issuing := none } f.i g (executing f.h s g) = [] := hfr.filled
    rw [this]; rfl
  unfold issueLanes
  simp only [he, hhold, hmv, hh, hrm, hsl, Bool.or_false, Bool.false_eq_true, if_false]
  have hb : usePipe { (if (cellNeeds { s with issuing := none } f.i g (executing f.h s g)).isEmpty then { s with issuing := none }
      else noteAlloc { s with issuing := none } t) with ctr := s.ctr + 1, groups := s.groups ++ g.after } f.i g = began f.i f.h s g := by
    unfold began
    simp only [hm]
    rfl
  obtain ⟨b, hbd⟩ : ∃ b, b = (if (cellNeeds { s with issuing := none } f.i g (executing f.h s g)).isEmpty then { s with issuing := none }
      else noteAlloc { s with issuing := none } t) := ⟨_, rfl⟩
  rw [← hbd] at hb ⊢
  have hbr : b = { s with issuing := none, cores := b.cores } := by
    rw [hbd]; split
    · rfl
    · rw [noteAlloc_rest]
  have hpc : b.pcOf t = s.pcOf t := by rw [hbr]; rfl
  have hsp : spilledKeys { b with ctr := b.ctr + 1 } f.i g (executing f.h s g) = [] := by rw [hbr]; exact hfr.filled
  have hc : b.ctr = s.ctr := by rw [hbr]
  have hgr : b.groups = s.groups := by rw [hbr]
  unfold issueGroup
  simp only [hm, State.fresh]
  rw [hsp]
  simp only [fillKeysBack, List.foldl_nil, hc, hgr, hb, hpc]
  have hev : ({ pre := began f.i f.h s g, exec := executing f.h s g, grp := t :: ts, seq := s.ctr, un := [] } : Env) =
      envOf f.i f.h s g := by
    rw [envOf, hm]
  rw [hev, hdeny]
  rfl

theorem issue_pure {f : Form} {F : LaneFn} (hp : Pure f F) {s : State} {g : Group} (hfi : Fires f.i s g) (hfr : Free f.i f.h s g)
    (hok : LanesRead f.i f.h s g f.reads) (hun : Untrapped f.i f.h s g f.reads F)
    (hsl : ∀ t ∈ executing f.h s g, ∀ th, s.thread t = some th → f.slotBad s t th = false) : Ran f.i f.h f.lat s g f.reads F (issue f s) := by
  obtain ⟨t0, ts0, hm, hprof, hgrav, hproof⟩ := hfi.lead
  have hmem0 : t0 ∈ g.mem := by rw [hm]; exact List.mem_cons_self
  have hne : g.mem ≠ [] := by rw [hm]; simp
  obtain ⟨th0, hth0, _⟩ := hfi.threads t0 hmem0
  -- the state and the environment of the lanes
  obtain ⟨b, hb⟩ : ∃ b, b = began f.i f.h s g := ⟨_, rfl⟩
  have hbr := began_rest f.i f.h s g
  rw [← hb] at hbr
  have hbt : ∀ t, b.thread t = s.thread t := by intro t; rw [hbr]; rfl
  have hbp : ∀ t p, b.laneCell t p = s.laneCell t p := by
    intro t p
    have h1 : b.cells = s.cells := by rw [hbr]
    simp only [State.laneCell, hbt, h1]
  have hbf : ∀ t th, b.flagsOf t th = s.flagsOf t th := by
    intro u uh
    have : b.launches = s.launches := by rw [hbr]
    simp only [State.flagsOf, State.recOf, State.launchOf, this]
  have hread : ∀ t p, b.readPos t p = s.readPos t p := fun t p => State.readPos_congr (hbp t p)
  have hslb : ∀ t th, f.slotBad b t th = f.slotBad s t th := fun t th => hp.slot s b t th (by rw [hbr])
  obtain ⟨s1, e1, l1⟩ := laneFold_pure hp (env := envOf f.i f.h s g) (s0 := s) rfl (executing f.h s g) b
    (executing_nodup hfi.nodup) (by rw [hbr]) (fun t ht => by
      obtain ⟨_, th, h, _⟩ := mem_executing.1 ht
      exact ⟨th, (hbt t).trans h⟩)
    (fun t ht th hth => by
      have hth' := (hbt t).symm.trans hth
      obtain ⟨h1, h2⟩ := hok t ht th hth'
      refine ⟨(hslb t th).trans (hsl t ht th hth'), h1, ?_, hp.nofault _ _ _ _ ?_, ?_⟩
      · intro hv; simp only [State.voidTrap, hbf]; exact h2 hv
      · rw [show (envOf f.i f.h s g).pre = b from hb.symm, hslb]; exact hsl t ht th hth'
      · have he : b.enables t th = s.enables t th := by simp only [State.enables, hbf]
        rw [he]
        rcases hun t ht th hth' with h | h
        · rw [h]; simp [fpTraps]
        · exact h)
  -- the cells of the names written
  obtain ⟨sp, hsp⟩ : ∃ sp, sp = placeCells b s1 f.i g ((executing f.h s g).filter fun t => !([] : List (Tid × Flt)).any (·.1 == t)) := ⟨_, rfl⟩
  obtain ⟨p1, p2⟩ := placeCells_facts b f.i g ((executing f.h s g).filter fun t => !([] : List (Tid × Flt)).any (·.1 == t)) s1
  rw [← hsp] at p1 p2
  have hpt : ∀ t, sp.thread t = s1.thread t := fun t => by rw [p1]; rfl
  -- the threads' PCs and cycles
  have h1f : ∀ t th, sp.flagsOf t th = s.flagsOf t th := by
    intro u uh
    have h1 : sp.launches = s1.launches := by rw [p1]
    have h2 : s1.launches = b.launches := by rw [l1.rest]
    have h3 : b.launches = s.launches := by rw [hbr]
    simp only [State.flagsOf, State.recOf, State.launchOf, h1, h2, h3]
  have h1now : sp.now = s.now := by rw [p1, l1.rest, hbr]
  have hGmod : ∀ x u k, stamp f (executing f.h s g) s.ctr (State.modThread x u k) = stamp f (executing f.h s g) s.ctr x := by
    intro x u k
    rw [State.modThread_rest]
    rfl
  obtain ⟨t1, t2⟩ := thread_foldl_modThread (stamp f (executing f.h s g) s.ctr) (fun x u t k => by rw [hGmod]) g.mem sp hfi.nodup
  obtain ⟨s2, hs2⟩ : ∃ s2, s2 = g.mem.foldl (fun s' t => s'.modThread t (stamp f (executing f.h s g) s.ctr s' t)) sp := ⟨_, rfl⟩
  simp only [← hs2] at t1 t2
  have hthread1 : ∀ t ∈ g.mem, ∀ th, s.thread t = some th → (t ∈ executing f.h s g → ∃ fx r, sp.thread t = some
      (laneThread f s t th (f.reads (envOf f.i f.h s g) t th) r fx) ∧ r.next = none) ∧
      (t ∉ executing f.h s g → sp.thread t = some th) := by
    intro t _ th hth
    refine ⟨fun he => ?_, fun he => ?_⟩
    · obtain ⟨fx, h, _⟩ := l1.ran t he th ((hbt t).trans hth)
      exact ⟨fx, _, (hpt t).trans h, hp.next _ _ _ _⟩
    · rw [hpt, l1.apart t he, hbt, hth]
  have hpcs : ∀ t ∈ g.mem, running s2 t = true ∧ s2.pcOf t = nextSlot (s.pcOf t0) ∧ cameIn s2 t = false := by
    intro t ht
    obtain ⟨th, hth, hrun⟩ := hfi.threads t ht
    have hpc : th.pc = s.pcOf t0 := by
      have := hfi.onePc t ht t0 hmem0
      simpa [State.pcOf, hth] using this
    obtain ⟨hx, hn⟩ := hthread1 t ht th hth
    by_cases he : t ∈ executing f.h s g
    · obtain ⟨fx, r, h1, hr⟩ := hx he
      have h2 : s2.thread t = some (stamp f (executing f.h s g) s.ctr sp t (laneThread f s t th (f.reads (envOf f.i f.h s g) t th) r fx)) := by
        rw [t1, if_pos ht, h1]; rfl
      simp only [running, State.pcOf, cameIn, h2, stamp, laneThread, ranThread, hr, Option.getD_none, hpc]
      simp [he, hrun]
    · have h2 : s2.thread t = some (stamp f (executing f.h s g) s.ctr sp t th) := by rw [t1, if_pos ht, hn he]; rfl
      simp only [running, State.pcOf, cameIn, h2, stamp, hpc]
      simp [he, hrun]
  have hhold : formHolds f { s with issuing := none } (executing f.h s g) = false := by
    unfold formHolds
    rw [hp.crowd, Bool.false_or, List.any_eq_false]
    intro t _
    split
    · simp [hp.stall]
    · simp
  have hdeny : ((executing f.h s g).any (laneDenied f (envOf f.i f.h s g))) = false := by
    rw [List.any_eq_false]
    intro t _
    unfold laneDenied
    split <;> simp [hp.deny]
  have hissue : issue f s = regroup s2 g := by
    rw [issue_lanes hfi (hp.denied t0) hm, issueLanes_free hm hfr hhold hdeny]
    rw [finishLanes_run (wholeBad_nil (.inr fun t ht => by
      obtain ⟨_, th, hth, _⟩ := mem_executing.1 ht
      exact laneBad_none (by rw [← hb]; exact (hbt t).trans hth) (by rw [← hb, hslb]; exact hsl t ht th hth) (hok t ht th hth).1 hp.dst))]
    simp only
    rw [runLanes_eq, show (envOf f.i f.h s g).exec = executing f.h s g from rfl, ← hb, e1]
    simp only [show (envOf f.i f.h s g).pre = b from hb.symm, ← hsp, show (envOf f.i f.h s g).seq = s.ctr from rfl, ← hs2, hp.after,
      takeFaults, List.foldl_nil]
  rw [hissue, regroup_same hne (fun t h => (hpcs t h).1) (fun t h => (hpcs t h).2.1) (fun t h => (hpcs t h).2.2)]
  have hgroups : s2.groups = s.groups ++ g.after := by rw [t2, p1, l1.rest, hbr]
  obtain ⟨s3, hs3⟩ : ∃ s3, s3 = { s2 with groups := s2.groups ++ [goesOn g] } := ⟨_, rfl⟩
  rw [← hs3]
  have h3t : ∀ t, s3.thread t = s2.thread t := fun t => by rw [hs3]; rfl
  have hcells : s3.cells = sp.cells := by rw [hs3, t2]
  have hfix : ∀ t p, s3.laneCell t p = s1.laneCell t p := by
    intro t p
    rw [← p2]
    cases e : State.cellKey t p with
    | some k => rw [State.laneCell_core e, State.laneCell_core e, hcells]
    | none =>
      simp only [State.laneCell, e, h3t, t1]
      by_cases h : t ∈ g.mem
      · rw [if_pos h]
        cases sp.thread t <;> rfl
      · rw [if_neg h]
  have hrd : ∀ t p, s3.readPos t p = s1.readPos t p := fun t p => State.readPos_congr (hfix t p)
  have henab : ∀ t (x y : Thread), x.ctx = y.ctx → x.launch = y.launch → sp.enables t x = s.enables t y := by
    intro t x y h1 h2
    simp only [State.enables, h1f]
    simp only [State.flagsOf, State.recOf, State.launchOf, h1, h2]
  refine { rest := ?_, cores := ?_, ran := ?_, passed := ?_, apart := ?_, names := ?_ }
  · rw [hs3, hgroups, t2, p1, l1.rest, hbr]
  · intro c
    have h1 : s3.core c = b.core c := by
      have : s3.cores = b.cores := by rw [hs3, t2, p1, l1.rest]
      simp only [State.core, this]
    rw [h1, hb]; exact began_core f.i f.h s g c
  · intro t ht th hth
    obtain ⟨htm, _⟩ := mem_executing.1 ht
    obtain ⟨fx, a1, a2, a3, a4⟩ := l1.ran t ht th ((hbt t).trans hth)
    refine ⟨fx, ?_, a2, fun hk p hpd => ?_, fun p hpl hpd => ?_⟩
    · rw [h3t, t1, if_pos htm, hpt, a1]
      simp only [Option.map_some, stamp]
      rw [henab t (laneThread _ _ _ _ _ _ _) th rfl rfl]
      simp only [laneThread, ranThread, heldFor, h1now, List.contains_eq_mem, ht, decide_true, if_true, Bool.true_and]
    · rw [hfix, a3 hk p hpd]
      have : (envOf f.i f.h s g).pre.readPos t p = s.readPos t p := by
        rw [show (envOf f.i f.h s g).pre = b from hb.symm]; exact hread t p
      rw [this]; rfl
    · rw [hrd]; exact a4 p hpl hpd
  · intro t htm he th hth
    rw [h3t, t1, if_pos htm, (hthread1 t htm th hth).2 he]
    simp only [Option.map_some, stamp, passedThread, heldFor, h1now]
    rw [henab t th th rfl rfl]
    simp [he]
  · intro t htm
    rw [h3t, t1, if_neg htm, hpt, l1.apart t (fun h => htm (mem_executing.1 h).1), hbt]
  · intro u p hu
    rw [hrd, l1.names u p (fun th hm hth => hu th hm ((hbt u).symm.trans hth))]
    exact hread u p

/-- So a form whose lanes only compute completes. -/
theorem completes_pure {i : Instr} {f : Form} {F : LaneFn} (hi : f.i = i) (he : ∀ s, exec i s = .next (issue f s))
    (hp : (∀ k w, f.i.dst ≠ some (.s k, w)) → Pure f F) :
    Completes i f.h f.lat F f.reads (fun s t th => f.slotBad s t th = false) := by
  subst hi
  intro s g hfi hfr hok hun hsl hd
  exact ⟨_, he s, issue_pure (hp hd) hfi hfr hok hun hsl⟩

/-- A form that leaves every check of `Form` at its default. -/
theorem pure_plain {i : Instr} {h : Hdr} {lat : Lat} {F : LaneFn} {rd : Reads} {wh : Bool} (hn : ∀ env t th vs, (F env t th vs).next = none)
    (hl : ∀ env t th vs, (F env t th vs).late = none) (hf : ∀ env t th vs, (F env t th vs).fault = none)
    (hd : ∀ k w, i.dst ≠ some (.s k, w)) :
    Pure { i := i, h := h, lat := lat, lane := fun env s t th vs => (s, F env t th vs), reads := rd, whole := wh } F :=
  { lane := fun _ _ _ _ _ => rfl, next := hn, late := hl, slot := fun _ _ _ _ _ => rfl, nofault := fun _ _ _ _ _ => hf _ _ _ _,
    denied := fun _ => rfl, deny := fun _ _ => rfl, stall := fun _ _ _ _ => rfl,
    crowd := fun _ _ => rfl, after := fun _ _ => rfl, dst := hd }

/-- A register-only form of classes 0x0 to 0x5 completes. -/
theorem completes_plain {i : Instr} {h : Hdr} {lat : Lat} {F : LaneFn} {rd : Reads} {wh : Bool}
    (he : ∀ s, exec i s = .next (issue { i := i, h := h, lat := lat, lane := fun env s t th vs => (s, F env t th vs), reads := rd, whole := wh } s))
    (hn : ∀ env t th vs, (F env t th vs).next = none) (hl : ∀ env t th vs, (F env t th vs).late = none)
    (hf : ∀ env t th vs, (F env t th vs).fault = none) :
    Completes i h lat F rd := by
  intro s g hfi hfr hok hun _ hd
  exact ⟨_, he s, issue_pure (pure_plain hn hl hf hd) hfi hfr hok hun (fun _ _ _ _ => rfl)⟩

end Sys2Proof.Machine
end

