-- ==== Sys2Proof/Laws/Mem.lean ====
section
/-!
SUPPORT. The byte memory keeps its canonical form and answers what was written; what each access to the levels of memory leaves
alone.
-/
namespace Sys2Proof.Machine

/-! ### The byte memory -/

namespace Memory

theorem wfFrom_mono {m : Memory} : ∀ {a b : Nat}, b ≤ a → wfFrom a m = true → wfFrom b m = true := by
  cases m with
  | nil => intro _ _ _ _; rfl
  | cons c m =>
    obtain ⟨k, x⟩ := c
    intro a b hab h
    simp only [wfFrom, Bool.and_eq_true, decide_eq_true_eq] at h ⊢
    exact ⟨⟨by omega, h.1.2⟩, h.2⟩

theorem get_below {m : Memory} : ∀ {lo q : Nat}, wfFrom lo m = true → q < lo → get m q = 0 := by
  induction m with
  | nil => intro _ _ _ _; rfl
  | cons c m ih =>
    obtain ⟨k, x⟩ := c
    intro lo q h hq
    simp only [wfFrom, Bool.and_eq_true, decide_eq_true_eq] at h
    rw [get, if_neg (by omega)]
    exact ih h.2 (by omega)

theorem wfFrom_put {m : Memory} : ∀ {lo q : Nat} (x : Byte), lo ≤ q → wfFrom lo m = true → wfFrom lo (put m q x) = true := by
  induction m with
  | nil =>
    intro lo q x hq _
    unfold put
    split
    · rfl
    · next h => simp [wfFrom, hq]; exact h
  | cons c m ih =>
    obtain ⟨k, y⟩ := c
    intro lo q x hq h
    simp only [wfFrom, Bool.and_eq_true, decide_eq_true_eq] at h
    obtain ⟨⟨h1, h2⟩, h3⟩ := h
    unfold put
    split
    · next hk =>
      simp only [wfFrom, Bool.and_eq_true, decide_eq_true_eq]
      exact ⟨⟨h1, h2⟩, ih x (by omega) h3⟩
    · split
      · next hk he =>
        subst he
        split
        · exact wfFrom_mono (by omega) h3
        · next hx => simp [wfFrom, h1, h3]; exact hx
      · next hk he =>
        split
        · simp [wfFrom, h1, h3]; simpa using h2
        · next hx =>
          simp only [wfFrom, Bool.and_eq_true, decide_eq_true_eq, bne_iff_ne, ne_eq]
          exact ⟨⟨hq, hx⟩, ⟨by omega, by simpa using h2⟩, h3⟩

theorem wf_put {m : Memory} (q : Nat) (x : Byte) (h : m.wf = true) : (m.put q x).wf = true := wfFrom_put x (Nat.zero_le _) h

theorem wf_store {m : Memory} (a n v : Nat) (h : m.wf = true) : (m.store a n v).wf = true := by
  induction n generalizing m a v with
  | zero => exact h
  | succ n ih => exact ih _ _ (wf_put _ _ h)

theorem wfFrom_filter {m : Memory} (p : Host.Cell → Bool) : ∀ {lo : Nat}, wfFrom lo m = true → wfFrom lo (m.filter p) = true := by
  induction m with
  | nil => intro _ _; rfl
  | cons c m ih =>
    obtain ⟨k, y⟩ := c
    intro lo h
    simp only [wfFrom, Bool.and_eq_true, decide_eq_true_eq] at h
    rw [List.filter_cons]
    split
    · simp only [wfFrom, Bool.and_eq_true, decide_eq_true_eq]
      exact ⟨h.1, ih h.2⟩
    · exact wfFrom_mono (by omega) (ih h.2)

theorem wf_clear {m : Memory} (a n : Nat) (h : m.wf = true) : (m.clear a n).wf = true := wfFrom_filter _ h

/-- One byte written: that address answers it, every other as before. -/
theorem get_put {m : Memory} (q : Nat) (x : Byte) (r : Nat) : ∀ {lo : Nat}, wfFrom lo m = true →
    get (put m q x) r = if r = q then x else get m r := by
  induction m with
  | nil =>
    intro lo _
    unfold put
    by_cases hx : x = 0
    · subst hx; simp [get]
    · rw [if_neg hx]
      by_cases hr : r = q
      · subst hr; simp [get]
      · have : ¬ q = r := fun h => hr h.symm
        simp [get, hr, this]
  | cons c m ih =>
    obtain ⟨k, y⟩ := c
    intro lo h
    simp only [wfFrom, Bool.and_eq_true, decide_eq_true_eq] at h
    obtain ⟨⟨h1, h2⟩, h3⟩ := h
    unfold put
    split
    · next hk =>
      simp only [get]
      by_cases hr : k = r
      · subst hr; rw [if_pos rfl, if_pos rfl, if_neg (by omega)]
      · rw [if_neg hr, if_neg hr]; exact ih h3
    · split
      · next hk he =>
        subst he
        by_cases hx : x = 0
        · subst hx
          rw [if_pos rfl]
          by_cases hr : r = k
          · subst hr; rw [if_pos rfl]; exact get_below h3 (by omega)
          · have : ¬ k = r := fun h => hr h.symm
            simp [get, hr, this]
        · rw [if_neg hx]
          by_cases hr : r = k
          · subst hr; simp [get]
          · have : ¬ k = r := fun h => hr h.symm
            simp [get, hr, this]
      · next hk he =>
        by_cases hx : x = 0
        · subst hx
          rw [if_pos rfl]
          by_cases hr : r = q
          · subst hr
            rw [if_pos rfl]
            simp only [get]
            rw [if_neg he]
            exact get_below h3 (by omega)
          · simp [hr]
        · rw [if_neg hx]
          by_cases hr : r = q
          · subst hr; simp [get]
          · have : ¬ q = r := fun h => hr h.symm
            simp [get, hr, this]

/-- n bytes stored: byte k of the value at a + k, every other address as before. -/
theorem get_store {m : Memory} (a n v r : Nat) (h : m.wf = true) :
    (m.store a n v).get r = if a ≤ r ∧ r < a + n then BitVec.ofNat 8 (v / 256 ^ (r - a)) else m.get r := by
  induction n generalizing m a v with
  | zero => rw [if_neg (by omega)]; rfl
  | succ n ih =>
    show ((m.put a (BitVec.ofNat 8 v)).store (a + 1) n (v / 256)).get r = _
    rw [ih (a + 1) (v / 256) (wf_put _ _ h)]
    by_cases h1 : a + 1 ≤ r ∧ r < a + 1 + n
    · rw [if_pos h1, if_pos (by omega), Nat.div_div_eq_div_mul]
      have : r - a = (r - (a + 1)) + 1 := by omega
      rw [this, Nat.pow_succ, Nat.mul_comm 256]
    · rw [if_neg h1, get_put _ _ _ h]
      by_cases h2 : r = a
      · subst h2; simp
      · rw [if_neg h2, if_neg (by omega)]

end Memory

/-! ### What an access at the homes leaves alone -/

/-- What engine accesses and fault records may change: the memory's levels behind the cores. -/
def Behind (s s' : State) : Prop :=
  ∃ m k p b d, s' = { s with mem := m, sectorKeys := k, poison := p, badCrc := b, dies := d }

theorem Behind.refl (s : State) : Behind s s := ⟨_, _, _, _, _, rfl⟩

theorem Behind.trans {a b c : State} (h : Behind a b) (k : Behind b c) : Behind a c := by
  obtain ⟨_, _, _, _, _, rfl⟩ := h
  obtain ⟨_, _, _, _, _, rfl⟩ := k
  exact ⟨_, _, _, _, _, rfl⟩

theorem markWrite_behind (s : State) (cs : Nat) (k : KeyRef) (m : BitVec 64) : Behind s (markWrite s cs k m) := by
  unfold markWrite
  split
  · exact ⟨_, _, _, _, _, rfl⟩
  · split <;> exact ⟨_, _, _, _, _, rfl⟩

theorem markWrite_mem (s : State) (cs : Nat) (k : KeyRef) (m : BitVec 64) : (markWrite s cs k m).mem = s.mem := by
  unfold markWrite
  split
  · rfl
  · split <;> rfl

theorem setSectorKey_behind (s : State) (cs : Nat) (k : KeyRef) : Behind s (setSectorKey s cs k) := by
  unfold setSectorKey
  simp only
  split <;> exact ⟨_, _, _, _, _, rfl⟩

theorem setSectorKey_mem (s : State) (cs : Nat) (k : KeyRef) : (setSectorKey s cs k).mem = s.mem := by
  unfold setSectorKey
  simp only
  split <;> rfl

theorem dramWrite_behind (s : State) (sec : Nat) (k : KeyRef) (m : BitVec 64) (d : BitVec 512) : Behind s (dramWrite s sec k m d) := by
  unfold dramWrite
  split
  · exact .refl s
  · exact ((markWrite_behind s _ k m).trans (setSectorKey_behind _ _ k)).trans ⟨_, _, _, _, _, rfl⟩

/-- A masked write of one sector keeps the canonical form. -/
theorem dramWrite_wf {s : State} (sec : Nat) (k : KeyRef) (m : BitVec 64) (d : BitVec 512) (h : s.mem.wf = true) :
    (dramWrite s sec k m d).mem.wf = true := by
  unfold dramWrite
  split
  · exact h
  · have hk : (setSectorKey (markWrite s (canonSec sec) k m) (canonSec sec) k).mem = s.mem := by
      rw [setSectorKey_mem, markWrite_mem]
    simp only [hk]
    exact Memory.wf_store _ _ _ h

theorem dramPut_behind (s : State) (sec : Nat) (k : KeyRef) (d : BitVec 512) : Behind s (dramPut s sec k d) :=
  (Behind.trans ⟨_, _, _, _, _, rfl⟩ (setSectorKey_behind _ _ k)).trans ⟨_, _, _, _, _, rfl⟩

theorem dramPut_wf {s : State} (sec : Nat) (k : KeyRef) (d : BitVec 512) (h : s.mem.wf = true) :
    (dramPut s sec k d).mem.wf = true := by
  unfold dramPut
  simp only [setSectorKey_mem]
  exact Memory.wf_store _ _ _ h

/-- What every element of a fold keeps, the fold keeps. -/
theorem foldl_keeps {α β : Type} (P : β → Prop) (f : β → α → β) (hf : ∀ b a, P b → P (f b a)) (l : List α) :
    ∀ b, P b → P (l.foldl f b) := by
  induction l with
  | nil => exact fun _ h => h
  | cons a l ih => exact fun b h => ih _ (hf b a h)

theorem l2Evict_behind (s : State) (d line : Nat) : Behind s (l2Evict s d line) := by
  unfold l2Evict
  refine foldl_keeps (Behind s) _ (fun b e h => ?_) _ _ ⟨_, _, _, _, _, rfl⟩
  split
  · exact h.trans (dramPut_behind _ _ _ _)
  · exact h

theorem l2Evict_wf {s : State} (d line : Nat) (h : s.mem.wf = true) : (l2Evict s d line).mem.wf = true := by
  unfold l2Evict
  refine foldl_keeps (fun b : State => b.mem.wf = true) _ (fun b e h => ?_) _ _ h
  split
  · exact dramPut_wf _ _ _ h
  · exact h

theorem l2Put_behind (s : State) (d : Nat) (e : L2Sec) : Behind s (l2Put s d e) := by
  unfold l2Put
  refine Behind.trans ?_ ⟨_, _, _, _, _, rfl⟩
  split
  · split
    · exact l2Evict_behind _ _ _
    · exact .refl s
  · exact .refl s

theorem l2Put_wf {s : State} (d : Nat) (e : L2Sec) (h : s.mem.wf = true) : (l2Put s d e).mem.wf = true := by
  unfold l2Put
  show (State.mem (ite _ _ _)).wf = true
  split
  · split
    · exact l2Evict_wf _ _ h
    · exact h
  · exact h

theorem homeWrite_behind (s : State) (sec : Nat) (kd : Kind) (k : KeyRef) (m : BitVec 64) (v : BitVec 512) :
    Behind s (homeWrite s sec kd k m v) := by
  unfold homeWrite
  simp only
  split
  · exact .refl s
  · split
    · split
      · split
        · refine Behind.trans ?_ (l2Put_behind _ _ _)
          exact markWrite_behind _ _ _ _
        · exact l2Put_behind _ _ _
      · refine Behind.trans ?_ (l2Put_behind _ _ _)
        exact markWrite_behind _ _ _ _
    · split
      · refine Behind.trans ?_ (l2Put_behind _ _ _)
        exact dramWrite_behind _ _ _ _ _
      · exact dramWrite_behind _ _ _ _ _

theorem homeWrite_wf {s : State} (sec : Nat) (kd : Kind) (k : KeyRef) (m : BitVec 64) (v : BitVec 512) (h : s.mem.wf = true) :
    (homeWrite s sec kd k m v).mem.wf = true := by
  unfold homeWrite
  simp only
  split
  · exact h
  · split
    · split
      · refine l2Put_wf _ _ ?_
        split
        · rw [markWrite_mem]; exact h
        · exact h
      · refine l2Put_wf _ _ ?_
        rw [markWrite_mem]; exact h
    · split
      · exact l2Put_wf _ _ (dramWrite_wf _ _ _ _ h)
      · exact dramWrite_wf _ _ _ _ h

theorem homeRead_behind (s : State) (sec : Nat) (k : KeyRef) : Behind s (homeRead s sec k).1 := by
  unfold homeRead
  simp only
  split
  · exact .refl s
  · split
    · exact .refl s
    · split
      · exact l2Put_behind _ _ _
      · exact .refl s

theorem engRead_behind (s : State) (c va n : Nat) : Behind s (engRead s c va n).1 := by
  unfold engRead
  simp only
  have hm : Behind s (engMiss s .walk c va) := by
    unfold engMiss
    split <;> exact .refl s
  revert hm
  generalize engMiss s .walk c va = s0
  intro hm
  split
  · exact hm
  · next p _ =>
    have h := homeRead_behind s0 (p.pa / 64) p.key
    rcases hr : homeRead s0 (p.pa / 64) p.key with ⟨s1, v, code⟩
    rw [hr] at h
    simp only
    split <;> exact hm.trans h

theorem engWrite_behind (s : State) (c va n v : Nat) : Behind s (engWrite s c va n v).1 := by
  unfold engWrite
  simp only
  have hm : Behind s (engMiss s .walk c va) := by
    unfold engMiss
    split <;> exact .refl s
  revert hm
  generalize engMiss s .walk c va = s0
  intro hm
  split
  · exact hm
  · exact hm.trans (homeWrite_behind _ _ _ _ _ _)

theorem atomRead_behind (s : State) (p : Phys) (n : Nat) : Behind s (atomRead s p n).1 := by
  unfold atomRead
  split
  · exact ⟨_, _, _, _, _, rfl⟩
  · exact homeRead_behind s (p.pa / 64) p.key

theorem engAtom_behind (s : State) (c va n : Nat) (f : Nat → Nat) : Behind s (engAtom s c va n f).1 := by
  unfold engAtom
  split
  · exact .refl s
  · next p _ =>
    have h := atomRead_behind s p n
    rcases hr : atomRead s p n with ⟨s1, v, code⟩
    rw [hr] at h
    simp only
    split
    · exact h
    · exact h.trans (homeWrite_behind _ _ _ _ _ _)

theorem addWord_behind (s : State) (c va n : Nat) : Behind s (addWord s c va n).1 := by
  unfold addWord
  have h := engAtom_behind s c va 8 fun v => (v + n) % 2 ^ 64
  rcases hr : engAtom s c va 8 (fun v => (v + n) % 2 ^ 64) with ⟨s1, _ | v⟩ <;> (rw [hr] at h; exact h)

theorem putRecords_behind (c q : Nat) (rs : List (List Byte)) : ∀ (s : State) (h : Nat), Behind s (putRecords s c q h rs).1 := by
  induction rs with
  | nil => intro s _; exact .refl s
  | cons r rs ih =>
    intro s h
    unfold putRecords
    simp only
    have h2 := engWrite_behind s c (q + 64 * (h + 1)) 64 (natOf r)
    rcases hw : engWrite s c (q + 64 * (h + 1)) 64 (natOf r) with ⟨s2, _ | e⟩
    · rw [hw] at h2; exact h2.trans (ih _ _)
    · rw [hw] at h2; exact h2

theorem queueWrite_behind (s : State) (c q : Nat) (r : FRec) : Behind s (queueWrite s c q r).1 := by
  unfold queueWrite
  simp only
  have h1 := addWord_behind s c q r.group.length
  rcases ha : addWord s c q r.group.length with ⟨s1, _ | h⟩
  · rw [ha] at h1; exact h1
  rw [ha] at h1
  simp only
  have h2 := engRead_behind s1 c (q + 8) 8
  rcases hr : engRead s1 c (q + 8) 8 with ⟨s2, _ | limit⟩
  · rw [hr] at h2; exact h1.trans h2
  rw [hr] at h2
  simp only
  have h12 := h1.trans h2
  split
  · exact h12.trans (putRecords_behind c q r.group s2 h)
  · by_cases hl : h < limit
    · simp only [hl, if_true]
      have h3 := putRecords_behind c q [r.trunc.bytes] s2 h
      rcases hp : putRecords s2 c q h [r.trunc.bytes] with ⟨s3, _ | e⟩
      · rw [hp] at h3
        simp only
        have h4 := addWord_behind s3 c (q + 16) (r.group.length - 1)
        rcases hb : addWord s3 c (q + 16) (r.group.length - 1) with ⟨s4, _ | _⟩ <;>
          (rw [hb] at h4; exact (h12.trans h3).trans h4)
      · rw [hp] at h3; exact h12.trans h3
    · simp only [hl, if_false]
      have h4 := addWord_behind s2 c (q + 16) r.group.length
      rcases hb : addWord s2 c (q + 16) r.group.length with ⟨s4, _ | _⟩ <;> (rw [hb] at h4; exact h12.trans h4)

/-! ### What a record leaves alone -/

/-- What posting a record may change: the levels of memory behind the cores, messages to sessions, the counts of dropped
records and of a launch's faults. -/
def Posted (s s' : State) : Prop :=
  (∃ m k p b d g c l, s' = { s with mem := m, sectorKeys := k, poison := p, badCrc := b, dies := d, pkg := g, ctxs := c, launches := l }) ∧
  ∀ c, (s'.ctx c).map (fun x => { x with dropped := 0, unitFaults := [] }) = (s.ctx c).map fun x => { x with dropped := 0, unitFaults := [] }

theorem Posted.refl (s : State) : Posted s s := ⟨⟨_, _, _, _, _, _, _, _, rfl⟩, fun _ => rfl⟩

theorem Posted.trans {a b c : State} (h : Posted a b) (k : Posted b c) : Posted a c := by
  refine ⟨?_, fun x => (k.2 x).trans (h.2 x)⟩
  obtain ⟨_, _, _, _, _, _, _, _, rfl⟩ := h.1
  obtain ⟨_, _, _, _, _, _, _, _, rfl⟩ := k.1
  exact ⟨_, _, _, _, _, _, _, _, rfl⟩

theorem Behind.posted {s s' : State} (h : Behind s s') : Posted s s' := by
  obtain ⟨_, _, _, _, _, rfl⟩ := h
  exact ⟨⟨_, _, _, _, _, _, _, _, rfl⟩, fun _ => rfl⟩

theorem foldl_pkg {α : Type} (f : State → α → State) (hf : ∀ s e, ∃ g, f s e = { s with pkg := g }) (l : List α) :
    ∀ s : State, ∃ g, l.foldl f s = { s with pkg := g } := by
  induction l with
  | nil => intro s; exact ⟨_, rfl⟩
  | cons e l ih =>
    intro s
    obtain ⟨g, hg⟩ := hf s e
    rw [List.foldl_cons, hg]
    exact ih _

theorem noticeDropped_rest (s : State) (c n : Nat) : ∃ g, noticeDropped s c n = { s with pkg := g } := by
  unfold noticeDropped
  refine foldl_pkg _ (fun s e => ?_) _ _
  split
  · split <;> exact ⟨_, rfl⟩
  · exact ⟨_, rfl⟩

theorem dropRecord_posted (s : State) (c : Nat) : Posted s (dropRecord s c) := by
  unfold dropRecord
  split
  · next x hx =>
    obtain ⟨g, hn⟩ := noticeDropped_rest (s.setCtx c { x with dropped := x.dropped + 1 }) c (x.dropped + 1)
    rw [hn]
    refine ⟨⟨_, _, _, _, _, _, _, _, rfl⟩, fun d => ?_⟩
    simp only [State.ctx, State.setCtx, Tab.get_set]
    split
    · next h =>
      subst h
      have : s.ctxs.get c = some x := hx
      rw [this]; rfl
    · rfl
  · exact .refl s

theorem postCtx_posted (s : State) (c : Nat) (r : FRec) : Posted s (postCtx s c r).1 := by
  unfold postCtx
  split
  · exact .refl s
  · next x hx =>
    split
    · exact dropRecord_posted s c
    · have h := queueWrite_behind s c x.faultQ.toNat r
      rcases hq : queueWrite s c x.faultQ.toNat r with ⟨s1, ⟨a, _ | e⟩⟩
      · rw [hq] at h; exact h.posted
      · rw [hq] at h; exact h.posted.trans (dropRecord_posted _ _)

theorem postQueue_posted (s : State) (c q : Nat) (r : FRec) : Posted s (postQueue s c q r).1 := by
  unfold postQueue
  have h := queueWrite_behind s c q r
  rcases hq : queueWrite s c q r with ⟨s1, ⟨a, _ | ⟨code, va⟩⟩⟩
  · rw [hq] at h; exact h.posted
  · rw [hq] at h; exact h.posted.trans (postCtx_posted _ _ _)

theorem modLaunch_posted (s : State) (c l : Nat) (f : Launch → Launch) : Posted s (s.modLaunch c l f) := by
  unfold State.modLaunch
  split
  · exact ⟨⟨_, _, _, _, _, _, _, _, rfl⟩, fun _ => rfl⟩
  · exact .refl s

theorem countUnit_posted (s : State) (c level id code : Nat) (a : DWord) : Posted s (countUnit s c level id code a) := by
  unfold countUnit
  split
  · exact .refl s
  · unfold State.modCtx
    split
    · next x hx =>
      refine ⟨⟨_, _, _, _, _, _, _, _, rfl⟩, fun d => ?_⟩
      simp only [State.ctx, State.setCtx, Tab.get_set]
      split
      · next h =>
        subst h
        have : s.ctxs.get c = some x := hx
        rw [this]; rfl
      · rfl
    · exact .refl s

theorem countUnits_posted (s : State) (c : Nat) (r : LRec) (level code : Nat) (a : DWord) :
    Posted s (countUnits s c r level code a) := by
  unfold countUnits
  simp only
  refine Posted.trans ?_ (countUnit_posted _ _ _ _ _ _)
  have hc (p : Prop) [Decidable p] (x : State) (level id : Nat) : Posted x (if p then countUnit x c level id code a else x) := by
    split
    · exact countUnit_posted _ _ _ _ _ _
    · exact .refl x
  exact (hc _ _ _ _).trans (hc _ _ _ _)

/-- A fault record of a thread. -/
theorem postLaunch_posted (s : State) (c l : Nat) (r : FRec) : Posted s (postLaunch s c l r) := by
  unfold postLaunch
  split
  · exact postCtx_posted s c r
  · next x _ =>
    have h := postQueue_posted s c x.rcd.faultQ.toNat r
    rcases hq : postQueue s c x.rcd.faultQ.toNat r with ⟨s1, a⟩
    rw [hq] at h
    exact (h.trans (modLaunch_posted _ _ _ _)).trans (countUnits_posted _ _ _ _ _ _)

end Sys2Proof.Machine
end

