-- ==== Sys2Proof/Laws/Solo.lean ====
section
/-!
SUPPORT. What the issue of any form does to a group of one thread, once for every form: its lane's own effect, then what every
issue leaves.
-/
namespace Sys2Proof.Machine

theorem laneCell_threads {s s' : State} (hc : s'.cells = s.cells) (ht : ∀ u, (s'.thread u).map (·.fixedNames) = (s.thread u).map (·.fixedNames))
    (u : Tid) (p : Pos) : s'.laneCell u p = s.laneCell u p := by
  cases e : State.cellKey u p with
  | some k => rw [State.laneCell_core e, State.laneCell_core e, hc]
  | none =>
    simp only [State.laneCell, e]
    have := ht u
    cases h1 : s'.thread u <;> cases h2 : s.thread u <;> simp_all

theorem opened_eq (i : Instr) (h : Hdr) (s : State) (g : Group) (t : Tid) (rs : List OpRead) :
    opened i h s g t rs = (if rs.any (·.void) && !t.isGraver then (began i h s g).modThread t (fun th => { th with voidSt := true })
      else began i h s g) := rfl

theorem Solo.executing {i : Instr} {h : Hdr} {s : State} {g : Group} {t : Tid} {th : Thread} (hg : Solo i h s g t th) :
    Machine.executing h s g = [t] := by
  unfold Machine.executing
  rw [hg.mem]
  simp only [List.filter_cons, hg.thread, hg.on, if_true, List.filter_nil]
  rfl

/-- A group of one thread goes on while its thread runs. -/
theorem regroup_one {s : State} {g : Group} {t : Tid} {y : Thread} (hm : g.mem = [t]) (ht : s.thread t = some y) :
    regroup s g = if y.status = .running then { s with groups := s.groups ++ [{ goesOn g with fresh := y.entered }] } else s := by
  have hin : cameIn s t = y.entered := by simp only [cameIn, ht]
  unfold regroup
  rw [hm]
  by_cases hr : y.status = .running
  · have h1 : running s t = true := by simp [running, ht, hr]
    rw [if_pos hr]
    simp only [List.filter_cons, h1, if_true, List.filter_nil, List.length_cons, List.length_nil, List.all_cons, List.all_nil,
      beq_self_eq_true, Bool.and_true, regroupGo, goesOn, hm, List.any_cons, List.any_nil, Bool.or_false, hin]
    simp [Group.start]
  · have h1 : running s t = false := by simp [running, ht, hr]
    rw [if_neg hr]
    simp only [List.filter_cons, h1, Bool.false_eq_true, if_false, List.filter_nil, List.length_nil, regroupGo]

/-- A thread of a group of one as the issue leaves it before its fault, if any, is taken. -/
theorem stamp_one (f : Form) (t : Tid) (seq : Nat) (s : State) (y : Thread) :
    stamp f [t] seq s t y = stoppedThread f.i { s with ctr := seq } t y := by
  simp only [stamp, stoppedThread, heldFor, List.contains_eq_mem, List.mem_singleton, decide_true, if_true, Bool.true_and]
  rfl

/-- The issue of a form for a group of one thread, from its lane: what is left when the lane completes or faults. -/
theorem issue_one {f : Form} {s s2 : State} {g : Group} {t : Tid} {th : Thread} {o : Option Flt} (hg : Solo f.i f.h s g t th)
    (hden : f.denied t = false) (hdeny : laneDenied f (envOf f.i f.h s g) t = false)
    (hst : f.stall { s with issuing := none } t th ((readOps { s with issuing := none } t th f.i.srcs).map (·.words)) = false)
    (hcr : f.crowd { s with issuing := none } [t] = false) (hw : wholeBad f (envOf f.i f.h s g) (began f.i f.h s g) = [])
    (e2 : laneIssue f (envOf f.i f.h s g) (began f.i f.h s g) t = (s2, o)) :
    let sp := placeCells (began f.i f.h s g) s2 f.i g (if o.isSome then [] else [t])
    issue f s = f.after (envOf f.i f.h s g) (regroup (takeFaults (o.toList.map fun b => (t, b)) th.pc s.ctr
      (sp.modThread t (stoppedThread f.i { sp with ctr := s.ctr } t))) g) := by
  intro sp
  have hexe := hg.executing
  have hth : State.thread { s with issuing := none } t = some th := hg.thread
  have hpc : s.pcOf t = th.pc := by simp only [State.pcOf, hg.thread]
  have hhold : formHolds f { s with issuing := none } (Machine.executing f.h s g) = false := by
    rw [hexe]
    unfold formHolds
    simp [hcr, hth, hst]
  have hd : ((Machine.executing f.h s g).any (laneDenied f (envOf f.i f.h s g))) = false := by
    rw [hexe]; simp [hdeny]
  rw [issue_lanes hg.fires hden hg.mem, issueLanes_free hg.mem hg.free hhold hd, hpc]
  rw [finishLanes_run hw]
  simp only
  rw [runLanes_eq]
  have hex : (envOf f.i f.h s g).exec = [t] := hexe
  have hpre : (envOf f.i f.h s g).pre = began f.i f.h s g := rfl
  have hseq : (envOf f.i f.h s g).seq = s.ctr := rfl
  simp only [hex, hpre, hseq, laneFold, List.foldl_cons, List.foldl_nil, e2, hg.mem]
  have hstamp : ∀ x : State, x.modThread t (stamp f [t] s.ctr x t) = x.modThread t (stoppedThread f.i { x with ctr := s.ctr } t) := by
    intro x
    have : stamp f [t] s.ctr x t = stoppedThread f.i { x with ctr := s.ctr } t := funext fun y => stamp_one f t s.ctr x y
    rw [this]
  cases o with
  | none =>
    simp only [List.filter_cons, List.any_nil, Bool.not_false, if_true, List.filter_nil, hstamp]
    rfl
  | some b =>
    simp only [List.nil_append, List.filter_cons, List.any_cons, beq_self_eq_true, List.any_nil, Bool.or_false, Bool.not_true,
      Bool.false_eq_true, if_false, List.filter_nil, hstamp]
    rfl

/-- The issue of a form whose lane stops, in a group of one thread: the thread takes the fault as the lane left it. -/
theorem issue_stops {f : Form} {s s1 : State} {g : Group} {t : Tid} {th y : Thread} {b : Flt} (hg : Solo f.i f.h s g t th)
    (hden : f.denied t = false) (hdeny : laneDenied f (envOf f.i f.h s g) t = false)
    (hst : f.stall { s with issuing := none } t th ((readOps { s with issuing := none } t th f.i.srcs).map (·.words)) = false)
    (hcr : f.crowd { s with issuing := none } [t] = false) (hw : f.whole = false)
    (hl : laneIssue f (envOf f.i f.h s g) (began f.i f.h s g) t = (s1, some b)) (h1 : s1.thread t = some y) :
    issue f s = f.after (envOf f.i f.h s g) (regroup (takeFaults [(t, b)] th.pc s.ctr
      ((placeCells (began f.i f.h s g) s1 f.i g []).setThread t (stoppedThread f.i { s1 with ctr := s.ctr } t y))) g) := by
  rw [issue_one hg hden hdeny hst hcr (wholeBad_nil (.inl hw)) hl]
  obtain ⟨p1, -⟩ := placeCells_facts (began f.i f.h s g) f.i g [] s1
  obtain ⟨sp, hsp⟩ : ∃ sp, sp = placeCells (began f.i f.h s g) s1 f.i g [] := ⟨_, rfl⟩
  simp only [Option.isSome_some, if_true, Option.toList_some, List.map_cons, List.map_nil]
  rw [← hsp] at p1 ⊢
  have ht : sp.thread t = some y := by rw [p1]; exact h1
  have he : stoppedThread f.i { sp with ctr := s.ctr } t y = stoppedThread f.i { s1 with ctr := s.ctr } t y := by rw [p1]; rfl
  simp only [State.modThread, ht, he]

/-- A form stops on its slot: 0x0D at this slot, the lane as the issue found it. -/
theorem slotStops_of {f : Form} {bad : State → Tid → Thread → Prop} {free : State → Tid → Thread → List (List Word) → Prop}
    (he : ∀ s, exec f.i s = .next (issue f s)) (hden : ∀ t, f.denied t = false) (hdeny : ∀ t vs, f.deny t vs = false)
    (hcr : ∀ s ts, f.crowd s ts = false) (hw : f.whole = false) (hafter : ∀ e s, f.after e s = s)
    (hst : ∀ s t th vs, free s t th vs → bad s t th → f.stall s t th vs = false)
    (hb : ∀ s t th, bad s t th → f.slotBad s t th = true)
    (hc : ∀ s s' t th, s' = { s with issuing := s'.issuing, ctr := s'.ctr, groups := s'.groups, pipes := s'.pipes, cores := s'.cores } →
      bad s t th → bad s' t th) : SlotStops f.i f.h bad free := by
  intro s g t th hg hf hbad s2
  have hbr := began_rest f.i f.h s g
  obtain ⟨b, hbe⟩ : ∃ b, b = began f.i f.h s g := ⟨_, rfl⟩
  have hbt : b.thread t = some th := by rw [hbe, hbr]; exact hg.thread
  have hbb : bad b t th := hc s b t th (by rw [hbe, hbr]) hbad
  have hl : laneIssue f (envOf f.i f.h s g) (began f.i f.h s g) t = (began f.i f.h s g, some { code := 0x0D }) := by
    rw [← hbe]
    simp only [laneIssue, hbt, hb b t th hbb, if_true]
  have hd : laneDenied f (envOf f.i f.h s g) t = false := by
    unfold laneDenied
    split
    · simp [hdeny]
    · rfl
  rw [he, issue_stops hg (hden t) hd (hst _ t th _ hf (hc s _ t th rfl hbad)) (hcr _ _) hw hl (hbe ▸ hbt), hafter]
  have hs : stoppedThread f.i { began f.i f.h s g with ctr := s.ctr } t th = stoppedThread f.i s t th := by rw [hbr]; rfl
  rw [hs]

/-- A form stops where its lane faults: what `e` says of a lane is the fault and the state that the lane answers. -/
theorem stops_of {f : Form} {e : State → Tid → Thread → List (List Word) → State → Flt → Prop}
    {free : State → Tid → Thread → List (List Word) → Prop} (hx : ∀ s, exec f.i s = .next (issue f s))
    (hr : f.reads = plainReads f.i) (hden : ∀ t, f.denied t = false) (hdeny : ∀ t vs, f.deny t vs = false) (hw : f.whole = false)
    (hafter : ∀ e s, f.after e s = s) (hcr : ∀ s t th vs, free s t th vs → f.crowd s [t] = false)
    (hst : ∀ s t th vs, free s t th vs → f.stall s t th vs = false)
    (hslot : ∀ s g t th vs, Solo f.i f.h s g t th → free { s with issuing := none } t th vs → f.slotBad (began f.i f.h s g) t th = false)
    (hl : ∀ env s t th vs s1 b, e s t th vs s1 b → ∃ r, f.lane env s t th vs = (s1, r) ∧ r.fault = some b) :
    Stops f.i f.h e free := by
  intro s g t th hg hrd hf rs s1 b y he h1 s2
  obtain ⟨r, hlr, hrf⟩ := hl (envOf f.i f.h s g) _ t th _ s1 b he
  have hbr := began_rest f.i f.h s g
  have hbt : (began f.i f.h s g).thread t = some th := by rw [hbr]; exact hg.thread
  have hbv : (began f.i f.h s g).voidTrap t th = s.voidTrap t th := by rw [hbr]; rfl
  have hd : laneDenied f (envOf f.i f.h s g) t = false := by
    unfold laneDenied
    split
    · simp [hdeny]
    · rfl
  have hli : laneIssue f (envOf f.i f.h s g) (began f.i f.h s g) t = (s1, some b) :=
    laneIssue_stop hbt (hslot s g t th _ hg hf) (fun h => by rw [hbv]; exact hrd.2 (by rw [← hr]; exact h))
      (fun o ho => hrd.1 o (by rw [← hr]; exact ho)) (by rw [hr, ← opened_eq]; exact hlr) hrf hg.plainDst
  rw [hx, issue_stops hg (hden t) hd (hst _ t th _ hf) (hcr _ _ _ _ hf) hw hli h1, hafter]

/-- The issue of a form for a group of one thread, from what its lane does. -/
theorem issue_solo {f : Form} {s s1 : State} {g : Group} {t : Tid} {th x : Thread} {r : Res} (hg : Solo f.i f.h s g t th)
    (hden : f.denied t = false) (hdeny : laneDenied f (envOf f.i f.h s g) t = false)
    (hr : ReadsOk s t th (f.reads (envOf f.i f.h s g) t th))
    (hst : f.stall { s with issuing := none } t th ((readOps { s with issuing := none } t th f.i.srcs).map (·.words)) = false)
    (hcr : f.crowd { s with issuing := none } [t] = false) (hs : f.slotBad (began f.i f.h s g) t th = false)
    (hl : f.lane (envOf f.i f.h s g) (opened f.i f.h s g t (f.reads (envOf f.i f.h s g) t th)) t th
      ((f.reads (envOf f.i f.h s g) t th).map (·.words)) = (s1, r))
    (hf : r.fault = none) (hx : fpTraps (s1.enables t th) r.fl = false) (h1 : s1.thread t = some x) :
    ∃ s', issue f s = f.after (envOf f.i f.h s g) s' ∧ Did f.i f.h f.lat s g t th s1 r s' := by
  obtain ⟨b, hb⟩ : ∃ b, b = began f.i f.h s g := ⟨_, rfl⟩
  have hbr := began_rest f.i f.h s g
  rw [← hb] at hbr hs
  have hbt : ∀ t, b.thread t = s.thread t := by intro t; rw [hbr]; rfl
  have hbp : ∀ t p, b.laneCell t p = s.laneCell t p := by
    intro t p
    have h1 : b.cells = s.cells := by rw [hbr]
    simp only [State.laneCell, hbt, h1]
  have hread : ∀ t p, b.readPos t p = s.readPos t p := fun t p => State.readPos_congr (hbp t p)
  have hbv : b.voidTrap t th = s.voidTrap t th := by
    have : b.launches = s.launches := by rw [hbr]
    simp only [State.voidTrap, State.flagsOf, State.recOf, State.launchOf, this]
  have hb0 : b.thread t = some th := (hbt t).trans hg.thread
  rw [opened_eq, ← hb] at hl
  have e2 := laneIssue_any (f := f) (env := envOf f.i f.h s g) hb0 hs (fun h => hbv.trans (hr.2 h)) hr.1 hl hf hx hg.plainDst
  have hld := laneDone_facts (f := f) (env := envOf f.i f.h s g) (th := th) (r := r) hg.plainDst h1
  obtain ⟨s2, hs2⟩ : ∃ s2, s2 = laneDone f (envOf f.i f.h s g) s1 t th r := ⟨_, rfl⟩
  rw [← hs2] at e2 hld
  obtain ⟨fx, hfx, hself⟩ := hld.self
  -- the cells, and the group's thread after its lane
  obtain ⟨p1, p2⟩ := placeCells_facts b f.i g [t] s2
  obtain ⟨sp, hsp⟩ : ∃ sp, sp = placeCells b s2 f.i g [t] := ⟨_, rfl⟩
  rw [← hsp] at p1 p2
  have hpt : ∀ u, sp.thread u = s2.thread u := fun u => by rw [p1]; rfl
  obtain ⟨s3, hs3⟩ : ∃ s3, s3 = sp.modThread t (stoppedThread f.i { sp with ctr := s.ctr } t) := ⟨_, rfl⟩
  have hissue : issue f s = f.after (envOf f.i f.h s g) (regroup s3 g) := by
    rw [hs3, hsp, hb]
    have hw : wholeBad f (envOf f.i f.h s g) b = [] := wholeBad_nil (.inr fun u hu => by
      obtain rfl : u = t := List.mem_singleton.1 (by rw [← hg.executing]; exact hu)
      exact laneBad_none hb0 hs hr.1 hg.plainDst)
    rw [hb] at e2 hw
    exact issue_one (o := none) hg hden hdeny hst hcr hw e2
  refine ⟨_, hissue, ?_⟩
  have hpr : sp = { s1 with cells := sp.cells, threads := sp.threads } := by rw [p1, hld.rest]
  have hen : ∀ z : Thread, sp.enables t z = s1.enables t z := by
    intro z
    have : sp.launches = s1.launches := by rw [hpr]
    simp only [State.enables, State.flagsOf, State.recOf, State.launchOf, this]
  have hnow : sp.now = s1.now := by rw [hpr]
  have hst1 : ∀ z : Thread, stoppedThread f.i { sp with ctr := s.ctr } t z = stoppedThread f.i { s1 with ctr := s.ctr } t z := by
    intro z
    show ({ z with lastIssue := some sp.now, hold := if raisesFp f.i && sp.enables t z != 0 then some s.ctr else z.hold } : Thread) =
      { z with lastIssue := some s1.now, hold := if raisesFp f.i && s1.enables t z != 0 then some s.ctr else z.hold }
    rw [hen, hnow]
  obtain ⟨y, hy⟩ : ∃ y, y = stoppedThread f.i { s1 with ctr := s.ctr } t { x with
        pc := r.next.getD (nextSlot th.pc), outs := x.outs ++ [outFor f.i f.h f.lat { s1 with ctr := s.ctr } t th r],
        predPend := r.preds.foldl (fun m e => if e.1 == 7 then m else m.set e.1 s.ctr) x.predPend,
        loads := popLoads x.loads f.i.srcs, fixedNames := fx, entered := r.next.isSome } := ⟨_, rfl⟩
  have h3t : s3.thread t = some y := by
    rw [hs3, State.thread_modThread, if_pos rfl, hpt, hself, hy, Option.map_some, hst1]
    rfl
  have h3u : ∀ u, u ≠ t → s3.thread u = s1.thread u := by
    intro u hu
    rw [hs3, State.thread_modThread, if_neg (fun h => hu h.symm), hpt]
    exact hld.others u hu
  have h3r : s3 = { s1 with cells := s3.cells, threads := s3.threads } := by
    rw [hs3, State.modThread_rest, hpr]
  have h3l : ∀ u p, s3.laneCell u p = s2.laneCell u p := by
    intro u p
    rw [hs3]
    refine (State.laneCell_modThread _ t _ ?_ u p).trans (p2 u p)
    intro z; rfl
  have hreg := regroup_one (g := g) hg.mem h3t
  have hrt : ∀ u, (regroup s3 g).thread u = s3.thread u := by
    intro u; rw [hreg]; split <;> rfl
  have hrl : ∀ u p, (regroup s3 g).laneCell u p = s3.laneCell u p := by
    intro u p; rw [hreg]; split <;> rfl
  have hrr : ∀ u p, (regroup s3 g).readPos u p = s2.readPos u p := fun u p =>
    State.readPos_congr ((hrl u p).trans (h3l u p))
  have hst' : y.status = x.status := by rw [hy]; rfl
  have hen' : y.entered = r.next.isSome := by rw [hy]; rfl
  refine { rest := ?_, thread := ?_, group := ?_, others := ?_, dst := ?_, last := ?_, names := ?_ }
  · rw [hreg]
    split
    · rw [h3r]
    · rw [h3r]
  · intro x' hx'
    obtain rfl : x = x' := Option.some.inj (h1.symm.trans hx')
    refine ⟨fx, hfx, ?_⟩
    rw [hrt, h3t, hy]
    rfl
  · intro x' hx'
    obtain rfl : x = x' := Option.some.inj (h1.symm.trans hx')
    have hgr : s3.groups = s1.groups := by rw [h3r]
    rw [hreg, hst', hen', ← hgr]
    split <;> rfl
  · intro u hu
    rw [hrt, h3u u hu]
  · intro hk p hp
    rw [hrl, h3l, hld.dst hk p hp]
    have : (envOf f.i f.h s g).pre.readPos t p = s.readPos t p := by
      rw [show (envOf f.i f.h s g).pre = b from hb.symm]; exact hread t p
    rw [this]; rfl
  · intro p hp hn
    rw [hrr]; exact hld.last p hp hn
  · intro u p hu
    rw [hrr]; exact hld.names u p hu

end Sys2Proof.Machine
end

