-- ==== Sys2Proof/Tests/Slice0.lean ====
section
/-!
SUPPORT. Tests: words written out from the encodings of spec/, the well-formedness check on ill-formed terms, and for every statement
of Certificates/Slice0/Obligations.lean states that meet its hypotheses.
-/
namespace Sys2Proof.Tests
open Sys2Proof Sys2Proof.Machine

/-! ### States to run in -/

/-- No guard, no flag. -/
def hd : Hdr := ⟨false, 7, none⟩
def sv (n : Fin 48) : Src := ⟨.v n, false⟩
def dab : Dab := ⟨.v 1, sv 2, .reg (sv 3) .none⟩
def dabc : Dabc := ⟨.v 1, sv 2, sv 3, .none, sv 4⟩
def da : Da := ⟨.v 1, sv 2⟩
def pab : Pab := ⟨0, 1, sv 2, .reg (sv 3) .none⟩
/-- Shapes whose groups of two, four or eight names are aligned. -/
def wab : Dab := ⟨.v 8, sv 16, .reg (sv 24) .none⟩
def wabc : Dabc := ⟨.v 8, sv 16, sv 24, .none, sv 32⟩
def wa : Da := ⟨.v 8, sv 16⟩

def word (i : Instr) : Nat := (encode i).getD 0
/-- The decoder's answer compared. -/
def reads (w : Nat) (i : Instr) : Bool := match decode w with | .ok j => j == i | .error _ => false
def agent (i : Instr) : Tid := probeTid (word i)

/-- The word of `i` where the next step fetches, in a thread whose names hold some values. -/
def ready (i : Instr) (regs : List (Pos × Word) := []) : State :=
  regs.foldl (fun s e => s.writeNow (agent i) e.1 e.2) (State.reset.withFetchWord 64 (word i))

/-- The group of one that is issuing. -/
def lone (s : State) : Option (Group × Tid × Thread) :=
  match s.issuing with
  | some is => match is.grp.mem with
    | [t] => (s.thread t).map fun th => (is.grp, t, th)
    | _ => none
  | none => none

/-- Everything that Fires asks. -/
def firesOk (i : Instr) (s : State) : Bool :=
  match lone s with
  | none => false
  | some (g, t, th) =>
    decide (s.issuing = some { grp := g }) && !offProfile i t && !(t.isGraver && badInGraver i) && !(t.isCore && proofForm i) &&
    i.alignOk && (!i.warpWhole || isWhole s g) && th.status == .running

/-- Everything that Free asks, of the group's thread itself. -/
def freeOk (i : Instr) (h : Hdr) (s : State) : Bool :=
  match lone s with
  | none => false
  | some (g, t, th) => !cellsMoving s i g (executing h s g) && !cellStall s i g (executing h s g) &&
    (spilledKeys s i g (executing h s g)).isEmpty && !laneStalls i h th && !pushHolds i s t th

/-- Everything that Solo asks, and that the operands read without a fault. -/
def soloOk (i : Instr) (h : Hdr) (s : State) : Bool :=
  firesOk i s && freeOk i h s && match lone s with
  | none => false
  | some (g, t, th) => guardOn h th && (match i.dst with | some (.s _, _) => false | _ => true) &&
    (plainReads i (envOf i h s g) t th).all (fun o => o.bad.isNone) &&
    (!(plainReads i (envOf i h s g) t th).any (·.void) || !s.voidTrap t th)

/-- Does exec answer a next state in which the thread has issued the form and no fault has stopped it or its launch? -/
def completes (i : Instr) (s : State) : Bool :=
  soloOk i hd s && match lone s, exec i s with
  | some (_, t, _), .next s' => match s'.thread t with
    | some x => x.lastIssue == some s.now && x.status != .stopped && (s'.launchOf 1 1).all (fun l => l.faults == 0 && !l.killed)
    | none => false
  | _, _ => false

theorem lone_mem {s : State} {g : Group} {t : Tid} {th : Thread} (h : lone s = some (g, t, th)) :
    g.mem = [t] ∧ s.thread t = some th := by
  unfold lone at h
  split at h <;> try cases h
  rename_i is hi
  split at h <;> try cases h
  rename_i u hm
  cases ht : s.thread u with
  | none => simp [ht] at h
  | some x =>
    simp only [ht, Option.map_some, Option.some.injEq, Prod.mk.injEq] at h
    obtain ⟨rfl, rfl, rfl⟩ := h
    exact ⟨hm, ht⟩

theorem fires_of_ok {i : Instr} {s : State} {g : Group} {t : Tid} {th : Thread} (h : lone s = some (g, t, th))
    (ok : firesOk i s = true) : Fires i s g := by
  obtain ⟨hm, ht⟩ := lone_mem h
  simp only [firesOk, h, Bool.and_eq_true, decide_eq_true_eq, Bool.not_eq_true', Bool.or_eq_true, beq_iff_eq] at ok
  obtain ⟨⟨⟨⟨⟨⟨h1, h2⟩, h3⟩, h4⟩, h5⟩, h6⟩, h7⟩ := ok
  refine ⟨h1, ⟨t, [], hm, h2, ?_, ?_⟩, h5, ?_, by simp [hm], ?_, ?_⟩
  · intro hg; simpa [hg] using h3
  · intro hc; simpa [hc] using h4
  · intro hw; simpa [hw] using h6
  · intro u hu; rw [hm, List.mem_singleton] at hu; subst hu; exact ⟨th, ht, h7⟩
  · intro u hu w hw; rw [hm, List.mem_singleton] at hu hw; rw [hu, hw]

theorem free_of_ok {i : Instr} {h : Hdr} {s : State} {g : Group} {t : Tid} {th : Thread} (hl : lone s = some (g, t, th))
    (ok : freeOk i h s = true) : Free i h s g := by
  obtain ⟨hm, ht⟩ := lone_mem hl
  simp only [freeOk, hl, Bool.and_eq_true, Bool.not_eq_true', List.isEmpty_iff] at ok
  obtain ⟨⟨⟨⟨h0, h1⟩, h2⟩, h3⟩, h4⟩ := ok
  refine ⟨h0, h1, h2, ?_⟩
  intro u hu x hx
  have := (mem_executing.1 hu).1
  rw [hm, List.mem_singleton] at this
  subst this
  rw [ht] at hx; cases hx; exact ⟨h3, h4⟩

theorem solo_of_ok {i : Instr} {h : Hdr} {s : State} {g : Group} {t : Tid} {th : Thread} (hl : lone s = some (g, t, th))
    (ok : soloOk i h s = true) : Solo i h s g t th ∧ ReadsOk s t th (plainReads i (envOf i h s g) t th) := by
  obtain ⟨hm, ht⟩ := lone_mem hl
  simp only [soloOk, hl, Bool.and_eq_true] at ok
  obtain ⟨⟨h1, h2⟩, ⟨⟨h3, h4⟩, h5⟩, h6⟩ := ok
  refine ⟨⟨fires_of_ok hl h1, free_of_ok hl h2, hm, ht, h3, ?_⟩, ?_, ?_⟩
  · intro k w hd; rw [hd] at h4; cases h4
  · simpa using h5
  · intro hv; simpa [hv] using h6

/-! ### Forms, one of each row of the instruction classes, and states that they complete in -/

def fm : FMod := ⟨.f32, .rne, false, false⟩
def mm : MMod := ⟨.b32, .plain, .core, false, false, false⟩
def am : AMod := ⟨false, .plain, .core, false⟩
def integerForms : List Instr :=
  [.iadd hd .n32 false dab, .isub hd .s32 true dab, .imul hd .n32 false true wab, .imulh hd .n16x2 dab, .imad hd .s32 false true wabc,
   .imin hd .n8x4 dab, .imax hd .s8x4 dab, .iabs hd .s32 true da, .icmp hd true pab, .isel hd dabc, .popc hd da, .clz hd da,
   .brev hd da, .bfe hd true dab, .bfi hd dabc, .idot4 hd .s8x4 true dabc, .lea hd false wab, .mov hd da, .movi hd (.v 1) (-1),
   .movk hd (.v 1) true 0xFFFF]
def logicForms : List Instr :=
  [.and hd dab, .or hd dab, .xor hd dab, .andn hd dab, .bmux hd 5 9 (.v 1) (sv 2) (sv 3) (sv 4), .shl hd dab, .shr hd dab, .sar hd dab,
   .rot hd dab, .fshf hd dabc, .plop hd 7 1 2 3, .p2g hd (.v 1), .g2p hd (sv 2)]
def floatForms : List Instr :=
  [.fadd hd fm dab, .fsub hd fm dab, .fmul hd fm dab, .ffma hd fm dabc, .fmin hd .f16x2 dab, .fmax hd .bf16x2 dab, .fcmp hd pab,
   .fclass hd da, .fscale hd .rz true (.v 1) (sv 2) (sv 3) .none, .frnd hd .f32 .ru da, .fabs hd .f16x2 da, .fcpys hd .f32 dab,
   .fdiv hd .rne false true dab, .fsqrt hd .rd da]
def exactForms : List Instr :=
  [.faddx hd false (.v 8) (sv 16) (sv 24) .none, .fsubx hd true (.v 8) (sv 16) (sv 24) .none, .fmulx hd false (.v 8) (sv 16) (sv 24) .none,
   .dwadd hd false (.v 8) (sv 16) (sv 24) .none, .dwsub hd false (.v 8) (sv 16) (sv 24) .none, .dwmul hd true (.v 8) (sv 16) (sv 24) .none,
   .dwaddf hd false (.v 8) (sv 16) (sv 24) .none, .dwmulf hd false (.v 8) (sv 16) (sv 24) .none, .dwnorm hd wa,
   .dwcmp hd 2 1 (sv 16) (sv 24) .none, .cvtdw hd wa, .cvtwd hd wa]
def convertForms : List Instr :=
  [.cvt hd .f32 0 (.v 1) (.reg (sv 2)), .cvtp hd .f32 1 (.v 1) (sv 2) (sv 3) .none, .cvtu hd .f32 1 wa, .cvts hd 2 da,
   .frcp hd .f32 da, .frsq hd .f32 da, .fexp2 hd .f32 da, .flog2 hd .f32 da, .fsin hd .f32 da, .fcos hd .f32 da, .ftanh hd .f32 da]
def crossForms : List Instr :=
  [.shfl hd (.v 1) (sv 2) (sv 3) .none, .vote hd 0 1 (sv 2), .ballot hd da, .matchl hd da, .redx hd .addB32 .rne da, .redxc hd wa,
   .scan hd .addF32 true .rne da, .lmask hd true (.v 1)]
def flowForms : List Instr :=
  [.bra hd (-1), .brx hd (sv 18), .ret hd, .reform hd, .exit hd, .loopSet hd 1 7, .loop hd 1 (-2),
   .beod hd false 0 1 3, .yield hd, .nop hd, .spawn hd wa, .join hd wa, .cancel hd (sv 16)]
def callForms : List Instr := [.call hd 1 5, .calli hd 1 (sv 18)]
def memForms : List Instr :=
  [.ld hd mm (.v 8) ⟨sv 16, none⟩, .st hd mm (.v 8) ⟨sv 16, some 8⟩, .lds hd mm (.v 1) ⟨sv 2, none⟩, .sts hd mm (.v 1) ⟨sv 2, none⟩,
   .ldt hd mm (.v 1) ⟨sv 2, none⟩, .stt hd mm (.v 1) ⟨sv 2, none⟩, .pref hd false false false ⟨sv 16, none⟩, .cwb hd false ⟨sv 16, none⟩,
   .cinv hd false ⟨sv 16, none⟩, .atom hd .add am (.v 1) (sv 16) (sv 3) .none, .atoms hd .exch am (.v 1) (sv 2) (sv 3) .none,
   .cas hd am ⟨.v 1, sv 16, sv 3, .none, sv 4⟩, .cass hd am dabc, .red hd .add am (sv 16) (sv 3) .none, .fence hd .sc .sys false ⟨⟨.v 0, false⟩, none⟩]
def waitForms : List Instr :=
  [.bari hd (sv 2) (.imm 1), .bara hd (sv 2), .barw hd 1 (sv 2) (.imm 1), .baraw hd 1 (sv 2) (.imm 1), .tbar hd, .gbar hd,
   .waita hd 0 false ⟨.v 1, sv 16, sv 3, .none, sv 4⟩]
def engineForms : List Instr :=
  [.copy hd (sv 4), .copyr hd (sv 8), .copyq hd ⟨.v 1, sv 4⟩, .strm hd 1 (sv 5) (sv 3) .none, .strfIn hd 1, .strfOut hd 1, .strq hd ⟨.v 1, sv 3⟩,
   .gstart hd (sv 20) (sv 3) .none, .gstop hd (sv 20), .gattn hd ⟨.v 1, sv 6⟩, .gmbox hd (.v 1) (sv 3) none, .gid hd (.v 1),
   .mldred hd (.v 8) (sv 3) (sv 3) .none, .mstmc hd true (.v 1) (sv 3) (sv 3) .none, .mgrp hd (sv 7) (sv 3) .none, .cfire hd (sv 3), .cstat hd ⟨.v 1, sv 3⟩]
def tileForms : List Instr :=
  [.tdset hd 0 (sv 28) (sv 32), .tdget hd false (.v 8) 0, .mma hd 0 0 1 2, .mzero hd true 0, .mldacc hd false 0 2,
   .mdrain hd true true 0 2 0, .mdradd hd true 0 (sv 9) 2 0, .marm hd 0 (sv 2), .mstep hd true false (.v 8) 0, .mfence hd]
def sysForms : List Instr :=
  [.sread hd (.v 1) (.imm 6), .swrite hd (sv 2) (.imm 8), .plate hd (.v 1) (sv 2) (sv 3), .plateq hd da, .clk hd (.v 8), .capw hd (.v 1) (.imm 4),
   .psel hd (sv 2), .prdv hd da, .pwrv hd (sv 2) (sv 3) .none, .pret hd, .frec hd da, .frecList hd da]
def rec1 : LRec := { probeRec with fslots := [0, 1, 0x13, 0, 0, 0, 0, 0xFFFFFFFF], binds := [0x1_0000000000010100#128, 0, 0, 0] }
def walk1 : Walker := { base := 0x10080, ty := .b32, bp := false, counts := [2, 1, 1], strides := [4, 4, 4], next := 0, fetched := [], pushed := [], eod := 0 }
/-- The thread's launch has format slots and a binding, its context maps the control block of Graver context 0 and its bank, and a switch
group; its team's scratch holds a command block, a stream descriptor and a sequence's block. -/
def rich (s : State) : State :=
  let s := s.modLaunch 1 1 fun x => { x with rcd := rec1 }
  let s := s.modCtx 1 fun x => { x with
    table := x.table ++ [(probeTable 0 + 16, 0x0F000000006F#64), (probeTable 0 + 24, 0x02000000003F#64)],
    groups := [(0, { mask := 1, dies := List.replicate 8 0, bases := List.replicate 8 0x10080 })] }
  let s := s.setGraver 0 { Graver.idle with owner := 1 }
  let s := { s with mem := s.mem.store 0x10128 12 (1 + 2 ^ 32 + 2 ^ 64) }
  let ones (o : Nat) (step n : Nat) : Nat := (List.range n).foldl (fun a i => a + 2 ^ (8 * (o + step * i))) 0
  let b1 : Nat := 4 * 2 ^ 128 + ones 0x18 12 5
  let b2 : Nat := 0x10080 + 4 * 2 ^ 64 + ones 0x10 8 3
  let b3 : Nat := 0x30000 + 0x30100 * 2 ^ 64 + 0x30200 * 2 ^ 128 + ones 0x18 6 2 + 8 * 2 ^ 224
  let s := s.setThread (.core 0 0 1) (Thread.start 1 1 0 1 1 0x10008)
  let s := s.modThread (.core 0 0 0) fun th => { th with fb := 8, nrec := 1, links := [0x10009#64], loads := [(1, walk1)] }
  let s := s.modBurin 0 0 fun b => 
    { b with desc := [[0, 0x00200001, 0, 1, 0, 0, 0, 0], [0, 0x00010020, 16, 1, 0, 0, 0, 0], [0, 0x00010001, 0, 0, 0, 0, 0, 0]] ++ b.desc.drop 3 }
  let s := s.modBurin 0 0 fun b => b.setAcc 1 { b.acc 1 with armed := true, expect := 1, armSeq := some 0 }
  s.modTeam (0, 0) fun x => { x with scratch := (((x.scratch.store 0x80 128 b1).store 0x200 128 (b1 + 3 * 2 ^ 768)).store 0x100 48 b2).store 0x140 64 b3 }
def regs : List (Pos × Word) := [(.v 16, 0x10080), (.v 17, 0), (.v 2, 0x40), (.v 18, 0x10088), (.v 19, 0), (.v 4, 0x80), (.v 5, 0x100), (.v 6, 0x140), (.v 7, 0x180), (.v 8, 0x200), (.v 20, 0x20000), (.v 21, 0), (.v 24, 0x3F800000), (.v 25, 0), (.v 9, 0x800), (.v 29, 0x00200001), (.v 26, 0), (.v 27, 0)]
/-- A thread whose names hold operands, and the same in the richer state. -/
def plain (i : Instr) : State := ready i regs
def preparedWith (r : List (Pos × Word)) (i : Instr) : State := (regs ++ r).foldl (fun s e => s.writeNow (agent i) (match e.1 with
  | .v p => .v (p + ((s.thread (agent i)).map (·.fb)).getD 0)
  | q => q) e.2) (rich (ready i))
def prepared (i : Instr) : State := preparedWith [] i
/-- The state in which the form completes, and that its word reads back. -/
def lands (at_ : Instr → State) (i : Instr) : Bool := i.wf && reads (word i) i && completes i (at_ i)

set_option maxRecDepth 1000000
set_option exponentiation.threshold 2000

theorem witness_integerForms : ∀ i ∈ integerForms, lands plain i = true := by decide
theorem witness_logicForms : ∀ i ∈ logicForms, lands plain i = true := by decide
theorem witness_floatForms : ∀ i ∈ floatForms, lands plain i = true := by decide
theorem witness_exactForms : ∀ i ∈ exactForms, lands plain i = true := by decide
theorem witness_convertForms : ∀ i ∈ convertForms, lands prepared i = true := by decide
theorem witness_crossForms : ∀ i ∈ crossForms, lands plain i = true := by decide
theorem witness_flowForms : ∀ i ∈ flowForms, lands prepared i = true := by decide
theorem witness_callForms : ∀ i ∈ callForms, lands plain i = true := by decide
theorem witness_memForms : ∀ i ∈ memForms, lands prepared i = true := by decide
theorem witness_waitForms : ∀ i ∈ waitForms, lands prepared i = true := by decide
theorem witness_engineForms : ∀ i ∈ engineForms, lands prepared i = true := by decide
theorem witness_tileForms : ∀ i ∈ tileForms, lands prepared i = true := by decide
theorem witness_sysForms : ∀ i ∈ sysForms, lands prepared i = true := by decide
theorem witness_gred : lands plain (.gred hd ⟨.v 8, sv 26⟩) = true := by decide

/-! ### Words written out from the tables of R49 to R58 and R66 to R74 -/

/-- Class, function, no guard, no flag; the other fields as numbers at their places. -/
def wd (c f fields : Nat) : Nat := c * 2 ^ 60 + f * 2 ^ 55 + 7 * 2 ^ 51 + fields + 15 * 2 ^ 4
def fd (d a b c : Nat) : Nat := d * 2 ^ 45 + a * 2 ^ 39 + b * 2 ^ 32 + c * 2 ^ 25

/-- R66 to R69: IMAD.S32.W, AND with an immediate, FFMA.RU.SAT, DWADD.NEG, CVT with format slot 3, BALLOT. -/
theorem test_words_arithmetic : ∀ e ∈ [
    (wd 0 4 (fd 8 16 24 32 + 1 * 2 ^ 12 + 1 * 2 ^ 8), Instr.imad hd .s32 false true wabc),
    (wd 1 0 (1 * 2 ^ 45 + 2 * 2 ^ 39 + (2 ^ 22 - 4) * 2 ^ 16 + 1 * 2 ^ 15), .and hd ⟨.v 1, sv 2, .imm (-4)⟩),
    (wd 2 3 (fd 1 2 3 4 + 2 * 2 ^ 10 + 1 * 2 ^ 9), .ffma hd ⟨.f32, .ru, true, false⟩ dabc),
    (wd 3 3 (fd 8 16 24 0 + 1 * 2 ^ 8), .dwadd hd true (.v 8) (sv 16) (sv 24) .none),
    (wd 4 0 (fd 1 2 0 0 + 3), .cvt hd .f32 3 (.v 1) (.reg (sv 2))),
    (wd 5 2 (fd 1 2 0 0), .ballot hd da)], reads e.1 e.2 = true := by decide

/-- R55, R70 to R74: CALL by 16 names one slot back, LD.B64.acq.die.st, RED.ADD.B32, BARA, COPYQ, GID, CSTAT, MFENCE, CLK. -/
theorem test_words_other : ∀ e ∈ [
    (wd 6 2 ((2 ^ 29 - 1) * 2 ^ 16 + 2 * 2 ^ 12), Instr.call hd 2 (-1)),
    (wd 7 0 (fd 8 16 0 0 + 5 * 2 ^ 12 + 1 * 2 ^ 10 + 9), .ld hd ⟨.b64, .acq, .die, false, false, true⟩ (.v 8) ⟨sv 16, none⟩),
    (wd 8 4 (fd 0 16 3 0 + 4 * 2 ^ 12), .red hd .add am (sv 16) (sv 3) .none),
    (wd 9 1 (fd 0 2 0 0), .bara hd (sv 2)), (wd 10 2 (fd 1 2 0 0), .copyq hd da), (wd 11 5 (fd 1 0 0 0), .gid hd (.v 1)),
    (wd 12 4 (fd 1 2 0 0), .cstat hd da), (wd 13 9 0, .mfence hd), (wd 14 8 (fd 8 0 0 0), .clk hd (.v 8))],
    reads e.1 e.2 = true := by decide

/-- The decoder through the host's numbering of bits: the word is the lowest 64 bits. -/
theorem test_table_word : decodeTableWord 64 (wd 0 0 (fd 1 2 3 0)) = some (.iadd hd .n32 false dab) := by decide

/-! ### Ill-formed terms -/

/-- For each check of WellFormed, a term that it refuses: guard !pt, destination lane, mir 0, a wide product of 64-bit pairs, SAT on a
wide product, IABS unsigned, a 16-bit immediate with its high bits set, RM on an integer reduction, a shift code 7, a release load,
a plain access with a scope, RO with an order, a signed store, BP in scratch, an order in the tile role, a wide floating atomic, FENCE
with an address at a compute scope, a register number 256, and a format slot with RAW. -/
theorem test_ill_formed : ∀ i ∈ [
    Instr.iadd ⟨true, 7, none⟩ .n32 false dab, .iadd hd .n32 false ⟨.lane, sv 2, .imm 0⟩, .iadd hd .n32 false ⟨.v 1, sv 2, .reg (sv 3) (.mir 0)⟩,
    .imul hd .n64 false false wab, .imul hd .n32 true true wab, .iabs hd .n32 false da, .idot4 hd .n32 false dabc, .imad hd .n8x4 false false dabc,
    .fadd hd ⟨.f16x2, .rne, false, false⟩ ⟨.v 1, sv 2, .imm 0x10000⟩, .cvt hd .bf16x2 0 (.v 1) (.imm 0x10000), .redx hd .addB32 .rz da,
    .scan hd .orB32 false .ru da, .call hd 7 0, .calli hd 0 (sv 16), .ld hd ⟨.b32, .rel, .sys, false, false, false⟩ (.v 1) ⟨sv 16, none⟩,
    .ld hd ⟨.b32, .plain, .die, false, false, false⟩ (.v 1) ⟨sv 16, none⟩, .ld hd ⟨.b32, .acq, .die, false, true, false⟩ (.v 1) ⟨sv 16, none⟩,
    .st hd ⟨.s8, .plain, .core, false, false, false⟩ (.v 1) ⟨sv 16, none⟩, .lds hd ⟨.b32, .plain, .core, true, false, false⟩ (.v 1) ⟨sv 2, none⟩,
    .ldt hd ⟨.b32, .acq, .core, false, false, false⟩ (.v 1) ⟨sv 2, none⟩, .atom hd .addF32 ⟨true, .plain, .core, false⟩ (.v 8) (sv 16) (sv 24) .none,
    .fence hd .sc .sys false ⟨sv 16, none⟩, .fence hd .plain .core false ⟨⟨.v 0, false⟩, none⟩, .sread hd (.v 1) (.imm 256),
    .capw hd (.v 1) (.imm 0x10000), .swrite hd (sv 2) (.imm 256), .mdrain hd true false 3 0 0, .gmbox hd (.v 1) (sv 2) (some (sv 3, .mir 6)),
    .coordinatorArbitration], i.wf = false := by decide

/-- R20: an odd pair and an unaligned group of eight are well-formed words that fault as they issue. -/
theorem test_misaligned : ∀ i ∈ [Instr.lea hd false dab, .gred hd ⟨.v 4, sv 16⟩], i.wf = true ∧ i.alignOk = false := by decide

/-! ### Hypotheses that hold

For every statement of Obligations.lean that has hypotheses beyond a form's own (those are above), a state and operands that meet them,
clause by clause, at a boundary value where a range has one. -/

/-- NOP issuing in the richer state: context 1, launch 1, team (0, 0), threads 0 and 1 of warp slot 0 of core 0. -/
def base : State := prepared (.nop hd)
def t0 : Tid := .core 0 0 0
def th0 : Thread := (base.thread t0).getD (Thread.start 0 0 0 0 0 0)
def g0 : Group := (base.issuing.map (·.grp)).getD ⟨[], 0, false, false, none, false, none, none, none, []⟩
def c1 : Ctx := (base.ctx 1).getD probeCtx
def after (i : Instr) (s : State) : State := match exec i s with | .next s' => s' | _ => s
def idle : State := { base with issuing := none }
/-- Does a translation of the page of 0x10000 succeed, and the read of its data? -/
def okAt (s : State) (c : Nat) : Bool := match fetchPhys s t0 1 0x10000 with
  | (s1, .ok p) => (homeRead s1 (p.pa / 64) p.key).2.2 == c
  | _ => false
def phys0 : Phys := match fetchPhys base t0 1 0x10000 with | (_, .ok p) => p | _ => ⟨0, .normal, .drawn 0⟩

def booting (k : Nat) (ok : Bool) : State := let im : Image := { digest := 1, version := 0, signer := State.reset.pkg.vendor1, sigOk := ok, size := 0 }
  { State.reset with pkg := { State.reset.pkg with found := List.replicate 34 im, boot := some { cold := true, links := [], step := k, writing := none } } }

theorem meets_EncodeOfDecode : word (.nop hd) < 2 ^ 64 ∧ reads (word (.nop hd)) (.nop hd) = true ∧ (Instr.nop hd).wf = true := by decide
/-- R49, R60: class 0xF; function 20 of class 0x0 and 19, its last; guard 0b1111; SETF 12 and 14. -/
theorem meets_WordsOfTheTables : ∀ w ∈ [15 * 2 ^ 60 + 7 * 2 ^ 51 + 15 * 2 ^ 4, wd 0 20 0, wd 0 0 (8 * 2 ^ 51), wd 0 0 0 - 3 * 2 ^ 4, wd 0 0 0 - 2 ^ 4],
    w < 2 ^ 64 ∧ decodeTableWord 64 w = none := by decide
theorem meets_StepRunsTheFetchedWord :
    base.issuing = some { grp := g0 } ∧ g0.mem = [t0] ∧ base.thread t0 = some th0 ∧ slotAddr th0.pc = true ∧
    (heldPacket base t0 (packetBase th0.pc) = none ∧ t0.isGraver = false ∧ okAt base 0 = true ∧
      okAt { base with poison := [phys0.pa / 64] } 0x18 = true ∧
      (fetchPhys (base.modCtx 1 fun x => { x with table := [] }) t0 1 0x10000).2.toOption.isNone = true) ∧
    (let p := 2 ^ 64 * BitVec.ofNat 256 (word (.nop hd))
     heldPacket (holdPacket base [t0] (packetBase th0.pc) p) t0 (packetBase th0.pc) = some p ∧ badPacket p (slotOf th0.pc) = false ∧
      reads (packetWord p (slotOf th0.pc + 1)) (.nop hd) = true) := by decide
theorem meets_StepTakesTheAgenda :
    (∃ (s : State) (e : Instr) (rest : List Instr), s.issuing = none ∧ s.agenda = e :: rest ∧ s.pkg.mode = .ready) ∧
    (∃ (s : State) (e : Instr) (rest : List Instr), s.issuing = none ∧ s.agenda = e :: rest ∧ s.pkg.mode = .off ∧ s.pkg.boot.isSome = true ∧ Instr.isFatal e = true) ∧
    (∃ s : State, s.issuing = none ∧ s.pkg.mode = .fatal 0x81 ∧ ∀ e ∈ s.agenda, Instr.isReset e = false) ∧
    (∃ (s : State) (f : List Image) (n : List StackLink), (∃ rest, s.agenda = Instr.warmReset f n :: rest) ∧ s.issuing = none ∧ ∃ code, s.pkg.mode = .fatal code) :=
  ⟨⟨{ idle with agenda := [.coordinatorArbitration] }, _, _, rfl, rfl, rfl⟩,
   ⟨{ booting 4 true with agenda := [.thermalTrip] }, _, _, rfl, rfl, rfl, rfl, rfl⟩,
   ⟨{ State.reset with pkg := { Pkg.reset with mode := .fatal 0x81 } }, rfl, rfl, fun _ h => by cases h⟩,
   ⟨{ State.reset with pkg := { Pkg.reset with mode := .fatal 0x81 }, agenda := [.warmReset [] []] }, [], [], ⟨[], rfl⟩, rfl, 0x81, rfl⟩⟩
theorem meets_MemoryStaysCanonical : base.mem.wf = true ∧ (match step base with | .next s => s.mem.wf | _ => false) = true := by decide
theorem meets_ElementsAndPairs : ITy.n8x4.is64 = false ∧ 3 < 32 / tyWidth .n8x4 ∧ 0 < 32 / tyWidth .n32 ∧ ITy.s64.is64 = true := by decide
/-- R104: 3 halves and 5 halves tie to the even 2; up and down differ with the sign; a value at the place is itself. -/
theorem meets_RoundingModes : quant .rne false 3 0 1 = (2, true) ∧ quant .rne false 5 0 1 = (2, true) ∧ quant .ru true 3 0 1 = (1, true) ∧
    quant .rd true 3 0 1 = (2, true) ∧ quant .rz false 3 0 1 = (1, true) ∧ quant .ru false 4 0 1 = (2, false) ∧ quant .rne false 3 1 0 = (6, false) := by
  decide
theorem meets_FloatSpecialCases : (Fmt.f32.val 0x7FC00000).isNan = true ∧ (Fmt.f32.val 0x7F800001).isSig = true ∧ (Fmt.f32.val 0).isSig = false ∧
    Fmt.f32.val 0x7F800000 = .inf false ∧ Fmt.f32.val 0xFF800000 = .inf true ∧ (Fmt.f32.val 0x80000000).isZero = true ∧
    (Fmt.f16.val 0x7C00).isInf = true ∧ (Fmt.bf16.val 0xFFFF).isNan = true ∧ 0xFFFFFFFF < 2 ^ (Fmt.f32.sb + 1) := by decide
/-- 1.0, 3.0, 0 and -0; their finite sums and products; the largest value plus itself. -/
theorem meets_FiniteResultsAreRoundedOnce : (Fmt.f32.val 0x3F800000).isFin = true ∧ (Fmt.f32.val 0x40400000).isFin = true ∧
    (Fmt.f32.val 0x7F7FFFFF).isFin = true ∧ (Fmt.f32.val 0x80000000).isZero = true ∧ (Fmt.f32.val 0x7F800000).isInf = true ∧
    (Fmt.f32.val 0x7FC00000).isNan = true ∧ (Fmt.f32.val 0xBF800000).neg? = true ∧ 0x7F7FFFFF < 2 ^ (Fmt.f32.sb + 1) := by decide
/-- Sums that are finite, infinite and NaN; a product with an exact rest, and one without. -/
theorem meets_ErrorTermsAreExact : (f32v (twoSum 0x3F800000 0x33000000).1).isFin = true ∧ f32v (twoSum 0x7F7FFFFF 0x7F7FFFFF).1 = .inf false ∧
    (f32v (twoSum 0x7F800000 0xFF800000).1).isNan = true ∧ (f32v (twoProd 0x3F800001 0x3F800001).1).isFin = true ∧
    (twoProd 0x3F800001 0x3F800001).2.1 ≠ 0 ∧ (twoProd 0x3F800000 0x40400000).2.1 = 0 := by decide
theorem meets_ConversionsPlaceTheirResults : (Fmt.f32.val 0x43800000).isFin = true ∧ (Fmt.f32.val 0x80000000).isZero = true ∧
    (Fmt.bf16.val 0x7F80).isInf = true ∧ (Fmt.f16.val 0x7E00).isNan = true ∧ 0x7E00 < 2 ^ (Fmt.f16.sb + 1) ∧ 8 * 4 ≤ 32 := by decide
theorem meets_SlotsAndBranchTargets : (0x10000 : DWord).toNat % 32 = 0 ∧ slotAddr 0x10018 = true := by decide
/-- R118: eight lanes of a Graver warp. -/
theorem meets_CrossLaneFormsComplete : (List.replicate 8 (3 : Word)).length = 8 ∧
    bfly (redRow .addB32 .rne).1 (List.replicate 8 3) = (24, 0) := by decide

/-- IADD v1, v2, v3 has issued in thread 0: its result is outstanding. -/
def added : State := after (.iadd hd .n32 false dab) (plain (.iadd hd .n32 false dab))
theorem meets_ResultsBecomeReadable : ∃ th o, added.thread t0 = some th ∧ th.outs.find? (·.seq == 0) = some o ∧ o.held = false ∧ o.fixed = true ∧
    (o.names.map (·.1)).Nodup ∧ (o.preds.map (·.1)).Nodup ∧ added.now < o.ready ∧ o.ready ≤ { added with now := 2 }.now ∧
    (.v 1, 0x40) ∈ o.names ∧ added.laneCell t0 (.v 1) = ⟨0, false, some (0, none)⟩ := by
  refine ⟨(added.thread t0).getD th0, (((added.thread t0).getD th0).outs.find? (·.seq == 0)).getD ⟨0, 0, 0, none, false, none, [], none, 0, [], 0, none, [], none, false, false⟩, ?_⟩
  decide

/-- LD whose read is delayed (R239): outstanding, and with its read performed. An MLDRED and an MSTMC delayed the same way. -/
def slow (i : Instr) : State := after i { prepared i with delays := [true] }
def slowOut (i : Instr) (p : Out → Bool) : Bool := ((slow i).thread t0).any fun th => th.outs.any fun o => o.seq == 0 && !o.fixed && !o.held && p o
def lateLd : Instr := .ld hd mm (.v 8) ⟨sv 16, none⟩
theorem meets_ResultsPerformedLater : slowOut lateLd (fun o => match o.todo with
      | some (.load p _ ty bp ro) => (loadAt (slow lateLd) t0 1 p ty.bytes bp ro .plain).2.2 == 0
      | _ => false) = true ∧
    (((performOut (slow lateLd) t0 0).thread t0).any fun th => th.outs.any fun o => o.seq == 0 && o.todo.isNone && o.late.isNone &&
      (o.names.map (·.1)) == [.v 16]) = true ∧
    (let i : Instr := .st hd mm (.v 8) ⟨sv 16, some 8⟩
     slowOut i (fun o => match o.todo with | some (.store p _ 4 _ _) => !fencedHome (slow i) p.pa | _ => false)) = true ∧
    slowOut (.mldred hd (.v 8) (sv 3) (sv 3) .none) (fun o => match o.todo with | some (.reduce _ _ [0] 0 true []) => true | _ => false) = true ∧
    slowOut (.mstmc hd true (.v 1) (sv 3) (sv 3) .none) (fun o => match o.todo with | some (.multi g _ 4 _ [0] []) => g.dies.headD 9 == 0 | _ => false) = true ∧
    multiBefore base th0 0 = false := by decide

def unguarded : Instr := .iadd ⟨false, 0, none⟩ .n32 false dab
theorem meets_FalseGuardOnlyAdvances : ∃ (f : Form) (s : State) (g : Group), f.i = unguarded ∧ (∀ s, exec unguarded s = .next (issue f s)) ∧
    Fires unguarded s g ∧ executing f.h s g = [] ∧ f.crowd { s with issuing := none } [] = false ∧ (∀ e x, e.exec = [] → f.after e x = x) :=
  ⟨alu unguarded ⟨false, 0, none⟩ (.fixed 2) (fun vs => { out := addFn .n32 false (· + ·) dab.b vs }), plain unguarded, g0, rfl, fun _ => rfl,
   fires_of_ok (t := t0) (th := ((plain unguarded).thread t0).getD th0) (by decide) (by decide), by decide, rfl, fun _ _ _ => rfl⟩
/-- R75, R274, R386, R20: an acquire at scope die in a Graver, a tile form on a core, PRET outside the proof slot, an odd pair. -/
theorem meets_WordFaultsStopTheGroup : (Tid.graver 0 0).isGraver = true ∧
    badInGraver (.ld hd ⟨.b32, .acq, .die, false, false, false⟩ (.v 1) ⟨sv 16, none⟩) = true ∧ offProfile (.mfence hd) t0 = true ∧ proofForm (.pret hd) = true ∧
    offProfile (.pret hd) t0 = false ∧ (Instr.lea hd false dab).alignOk = false ∧ offProfile (.lea hd false dab) t0 = false ∧
    base.issuing = some { grp := g0 } ∧ g0.mem = [t0] := by decide
theorem meets_TakingAFault : ∃ (s : State) (th : Thread) (x : Ctx), s.thread (.core 0 0 0) = some th ∧ s.ctx th.ctx = some x ∧ x.handler ≠ 0 :=
  ⟨base.setCtx 1 { c1 with handler := 0x20000 }, th0, { c1 with handler := 0x20000 }, by decide, by decide, by decide⟩
/-- R385: thread 1 of the warp runs on when thread 0, which has an MSTMC still to perform, ends. -/
def storing : State := after (.mstmc hd true (.v 1) (sv 3) (sv 3) .none) { prepared (.mstmc hd true (.v 1) (sv 3) (sv 3) .none) with delays := [true] }
theorem meets_FaultsWithoutAHandler : ((storing.thread t0).any fun th => th.outs.any (·.todo.isSome) && th.outs.all (·.late.isNone) && th.stores.isEmpty &&
    ((storing.ctx th.ctx).all fun x => x.handler == 0) && (storing.thread (.core 0 0 1)).any fun m => m.status == .running && m.ctx == th.ctx &&
      m.launch == th.launch && m.team == th.team) = true := by decide
/-- R181, R183, R275: a Burin with a queued form, one with an arming MARM alone, one with neither; a Graver context with a thread. -/
def burinAfter (i : Instr) : State := after i (prepared i)
theorem meets_FaultsOffTheCore : ∀ e ∈ [(burinAfter (.mzero hd true 0), true, true), (burinAfter (.tdget hd false (.v 8) 0), false, true), (plain (.mfence hd), false, false)],
    ((e.1.thread (.burin 0 0)).isSome && (e.1.burin 0 0).any fun b => !b.queue.isEmpty == e.2.1 && b.accs.any (·.armSeq.isSome) == e.2.2 && b.inbox.isEmpty &&
      !sentFrom e.1 b.id) = true := by decide
theorem meets_GraverFaults : ((base.setThread (.graver 0 0) th0).thread (.graver 0 0)).isSome = true := by decide

/-- R27: v2 and v3 are void and the launch sets VOIDTRAP (flag bit 1). R117: 1 / 0 with the trap of DZ (bit 1 of FPST, flag bit 3). -/
def trapped (fl : BitVec 16) (i : Instr) (r : List (Pos × Word)) : State := (ready i r).modLaunch 1 1 fun x => { x with rcd := { x.rcd with flags := fl } }
def quotient : Instr := .fdiv hd .rne false false dab
theorem solo_of {i : Instr} {h : Hdr} {s : State} {g : Group} {t : Tid} {th : Thread} (hl : lone s = some (g, t, th)) (h1 : firesOk i s = true)
    (h2 : freeOk i h s = true) (h3 : guardOn h th = true) (h4 : ∀ k w, i.dst ≠ some (.s k, w)) : Solo i h s g t th :=
  ⟨fires_of_ok hl h1, free_of_ok hl h2, (lone_mem hl).1, (lone_mem hl).2, h3, h4⟩
theorem meets_OperandFaultsStopTheLane :
    (∃ s g t th, Solo (.iadd hd .n32 false dab) hd s g t th ∧ (readOps s t th (Instr.iadd hd .n32 false dab).srcs).any (·.void) = true ∧
      s.voidTrap t th = true) ∧
    (∃ s g t th, Solo quotient hd s g t th ∧
      let rs := readOps s t th quotient.srcs
      let r := fRes (perElem .f32 (fun f a b _ => f.div .rne (ovOf false) (f.val a) (f.val b)) (op (rs.map (·.words)) 0) (op (rs.map (·.words)) 1) 0)
      rs.any (·.void) = false ∧ (∀ o ∈ rs, o.bad = none) ∧ r.fault = none ∧ fpTraps (s.enables t th) r.fl = true) :=
  ⟨⟨trapped 2 (.iadd hd .n32 false dab) [], g0, t0, ((trapped 2 (.iadd hd .n32 false dab) []).thread t0).getD th0,
     solo_of (by decide) (by decide) (by decide) (by decide) (fun _ _ h => by cases h), by decide, by decide⟩,
   ⟨trapped 8 quotient [(.v 2, 0x3F800000), (.v 3, 0)], g0, t0, ((trapped 8 quotient [(.v 2, 0x3F800000), (.v 3, 0)]).thread t0).getD th0,
     solo_of (by decide) (by decide) (by decide) (by decide) (fun _ _ h => by cases h), by decide⟩⟩

/-- IADD s0, v2, v4 with a store walker of four elements, at its first and past its last. -/
def pushing : Instr := .iadd hd .n32 false ⟨.s 0, sv 2, .reg (sv 4) .none⟩
def walking (next : Nat) : State := (plain pushing).modThread t0 fun th =>
  { th with stores := [(0, { base := 0x10080, ty := .b32, bp := false, counts := [4, 1, 1], strides := [4, 0, 0], next := next, fetched := [], pushed := [], eod := 0 })] }
theorem meets_StreamDestinationsPush : ∀ n ∈ [0, 3, 4], firesOk pushing (walking n) = true ∧ freeOk pushing hd (walking n) = true ∧
    (match lone (walking n) with
      | some (g, t, th) => guardOn hd th && (pushing.dst == some (.s 0, 1)) && fpTraps ((walking n).enables t th) 0 == false &&
          (readOps (walking n) t th pushing.srcs).all (fun o => o.bad.isNone && !o.void) && match th.stores.get 0 with
            | some w => w.next == n && (w.total == 4) && match checkAccess (began pushing hd (walking n) g) t th.ctx (w.addr w.next).toNat 4 .write false with
              | (_, .ok _) => true
              | _ => false
            | none => false
      | none => false) = true := by decide

theorem unarmed_base (n off : Nat) : Unarmed base (.team (0, 0) off false) n := fun _ _ b hb _ _ _ => by
  rw [show (base.core 0).barriers = [] by decide] at hb; cases hb
theorem meets_LocalStoresAndTypes : (∃ tm, base.teams.get (0, 0) = some tm ∧ tm.scratch.wf = true) ∧ (base.graver 0).local_.wf = true ∧
    (base.core 0).tile.wf = true := ⟨⟨(base.teams.get (0, 0)).getD probeTeam, by decide⟩, by decide, by decide⟩
theorem meets_HomeWritesChangeTheirBytes : base.mem.wf = true ∧ canonSec (0x20000 / 64) ≠ canonSec 0x400 ∧
    l2Full base (homeOf (0x400 * 64)) 0x400 = false ∧ ((base.die 0).l2.map (·.sec)).Nodup ∧
    (∀ e ∈ (base.die 0).l2, canonSec e.sec = e.sec ∧ homeOf (e.sec * 64) = 0) := by decide
/-- The last four bytes of a sector; a core with places free, a PW page, a core with no cache sets. -/
theorem meets_StoresChangeTheirBytes : 0x1003C % 64 + 4 ≤ 64 ∧ lineOf (base.core 0) (0x1003C / 512) = none ∧ cacheSets (base.core 0) ≠ 0 ∧
    (freePlace (base.core 0)).isSome = true ∧ Kind.normal ≠ .pw ∧ base.mem.wf = true ∧
    (base.core 0).bpLine (0x1003C / 512) = false ∧ l2Full base (homeOf (0x1003C / 64 * 64)) (0x1003C / 64) = false ∧
    cacheSets ((base.setCore 0 { base.core 0 with roles := List.replicate 64 .register }).core 0) = 0 := by decide
theorem meets_LoadsReadTheirBytes : 0x1003C % 64 + 4 ≤ 64 ∧ (0 : Nat) < 4 ∧ lineOf (base.core 0) (0x1003C / 512) = none ∧
    base.poison.contains (canonSec (0x1003C / 64)) = false ∧ crcBad base (canonSec (0x1003C / 64)) phys0.key = false ∧
    cacheSets (base.core 0) ≠ 0 ∧ (freePlace (base.core 0)).isSome = true ∧ (base.core 0).bpLine (0x1003C / 512) = false ∧
    l2Full base (homeOf (0x1003C / 64 * 64)) (0x1003C / 64) = false := by decide
/-- R402: the same bytes in a Plate line whose sector is bad, clean and with one of them dirty. -/
theorem meets_LoadsOfBadRows : ∀ s ∈ [(plateLoad base 0 1 phys0 4 false).1, plateStore base 0 1 phys0 1 7],
    let p := phys0
    ((lineOf (s.core 0) (p.pa / 512)).any fun l =>
      let l := lineSetSec l (p.pa / 64 % 8) { lineSec l (p.pa / 64 % 8) with bad := true }
      let s' := s.setCore 0 { s.core 0 with lines := [l] }
      (lineOf (s'.core 0) (p.pa / 512)) == some l && l.secs.length == 8 && (lineSec l (p.pa / 64 % 8)).present (p.pa % 64) 1 &&
        cacheSets (s'.core 0) != 0 && !(s'.core 0).bpLine (p.pa / 512)) = true := by decide
theorem meets_AtomicsUpdateTheirLocation : phys0.pa % 64 + 4 ≤ 64 ∧ phys0.kind = .normal ∧ base.mem.wf = true ∧
    lineOf (base.core 0) (phys0.pa / 512) = none ∧ base.poison.contains (canonSec (phys0.pa / 64)) = false ∧
    crcBad base (canonSec (phys0.pa / 64)) phys0.key = false ∧
    l2Full base (homeOf (phys0.pa / 64 * 64)) (phys0.pa / 64) = false := by decide

/-- The form fires alone with its operands read, and its lane stops with this code. -/
def stopsWith (i : Instr) (s : State) (code : Nat) : Bool :=
  soloOk i hd s && match lone s, exec i s with
  | some (_, t, _), .next s' => match s'.thread t with
    | some x => x.status == .stopped && (x.stop.map (·.code)) == some code
    | none => false
  | _, _ => false
/-- A thread with a handler, so that a fault stops it. -/
def handled (i : Instr) (r : List (Pos × Word)) : State := (ready i (regs ++ r)).modCtx 1 fun x => { x with handler := 0x20000 }
/-- Odd addresses, 0x05; scratch past its 4,096 bytes, 0x06; the tile role past its end, 0x0C; an unmapped page, 0x06; R344: 0x19 and 0x1A. -/
theorem meets_AddressFaultsStopTheLane : ∀ e ∈ [
    (Instr.lds hd mm (.v 1) ⟨sv 2, none⟩, (.v 2, 0x41), 0x05), (.sts hd mm (.v 1) ⟨sv 2, none⟩, (.v 2, 0x1000), 0x06),
    (.ldt hd mm (.v 1) ⟨sv 2, none⟩, (.v 2, 0x41), 0x05), (.stt hd mm (.v 1) ⟨sv 2, none⟩, (.v 2, 0x80000000), 0x0C),
    (.ld hd mm (.v 8) ⟨sv 16, none⟩, (.v 16, 0x50000), 0x06), (.st hd mm (.v 8) ⟨sv 16, none⟩, (.v 16, 0x10081), 0x05),
    (.atom hd .add am (.v 1) (sv 16) (sv 3) .none, (.v 16, 0x50000), 0x06), (.red hd .add am (sv 16) (sv 3) .none, (.v 16, 0x10082), 0x05),
    (.cas hd am ⟨.v 1, sv 16, sv 3, .none, sv 4⟩, (.v 16, 0x50000), 0x06), (.atoms hd .exch am (.v 1) (sv 2) (sv 3) .none, (.v 2, 0x1000), 0x06),
    (.cass hd am dabc, (.v 2, 0x42), 0x05), (.fence hd .sc .bnk false ⟨sv 16, none⟩, (.v 16, 0x50000), 0x06),
    (.waita hd 0 false ⟨.v 1, sv 16, sv 3, .none, sv 4⟩, (.v 16, 0x10082), 0x05), (.bari hd (sv 2) (.imm 1), (.v 2, 0x48), 0x05),
    (.bara hd (sv 2), (.v 2, 0x48), 0x05), (.barw hd 1 (sv 2) (.imm 1), (.v 2, 0x48), 0x05), (.baraw hd 1 (sv 2) (.imm 1), (.v 2, 0x48), 0x05),
    (.cwb hd false ⟨sv 16, none⟩, (.v 16, 0x50000), 0x06), (.cinv hd false ⟨sv 16, none⟩, (.v 16, 0x50000), 0x06),
    (.gred hd ⟨.v 8, sv 16⟩, (.v 16, 0x10081), 0x05), (.trap hd 31, (.v 16, 0), 0x19), (.bpt hd, (.v 16, 0), 0x1A)],
    stopsWith e.1 (handled e.1 ((.v 3, (0 : Word)) :: [e.2.1])) e.2.2 = true := by decide
/-- A thread of the richer state with a handler. -/
def halted (i : Instr) (r : List (Pos × Word) := []) (f : State → State := id) : State :=
  f ((preparedWith r i).modCtx 1 fun x => { x with handler := 0x20000 })
/-- Slot 0 holds FP32 and slot 7 a word that is no slot; slots 1 and 2 are without and with a scale. -/
theorem meets_ConversionStops : ∀ i ∈ [Instr.cvt hd .f16x2 0 (.v 1) (.reg (sv 2)), .cvt hd .f32 7 (.v 1) (.reg (sv 2)),
    .cvtp hd .f32 0 (.v 1) (sv 2) (sv 3) .none, .cvtu hd .f32 0 wa, .cvts hd 1 da], stopsWith i (halted i) 0x0D = true := by decide
/-- A Burin with a form in its queue, which keeps it when it stops; descriptor 5 has 65 rows; accumulator 0 has the other tag. -/
def onBurin (f : Burin → Burin) (s : State) : State := s.modBurin 0 0 fun b => { f b with queue := [(99, .mzero 3 false)] }
def tall (b : Burin) : Burin := { b with desc := setAt b.desc 5 [0, 0x00010041, 16, 0, 0, 0, 0, 0] }
def tagged (b : Burin) : Burin := b.setAcc 0 { b.acc 0 with tagNext := true }
theorem meets_TileStops : (∀ e ∈ [
    (Instr.tdset hd 0 (sv 28) (sv 32), (.v 31, 7), 0x0D), (.tdset hd 0 (sv 28) (sv 32), (.v 28, 8), 0x0C),
    (.mma hd 0 2 1 2, (.v 1, (0 : Word)), 0x0D), (.mma hd 0 0 1 0, (.v 1, 0), 0x0B), (.mma hd 0 0 1 7, (.v 1, 0), 0x0C), (.mzero hd true 1, (.v 1, 0), 0x0B),
    (.mldacc hd false 0 7, (.v 1, 0), 0x0C), (.mldacc hd false 1 2, (.v 1, 0), 0x0B), (.mdrain hd false false 2 2 0, (.v 1, 0), 0x0D),
    (.mdrain hd true true 0 7 0, (.v 1, 0), 0x0C), (.mdradd hd false 7 (sv 9) 2 0, (.v 1, 0), 0x0D), (.mdradd hd true 0 (sv 9) 2 0, (.v 9, 0x2800), 0x0C),
    (.mdradd hd true 0 (sv 9) 2 0, (.v 9, 0x9FF), 0x14), (.mdradd hd true 0 (sv 9) 2 0, (.v 9, 0x10800), 0x14), (.marm hd 1 (sv 2), (.v 1, 0), 0x0B)],
    stopsWith e.1 (halted e.1 [e.2.1] (onBurin id)) e.2.2 = true) ∧
    (∀ i ∈ [Instr.mldacc hd false 0 5, .mdrain hd true true 0 5 0, .mdradd hd true 0 (sv 9) 5 0], stopsWith i (halted i [] (onBurin tall)) 0x0B = true) ∧
    stopsWith (.mdradd hd true 0 (sv 9) 2 0) (halted (.mdradd hd true 0 (sv 9) 2 0) [] (onBurin tagged)) 0x0B = true := by decide
/-- A block at an odd place, one with bad fields, a walker of nothing, no control block, a bad START, mailboxes that are none, of another
context, and on a fenced die; a table that is misaligned. -/
theorem meets_EngineStops : (∀ e ∈ [
    (Instr.copy hd (sv 2), (Pos.v 1, (0 : Word)), 0x05), (.copy hd (sv 7), (.v 1, 0), 0x11), (.copyr hd (sv 4), (.v 1, 0), 0x11), (.copyr hd (sv 2), (.v 1, 0), 0x05),
    (.copyq hd ⟨.v 1, sv 2⟩, (.v 1, 0), 0x05), (.strm hd 1 (sv 2) (sv 3) .none, (.v 1, 0), 0x0F), (.strm hd 1 (sv 1) (sv 3) .none, (.v 1, 8), 0x0F),
    (.strq hd ⟨.v 1, sv 2⟩, (.v 2, 8), 0x0F), (.gstart hd (sv 16) (sv 3) .none, (.v 1, 0), 0x08), (.gstart hd (sv 20) (sv 3) .none, (.v 3, 1), 0x12),
    (.gstop hd (sv 16), (.v 1, 0), 0x08), (.gmbox hd (.v 1) (sv 2) none, (.v 2, 0x10000), 0x12), (.gmbox hd (.v 1) (sv 4) none, (.v 1, 0), 0x07),
    (.gattn hd ⟨.v 1, sv 1⟩, (.v 1, 8), 0x05), (.gattn hd ⟨.v 1, sv 2⟩, (.v 1, 0), 0x12)], stopsWith e.1 (halted e.1 [e.2.1]) e.2.2 = true) ∧
    stopsWith (.gmbox hd (.v 1) (sv 3) none) (halted (.gmbox hd (.v 1) (sv 3) none) [] fun s => s.modDie 0 fun d => { d with fenced := true }) 0x15 = true ∧
    stopsWith (.gattn hd ⟨.v 1, sv 6⟩) (halted (.gattn hd ⟨.v 1, sv 6⟩) [] fun s =>
      s.modTeam (0, 0) fun x => { x with scratch := x.scratch.store 0x140 2 0x30004 }) 0x05 = true := by decide
/-- The descriptor of the launch's binding with no chunks. -/
def noChunks (s : State) : State := { s with mem := s.mem.store 0x10128 12 0 }
theorem meets_CollectiveStops : (∀ e ∈ [
    (Instr.mgrp hd (sv 1) (sv 3) .none, (Pos.v 1, (8 : Word)), 0x05), (.mgrp hd (sv 7) (sv 2) .none, (.v 1, 0), 0x13),
    (.mldred hd (.v 8) (sv 1) (sv 3) .none, (.v 1, 1), 0x13), (.mldred hd (.v 8) (sv 3) (sv 1) .none, (.v 1, 1), 0x05),
    (.mldred hd (.v 8) (sv 3) (sv 1) .none, (.v 1, 0x50000), 0x06), (.mstmc hd true (.v 1) (sv 1) (sv 3) .none, (.v 1, 1), 0x13),
    (.mstmc hd true (.v 1) (sv 3) (sv 1) .none, (.v 1, 2), 0x05), (.mstmc hd false (.v 1) (sv 3) (sv 1) .none, (.v 1, 0x50002), 0x06),
    (.cfire hd (sv 2), (.v 1, 0), 0x13), (.cfire hd (sv 20), (.v 1, 0), 0x13), (.cstat hd ⟨.v 1, sv 2⟩, (.v 2, 4), 0x13)],
    stopsWith e.1 (halted e.1 [e.2.1]) e.2.2 = true) ∧
    (∀ i ∈ [Instr.mgrp hd (sv 7) (sv 3) .none, .mldred hd (.v 8) (sv 3) (sv 3) .none, .mstmc hd true (.v 1) (sv 3) (sv 3) .none],
      stopsWith i (halted i [] fun s => s.modCtx 1 fun x => { x with sealed_ := true }) 0x1D = true) ∧
    (∀ i ∈ [Instr.cfire hd (sv 3), .cstat hd ⟨.v 1, sv 3⟩], stopsWith i (halted i [] noChunks) 0x13 = true) := by decide

/-- The form fires alone, and this holds of what its lane finds: the state before the issue, the state it acts on, the thread, the words. -/
def finds (i : Instr) (p : State → State → Tid → Thread → List (List Word) → Bool) (at_ : Instr → State := prepared) : Bool :=
  let s := at_ i
  soloOk i hd s && match lone s with
  | some (g, t, th) =>
    let rs := plainReads i (envOf i hd s g) t th
    p { s with issuing := none } (opened i hd s g t rs) t th (rs.map (·.words))
  | none => false
def good {α β : Type} (r : Except α β) : Bool := match r with | .ok _ => true | .error _ => false
/-- Calls that spill nothing, and a return that goes back to its link. -/
theorem meets_ControlFormsComplete : (∀ i ∈ [Instr.call hd 1 5, .calli hd 1 (sv 18)], finds i (fun b s t th vs =>
    !writesPending th && !areaHolds b t th && (match i with | .call _ _ off => good (brTarget th.pc off) | _ => (targetFault (opPair vs 0)).isNone) &&
    (spillUnits (s.depthOf t th) (th.fb + 8) th.lo (th.nrec + 1) ((nextSlot th.pc ||| 1#64) :: th.links).reverse).isEmpty) plain = true) ∧
    finds (.ret hd) (fun b s t th _ => !writesPending th && !areaHolds b t th && !fillStall b [t] && !linksEmpty th && match fillUnit s t th with
      | (_, .ok c) => (targetFault (c.links.headD 0 &&& ~~~7#64)).isNone
      | _ => false) = true := by decide
/-- R326: a window of 48 names with no units, and one that a unit must leave. R325, R327: thread 0 of warp slot 0 calls. -/
theorem meets_CallsAndReturns : ([0x10009, 0x10009] : List DWord).length = 2 ∧
    (let t := { th0 with fb := 0, nrec := 0, links := [] }
     slotAddr t.pc = true ∧ t.links.length = t.nrec ∧ t.fb + 8 * 1 + 48 - t.lo + 2 * (t.nrec + 1) ≤ base.depthOf t0 t ∧
     canonicalVa (nextSlot t.pc).toNat = true) := by decide
def pushedOne : Walker := { walk1 with next := 1, pushed := [(0x10080, 5, none)] }
theorem meets_ThreadExits : ∃ th mate, base.thread (.core 0 0 0) = some th ∧ th.status ≠ .exited ∧ base.thread (.core 0 0 1) = some mate ∧
    mate.status = .running ∧ mate.ctx = th.ctx ∧ mate.launch = th.launch ∧ mate.team = th.team ∧ th.deferred = none ∧ th.outs = [] ∧
    th.stores = [] ∧ pushedOne.valued.map (·.1) = [0x10080] ∧
    (let pusher := { th with stores := [(0, pushedOne)] }
     let s := base.setThread t0 pusher
     match checkAccess ((leaveBins (s.leaveGroups t0) t0).setThread t0 (pusher.exit t0)) t0 th.ctx 0x10080 4 .write false with
     | (_, .ok p) => graverOf p.pa == none
     | _ => false) = true :=
  ⟨th0, (base.thread (.core 0 0 1)).getD th0, by decide⟩
/-- R310: the first bin, and none with all 64 taken. -/
theorem meets_FilingIntoBins : ((base.core 0).bins.map (·.1)).Nodup ∧ binFor (base.core 0) th0.launch th0.pc = some 0 ∧
    (let full := { base.core 0 with bins := (List.range 64).map fun i => (i, ⟨1, 0x20008, []⟩) }
     (full.bins.map (·.1)).Nodup ∧ binFor full th0.launch th0.pc = none) := by decide
/-- R253: an object of two arrivals, at its first and its last. R257: a team with and without a thread outside TBAR. -/
def armed (n : Nat) : State := base.modCore 0 fun x => { x with barriers := [{ key := ⟨1, 1, 0, 0⟩, trap := false, count := 2, arrived := n, phase := 7, cores := [] }] }
def meeting : State := (base.modThread t0 fun th => { th with status := .waiting (.tbar 5) }).modThread (.core 0 0 1) fun th => { th with status := .waiting (.tbar 6) }
theorem meets_BarriersOpenForAll : (∀ n ∈ [0, 1], (armedAt (armed n) 0 ⟨1, 1, 0, 0⟩).map (fun b => (b.arrived, b.count)) = some (n, 2)) ∧
    (∃ th, (armed 0).thread t0 = some th ∧ th.stores = []) ∧ waitersOf (armed 0) ⟨1, 1, 0, 0⟩ = [] ∧
    (∃ e ∈ base.liveThreads 1 1 0, isTbar e.2.status = none) ∧ meeting.liveThreads 1 1 0 ≠ [] ∧ (meeting.threads.map (·.1)).Nodup ∧
    ∀ e ∈ meeting.liveThreads 1 1 0, (isTbar e.2.status).isSome = true := by
  exact ⟨by decide, ⟨th0, by decide⟩, by decide, by decide, by decide, by decide, by decide⟩
/-- 64 sets; R389: thread 1 of warp slot 0 selects thread 0, which is stopped. -/
theorem meets_SystemFormsComplete : (base.core 0).roles.length = 64 ∧ base.thread t0 = some th0 ∧ c1.keys.length = 8 ∧ base.ctx 1 = some c1 ∧
    (base.recOf th0).isSome = true ∧ (base.teamOf t0).isSome = true ∧
    finds (.prdv hd da) (fun b s _ th vs => (stoppedSel s th).isNone && !itemHolds b false th (op vs 0)) = true ∧
    finds (.pwrv hd (sv 2) (sv 3) .none) (fun b _ _ th vs => !itemHolds b true th (op vs 0)) = true := by decide
theorem meets_ItemsReadBackAndThreadsReturn : base.thread t0 = some th0 ∧ 63 < 64 ∧ (itemPos th0 2).isSome = true ∧
    ((itemPos th0 2).map fun p => base.isSpilled t0 p) = some false ∧ base.cellsFree 0 0 ≠ 0 ∧ (let th := { th0 with status := .stopped }
    (base.setThread t0 th).thread t0 = some th ∧ th.act = false ∧ th.pcWritten = false) ∧ ∀ b, (base.core 0).bins.get b = none :=
  ⟨by decide, by decide, by decide, by decide, by decide, by decide, fun b => by rw [show (base.core 0).bins = [] by decide]; rfl⟩
theorem meets_TileWorkIsElementwise : (Burin.start 0 1 1).accs.length = 4 ∧ 3 * 64 + 64 ≤ 256 ∧ ([(0, 1), (4095, 1)].map (·.1) : List Nat).Nodup := by decide
/-- The last element of a row, of a plane and of all. -/
theorem meets_ElementsInOrder : nextIter [1, 0, 0, 0, 0] [2, 2, 1, 1, 1] = [0, 1, 0, 0, 0] ∧ nextIter [1, 1, 0, 0, 0] [2, 2, 1, 1, 1] = endVec [2, 2, 1, 1, 1] ∧
    { walk1 with next := 2 }.total = 2 := by decide
theorem meets_ReductionsAddInOrder : (∀ l ∈ ([[(1, 5)]] : List (List (Nat × Word))), ∀ x ∈ l, x.1 ≠ 0) ∧
    ([(0, 7), (2, 9)] : List (Nat × Word)).find? (·.1 == 0) = some (0, 7) ∧ (List.replicate 32 (1 : Word)).length = 32 ∧
    finds (.gred hd ⟨.v 8, sv 26⟩) (fun b s t th vs => !globalHolds b t th (opPair vs 0) 128 &&
      match gredRow s t th (opPair vs 0) with | some (.error _) => false | _ => true) plain = true := by decide
/-- R203: no Burin is the peer that index 0x800 names, so the operand names core 0's own accumulator 1, armed for index 0. -/
theorem meets_TileFormsComplete : (∀ i ∈ tileForms, finds i (fun b _ t _ _ => !fullQueue b t && tileIdle b t) = true) ∧
    finds (.mdradd hd true 0 (sv 9) 2 0) (fun _ s t _ vs =>
    let w := (op vs 0).toNat
    match burinAt s t with
    | some bn => draddFault t w (descAt bn 2) == 0 && match peerBurin s (bits w 8 0) bn.ctx bn.launch with
      | some (_, p) => (p.acc (bits w 12 11)).expect.getLsbD (bits w 20 16) && (p.acc (bits w 12 11)).tagNext == (bn.acc 0).tagNext
      | none => false
    | none => false) = true := by decide
theorem meets_BarrierAndWaitFormsComplete :
    finds (.waita hd 0 false ⟨.v 1, sv 16, sv 3, .none, sv 4⟩) (fun b s t th vs => !globalHolds b t th (opPair vs 0) 4 &&
      good (globalCheck s t th.ctx (opPair vs 0).toNat 4 .read false .plain .core).2) = true ∧
    finds (.spawn hd wa) (fun b s t th vs => !recordHolds b t th.ctx (opPair vs 0).toNat && (recordCheck s t th.ctx (opPair vs 0).toNat 4).2.isNone) = true ∧
    finds (.st hd mm (.v 8) ⟨sv 16, some 8⟩) (fun b _ t th vs => !globalHolds b t th (globalAddr (some 8) vs) 4 &&
      !lateMeets b t th (globalAddr (some 8) vs) 4) = true := by decide
theorem meets_EngineFormsComplete :
    finds (.copyq hd ⟨.v 1, sv 4⟩) (fun b s t th vs => !blockHolds b t th (op vs 0) 128 && good (blockAt s t th (op vs 0) 128 128 0x05)) = true ∧
    finds (.gattn hd ⟨.v 1, sv 6⟩) (fun b s t th vs => !blockHolds b t th (op vs 0) 64 && match blockAt s t th (op vs 0) 64 16 0x05 with
      | .ok x => !gattnBad (spotLoad s x 64) && good (gattnBank s t th (spotLoad s x 64))
      | .error _ => false) = true ∧
    (∀ i ∈ [Instr.gstart hd (sv 20) (sv 3) .none, .gstop hd (sv 20)], finds i (fun b s t th vs => !globalHolds b t th (opPair vs 0) 8 &&
      good (blockOf s t th (opPair vs 0)).2) = true) ∧
    finds (.gmbox hd (.v 1) (sv 3) none) (fun b s _ th vs => !(b.thread t0).any (·.pushPends) && decide ((op vs 0).toNat < 2 ^ 16) &&
      (s.graver 0).owner == th.ctx && !(s.die 0).fenced) = true := by decide
def boundTo (s : State) (th : Thread) (i : Nat) (p : CDesc → Bool) : Bool := match (s.recOf th).bind (bindingOf · i) with
  | some b => match readCDesc s th.ctx b.desc with | (_, .ok d) => p d | _ => false
  | none => false
theorem meets_CollectiveFormsComplete :
    finds (.mgrp hd (sv 7) (sv 3) .none) (fun b s t th vs => !sealedCtx s th.ctx && decide ((op vs 1).toNat < 64) && !blockHolds b t th (op vs 0) 80 &&
      match blockAt s t th (op vs 0) 80 16 0x05 with
      | .ok x => fieldAt (spotLoad s x 80) 4 12 == 0 && (List.range 8).all fun m => !bitAt (fieldAt (spotLoad s x 80) 0 1) m || baseOk s th.ctx (spotLoad s x 80) m
      | .error _ => false) = true ∧
    finds (.mldred hd (.v 8) (sv 3) (sv 3) .none) (fun b s t th vs => !membersHold b t th vs && (groupAt s th.ctx (op vs 0)).any fun g =>
      (op vs 1).toNat % 2 == 0 && (membersCheck s t th g (op vs 1).toNat 2 .read).isNone) = true ∧
    finds (.mstmc hd true (.v 1) (sv 3) (sv 3) .none) (fun b s t th vs => !membersHold b t th vs && (groupAt s th.ctx (op vs 0)).any fun g =>
      (op vs 1).toNat % 4 == 0 && (membersCheck s t th g (op vs 1).toNat 4 .write).isNone) = true ∧
    finds (.cfire hd (sv 3)) (fun _ s _ th vs => bits (op vs 0).toNat 15 2 == 0 && boundTo s th ((op vs 0).toNat % 4) fun d =>
      decide ((op vs 0).toNat / 2 ^ 16 < d.chunks)) = true ∧
    finds (.cstat hd ⟨.v 1, sv 3⟩) (fun _ s _ th vs => decide ((op vs 0).toNat < 4) && boundTo s th (op vs 0).toNat fun _ => true) = true := by decide
/-! Events: states in which the clauses about them hold. -/
/-- A request of session 7 on context 1, with the body of MAP. -/
def hd0 : ReqHead := { session := 7, flags := 0, reserved := 0, ctxId := 1, number := 5, length := 32, zeros := 0 }
def rd0 : Req := hd0.carry [List.replicate 24 0, List.replicate 8 0]
/-- The launch stands at the head of queue 0 of its context, with one team to place. -/
def queued (r : LRec) : State := (idle.modCtx 1 fun x => { x with queues := [1] :: List.replicate 7 [], bal := 1 }).modLaunch 1 1 fun x =>
  { x with rcd := r, next := 0, ineligible := some 0, reserve := [] }
def oneTeam : State := { queued probeRec with chosen := [(1, 1)], teams := [], threads := [] }
def theHead : Head := { ctx := 1, q := 0, id := 1, l := ((queued probeRec).launchOf 1 1).getD probeLaunch, bal := 1 }
def later (s : State) (us : Nat) : State := { s with now := us * Config.cyclesPerUs }

theorem meets_CoreEventsComplete :
    inTurn idle (0, 0) = true ∧ inTurn idle (0, 3) = true ∧ base.issuing.isSome = true ∧ candidates (noteReady idle (0, 0)) (0, 0) = [] ∧
    (let s := { idle with groups := [g0] }
     (candidates (noteReady s (0, 0)) (0, 0)).length = 1 ∧ inTurn s (0, 1) = false ∧ beginsRead s g0 = false) ∧
    (let c := { idle.core 0 with stall := some 0, lastAlloc := 0 }
     let s := (later idle 1).setCore 0 c
     let full := s.modDie 0 fun d => { d with miss := List.replicate 4096 (9, 0, false, false) }
     idle.now < max 0 c.lastAlloc + 256 ∧ max 0 c.lastAlloc + 256 ≤ (later idle 1).now ∧
     (spillVictim s 0).any (fun w => !slotsHold s (spillableOf s 0 w)) = true ∧
     (spillVictim full 0).any (fun w => slotsHold full (spillableOf full 0 w)) = true) ∧
    (let s := (idle.modCtx 1 fun x => { x with handler := 0x20000 }).modCore 0 fun x => { x with stopList := [t0] }
     (s.ctx (s.core 0).ctx).any (fun k => k.handler != 0) = true ∧ (s.core 0).proofOn = false ∧ (s.core 0).stopList ≠ []) ∧
    (idle.core 0).bins.get 63 = none ∧ (∃ e ∈ [(⟨0, 0, 0, [t0], 0⟩ : BinEntry)], e.filed + 48 ≤ (later idle 1).now) ∧
    (let m : Move := { from_ := .scratch, to_ := .cache, given := [7], used := [], total := 1, moved := 0, issuer := none }
     (idle.core 0).moveStep m = some (7, 7)) ∧ handoverDue idle 0 = false ∧
    handoverDue { idle with teams := [], burins := [], copies := [] } 0 = true ∧
    (let x := { idle.core 0 with clk := 3900 }
     x.ctx ≠ 0 ∧ max x.lastPhase x.since + 100 * Config.cyclesPerUs ≤ (later idle 100).now) := by decide
/-- R378: a thread with a deferred record whose group's next slot can be fetched stops before any issue; with none, no group stops. R29: a
group that has just had its turn is put back. -/
theorem meets_StopsAndStalls : (let s := ({ idle with groups := [g0] } : State).modThread t0 fun th =>
      { th with deferred := some (threadRec base t0 th0 0x15 0x80 th0.pc 0 0) }
     stopGroup s g0.agent = some g0) ∧ stopGroup { idle with groups := [g0] } g0.agent = none ∧ g0.agent.1 < Config.cores ∧
    chained ({ idle with groups := [] } : State) g0 = false := by decide
theorem meets_SchedulingEventsComplete :
    (∀ h ∈ orderedHeads idle, considered idle h = false) ∧
    (let s := noteIneligible (noteBlocked (queued probeRec))
     (orderedHeads s).map (fun h => (h.id, considered s h && predsDone s h && headFits s h, (borrow s h.ctx).2)) = [(1, true, true)] ∧
     s.taken ≠ some s.now) ∧
    oneTeam.chosen.contains (1, 1) = true ∧ chooseCore oneTeam allCores 1 1 probeRec (claimsOn oneTeam) = some (1, false) ∧ probeRec.gang ≤ 1 ∧
    oneTeam.refills < (later oneTeam 10).now / (10 * Config.cyclesPerUs) ∧ (oneTeam.ctxs.map (·.1)).Nodup ∧
    (let r := { probeRec with gang := 2, gx := 2 }
     let s := { queued r with chosen := [(1, 1)], teams := [], threads := [] }
     ((s.launchOf 1 1).map fun x => (x.rcd.gang, x.reserve)) = some (2, []) ∧ (gangPlan s 1 1 r).map (·.length) = some 2 ∧
     (let y := { probeLaunch with rcd := r, reserve := [(0, 1), (1, 2)] }
      commitReady (s.setLaunch 1 1 y) 1 1 y = true ∧ y.committing = false ∧ considered s { theHead with l := y } = false)) ∧
    launchOver idle 1 1 ((idle.launchOf 1 1).getD probeLaunch) = false ∧
    (let s := { idle with teams := [], burins := [], threads := [] }; launchOver s 1 1 { probeLaunch with live := 0 } = true) ∧
    (let w := List.replicate 256 (0 : Byte)
     let s := idle.modThread t0 fun th => { th with status := .waiting (.spawn 3 w 0x8000) }
     queueFull idle 1 (parseRec w) = false ∧ (spawnsFor s 1 0).map (fun e => (e.1, e.2.1)) = [(t0, 3)]) := by decide
theorem meets_SaveEventsComplete : (heads idle).isEmpty = true ∧
    (((heads (queued probeRec)).find? fun h => h.ctx == 1 && h.q == 0).map (fun h => h.l.ineligible)) = some (some 0) ∧
    0 + 20 * Config.cyclesPerUs ≤ (later (queued probeRec) 20).now ∧ (preqVictims (later (queued probeRec) 20) theHead).isSome = true ∧
    (let tm := { probeTeam with preq := some 0 }
     let s := idle.setTeam (0, 0) tm
     let done := (s.modThread t0 fun th => { th with status := .yielded }).modThread (.core 0 0 1) fun th => { th with status := .stopped }
     s.teams.get (0, 0) = some tm ∧ tm.saving = false ∧ 0 + 256 * 0 ≤ s.now ∧ allSavable s (unitTeams s tm) = false ∧ allSavable done (unitTeams done tm) = true ∧
     (done.threads.map (·.1)).Nodup ∧ done.copies = [] ∧ ({ done with burins := [] } : State).burins = []) ∧
    savedUnit idle 1 1 0 = [] ∧ exchangeDue (noteBlocked idle) 1 1 = false := by decide
def copied : State := after (.copy hd (sv 4)) (prepared (.copy hd (sv 4)))
def oneCopy : Copy := copied.copies.headD (captureBlk 0 t0 0 th0 0 0 [])
/-- Does a result come without a fault? -/
def fine {α β : Type} (r : α × Except β (Nat × Option (Nat × DWord))) : Bool := match r with | (_, .ok (_, none)) => true | _ => false
theorem meets_WaitAndEngineEventsComplete :
    base.thread t0 = some th0 ∧ idle.now < 1 ∧
    (match waitaRead base t0 th0 0x10080 8 with | (_, .ok (_, c, x)) => c == 0 && !sectorWritten base t0 th0 0x10080 8 x | _ => false) = true ∧
    copyOf copied oneCopy.id = some oneCopy ∧ oneCopy.rel = false ∧ oneCopy.over = false ∧ copyHolds copied oneCopy = false ∧
    (doElement copied { oneCopy with src := 0x10080, dst := 0x100A0 }).2.isNone = true ∧ (doElement copied oneCopy).2.isSome = true ∧
    (let c := { oneCopy with iter := endVec oneCopy.counts }; c.over = true ∧ bitAt c.flags 2 = false) ∧
    ((th0.loads.get 1).any fun w => w.fetched.length < 16 && w.next < w.total && !walkHolds base t0 th0 (w.addr w.next) 4 &&
      fine (globalLoad base t0 th0 (w.addr w.next) 4 w.bp false .plain .core)) = true ∧
    (performElem base t0 1 walk1 (0x10080, 5, none)).2 = 0 ∧ mayWrite base (.thread t0) 0 = true ∧ mayWrite base (.thread t0) 1 = false ∧
    (0x8000#64).toNat % 32 = 0 ∧ (0x8000#64).toNat / 2 ^ 30 = 0 ∧ (base.graver 0).state ≠ 1 ∧
    ((vaOf base (base.graver 0).owner (bankBase (0 / 2) + 0x8000)).any fun e => e.2.getLsbD 4) = true ∧
    (let s := after (.startWrite ⟨.thread t0, 0⟩ 0x8000) idle; (s.graver 0).state = 1 ∧ (s.threads.map (·.1)).Nodup ∧ (s.graver 0).cptr = 0) := by decide
def mmaOne : Instr := .mma hd 0 0 1 2
def mmaing : State := after mmaOne (prepared mmaOne)
def bd1 : Burin := (mmaing.burin 0 0).getD (Burin.start 0 1 1)
theorem meets_TileAndPressEventsComplete :
    ((mmaing.burin 0 0).any fun b => match b.queue with
      | (_, .mma 0 ta tb 0) :: _ => turnOf mmaing 0 == some 0 && b.inbox.isEmpty && !headerReady mmaing b && match opndOf mmaing b ta, opndOf mmaing b tb with
        | some oa, some ob => !stepBad mmaing 0 oa ob 0
        | _, _ => false
      | _ => false) = true ∧
    ((mmaing.thread (.burin 0 0)).any fun th => th.status != .exited) = true ∧ burinKey mmaing bd1.id = some (0, 0) ∧
    (∀ sent, let x : Contribution := { acc := 1, arm := some 0, idx := 0, tag := false, sent := sent, elems := [(0, 1)], sender := bd1.id, seq := 0 }
     let s := mmaing.setBurin 0 0 { bd1 with inbox := [x] }
     (s.burin 0 0).map (·.inbox) = some [x] ∧ (bd1.acc 1).armSeq = some 0) ∧ turnOf idle 0 ≠ some 0 ∧
    ((idle.launchOf 1 1).any fun y => (bindingOf y.rcd 0).isSome && !y.stopped && !collFaulted idle 1 1 0) = true ∧
    ({ probeLaunch with killed := true } : Launch).stopped = true := by decide
theorem meets_PackageEventsComplete :
    idle.notices.find? (·.1 == 0) = none ∧ ({ idle with notices := [(0, 0x400)] } : State).notices.find? (·.1 == 0) = some (0, 0x400) ∧
    regionOf (128 * 512) ≠ some .pool ∧ (idle.die 0).miss = [] ∧ walk idle 1 (5 * 0x10000) = none ∧ (walk idle 1 0x10000).isSome = true ∧
    (eccKey (.cell 0 0 0 false 3)).isSome = true ∧ (idle.die 0).failed < 3 ∧ (idle.die 0).fenced = false ∧ idle.pkg.up = true ∧
    State.reset.pkg.up = false := by decide
/-- R402: a sector of a line in a cache set. R426: the acknowledgment of a store of an MSTMC that die 0 will never send. -/
theorem meets_PlacesAndLostReplies : (let s := (plateLoad idle 0 1 phys0 4 false).1
     (s.core 0).lines.any fun l => (s.core 0).roles[l.set]? == some .cache && (pieceLine (s.core 0) l.set 0).isSome) = true ∧
    (let i : Instr := .mstmc hd true (.v 1) (sv 3) (sv 3) .none
     let s := after i (prepared i)
     (s.thread t0).any fun th => th.outs.any fun o => o.awaits.any (fun a => a.from == 0) && match o.todo with
       | some (.multi _ _ _ _ [] []) => true
       | _ => false) = true ∧
    (let i : Instr := .ld hd mm (.v 8) ⟨sv 16, none⟩
     ((after i (prepared i)).thread t0).any fun th => th.outs.any fun o => o.awaits.any fun a => a.from == 0) = true := by decide
/-- A boot at a step, whose images verify or fail. -/
def image (s : State) (i : Nat) : Option Image := (s.pkg.flash.get i).orElse fun _ => s.pkg.found[i]?
theorem meets_ResetsAndTheLog : State.reset.pkg.mode = .off ∧ State.reset.issuing = none ∧ State.reset.agenda = [] ∧
    ((image (booting 1 true) 0).any fun im => imageOk (booting 1 true).pkg im && im.version == (booting 1 true).pkg.secVer) = true ∧
    ((image (booting 3 true) 33).any fun im => imageOk (booting 3 true).pkg im) = true ∧
    ((image (booting 3 false) 33).any fun im => !imageOk (booting 3 false).pkg im) = true ∧
    (booting 3 true).pkg.meas.length = 8 ∧ (booting 3 false).pkg.meas.length = 8 ∧ (booting 4 true).pkg.train.length = 24 ∧ goodLink.fullOk = true ∧
    trainPath true [] goodLink = .write ∧ trainPath true [] { goodLink with fullOk := false } = .fail ∧
    (∀ r ∈ ([⟨0, 7, 0, [], 0⟩] : List TrainRec), r.seqNo.toNat + 1 < 2 ^ 32) ∧
    (let r : TrainRec := { (⟨0, 7, 0, [], 0⟩ : TrainRec) with crc := crc32c (⟨0, 7, 0, [], 0⟩ : TrainRec).body }; r.intact = true) ∧ auditFree idle ≠ 0 ∧ ckptDue idle = false ∧
    (let s : State := { idle with pkg := { idle.pkg with audit := { idle.pkg.audit with placed := true, sinceCkpt := 4096, last := some ⟨0, 0, 0, 0, 0, 0, 0⟩ } } }
     ckptDue s = true ∧ (lastRec s).isSome = true) := by decide
/-- A session of the owner of context 1, and one of the administrator. -/
def talking : State := { idle with pkg := { idle.pkg with sessions := [(7, .owner 1), (8, .admin)] } }
theorem meets_CommandsAreAnsweredOnce :
    sessionOf talking 9 = none ∧ sessionOf talking 7 = some (.owner 1) ∧ talking.pkg.up = true ∧ talking.pkg.mode = .ready ∧
    roleStatus talking rd0 ⟨0x20, false, true, true, false⟩ (.owner 1) = 0 ∧ roleStatus talking rd0 ⟨0x10, true, false, false, true⟩ (.owner 1) ≠ 0 ∧
    wellFormedReq 0x20 rd0 = true ∧ wellFormedReq 0x20 { rd0 with flags := 1 } = false ∧ wellFormedReq 0x20 { rd0 with length := 31 } = false ∧ auditFree talking ≠ 0 ∧ Config.auditReserve ≤ auditFree talking ∧ talking.pkg.sessions.length < 256 ∧
    roleOfProof talking (.owner 1 0) = some (.owner 1) ∧ roleOfProof talking .nothing = none := by decide
theorem meets_CommandsOnContexts :
    talking.ctx 1 = some c1 ∧ freeCtx talking = some 2 ∧ (1 : Word).toNat < 2 ∧
    rangeFree talking 1 0x50000 0x10000 = true ∧ guardsImpression talking 0x50000 0x10000 = false ∧ talking.mem.wf = true ∧
    canonicalRange 0x50000 65536 = true ∧ mapOwned talking 1 0x10000 65536 = true ∧
    (∀ e ∈ leavesOf c1, overlaps e.va e.size 0x50000 65536 = false) ∧ c1.root + 0x1000 ≤ c1.nextTable ∧ c1.nextTable % 0x1000 = 0 ∧
    c1.nextTable + 0x4000 ≤ 2 ^ 48 ∧ (∀ e ∈ c1.table, e.1 < c1.nextTable ∧ (e.2.getLsbD 0 = true → e.2.getLsbD 1 = false →
      e.2.toNat % 256 = 1 ∧ e.2.toNat < 2 ^ 48 ∧ e.1 < nextOf e.2.toNat ∧ nextOf e.2.toNat + 0x1000 ≤ c1.nextTable)) ∧
    (∀ e ∈ leavesOf c1, overlaps e.va e.size 0x10000 65536 = false ∨ (0x10000 ≤ e.va ∧ e.va + e.size ≤ 0x10000 + 65536)) ∧
    (∀ t ∈ talking.threads, t.2.stores = []) ∧ c1.keys.length = 8 ∧ (talking.keySlot 1 7).isSome = false ∧ (talking.keySlot 1 0).isSome = true := by decide
theorem meets_OtherPackagesComplete :
    (sameChunk idle 1 5 0).any (fun x => x.remote.any (·.1 == 3)) = false ∧ bindingById idle 1 99 = none ∧
    liveBindings idle = [(1, 1, 0)] ∧ liveBindings State.reset = [] ∧ sealedCtx idle 1 = false ∧
    sealedCtx (idle.modCtx 1 fun x => { x with sealed_ := true }) 1 = true := by decide
end Sys2Proof.Tests
end

section
/-!
The words that are no instruction (R49, R60), and where the slots of a packet and a branch's target stand (R38, R55).
-/
namespace Sys2Proof

namespace Fields

/-- How many functions R65 to R74 assign in each class; the sixteenth class has none. -/
def assigned : List Nat := [20, 13, 14, 12, 11, 8, 16, 9, 6, 7, 6, 6, 5, 10, 11, 0]

section
variable (f : Fields) (h : Hdr) {fn : Nat}

theorem class0_unassigned (hn : 20 ≤ fn) : f.class0 h fn = .error .unassigned := by
  obtain ⟨k, rfl⟩ := Nat.exists_eq_add_of_le' hn; rfl
theorem class1_unassigned (hn : 13 ≤ fn) : f.class1 h fn = .error .unassigned := by
  obtain ⟨k, rfl⟩ := Nat.exists_eq_add_of_le' hn; rfl
theorem class2_unassigned (hn : 14 ≤ fn) : f.class2 h fn = .error .unassigned := by
  obtain ⟨k, rfl⟩ := Nat.exists_eq_add_of_le' hn; rfl
theorem class3_unassigned (hn : 12 ≤ fn) : f.class3 h fn = .error .unassigned := by
  obtain ⟨k, rfl⟩ := Nat.exists_eq_add_of_le' hn; rfl
theorem class4_unassigned (hn : 11 ≤ fn) : f.class4 h fn = .error .unassigned := by
  obtain ⟨k, rfl⟩ := Nat.exists_eq_add_of_le' hn; rfl
theorem class5_unassigned (hn : 8 ≤ fn) : f.class5 h fn = .error .unassigned := by
  obtain ⟨k, rfl⟩ := Nat.exists_eq_add_of_le' hn; rfl
theorem class6_unassigned (hn : 16 ≤ fn) : f.class6 h fn = .error .unassigned := by
  obtain ⟨k, rfl⟩ := Nat.exists_eq_add_of_le' hn; rfl
theorem class7_unassigned (hn : 9 ≤ fn) : f.class7 h fn = .error .unassigned := by
  obtain ⟨k, rfl⟩ := Nat.exists_eq_add_of_le' hn; rfl
theorem class8_unassigned (hn : 6 ≤ fn) : f.class8 h fn = .error .unassigned := by
  obtain ⟨k, rfl⟩ := Nat.exists_eq_add_of_le' hn; rfl
theorem class9_unassigned (hn : 7 ≤ fn) : f.class9 h fn = .error .unassigned := by
  obtain ⟨k, rfl⟩ := Nat.exists_eq_add_of_le' hn; rfl
theorem classA_unassigned (hn : 6 ≤ fn) : f.classA h fn = .error .unassigned := by
  obtain ⟨k, rfl⟩ := Nat.exists_eq_add_of_le' hn; rfl
theorem classB_unassigned (hn : 6 ≤ fn) : f.classB h fn = .error .unassigned := by
  obtain ⟨k, rfl⟩ := Nat.exists_eq_add_of_le' hn; rfl
theorem classC_unassigned (hn : 5 ≤ fn) : f.classC h fn = .error .unassigned := by
  obtain ⟨k, rfl⟩ := Nat.exists_eq_add_of_le' hn; rfl
theorem classD_unassigned (hn : 10 ≤ fn) : f.classD h fn = .error .unassigned := by
  obtain ⟨k, rfl⟩ := Nat.exists_eq_add_of_le' hn; rfl
theorem classE_unassigned (hn : 11 ≤ fn) : f.classE h fn = .error .unassigned := by
  obtain ⟨k, rfl⟩ := Nat.exists_eq_add_of_le' hn; rfl
end

/-- A step that answers an error ends the decoding. -/
theorem bind_error {α β : Type} {x : Except DecErr α} (k : α → Except DecErr β) (h : ∃ e, x = .error e) : ∃ e, x >>= k = .error e := by
  obtain ⟨e, rfl⟩ := h; exact ⟨e, rfl⟩

/-- Whatever a step answers, what follows it answers an error. -/
theorem bind_error_right {α β : Type} (x : Except DecErr α) {k : α → Except DecErr β} (h : ∀ a, ∃ e, k a = .error e) :
    ∃ e, x >>= k = .error e := by
  cases x with
  | error e => exact ⟨e, rfl⟩
  | ok a => exact h a

theorem hdr_error_of_guard {f : Fields} (hn : f.gneg = 1) (hs : f.gsel = 7) : ∃ e, f.hdr = .error e :=
  ⟨.guard, by simp [hdr, hn, hs]⟩

theorem hdr_error_of_setf {f : Fields} (h1 : 12 ≤ f.setf) (h2 : f.setf ≤ 14) : ∃ e, f.hdr = .error e := by
  unfold hdr
  split
  · exact ⟨_, rfl⟩
  · rw [dif_neg (by omega), if_neg (by simp; omega)]; exact ⟨_, rfl⟩

theorem instr_error_of_hdr {f : Fields} (h : ∃ e, f.hdr = .error e) : ∃ e, f.instr = .error e := bind_error _ h

/-- A function number past those assigned in its class is no instruction. -/
theorem instr_error_of_function {f : Fields} (h : assigned.getD (f.op / 32) 0 ≤ f.op % 32) :
    ∃ e, f.instr = .error e := by
  unfold instr
  refine bind_error_right _ fun hd => bind_error_right _ fun _ => ?_
  generalize f.op / 32 = c at h
  match c, h with
  | 0, h => exact ⟨_, class0_unassigned f hd h⟩
  | 1, h => exact ⟨_, class1_unassigned f hd h⟩
  | 2, h => exact ⟨_, class2_unassigned f hd h⟩
  | 3, h => exact ⟨_, class3_unassigned f hd h⟩
  | 4, h => exact ⟨_, class4_unassigned f hd h⟩
  | 5, h => exact ⟨_, class5_unassigned f hd h⟩
  | 6, h => exact ⟨_, class6_unassigned f hd h⟩
  | 7, h => exact ⟨_, class7_unassigned f hd h⟩
  | 8, h => exact ⟨_, class8_unassigned f hd h⟩
  | 9, h => exact ⟨_, class9_unassigned f hd h⟩
  | 10, h => exact ⟨_, classA_unassigned f hd h⟩
  | 11, h => exact ⟨_, classB_unassigned f hd h⟩
  | 12, h => exact ⟨_, classC_unassigned f hd h⟩
  | 13, h => exact ⟨_, classD_unassigned f hd h⟩
  | 14, h => exact ⟨_, classE_unassigned f hd h⟩
  | _ + 15, _ => exact ⟨.unassigned, rfl⟩

end Fields

theorem decode_error_of_instr {w : Nat} (h : ∃ e, (Fields.ofWord w).instr = .error e) : ∃ e, decode w = .error e :=
  Fields.bind_error _ h

/-- The class and the function of a word (R49). -/
theorem ofWord_class (w : Nat) (hw : w < 2 ^ 64) : (Fields.ofWord w).op / 32 = w / 2 ^ 60 := by
  simp only [Fields.ofWord]; omega
theorem ofWord_function (w : Nat) : (Fields.ofWord w).op % 32 = w / 2 ^ 55 % 32 := by
  simp only [Fields.ofWord]; omega

end Sys2Proof

namespace Sys2Proof.Machine

/-- Settles O3: each field that R60 refuses ends the decoding where it is read; the sample words decode by evaluation. -/
theorem wordsOfTheTables : Obligations.WordsOfTheTables := by
  refine ⟨fun w hw => ⟨fun h => ?_, fun h => ?_, fun h1 h2 => ?_⟩, rfl, rfl, rfl, rfl⟩
  · refine decode_error_of_instr (Fields.instr_error_of_function ?_)
    rw [ofWord_class w hw, ofWord_function]; exact h
  · refine decode_error_of_instr (Fields.instr_error_of_hdr (Fields.hdr_error_of_guard ?_ ?_)) <;> simp only [Fields.ofWord] <;> omega
  · exact decode_error_of_instr (Fields.instr_error_of_hdr (Fields.hdr_error_of_setf h1 h2))

/-! ### Slots and branch targets -/

/-- The slots of a packet stand 8, 16 and 24 bytes on, and the next packet's first 40. -/
theorem nextSlot_of_base {base : DWord} (hb : base.toNat % 32 = 0) :
    nextSlot (base + 8) = base + 16 ∧ nextSlot (base + 16) = base + 24 ∧ nextSlot (base + 24) = base + 40 := by
  have h8 : (base + 8).toNat % 32 = 8 := by bv_omega
  have h16 : (base + 16).toNat % 32 = 16 := by bv_omega
  have h24 : (base + 24).toNat % 32 = 24 := by bv_omega
  refine ⟨?_, ?_, ?_⟩
  · rw [nextSlot, h8]; simp [BitVec.add_assoc]
  · rw [nextSlot, h16]; simp [BitVec.add_assoc]
  · rw [nextSlot, h24]; simp [BitVec.add_assoc]

theorem slotOf_of_base {base : DWord} (hb : base.toNat % 32 = 0) :
    slotOf (base + 8) = 0 ∧ slotOf (base + 16) = 1 ∧ slotOf (base + 24) = 2 := by
  have h8 : (base + 8).toNat % 32 = 8 := by bv_omega
  have h16 : (base + 16).toNat % 32 = 16 := by bv_omega
  have h24 : (base + 24).toNat % 32 = 24 := by bv_omega
  simp only [slotOf, h8, h16, h24]
  decide

/-- A slot's number in its packet puts it at 8, 16 or 24 bytes: R55's target is a slot address wherever it is one. -/
theorem slotAddr_of_branchTarget {pc : DWord} {off : BitVec 29} {a : DWord} (h : (a.toNat : Int) = branchTarget pc off) :
    slotAddr a = true := by
  simp only [branchTarget] at h
  have : a.toNat % 32 = 8 ∨ a.toNat % 32 = 16 ∨ a.toNat % 32 = 24 := by omega
  simpa [slotAddr, or_assoc] using this

/-- Where BRA goes: its target, a canonical slot address, or 0x06 where the target is outside the canonical range. -/
theorem brTarget_cases (pc : DWord) (off : BitVec 29) :
    (∃ a : DWord, brTarget pc off = .ok a ∧ (a.toNat : Int) = branchTarget pc off ∧ canonicalVa a.toNat = true) ∨
    (∃ f, brTarget pc off = .error f ∧ f.code = 0x06 ∧
      ¬ (0 ≤ branchTarget pc off ∧ branchTarget pc off < 2 ^ 64 ∧ canonicalVa (branchTarget pc off).toNat = true)) := by
  unfold brTarget
  generalize branchTarget pc off = t
  simp only [Bool.and_eq_true, decide_eq_true_eq]
  by_cases hc : (0 ≤ t ∧ t < 2 ^ 64) ∧ canonicalVa t.toNat = true
  · obtain ⟨⟨h0, h1⟩, h2⟩ := hc
    have hn : (w64 t.toNat).toNat = t.toNat := by
      rw [w64, BitVec.toNat_ofNat, Nat.mod_eq_of_lt (by omega)]
    refine .inl ⟨_, if_pos ⟨⟨h0, h1⟩, h2⟩, ?_, ?_⟩
    · rw [hn]; omega
    · rw [hn]; exact h2
  · exact .inr ⟨_, if_neg hc, rfl, fun h => hc ⟨⟨h.1, h.2.1⟩, h.2.2⟩⟩

/-- Settles O23, from the addresses of a packet's slots and the two answers of BRA's target. -/
theorem slotsAndBranchTargets : Obligations.SlotsAndBranchTargets := by
  refine ⟨fun base hb => ?_, fun pc off _ => ?_⟩
  · obtain ⟨h0, h1, h2⟩ := nextSlot_of_base hb
    exact ⟨h0, h1, h2, slotOf_of_base hb⟩
  · rcases brTarget_cases pc off with ⟨a, ha, ht, hc⟩ | ⟨f, hf, h6, hn⟩
    · rw [ha]; exact ⟨ht, slotAddr_of_branchTarget ht, hc⟩
    · rw [hf]; exact ⟨h6, hn⟩

end Sys2Proof.Machine
end

section
/-!
The issue of a word whose guard is true in no thread of its group (R50).
-/
namespace Sys2Proof.Machine

/-- What the issue begins with changes no thread and no name. -/
theorem began_thread (i : Instr) (h : Hdr) (s : State) (g : Group) (t : Tid) : (began i h s g).thread t = s.thread t := by
  rw [began_rest]; rfl

theorem began_laneCell (i : Instr) (h : Hdr) (s : State) (g : Group) (t : Tid) (p : Pos) :
    (began i h s g).laneCell t p = s.laneCell t p := by
  rw [began_rest]; rfl

/-- A thread whose guard is false comes out of the lanes as the issue leaves it. -/
theorem stamp_passed {f : Form} {exec : List Tid} {seq : Nat} {s : State} {t : Tid} (th : Thread) (ht : t ∉ exec) :
    stamp f exec seq s t th = passedThread f.i { s with ctr := seq } t th := by
  simp only [stamp, passedThread, heldFor, List.contains_eq_mem, ht, decide_false, Bool.false_eq_true, if_false, Bool.false_and]
  rfl

/-- The notes that every issue makes of its group's threads (their cycle, what holds them, the slot after a false guard) change no
name, and nothing else of the machine. -/
theorem stamps_facts (f : Form) (exec : List Tid) (seq : Nat) {ts : List Tid} (hn : ts.Nodup) (s : State) :
    let s' := ts.foldl (fun s t => s.modThread t (stamp f exec seq s t)) s
    (∀ u, s'.thread u = if u ∈ ts then (s.thread u).map (stamp f exec seq s u) else s.thread u) ∧
    s' = { s with threads := s'.threads } ∧ ∀ u p, s'.laneCell u p = s.laneCell u p := by
  obtain ⟨h1, h2⟩ := thread_foldl_modThread (stamp f exec seq) (fun s t x k => by rw [State.modThread_rest]; rfl) ts s hn
  refine ⟨h1, h2, laneCell_threads (by rw [h2]) fun u => ?_⟩
  rw [h1]
  split
  · cases s.thread u <;> rfl
  · rfl

/-- Where no thread executes, the group's slot comes to the notes on its threads alone. -/
theorem issue_nobody {f : Form} {s : State} {g : Group} (hfi : Fires f.i s g) (hfr : Free f.i f.h s g)
    (hden : ∀ t ∈ g.mem, f.denied t = false) (hex : executing f.h s g = []) (hcr : f.crowd { s with issuing := none } [] = false)
    (hafter : ∀ e x, e.exec = [] → f.after e x = x) :
    issue f s = regroup (g.mem.foldl (fun x t => x.modThread t (stamp f [] s.ctr x t))
      (placeCells (began f.i f.h s g) (began f.i f.h s g) f.i g [])) g := by
  obtain ⟨t, ts, hm, -⟩ := hfi.lead
  have hhold : formHolds f { s with issuing := none } (executing f.h s g) = false := by
    rw [hex]; simp [formHolds, hcr]
  have hdeny : (executing f.h s g).any (laneDenied f (envOf f.i f.h s g)) = false := by rw [hex]; rfl
  have hnone : (envOf f.i f.h s g).exec = [] := hex
  rw [issue_lanes hfi (hden t (by rw [hm]; exact List.mem_cons_self)) hm, issueLanes_free hm hfr hhold hdeny,
    finishLanes_run (wholeBad_nil (.inr fun u hu => by rw [hnone] at hu; cases hu))]
  simp only [runLanes_eq, hnone, laneFold, List.foldl_nil, List.filter_nil, takeFaults, hafter _ _ hnone]
  rfl

/-- Settles O22: no lane runs, so that only the threads' records, the cells of the names and the notes of the issue change. -/
theorem falseGuardOnlyAdvances : Obligations.FalseGuardOnlyAdvances := by
  rintro i f rfl he s g hfi hfr hden hex hcr hafter
  obtain ⟨t0, ts0, hm, -⟩ := hfi.lead
  have hmem0 : t0 ∈ g.mem := by rw [hm]; exact List.mem_cons_self
  have hb := began_rest f.i f.h s g
  obtain ⟨p1, p2⟩ := placeCells_facts (began f.i f.h s g) f.i g [] (began f.i f.h s g)
  obtain ⟨sp, hsp⟩ : ∃ sp, sp = placeCells (began f.i f.h s g) (began f.i f.h s g) f.i g [] := ⟨_, rfl⟩
  rw [← hsp] at p1 p2
  obtain ⟨t1, t2, t3⟩ := stamps_facts f [] s.ctr hfi.nodup sp
  obtain ⟨s2, hs2⟩ : ∃ s2, s2 = g.mem.foldl (fun x t => x.modThread t (stamp f [] s.ctr x t)) sp := ⟨_, rfl⟩
  rw [← hs2] at t1 t2 t3
  have hrest : s2 = { s with issuing := none, ctr := s.ctr + 1, threads := s2.threads, cells := s2.cells, cores := (began f.i f.h s g).cores,
                             pipes := (usePipe s f.i g).pipes, groups := s.groups ++ g.after } := by
    rw [t2, p1, hb]
  have hspt : ∀ t, sp.thread t = s.thread t := fun t => by rw [p1]; exact began_thread f.i f.h s g t
  have hpassed : ∀ t ∈ g.mem, ∀ th, s.thread t = some th → s2.thread t = some (passedThread f.i s t th) := by
    intro t ht th hth
    rw [t1, if_pos ht, hspt, hth, Option.map_some, stamp_passed th (by simp), p1, hb]
    rfl
  have hgo : regroup s2 g = { s2 with groups := s2.groups ++ [goesOn g] } := by
    have hpass : ∀ t ∈ g.mem, ∃ th, s.thread t = some th ∧ th.status = .running ∧ s2.thread t = some (passedThread f.i s t th) := by
      intro t ht
      obtain ⟨th, hth, hrun⟩ := hfi.threads t ht
      exact ⟨th, hth, hrun, hpassed t ht th hth⟩
    refine regroup_same (pc := nextSlot (s.pcOf t0)) (by simp [hm]) (fun t ht => ?_) (fun t ht => ?_) (fun t ht => ?_) <;>
      obtain ⟨th, hth, hrun, hp⟩ := hpass t ht
    · simp [running, hp, passedThread, hrun]
    · rw [← hfi.onePc t ht t0 hmem0]
      simp [State.pcOf, hp, hth, passedThread]
    · simp [cameIn, hp, passedThread]
  refine ⟨_, he s, ?_⟩
  rw [issue_nobody hfi hfr hden hex hcr hafter, ← hsp, ← hs2, hgo]
  refine ⟨?_, fun c => ?_, hpassed, fun t ht => ?_, fun t p => State.readPos_congr ?_⟩
  · rw [hrest]
  · have : s2.cores = (began f.i f.h s g).cores := by rw [hrest]
    have hc : State.core { s2 with groups := s2.groups ++ [goesOn g] } c = (began f.i f.h s g).core c := by
      simp only [State.core, this]
    rw [hc]; exact began_core f.i f.h s g c
  · show s2.thread t = s.thread t
    rw [t1, if_neg ht, hspt]
  · exact (t3 t p).trans ((p2 t p).trans (began_laneCell f.i f.h s g t p))

end Sys2Proof.Machine
end

section
/-!
A lane of a register-only form in a group of one thread: the faults that its operands and its result come to (R27, R61, R117).
-/
namespace Sys2Proof.Machine

theorem began_readOps (i : Instr) (h : Hdr) (s : State) (g : Group) (t : Tid) (th : Thread) (ops : List SrcOp) :
    readOps (began i h s g) t th ops = readOps s t th ops := by
  rw [began_rest]; rfl

theorem began_flagsOf (i : Instr) (h : Hdr) (s : State) (g : Group) (t : Tid) (th : Thread) :
    (began i h s g).flagsOf t th = s.flagsOf t th := by
  rw [began_rest]; rfl

theorem began_voidTrap (i : Instr) (h : Hdr) (s : State) (g : Group) (t : Tid) (th : Thread) :
    (began i h s g).voidTrap t th = s.voidTrap t th := by
  simp only [State.voidTrap, began_flagsOf]

theorem began_enables (i : Instr) (h : Hdr) (s : State) (g : Group) (t : Tid) (th : Thread) :
    (began i h s g).enables t th = s.enables t th := by
  simp only [State.enables, began_flagsOf]

theorem stoppedThread_began (i : Instr) (h : Hdr) (s : State) (g : Group) (t : Tid) (y : Thread) :
    stoppedThread i { began i h s g with ctr := s.ctr } t y = stoppedThread i s t y := by
  rw [began_rest]; rfl

/-- A form that no number a lane reads makes privileged. -/
theorem laneDenied_false {f : Form} (h : ∀ t vs, f.deny t vs = false) (env : Env) (t : Tid) : laneDenied f env t = false := by
  unfold laneDenied
  split
  · simp [h]
  · rfl

theorem alu_reads (i : Instr) (h : Hdr) (lat : Lat) (F : List (List Word) → Res) (s : State) (g : Group) (t : Tid) (th : Thread) :
    (alu i h lat F).reads (envOf i h s g) t th = readOps s t th i.srcs := began_readOps i h s g t th i.srcs

section
variable {i : Instr} {h : Hdr} {lat : Lat} {F : List (List Word) → Res} {s s1 : State} {g : Group} {t : Tid} {th y : Thread} {b : Flt}

/-- Where the lane of a register-only form stops, the thread takes its fault at the slot. -/
theorem alu_stops (hg : Solo i h s g t th)
    (hl : laneIssue (alu i h lat F) (envOf i h s g) (began i h s g) t = (s1, some b)) (h1 : s1.thread t = some y) :
    issue (alu i h lat F) s = regroup (takeFaults [(t, b)] th.pc s.ctr
      ((placeCells (began i h s g) s1 i g []).setThread t (stoppedThread i { s1 with ctr := s.ctr } t y))) g :=
  issue_stops (f := alu i h lat F) hg rfl (laneDenied_false (fun _ _ => rfl) _ _) rfl rfl rfl hl h1

/-- A void operand under VOIDTRAP stops the lane before its other operands' faults. -/
theorem laneIssue_void (ht : s.thread t = some th) (hv : (readOps s t th i.srcs).any (·.void) = true) (hx : s.voidTrap t th = true) :
    laneIssue (alu i h lat F) (envOf i h s g) (began i h s g) t = (began i h s g, some { code := 0x09 }) := by
  unfold laneIssue
  simp only [began_thread, ht, alu_reads, began_voidTrap, hv, hx]
  rfl

/-- The first operand that faults stops the lane. -/
theorem laneIssue_bad (ht : s.thread t = some th) (hv : (readOps s t th i.srcs).any (·.void) = true → s.voidTrap t th = false)
    (hb : ((readOps s t th i.srcs).filterMap (·.bad)).head? = some b) :
    laneIssue (alu i h lat F) (envOf i h s g) (began i h s g) t = (began i h s g, some b) := by
  have hvt : ((readOps s t th i.srcs).any (·.void) && s.voidTrap t th) = false := by
    cases e : (readOps s t th i.srcs).any (·.void)
    · rfl
    · rw [hv e]; rfl
  unfold laneIssue
  simp only [began_thread, ht, alu_reads, began_voidTrap, hvt, hb]
  rfl

/-- A lane whose operands hold values comes to its result (R61). -/
theorem laneIssue_alu (ht : s.thread t = some th) (hv : (readOps s t th i.srcs).any (·.void) = false)
    (hb : ∀ o ∈ readOps s t th i.srcs, o.bad = none) :
    laneIssue (alu i h lat F) (envOf i h s g) (began i h s g) t =
      laneRun (alu i h lat F) (envOf i h s g) (began i h s g) t th ((readOps s t th i.srcs).map (·.words)) := by
  have hbad : (readOps s t th i.srcs).filterMap (·.bad) = [] := List.filterMap_eq_nil_iff.2 hb
  unfold laneIssue
  simp only [began_thread, ht, alu_reads, hv, hbad]
  rfl

/-- A result whose exception is trapped stops the lane once its FPST bits are set. -/
theorem laneRun_trap {vs : List (List Word)} (ht : s.thread t = some th) (hd : ∀ k w, i.dst ≠ some (.s k, w)) (hf : (F vs).fault = none)
    (hx : fpTraps (s.enables t th) (F vs).fl = true) :
    laneRun (alu i h lat F) (envOf i h s g) (began i h s g) t th vs =
      ((began i h s g).setThread t { th with fpst := th.fpst ||| (F vs).fl }, some { code := 0x1F, flags := (F vs).fl.toNat }) := by
  have hp : wordPush i (began i h s g) t th = (began i h s g, none) := by unfold wordPush; rw [pushTo_none hd]
  unfold laneRun
  simp only [alu, hp, hf, began_enables, hx, if_true, State.modThread, began_thread, ht]

end

/-- Settles O26: each fault ends the lane where R61's order finds it, and the thread takes it at its slot. -/
theorem operandFaultsStopTheLane : Obligations.OperandFaultsStopTheLane := by
  intro i h lat F he s g t th hg rs stops
  have ht := hg.thread
  have hbt : (began i h s g).thread t = some th := (began_thread i h s g t).trans ht
  have hbegan : ∀ b, laneIssue (alu i h lat F) (envOf i h s g) (began i h s g) t = (began i h s g, some b) →
      stops (began i h s g) b th := by
    intro b hl
    show exec i s = _
    rw [he, alu_stops hg hl hbt, stoppedThread_began]
  refine ⟨fun hv hx => hbegan _ (laneIssue_void ht hv hx), fun b hv hb => hbegan b (laneIssue_bad ht hv hb), ?_⟩
  intro hv hb hf hx fl y
  have hl := (laneIssue_alu (lat := lat) (F := F) (h := h) (g := g) ht hv hb).trans (laneRun_trap ht hg.plainDst hf hx)
  show exec i s = _
  rw [he, alu_stops hg hl (State.thread_setThread _ _ _)]
  have hst : stoppedThread i { (began i h s g).setThread t y with ctr := s.ctr } t y = stoppedThread i s t y := stoppedThread_began i h s g t y
  rw [hst]

end Sys2Proof.Machine
end

section
/-!
A register-only form whose destination is a store stream (R269, R334): the check of its element, the push, and the issue in a group
of one thread.
-/
namespace Sys2Proof.Machine

/-! ### A translated access (R243, R351) -/

theorem serveMiss_rest (s : State) (d : Nat) : serveMiss s d = { s with dies := (serveMiss s d).dies } := by
  unfold serveMiss
  split
  · rfl
  · simp only
    split <;> rfl

theorem enterMiss_rest (s : State) (d ctx va : Nat) (base : Bool) :
    enterMiss s d ctx va base = { s with dies := (enterMiss s d ctx va base).dies } := by
  unfold enterMiss
  simp only
  split
  · rfl
  · rw [serveMiss_rest]; rfl

theorem leafFor_rest (s : State) (t : Tid) (ctx va : Nat) :
    (leafFor s t ctx va).1 = { s with cores := (leafFor s t ctx va).1.cores, dies := (leafFor s t ctx va).1.dies } := by
  unfold leafFor
  simp only
  split
  · split
    · rfl
    · split
      · rfl
      · rw [enterMiss_rest]
  · split
    · rfl
    · rw [enterMiss_rest]

/-- The checks of an access change no more than its translation does. -/
theorem checkAccess_fst (s : State) (t : Tid) (ctx va w : Nat) (need : Need) (atomic : Bool) :
    (checkAccess s t ctx va w need atomic).1 = s ∨ (checkAccess s t ctx va w need atomic).1 = (leafFor s t ctx va).1 := by
  unfold checkAccess
  split
  · exact .inl rfl
  · right
    rcases leafFor s t ctx va with ⟨s1, _ | ⟨size, leaf⟩⟩
    · rfl
    · dsimp only
      (repeat' split) <;> rfl

theorem checkAccess_rest {s s1 : State} {t : Tid} {ctx va w : Nat} {need : Need} {atomic : Bool} {e : Except Nat Phys}
    (h : checkAccess s t ctx va w need atomic = (s1, e)) : s1 = { s with cores := s1.cores, dies := s1.dies } := by
  have h1 : (checkAccess s t ctx va w need atomic).1 = s1 := by rw [h]
  rcases checkAccess_fst s t ctx va w need atomic with hs | hl
  · rw [← h1, hs]
  · rw [← h1, hl]; exact leafFor_rest s t ctx va

/-! ### A stream as destination -/

theorem pos_of_stream (th : Thread) (k : Fin 4) (n : Nat) : (nameGroup (.s k) n).filterMap th.pos = [] := by
  rw [List.filterMap_eq_nil_iff]
  intro x hx
  obtain ⟨j, -, rfl⟩ := List.mem_map.1 hx
  rfl

section
variable {i : Instr} {k : Fin 4} {n : Nat} (hd : i.dst = some (.s k, n))
include hd

/-- A stream is no name: the word writes none. -/
theorem dstPos_of_stream (th : Thread) : dstPos i th = [] := by
  unfold dstPos
  rw [hd]
  exact pos_of_stream th k n

theorem pushTo_of_stream : pushTo i = some k := by unfold pushTo; rw [hd]

theorem placeCells_of_stream (pre s : State) (g : Group) (ts : List Tid) : placeCells pre s i g ts = s := by
  have hk : dstKeys pre i g = [] := by
    unfold dstKeys quadKeys
    rw [List.flatMap_eq_nil_iff.2 fun t _ => ?_]
    · rfl
    · split
      · rw [dstPos_of_stream hd]; rfl
      · rfl
  unfold placeCells
  rw [hk]; rfl

end

/-! ### The check of a push -/

section
variable {s s1 : State} {t : Tid} {th : Thread} {k : Fin 4} {w : Walker}

/-- With no walker bound, or none of its elements left, a push stops with 0x0F (R269). -/
theorem pushCheck_none (h : ∀ w, th.stores.get k.val = some w → w.total ≤ w.next) :
    pushCheck s t th k = (s, some { code := 0x0F }) := by
  unfold pushCheck
  split
  · rfl
  · next w hw => rw [if_pos (h w hw)]

theorem pushCheck_error (hw : th.stores.get k.val = some w) (hn : w.next < w.total) {e : Nat}
    (hc : checkAccess s t th.ctx (w.addr w.next).toNat w.ty.bytes .write false = (s1, .error e)) :
    pushCheck s t th k = (s1, some { code := e, addr := w.addr w.next, progress := w.next, engine := 3 }) := by
  unfold pushCheck
  simp only [hw, hc]
  rw [if_neg (by omega)]

theorem pushCheck_ok (hw : th.stores.get k.val = some w) (hn : w.next < w.total) {p : Phys}
    (hc : checkAccess s t th.ctx (w.addr w.next).toNat w.ty.bytes .write false = (s1, .ok p))
    (hp : p.kind = .device → w.ty.bytes = 4) : pushCheck s t th k = (s1, none) := by
  have hdev : (p.kind == .device && w.ty.bytes != 4) = false := by
    cases hk : p.kind <;> simp_all
  unfold pushCheck
  simp only [hw, hc, hdev]
  rw [if_neg (by omega)]
  rfl

end

/-! ### What the push leaves -/

/-- A thread of a form with a stream destination as its lane leaves it: the element is the walker's last push. -/
def pushedThread (f : Form) (env : Env) (s : State) (t : Tid) (th x : Thread) (r : Res) (k : Fin 4) (w : Walker) : Thread :=
  { x with
    pc := r.next.getD (nextSlot th.pc), outs := x.outs ++ [outFor f.i f.h f.lat { s with ctr := env.seq } t th r],
    predPend := r.preds.foldl (fun m e => if e.1 == 7 then m else m.set e.1 env.seq) x.predPend,
    stores := x.stores.set k.val (w.push (r.out.headD 0) (if r.yetToCome then some env.seq else none)),
    loads := popLoads x.loads f.i.srcs, entered := r.next.isSome }

/-- What a lane that completes leaves, when its destination is a stream. -/
structure LanePushed (f : Form) (env : Env) (s : State) (t : Tid) (th x : Thread) (r : Res) (k : Fin 4) (w : Walker) (s' : State) :
    Prop where
  rest : s' = { s with cells := s'.cells, threads := s'.threads }
  self : s'.thread t = some (pushedThread f env s t th x r k w)
  others : ∀ u, u ≠ t → s'.thread u = s.thread u
  names : ∀ u p, (u = t → p ∉ lastPos f.i t th) → s'.readPos u p = s.readPos u p

theorem laneDone_push {f : Form} {env : Env} {s : State} {t : Tid} {th x : Thread} {r : Res} {k : Fin 4} {n : Nat} {w : Walker}
    (hd : f.i.dst = some (.s k, n)) (hx : s.thread t = some x) (hw : x.stores.get k.val = some w) :
    LanePushed f env s t th x r k w (laneDone f env s t th r) := by
  obtain ⟨s1, hs1⟩ : ∃ s1, s1 = lanePush f env s t r := ⟨_, rfl⟩
  have h1 : s1 = s.setThread t { x with
      stores := x.stores.set k.val (w.push (r.out.headD 0) (if r.yetToCome then some env.seq else none)) } := by
    rw [hs1, lanePush, pushTo_of_stream hd]
    simp only [pushStream, State.modThread, hx, hw]
  obtain ⟨m1, m2, m3⟩ := State.markLast_facts t th f.i.srcs s1
  obtain ⟨s2, hs2⟩ : ∃ s2, s2 = markLast s1 t th f.i.srcs := ⟨_, rfl⟩
  rw [← hs2] at m1 m2 m3
  obtain ⟨s3, hs3⟩ : ∃ s3, s3 = popStreams s2 t f.i.srcs := ⟨_, rfl⟩
  have hrest3 : s3 = { s with cells := s3.cells, threads := s3.threads } := by
    rw [hs3, popStreams, State.modThread_rest, m2, h1]; rfl
  have hout : f.outOf s3 t th env.seq r = outFor f.i f.h f.lat { s with ctr := env.seq } t th r := by
    rw [outOf_eq, hrest3]; rfl
  have hdone : laneDone f env s t th r = (addOut s3 t (outFor f.i f.h f.lat { s with ctr := env.seq } t th r)).modThread t
      (fun x => { x with pc := r.next.getD (nextSlot th.pc), entered := r.next.isSome }) := by
    simp only [laneDone, dstPos_of_stream hd, ite_self, writeDst, List.foldl_nil, ← hs1, ← hs2, ← hs3, hout]
  obtain ⟨s', hs'⟩ : ∃ s', s' = laneDone f env s t th r := ⟨_, rfl⟩
  rw [← hs'] at hdone ⊢
  have hlane1 : ∀ u p, s1.laneCell u p = s.laneCell u p := by
    refine laneCell_threads (by rw [h1]; rfl) fun u => ?_
    by_cases hu : t = u
    · subst hu; rw [h1, State.thread_setThread, hx]; rfl
    · rw [h1, State.thread_setThread_ne _ _ hu]
  have hlane : ∀ u p, s'.laneCell u p = s2.laneCell u p := by
    intro u p
    rw [hdone, addOut, hs3, popStreams]
    refine (State.laneCell_modThread _ t _ ?_ u p).trans ((State.laneCell_modThread _ t _ ?_ u p).trans
      (State.laneCell_modThread s2 t _ ?_ u p)) <;> intro y <;> rfl
  refine { rest := ?_, self := ?_, others := ?_, names := ?_ }
  · rw [hdone, addOut, State.modThread_rest, State.modThread_rest, hrest3]
  · rw [hdone, addOut, hs3, popStreams]
    simp only [State.thread_modThread, if_true, m1, h1, State.thread_setThread, Option.map_some]
    rfl
  · intro u hu
    have hu' : ¬ t = u := fun h => hu h.symm
    rw [hdone, addOut, hs3, popStreams]
    simp only [State.thread_modThread, if_neg hu', m1]
    rw [h1, State.thread_setThread_ne _ _ hu']
  · intro u p hu
    rw [State.readPos_congr (hlane u p), m3, if_neg, State.readPos_congr (hlane1 u p)]
    rintro ⟨rfl, hc, hp⟩
    exact hu rfl (by rw [lastPos, if_pos hc]; exact hp)

/-! ### The issue in a group of one thread, whatever its destination -/

/-- A group of one thread whose guard is true: what its lane comes to, with no condition on the word's destination. -/
theorem issue_alone {f : Form} {s s2 : State} {g : Group} {t : Tid} {th : Thread} {o : Option Flt} (hfi : Fires f.i s g)
    (hfr : Free f.i f.h s g) (hm : g.mem = [t]) (ht : s.thread t = some th) (hon : guardOn f.h th = true) (hden : f.denied t = false)
    (hdeny : ∀ t vs, f.deny t vs = false) (hst : formHolds f { s with issuing := none } [t] = false) (hw : f.whole = false)
    (e2 : laneIssue f (envOf f.i f.h s g) (began f.i f.h s g) t = (s2, o)) :
    let sp := placeCells (began f.i f.h s g) s2 f.i g (if o.isSome then [] else [t])
    issue f s = f.after (envOf f.i f.h s g) (regroup (takeFaults (o.toList.map fun b => (t, b)) th.pc s.ctr
      (sp.modThread t (stoppedThread f.i { sp with ctr := s.ctr } t))) g) := by
  intro sp
  have hexe : executing f.h s g = [t] := by
    unfold executing
    simp only [hm, List.filter_cons, ht, hon, if_true, List.filter_nil]
    rfl
  have hpc : s.pcOf t = th.pc := by simp only [State.pcOf, ht]
  have hd : (executing f.h s g).any (laneDenied f (envOf f.i f.h s g)) = false := by
    rw [hexe]; simp [laneDenied_false hdeny]
  have hex : (envOf f.i f.h s g).exec = [t] := hexe
  have hstamp : ∀ x : State, x.modThread t (stamp f [t] s.ctr x t) = x.modThread t (stoppedThread f.i { x with ctr := s.ctr } t) :=
    fun x => congrArg (x.modThread t) (funext fun y => stamp_one f t s.ctr x y)
  rw [issue_lanes hfi hden hm, issueLanes_free hm hfr (by rw [hexe]; exact hst) hd, hpc, finishLanes_run (wholeBad_nil (.inl hw))]
  simp only [runLanes_eq, hex, laneFold, List.foldl_cons, List.foldl_nil, e2, hm]
  cases o with
  | none => simp only [List.filter_cons, List.any_nil, Bool.not_false, if_true, List.filter_nil]; rw [← hstamp]; rfl
  | some b =>
    simp only [List.nil_append, List.filter_cons, List.any_cons, beq_self_eq_true, List.any_nil, Bool.or_false, Bool.not_true,
      Bool.false_eq_true, if_false, List.filter_nil]
    rw [← hstamp]; rfl

section
variable {i : Instr} {h : Hdr} {lat : Lat} {F : List (List Word) → Res} {s s1 : State} {g : Group} {t : Tid} {th : Thread} {k : Fin 4} {n : Nat}

/-- A register-only form never stalls of itself. -/
theorem alu_formHolds (i : Instr) (h : Hdr) (lat : Lat) (F : List (List Word) → Res) (s : State) (t : Tid) :
    formHolds (alu i h lat F) s [t] = false := by
  simp only [formHolds, alu, List.any_cons, List.any_nil, Bool.or_false, Bool.false_or]
  split <;> rfl

/-- A push whose check fails stops the lane before it executes. -/
theorem laneRun_pushBad {vs : List (List Word)} {b : Flt} (hd : i.dst = some (.s k, n))
    (hp : pushCheck (began i h s g) t th k = (s1, some b)) :
    laneRun (alu i h lat F) (envOf i h s g) (began i h s g) t th vs = (s1, some b) := by
  have hw : wordPush i (began i h s g) t th = (s1, some b) := by unfold wordPush; rw [pushTo_of_stream hd]; exact hp
  unfold laneRun
  simp only [alu, hw]

/-- A push whose check passes: the lane completes where its result neither faults nor is trapped. -/
theorem laneRun_pushOk {vs : List (List Word)} (hd : i.dst = some (.s k, n)) (hp : pushCheck (began i h s g) t th k = (s1, none))
    (hf : (F vs).fault = none) (hx : fpTraps (s1.enables t th) (F vs).fl = false) :
    laneRun (alu i h lat F) (envOf i h s g) (began i h s g) t th vs = (laneDone (alu i h lat F) (envOf i h s g) s1 t th (F vs), none) := by
  have hw : wordPush i (began i h s g) t th = (s1, none) := by unfold wordPush; rw [pushTo_of_stream hd]; exact hp
  unfold laneRun
  simp only [alu, hw, hf, hx]
  rfl

variable (hfi : Fires i s g) (hfr : Free i h s g) (hm : g.mem = [t]) (ht : s.thread t = some th) (hon : guardOn h th = true)
  (hd : i.dst = some (.s k, n)) (hv : (readOps s t th i.srcs).any (·.void) = false) (hb : ∀ o ∈ readOps s t th i.srcs, o.bad = none)
include hfi hfr hm ht hon hd hv hb

/-- A register-only form whose push fails its check stops its thread at the slot. -/
theorem alu_pushStops {b : Flt} (h1 : s1 = { began i h s g with cores := s1.cores, dies := s1.dies })
    (hp : pushCheck (began i h s g) t th k = (s1, some b)) :
    issue (alu i h lat F) s = regroup (takeFaults [(t, b)] th.pc s.ctr (s1.setThread t (stoppedThread i s t th))) g := by
  have hl : laneIssue (alu i h lat F) (envOf i h s g) (began i h s g) t = (s1, some b) :=
    (laneIssue_alu ht hv hb).trans (laneRun_pushBad hd hp)
  have h1t : s1.thread t = some th := by rw [h1]; exact (began_thread i h s g t).trans ht
  have hsp : placeCells (began i h s g) s1 i g [] = s1 := placeCells_of_stream hd _ _ _ _
  have hstop : stoppedThread i { s1 with ctr := s.ctr } t th = stoppedThread i s t th := by
    rw [h1, ← stoppedThread_began i h s g]; rfl
  have hi := issue_alone (f := alu i h lat F) hfi hfr hm ht hon rfl (fun _ _ => rfl) (alu_formHolds ..) rfl hl
  rw [hi]
  show regroup (takeFaults [(t, b)] th.pc s.ctr ((placeCells (began i h s g) s1 i g []).modThread t
    (stoppedThread i { placeCells (began i h s g) s1 i g [] with ctr := s.ctr } t))) g = _
  rw [hsp]
  simp only [State.modThread, h1t, hstop]

/-- A register-only form whose push passes its check leaves its element in the walker, and its group goes on. -/
theorem alu_pushes {w : Walker} (h1 : s1 = { began i h s g with cores := s1.cores, dies := s1.dies })
    (hp : pushCheck (began i h s g) t th k = (s1, none)) (hw : th.stores.get k.val = some w)
    (hf : (F ((readOps s t th i.srcs).map (·.words))).fault = none)
    (hx : fpTraps (s.enables t th) (F ((readOps s t th i.srcs).map (·.words))).fl = false) :
    let r := F ((readOps s t th i.srcs).map (·.words))
    let s' := issue (alu i h lat F) s
    s'.thread t = some (stoppedThread i s t (pushedThread (alu i h lat F) (envOf i h s g) s1 t th th r k w)) ∧
      (∀ u, u ≠ t → s'.thread u = s.thread u) ∧ (∀ u p, (u = t → p ∉ lastPos i t th) → s'.readPos u p = s.readPos u p) ∧
      s'.mem = s.mem := by
  intro r s'
  have hbr := began_rest i h s g
  have hen : s1.enables t th = s.enables t th := by rw [h1, ← began_enables i h s g]; rfl
  have h1t : ∀ u, s1.thread u = s.thread u := fun u => by rw [h1]; exact began_thread i h s g u
  have hl := (laneIssue_alu (lat := lat) (F := F) (h := h) (g := g) ht hv hb).trans (laneRun_pushOk hd hp hf (by rw [hen]; exact hx))
  have hld := laneDone_push (f := alu i h lat F) (env := envOf i h s g) (th := th) (r := r) hd ((h1t t).trans ht) hw
  obtain ⟨s2, hs2⟩ : ∃ s2, s2 = laneDone (alu i h lat F) (envOf i h s g) s1 t th r := ⟨_, rfl⟩
  rw [← hs2] at hl hld
  have hsp : placeCells (began i h s g) s2 i g [t] = s2 := placeCells_of_stream hd _ _ _ _
  have hi : s' = regroup (s2.modThread t (stoppedThread i { s2 with ctr := s.ctr } t)) g := by
    have := issue_alone (f := alu i h lat F) hfi hfr hm ht hon rfl (fun _ _ => rfl) (alu_formHolds ..) rfl hl
    simp only [Option.isSome_none, Bool.false_eq_true, if_false, Option.toList_none, List.map_nil] at this
    rw [show (alu i h lat F).i = i from rfl, show (alu i h lat F).h = h from rfl, hsp] at this
    exact this
  have hstop : ∀ y, stoppedThread i { s2 with ctr := s.ctr } t y = stoppedThread i s t y := by
    intro y
    rw [hld.rest, h1, ← stoppedThread_began i h s g]; rfl
  obtain ⟨s3, hs3⟩ : ∃ s3, s3 = s2.modThread t (stoppedThread i { s2 with ctr := s.ctr } t) := ⟨_, rfl⟩
  rw [← hs3] at hi
  have h3t : s3.thread t = some (stoppedThread i s t (pushedThread (alu i h lat F) (envOf i h s g) s1 t th th r k w)) := by
    rw [hs3, State.thread_modThread, if_pos rfl, hld.self, Option.map_some, hstop]
  have h3l : ∀ u p, s3.laneCell u p = s2.laneCell u p := by
    intro u p
    rw [hs3]
    refine State.laneCell_modThread s2 t _ ?_ u p
    intro y; rfl
  have hgo : ∃ gs, s' = { s3 with groups := gs } := by
    rw [hi, regroup_one hm h3t]
    split
    · exact ⟨_, rfl⟩
    · exact ⟨_, rfl⟩
  obtain ⟨gs, hgs⟩ := hgo
  rw [hgs]
  refine ⟨h3t, fun u hu => ?_, fun u p hu => ?_, ?_⟩
  · show s3.thread u = _
    rw [hs3, State.thread_modThread, if_neg (fun e => hu e.symm), hld.others u hu, h1t]
  · have h2 : s3.readPos u p = s1.readPos u p := (State.readPos_congr (h3l u p)).trans (hld.names u p hu)
    have h3 : s1.readPos u p = s.readPos u p := by
      refine State.readPos_congr ?_
      rw [h1]; exact began_laneCell i h s g u p
    exact h2.trans h3
  · show s3.mem = s.mem
    rw [hs3, State.modThread_rest, hld.rest, h1, hbr]

end

/-- Settles O27: the check of the element decides between the push and the stop. -/
theorem streamDestinationsPush : Obligations.StreamDestinationsPush := by
  intro i h lat F he s g t th k n hfi hfr hm ht hon hd rs r stops hb hv hf hx
  have hstop : ∀ s1 b, s1 = { began i h s g with cores := s1.cores, dies := s1.dies } →
      pushCheck (began i h s g) t th k = (s1, some b) → stops s1 b := by
    intro s1 b h1 hp
    show exec i s = _
    rw [he, alu_pushStops hfi hfr hm ht hon hd hv hb h1 hp]
  refine ⟨fun w hw hn => ⟨fun s1 p hc hdev => ?_, fun s1 e hc => ?_⟩, fun hw => ?_⟩
  · obtain ⟨hself, hoth, hnam, hmem⟩ := alu_pushes (lat := lat) (F := F) hfi hfr hm ht hon hd hv hb (checkAccess_rest hc)
      (pushCheck_ok hw hn hc hdev) hw hf hx
    refine ⟨_, _, he s, hself, rfl, ?_, fun j hj => ?_, rfl, hoth, hnam, hmem⟩
    · exact Tab.get_set_self _ _ _
    · exact Tab.get_set_ne _ _ (fun e => hj e.symm)
  · exact hstop _ _ (checkAccess_rest hc) (pushCheck_error hw hn hc)
  · exact hstop _ _ rfl (pushCheck_none hw)

end Sys2Proof.Machine
end

section
/-!
The events of a core (R29, R307, R311, R314, R315, R317, R346, R386): the quadrants' choice, and what each event leaves.
-/
namespace Sys2Proof.Machine

/-! ### The best of a list of groups (R314) -/

/-- R314's rank of a group: its class, the age of its oldest thread, its warp slot. -/
def rankKey (s : State) (g : Group) : Nat × Nat × Nat :=
  (if ready256 s g then 0 else if yields s g then 2 else 1, groupAge s g, groupSlot g)

/-- A group comes before another where its rank is the lower one, the parts of the rank compared in order. -/
theorem rankBefore_iff (s : State) (a b : Group) : rankBefore s a b = true ↔
    (rankKey s a).1 < (rankKey s b).1 ∨ (rankKey s a).1 = (rankKey s b).1 ∧ ((rankKey s a).2.1 < (rankKey s b).2.1 ∨
      (rankKey s a).2.1 = (rankKey s b).2.1 ∧ (rankKey s a).2.2 < (rankKey s b).2.2) := by
  have hr : rankBefore s a b = if (rankKey s a).1 != (rankKey s b).1 then decide ((rankKey s a).1 < (rankKey s b).1)
      else if (rankKey s a).2.1 != (rankKey s b).2.1 then decide ((rankKey s a).2.1 < (rankKey s b).2.1)
      else decide ((rankKey s a).2.2 < (rankKey s b).2.2) := rfl
  rw [hr]
  simp only [bne_iff_ne, ne_eq]
  split
  · simp only [decide_eq_true_eq]; omega
  · split <;> simp only [decide_eq_true_eq] <;> omega

theorem rankBefore_irrefl (s : State) (g : Group) : rankBefore s g g = false := by
  rw [Bool.eq_false_iff, ne_eq, rankBefore_iff]; omega

/-- A group that comes before the first of two, where that one does not come after the second, comes before the second. -/
theorem rankBefore_of_before {s : State} {a b c : Group} (hab : rankBefore s a b = true) (hcb : rankBefore s c b = false) :
    rankBefore s c a = false := by
  rw [Bool.eq_false_iff, ne_eq, rankBefore_iff] at hcb ⊢
  rw [rankBefore_iff] at hab
  omega

theorem rankBefore_trans_false {s : State} {a b c : Group} (hba : rankBefore s b a = false) (hcb : rankBefore s c b = false) :
    rankBefore s c a = false := by
  rw [Bool.eq_false_iff, ne_eq, rankBefore_iff] at hba hcb ⊢
  omega

/-- The best of a list with a group is one of it that none of it comes before. -/
theorem bestGroup_of_ne_nil (s : State) (gs : List Group) (h : gs ≠ []) :
    ∃ g ∈ gs, bestGroup s gs = some g ∧ ∀ k ∈ gs, rankBefore s k g = false := by
  induction gs with
  | nil => exact absurd rfl h
  | cons g gs ih =>
    by_cases he : gs = []
    · subst he
      refine ⟨g, List.mem_cons_self, rfl, fun k hk => ?_⟩
      rw [List.mem_singleton.1 hk]; exact rankBefore_irrefl s g
    · obtain ⟨b, hb, hbest, hmin⟩ := ih he
      have hval : bestGroup s (g :: gs) = some (if rankBefore s b g then b else g) := by rw [bestGroup, hbest]
      cases hr : rankBefore s b g with
      | true =>
        refine ⟨b, List.mem_cons_of_mem _ hb, by rw [hval, hr]; rfl, fun k hk => ?_⟩
        rcases List.mem_cons.1 hk with rfl | hk
        · exact rankBefore_of_before hr (rankBefore_irrefl s _)
        · exact hmin k hk
      | false =>
        refine ⟨g, List.mem_cons_self, by rw [hval, hr]; rfl, fun k hk => ?_⟩
        rcases List.mem_cons.1 hk with rfl | hk
        · exact rankBefore_irrefl s _
        · exact rankBefore_trans_false hr (hmin k hk)

/-! ### The quadrants' turns (R315) -/

section
variable {s : State} {a : Nat × Nat} (hi : s.issuing = none) (hs : stopGroup s a = none) (ht : inTurn s a = true)
include hi hs ht

/-- With no group to choose, the agent's turn leaves the note of the groups that are ready. -/
theorem issueAgent_none (hb : bestGroup (noteReady s a) (candidates (noteReady s a) a) = none) : issueAgent s a = noteReady s a := by
  unfold issueAgent
  simp only [hi, hs, ht, hb, Option.isSome_none, Bool.not_true, Bool.false_eq_true, if_false]

/-- The best group takes the turn, and begins its read or issues. -/
theorem issueAgent_some {g : Group} (hb : bestGroup (noteReady s a) (candidates (noteReady s a) a) = some g) :
    issueAgent s a = if beginsRead (takeTurn (noteReady s a) a g) g then
        { takeTurn (noteReady s a) a g with groups := (takeTurn (noteReady s a) a g).groups.map fun h =>
            if h == g then { h with reading := some (takeTurn (noteReady s a) a g).now } else h }
      else select (takeTurn (noteReady s a) a g) g := by
  unfold issueAgent
  simp only [hi, hs, ht, hb, Option.isSome_none, Bool.not_true, Bool.false_eq_true, if_false]

end

theorem stopGroup_some {s : State} {a : Nat × Nat} {g : Group} (h : stopGroup s a = some g) :
    g ∈ s.groups ∧ g.agent = a ∧ ∃ t ∈ g.mem, stopsNow s t = true := by
  have hp := List.find?_some h
  simp only [Bool.and_eq_true, beq_iff_eq, List.any_eq_true] at hp
  exact ⟨List.mem_of_find?_eq_some h, hp.1, hp.2⟩

/-- A group that stalls gives its quadrant's turn back, and its core's other quadrants keep theirs. -/
theorem stallGroup_turn {s : State} {g : Group} {c q : Nat} (ha : g.agent = (c, q)) (hc : c < Config.cores) (hch : chained s g = false) :
    turnNow (stallGroup s g) c = (turnNow s c).filter (·.1 != q) := by
  have hg : giveTurn s g = s.modCore c fun x => { x with turn := (x.turn.1, x.turn.2.filter (·.1 != q)) } := by
    unfold giveTurn
    rw [ha, hch, if_neg (by simp; omega)]
  have hcore : (stallGroup s g).core c = (giveTurn s g).core c := rfl
  have hnow : (stallGroup s g).now = s.now := by
    show (giveTurn s g).now = s.now
    rw [hg, State.modCore_now]
  unfold turnNow
  rw [hcore, hnow, hg, State.core_modCore, if_pos rfl]
  simp only
  split <;> rfl

theorem stallGroup_groups (s : State) (g : Group) :
    (stallGroup s g).threads = s.threads ∧
    (stallGroup s g).groups = s.groups ++ [{ g with readyAt := none, promoted := false, stalled := some s.now }] := by
  have hr : giveTurn s g = s ∨ ∃ c f, giveTurn s g = s.modCore c f := by
    unfold giveTurn
    split
    · exact .inl rfl
    · exact .inr ⟨_, _, rfl⟩
  unfold stallGroup
  rcases hr with hr | ⟨c, f, hr⟩ <;> rw [hr]
  · exact ⟨rfl, rfl⟩
  · exact ⟨rfl, rfl⟩

/-- What a quadrant may choose: a slot in its second cycle, a chained slot, or, in its turn, one that reads no set being read. -/
theorem candidates_mem {s : State} {c q : Nat} {g : Group} (h : g ∈ candidates s (c, q)) :
    g ∈ readyOf s (c, q) ∧ (c < Config.cores → q < 4 → g.readOn s.now = true ∨ chained s g = true ∨
      (turnsPast s c ≤ turnOfQuadrant s q ∧ ∀ m ∈ useOf s g, m ∉ setsRead s c q)) := by
  unfold candidates at h
  simp only at h
  split at h
  · next hn =>
    refine ⟨h, fun hc hq => ?_⟩
    simp at hn; omega
  · split at h
    · obtain ⟨h1, h2⟩ := List.mem_filter.1 h
      exact ⟨h1, fun _ _ => .inl h2⟩
    · split at h
      · obtain ⟨h1, h2⟩ := List.mem_filter.1 h
        exact ⟨h1, fun _ _ => .inr (.inl h2)⟩
      · split at h
        · cases h
        · next ht =>
          obtain ⟨h1, h2⟩ := List.mem_filter.1 h
          exact ⟨h1, fun _ _ => .inr (.inr ⟨by omega, by simpa using h2⟩)⟩

/-! ### The proof slot's start (R386) -/

/-- A thread record put for each member of a list. -/
theorem thread_foldl_setThread (tid : Nat → Tid) (hinj : ∀ a b, tid a = tid b → a = b) (x : Nat → Thread) (ls : List Nat) (s : State) :
    let s' := ls.foldl (fun s l => s.setThread (tid l) (x l)) s
    (∀ l ∈ ls, s'.thread (tid l) = some (x l)) ∧ (∀ t, (∀ l ∈ ls, t ≠ tid l) → s'.thread t = s.thread t) ∧
      s' = { s with threads := s'.threads } := by
  induction ls generalizing s with
  | nil => exact ⟨fun l h => (List.not_mem_nil h).elim, fun _ _ => rfl, rfl⟩
  | cons a ls ih =>
    obtain ⟨h1, h2, h3⟩ := ih (s.setThread (tid a) (x a))
    simp only [List.foldl_cons]
    refine ⟨fun l hl => ?_, fun t ht => ?_, ?_⟩
    · by_cases hm : l ∈ ls
      · exact h1 l hm
      · obtain rfl : l = a := by simpa [hm] using hl
        rw [h2 _ fun k hk e => hm (by rw [hinj _ _ e]; exact hk), State.thread_setThread]
    · rw [h2 t fun l hl => ht l (List.mem_cons_of_mem _ hl), State.thread_setThread_ne _ _ fun e => ht a List.mem_cons_self e.symm]
    · rw [h3]; rfl

theorem startProof_facts (s : State) (c ctx : Nat) (handler : DWord) :
    let s' := startProof s c ctx handler
    s'.core c = { s.core c with proofOn := true } ∧
    (∀ l, l < 32 → s'.thread (.proof c l) = some (Thread.start ctx 0 0 l l (handler + 8))) ∧
    (∃ g, s'.groups = s.groups ++ [g] ∧ g.mem = (List.range 32).map fun l => .proof c l) ∧
    (∀ t, (∀ l, l < 32 → t ≠ .proof c l) → s'.thread t = s.thread t) := by
  obtain ⟨h1, h2, h3⟩ := thread_foldl_setThread (fun l => .proof c l) (fun a b e => by cases e; rfl)
    (fun l => Thread.start ctx 0 0 l l (slot0 handler)) (List.range 32) s
  obtain ⟨s1, hs1⟩ : ∃ s1, s1 = (List.range 32).foldl (fun s l => s.setThread (.proof c l) (Thread.start ctx 0 0 l l (slot0 handler))) s :=
    ⟨_, rfl⟩
  rw [← hs1] at h1 h2 h3
  have hs : startProof s c ctx handler = { s1.modCore c (fun x => { x with proofOn := true }) with
      groups := s1.groups ++ [Group.start 0 false ((List.range 32).map fun l => .proof c l) []] } := by
    unfold startProof
    rw [← hs1]; rfl
  have hcore : s1.core c = s.core c := by rw [h3]; rfl
  rw [hs]
  refine ⟨?_, fun l hl => h1 l (List.mem_range.2 hl), ⟨Group.start 0 false _ [], ?_, rfl⟩, fun t ht => h2 t fun l hl => ht l (List.mem_range.1 hl)⟩
  · show (s1.modCore c fun x => { x with proofOn := true }).core c = _
    rw [State.core_modCore, if_pos rfl, hcore]
  · rw [h3]; rfl

/-! ### One set of a move (R307) -/

theorem Tab.set_set {κ α : Type} [DecidableEq κ] (t : Tab κ α) (q : κ) (x y : α) : (t.set q x).set q y = t.set q y := by
  induction t with
  | nil => simp [Tab.set]
  | cons e t ih =>
    obtain ⟨a, v⟩ := e
    by_cases h : a = q
    · simp [Tab.set, h]
    · simp [Tab.set, h, ih]

theorem State.setCore_setCore (s : State) (c : Nat) (x y : Core) : (s.setCore c x).setCore c y = s.setCore c y := by
  simp only [State.setCore, Tab.set_set]

/-- Two changes of one core, one after the other. -/
theorem State.modCore_modCore (s : State) (c : Nat) (f g : Core → Core) : (s.modCore c f).modCore c g = s.modCore c fun x => g (f x) := by
  simp only [State.modCore, State.core_setCore, State.setCore_setCore]

/-- A scratch set of a move that no PLATE waits for joins its new role empty. -/
theorem plateSetMoveDone_scratch {s : State} {c m : Nat} {mv : Move} (hm : (s.core c).move = some mv) (hf : mv.from_ = .scratch)
    (hi : mv.issuer = none) (hs : (s.core c).moveStep mv = some (m, m)) :
    plateSetMoveDone s c = s.modCore c fun x =>
      let y := { x with roles := setAt x.roles m mv.to_, tile := x.tile.clear (m * Config.setBytes) Config.setBytes,
                        badRows := x.badRows.filter fun e => e.1 != m }
      let mv' := { mv with moved := mv.moved + 1, used := m :: mv.used }
      if mv'.moved ≥ mv'.total then { y with move := none, lastMove := some (mv', 0) } else { y with move := some mv' } := by
  have hnext : moveNext s c mv = some (m, m) := by
    unfold moveNext
    rw [hs, hf]
    rfl
  unfold plateSetMoveDone
  simp only [hm, hnext, hf, leaveRole, moveCount, moveNote, hi, joinRole, beq_self_eq_true, if_true, clearSet, setRole,
    State.modCore_modCore]
  rfl

/-! ### The handover (R346) -/

/-- A step that changes no core but core c, and of that one the lines alone. -/
def LinesOnly (c : Nat) (s s' : State) : Prop :=
  s'.core c = { s.core c with lines := (s'.core c).lines } ∧ ∀ k, k ≠ c → s'.core k = s.core k

theorem LinesOnly.trans {c : Nat} {s s' s'' : State} (h : LinesOnly c s s') (k : LinesOnly c s' s'') : LinesOnly c s s'' :=
  ⟨by rw [k.1, h.1], fun x hx => (k.2 x hx).trans (h.2 x hx)⟩

theorem LinesOnly.of_cores {c : Nat} {s s' : State} (h : s'.cores = s.cores) : LinesOnly c s s' := by
  have hc : ∀ k, s'.core k = s.core k := fun k => by simp only [State.core, h]
  exact ⟨by rw [hc], fun k _ => hc k⟩

theorem LinesOnly.modLines (c : Nat) (s : State) (f : List Line → List Line) :
    LinesOnly c s (s.modCore c fun x => { x with lines := f x.lines }) :=
  ⟨by rw [State.core_modCore, if_pos rfl], fun k hk => by rw [State.core_modCore, if_neg fun e => hk e.symm]⟩

theorem homeWrite_cores (s : State) (sec : Nat) (kd : Kind) (k : KeyRef) (m : BitVec 64) (v : BitVec 512) :
    (homeWrite s sec kd k m v).cores = s.cores := by
  obtain ⟨_, _, _, _, _, h⟩ := homeWrite_behind s sec kd k m v
  rw [h]

theorem writeBackSec_lines (s : State) (c : Nat) (l : Line) (i : Nat) : LinesOnly c s (writeBackSec s c l i).1 := by
  unfold writeBackSec
  simp only
  split
  · exact .of_cores rfl
  · refine LinesOnly.trans (.of_cores ?_) (LinesOnly.modLines c _ _)
    split
    · split
      · rfl
      · exact homeWrite_cores ..
    · show State.cores (ite _ _ _) = s.cores
      split
      · rfl
      · exact homeWrite_cores ..

theorem writeBackLine_lines (s : State) (c : Nat) (l : Line) : LinesOnly c s (writeBackLine s c l).1 := by
  unfold writeBackLine
  generalize List.range 8 = is
  refine foldl_keeps (fun a : State × Line × Nat => LinesOnly c s a.1) _ (fun a i h => ?_) is (s, l, 0) (.of_cores rfl)
  have hw := writeBackSec_lines a.1 c a.2.1 i
  generalize writeBackSec a.1 c a.2.1 i = x at hw
  exact h.trans hw

theorem evictLine_lines (s : State) (c : Nat) (l : Line) : LinesOnly c s (evictLine s c l) :=
  (writeBackLine_lines s c l).trans (LinesOnly.modLines c _ _)

theorem evictLines_lines (s : State) (c : Nat) (ls : List Line) : LinesOnly c s (ls.foldl (fun s l => evictLine s c l) s) :=
  foldl_keeps (LinesOnly c s) _ (fun _ _ h => h.trans (evictLine_lines _ _ _)) _ _ (.of_cores rfl)

/-- The scrub frees the core, takes its cells, and leaves every other core as it was. -/
theorem scrubCore_facts (s : State) (c : Nat) :
    (scrubCore s c).core c = { Core.free with scClock := (s.core c).scClock } ∧ (∀ e ∈ (scrubCore s c).cells, e.1.core ≠ c) ∧
      ∀ k, k ≠ c → (scrubCore s c).core k = s.core k := by
  refine ⟨State.core_setCore _ _ _, fun e he => ?_, fun k hk => State.core_setCore_ne _ _ fun e => hk e.symm⟩
  have := (List.mem_filter.1 he).2
  simpa using this

theorem coreHandover_facts {s : State} {c : Nat} (h : handoverDue s c = true) :
    (coreHandover s c).core c = { Core.free with scClock := (s.core c).scClock } ∧ (∀ e ∈ (coreHandover s c).cells, e.1.core ≠ c) ∧
      ∀ k, k ≠ c → (coreHandover s c).core k = s.core k := by
  unfold coreHandover
  rw [if_pos h]
  obtain ⟨l1, l2⟩ := evictLines_lines s c (s.core c).lines
  obtain ⟨h1, h2, h3⟩ := scrubCore_facts ((s.core c).lines.foldl (fun s l => evictLine s c l) s) c
  exact ⟨by rw [h1, l1], h2, fun k hk => (h3 k hk).trans (l2 k hk)⟩

/-! ### Promotion, spills, bins, clocks (R29, R311, R314, R317, R373) -/

/-- The groups of a core that have waited for 256 cycles are promoted, and every other stays as it was. -/
theorem promote_eq (s : State) (c : Nat) : promote s c = { s with groups := s.groups.map fun g =>
    if g.agent.1 = c ∧ (g.promoted || (g.readyAt.map fun r => decide (r + 256 ≤ s.now)).getD false) = true then { g with promoted := true } else g } := by
  have hr : ∀ g : Group, ready256 s g = (g.promoted || (g.readyAt.map fun r => decide (r + 256 ≤ s.now)).getD false) := by
    intro g
    unfold ready256
    cases g.readyAt <;> rfl
  unfold promote
  simp only [hr, Bool.and_eq_true, beq_iff_eq]

theorem spillDue_eq_false {s : State} {c : Nat} (h : ∀ t, (s.core c).stall = some t → s.now < max t (s.core c).lastAlloc + 256) :
    spillDue s c = false := by
  unfold spillDue
  cases hs : (s.core c).stall with
  | none => rfl
  | some t => exact decide_eq_false (by have := h t hs; omega)

theorem spillDue_eq_true {s : State} {c t : Nat} (hs : (s.core c).stall = some t) (h : max t (s.core c).lastAlloc + 256 ≤ s.now) :
    spillDue s c = true := by
  unfold spillDue
  simp only [hs, h, decide_true]

/-- While the miss table has no room for the victim's slots, nothing is spilled (R351). -/
theorem renameSpill_held {s : State} {c w : Nat} (hv : spillVictim s c = some w) (hh : slotsHold s (spillableOf s c w) = true) :
    renameSpill s c = s := by
  unfold renameSpill
  simp only [hv, hh, if_true, ite_self]

theorem binAged_iff (s : State) (c : Nat) (b : Bin) :
    binAged s c b = true ↔ ∃ e ∈ b.entries, e.filed + ((s.ctx (s.core c).ctx).map (·.age)).getD 48 ≤ s.now := by
  simp only [binAged, List.any_eq_true, decide_eq_true_eq]

/-- A clock's step counts the cycles at its old rate, and leaves their number as it was. -/
theorem cycles_setClk (x : Core) (now v : Nat) : (x.setClk now v).cycles now = x.cycles now := by
  simp only [Core.setClk, Core.cycles, Nat.sub_self, Nat.zero_mul, Nat.add_zero]

/-- Below 4.0 GHz R317's upper bound of a step is no bound of its own. -/
theorem towardNominal_eq (ceiling mhz : Nat) : towardNominal ceiling mhz =
    if mhz < 4000 then (if mhz + 100 ≤ ceiling then mhz + 100 else mhz) else if 4000 < mhz then mhz - 100 else mhz := by
  unfold towardNominal stepUp
  split
  · have : mhz + 100 ≤ min 4400 ceiling ↔ mhz + 100 ≤ ceiling := by omega
    simp only [this]
  · rfl

theorem driftDue_iff (s : State) (c : Nat) : driftDue s c = true ↔ (s.core c).ctx ≠ 0 ∧
    (s.core c).clk ≠ towardNominal (ceilingOf s c) (s.core c).clk ∧
    max (s.core c).lastPhase (s.core c).since + 100 * Config.cyclesPerUs ≤ s.now := by
  simp only [driftDue, Bool.and_eq_true, bne_iff_ne, ne_eq, decide_eq_true_eq, and_assoc]

theorem turnOfQuadrant_eq_zero {s : State} {q : Nat} (hq : q < 4) : turnOfQuadrant s q = 0 ↔ s.now % 4 = q := by
  unfold turnOfQuadrant; omega

/-- A core's stopped threads wait for a handler while its proof slot is free (R386). -/
theorem proofDue_none {s : State} {c : Nat} (h : (s.core c).proofOn = true ∨ (s.core c).stopList = []) : proofDue s c = none := by
  unfold proofDue
  rcases h with h | h <;> simp [h]

theorem proofDue_some {s : State} {c : Nat} {k : Ctx} (hk : s.ctx (s.core c).ctx = some k) (hh : k.handler ≠ 0)
    (hp : (s.core c).proofOn = false) (hl : (s.core c).stopList ≠ []) : proofDue s c = some ((s.core c).ctx, k.handler) := by
  have hz : (k.handler == 0) = false := beq_eq_false_iff_ne.2 hh
  have he : (s.core c).stopList.isEmpty = false := by simpa using hl
  unfold proofDue
  simp only [hk, hz, hp, he, Bool.or_false, Bool.false_eq_true, if_false]

/-! ### What the events answer -/

theorem exec_quadrantIssue (c q : Nat) (s : State) : exec (.quadrantIssue c q) s = .next (issueAgent s (c, q)) := rfl
theorem exec_ready256Promotion (c : Nat) (s : State) : exec (.ready256Promotion c) s = .next (promote s c) := rfl
theorem exec_renameSpill (c : Nat) (s : State) : exec (.renameSpill c) s = .next (renameSpill s c) := rfl
theorem exec_proofSlotStart (c : Nat) (s : State) : exec (.proofSlotStart c) s = .next (proofStart s c) := rfl
theorem exec_binAgedDraw (c b : Nat) (s : State) : exec (.binAgedDraw c b) s = .next (agedDraw s c b) := rfl
theorem exec_plateSetMoveDone (c : Nat) (s : State) : exec (.plateSetMoveDone c) s = .next (plateSetMoveDone s c) := rfl
theorem exec_coreHandover (c : Nat) (s : State) : exec (.coreHandover c) s = .next (coreHandover s c) := rfl
theorem exec_clockStepApply (c : Nat) (s : State) : exec (.clockStepApply c) s = .next (clockStep s c) := rfl
theorem exec_clockDrift (c : Nat) (s : State) : exec (.clockDrift c) s = .next (clockDrift s c) := rfl

/-- Settles O51: each event by its own lemma above, in the statement's order. -/
theorem coreEventsComplete : Obligations.CoreEventsComplete := by
  intro s c q b x
  refine ⟨?_, ?_, ?_, fun g => stopGroup_some, ?_, ?_, fun g => candidates_mem, turnOfQuadrant_eq_zero, ?_, ?_, ?_, ?_, ?_, ?_, ?_, ?_, ?_, ?_, ?_,
    ?_, ?_, ?_, ?_, ?_, fun v => ⟨rfl, cycles_setClk x s.now v⟩, ?_⟩
  -- a quadrant's slot
  · intro hi
    rw [exec_quadrantIssue, issueAgent, if_pos hi]
  · intro hi g hs
    rw [exec_quadrantIssue, issueAgent]
    simp only [hi, hs, Option.isSome_none, Bool.false_eq_true, if_false]
  · intro hi hs ht
    rw [exec_quadrantIssue, issueAgent]
    simp only [hi, hs, ht, Option.isSome_none, Bool.false_eq_true, if_false, Bool.not_false, if_true]
  · intro g ha hc hch s'
    have ht : turnNow s' c = (turnNow s c).filter (·.1 != q) := stallGroup_turn ha hc hch
    rw [ht]
    refine ⟨fun e he => ?_, fun e he hne => ?_, stallGroup_groups s g⟩
    · simpa using (List.mem_filter.1 he).2
    · exact List.mem_filter.2 ⟨he, by simpa using hne⟩
  · intro hi hs ht s1 gs
    rw [exec_quadrantIssue]
    refine ⟨fun hn => ?_, fun hn => ?_⟩
    · have hb : bestGroup s1 gs = none := by rw [hn]; rfl
      rw [issueAgent_none hi hs ht hb]
    · obtain ⟨g, hg, hb, hmin⟩ := bestGroup_of_ne_nil s1 gs hn
      exact ⟨g, hg, hmin, _, rfl, by rw [issueAgent_some hi hs ht hb]⟩
  · rw [exec_ready256Promotion, promote_eq]
  -- the rename unit
  · intro h
    rw [exec_renameSpill, renameSpill, spillDue_eq_false h]
    rfl
  · intro t w hs hd hv hh
    rw [exec_renameSpill, renameSpill, spillDue_eq_true hs hd]
    simp only [if_true, hv, hh, Bool.false_eq_true, if_false]
  · intro w hv hh
    rw [exec_renameSpill, renameSpill_held hv hh]
  -- the proof slot
  · intro k hk hh hp hl
    refine ⟨_, exec_proofSlotStart c s, ?_⟩
    rw [proofStart, proofDue_some hk hh hp hl]
    exact startProof_facts s c x.ctx k.handler
  · intro h
    rw [exec_proofSlotStart, proofStart, proofDue_none h]
  -- bins
  · intro hb
    rw [exec_binAgedDraw, agedDraw, hb]
  · intro bin hb age
    rw [exec_binAgedDraw, agedDraw, hb]
    refine ⟨fun h => ?_, fun h => ?_⟩
    · simp only [(binAged_iff s c bin).2 h, if_true]
    · have : binAged s c bin = false := by
        rw [Bool.eq_false_iff, ne_eq, binAged_iff]
        rintro ⟨e, he, hle⟩
        exact absurd hle (Nat.not_le.2 (h e he))
      simp only [this, Bool.false_eq_true, if_false]
  -- moves
  · intro hm
    rw [exec_plateSetMoveDone, plateSetMoveDone, hm]
  · intro mv hm hn
    rw [exec_plateSetMoveDone, plateSetMoveDone, hm]
    simp only [hn]
  · intro mv m hm hf hi hs mv'
    rw [exec_plateSetMoveDone, plateSetMoveDone_scratch hm hf hi hs, State.modCore]
    by_cases hd : mv.total ≤ mv.moved + 1
    · simp only [ge_iff_le, hd, if_true]; rfl
    · simp only [ge_iff_le, hd, if_false]; rfl
  · intro mv m g hm hf hn hc
    rw [exec_plateSetMoveDone, plateSetMoveDone, hm]
    simp only [hn, hf, leaveRole]
    rw [if_pos (by simpa using hc)]
  -- the handover
  · intro h
    rw [exec_coreHandover, coreHandover, h]
    rfl
  · exact fun h => ⟨_, exec_coreHandover c s, coreHandover_facts h⟩
  -- clocks
  · intro h
    rw [exec_clockStepApply, clockStep, h]
  · intro v h
    rw [exec_clockStepApply, clockStep, h]
    rfl
  · intro v due
    have hv : towardNominal (ceilingOf s c) x.clk = v := towardNominal_eq _ _
    have hdue : driftDue s c = true ↔ due := by
      rw [driftDue_iff, show towardNominal (ceilingOf s c) (s.core c).clk = v from hv]
    rw [exec_clockDrift, clockDrift]
    refine ⟨fun h => ?_, fun h => ?_⟩
    · rw [if_pos (hdue.2 h), ← hv]; rfl
    · rw [if_neg (mt hdue.1 h)]

end Sys2Proof.Machine
end

section
/-!
The completion of an outstanding instruction (R41, R45, R115, R378): what its results change where none of its names is spilled or
released, and a state with a released cell, in which a value does not stay.
-/
namespace Sys2Proof.Machine

/-! ### Predicates that a result gives (R45, R64) -/

theorem getPred_setPred (p : BitVec 7) (k j : Fin 8) (b : Bool) :
    getPred (setPred p k b) j = if k = j ∧ k ≠ 7 then b else getPred p j := by
  have hbit : ∀ i < 7, (setPred p k b).getLsbD i = if k.val = i then b else p.getLsbD i := by
    intro i hi
    unfold setPred
    by_cases hk : k.val = i
    · subst hk
      cases b <;> simp [hi]
    · have hs : (1#7 <<< k.val).getLsbD i = false := by
        rw [BitVec.getLsbD_shiftLeft]
        by_cases hlt : i < k.val
        · simp [hlt]
        · have : i - k.val ≠ 0 := by omega
          simp [BitVec.getLsbD_one, this]
      cases b
      · rw [if_neg Bool.false_ne_true, BitVec.getLsbD_and, BitVec.getLsbD_not, hs]
        simp [hk, hi]
      · rw [if_pos rfl, BitVec.getLsbD_or, hs]
        simp [hk]
  unfold getPred
  by_cases hj : j = 7
  · subst hj
    have : ¬ (k = 7 ∧ k ≠ 7) := fun h => h.2 h.1
    simp [this]
  · have hlt : j.val < 7 := by omega
    rw [hbit _ hlt]
    by_cases hkj : k = j
    · subst hkj; simp [hj]
    · have : ¬ k.val = j.val := fun h => hkj (Fin.ext h)
      simp [this, hkj]

/-- The predicates of a result: those that still wait for the instruction take their values, and no other changes. -/
theorem applyPreds_facts (seq : Nat) (ps : List (Fin 8 × Bool)) : ∀ th : Thread, (ps.map (·.1)).Nodup →
    let th' := applyPreds th seq ps
    th' = { th with preds := th'.preds, predPend := th'.predPend } ∧
    (∀ k b, (k, b) ∈ ps → th.predPend.get k = some seq → k ≠ 7 → getPred th'.preds k = b) ∧
    (∀ k, (k ∉ ps.map (·.1) ∨ th.predPend.get k ≠ some seq) → getPred th'.preds k = getPred th.preds k) := by
  induction ps with
  | nil => intro th _; exact ⟨rfl, fun _ _ h => (List.not_mem_nil h).elim, fun _ _ => rfl⟩
  | cons e ps ih =>
    intro th hn
    obtain ⟨he, hn'⟩ := List.nodup_cons.1 hn
    obtain ⟨th1, hth1⟩ : ∃ th1, th1 = (if th.predPend.get e.1 == some seq then
        { th with preds := setPred th.preds e.1 e.2, predPend := th.predPend.del e.1 } else th) := ⟨_, rfl⟩
    have hstep : applyPreds th seq (e :: ps) = applyPreds th1 seq ps := by rw [hth1]; rfl
    obtain ⟨h1, h2, h3⟩ := ih th1 hn'
    have hrest : th1 = { th with preds := th1.preds, predPend := th1.predPend } := by rw [hth1]; split <;> rfl
    have hpend : ∀ k, k ≠ e.1 → th1.predPend.get k = th.predPend.get k := by
      intro k hk
      rw [hth1]
      split
      · exact (Tab.get_del ..).trans (if_neg (Ne.symm hk))
      · rfl
    have hpred : ∀ k, (k ≠ e.1 ∨ th.predPend.get k ≠ some seq) → getPred th1.preds k = getPred th.preds k := by
      intro k hk
      rw [hth1]
      split
      · next hs =>
        have hke : k ≠ e.1 := by
          rcases hk with hk | hk
          · exact hk
          · rintro rfl; exact hk (by simpa using hs)
        rw [getPred_setPred, if_neg fun h => hke h.1.symm]
      · rfl
    rw [hstep]
    refine ⟨by rw [h1, hrest], fun k b hm hp h7 => ?_, fun k hk => ?_⟩
    · rcases List.mem_cons.1 hm with rfl | hm
      · rw [h3 k (.inl he), hth1]
        simp only [hp, beq_self_eq_true, if_true, getPred_setPred, true_and]
        rw [if_pos h7]
      · have hke : k ≠ e.1 := by rintro rfl; exact he (List.mem_map.2 ⟨_, hm, rfl⟩)
        exact h2 k b hm (by rw [hpend k hke]; exact hp) h7
    · by_cases hke : k = e.1
      · subst hke
        have hns : th.predPend.get e.1 ≠ some seq := by simpa using hk
        rw [h3 _ (.inl he), hpred _ (.inr hns)]
      · rw [h3 k ?_, hpred k (.inl hke)]
        rw [hpend k hke]
        rcases hk with hk | hk
        · exact .inl fun h => hk (List.mem_cons_of_mem _ h)
        · exact .inr hk

/-! ### Names that a result gives (R45, R46) -/

/-- A write to one name of a thread leaves every other name of it spilled or not as it was. -/
theorem isSpilled_setLaneCell (s : State) (t : Tid) {p q : Pos} (h : p ≠ q) (x : LaneCell) :
    (s.setLaneCell t p x).isSpilled t q = s.isSpilled t q := by
  unfold State.setLaneCell State.isSpilled
  cases t with
  | core c sl l =>
    have hk : ({ core := c, slot := sl, quad := l / 4, pos := p } : CellKey) ≠ { core := c, slot := sl, quad := l / 4, pos := q } := by
      simp [h]
    simp only [State.cellKey, State.putCell]
    split
    · simp only [Tab.get_del, if_neg hk]
    · simp only [Tab.get_set, if_neg hk]
  | proof c l => rfl
  | burin c k => rfl
  | graver g i => rfl

/-- What a result's values change: the names that still wait for the instruction. -/
structure NamesGiven (s : State) (t : Tid) (th : Thread) (seq : Nat) (names : List (Pos × Word)) (s' : State) : Prop where
  rest : s' = { s with cells := s'.cells, threads := s'.threads }
  self : ∃ fx, s'.thread t = some { th with fixedNames := fx }
  others : ∀ u, u ≠ t → s'.thread u = s.thread u
  given : ∀ p v, (p, v) ∈ names → ∀ old, (s.laneCell t p).pend = some (seq, old) →
    s'.laneCell t p = { s.laneCell t p with val := v, pend := none }
  names : ∀ u p, (u = t → p ∉ names.map (·.1) ∨ ∀ old, (s.laneCell t p).pend ≠ some (seq, old)) → s'.laneCell u p = s.laneCell u p

/-- One name's value: given where the name waits for the instruction, in no spilled name and in a lane that is not released. -/
theorem applyName_given {s : State} {t : Tid} {th : Thread} (ht : s.thread t = some th) (seq : Nat) (p : Pos) (v : Word)
    (hs : s.isSpilled t p = false) (hl : (s.laneCell t p).rel = false) :
    NamesGiven s t th seq [(p, v)] (applyNames s t seq [(p, v)]) := by
  by_cases hp : ∃ old, (s.laneCell t p).pend = some (seq, old)
  · obtain ⟨old, hold⟩ := hp
    obtain ⟨x, hx⟩ : ∃ x, x = { s.laneCell t p with val := v, pend := none } := ⟨_, rfl⟩
    have hstep : applyNames s t seq [(p, v)] = s.setLaneCell t p x := by
      simp only [applyNames, List.foldl_cons, List.foldl_nil, hold, beq_self_eq_true, if_true, spillResult, hs, Bool.false_eq_true, if_false,
        hx]
    have hlane := State.laneCell_setLaneCell s ht p x (by rw [hx]; exact hl)
    rw [hstep]
    refine { rest := State.setLaneCell_rest s t p x, self := ?_, others := fun u hu => ?_, given := fun q w hm o ho => ?_,
             names := fun u q hu => ?_ }
    · rw [State.thread_setLaneCell, ht]
      split
      · exact ⟨_, rfl⟩
      · exact ⟨th.fixedNames, rfl⟩
    · rw [State.thread_setLaneCell, if_neg fun h => hu h.1.symm]
    · obtain ⟨rfl, rfl⟩ : q = p ∧ w = v := by simpa using hm
      rw [hlane, if_pos ⟨rfl, rfl⟩, hx]
    · rw [hlane, if_neg]
      rintro ⟨rfl, rfl⟩
      rcases hu rfl with h | h
      · exact h (by simp)
      · exact h old hold
  · have hstep : applyNames s t seq [(p, v)] = s := by
      simp only [applyNames, List.foldl_cons, List.foldl_nil]
      split
      · next q old hpend =>
        rw [if_neg]
        intro h
        exact hp ⟨old, by rw [hpend, beq_iff_eq.1 h]⟩
      · rfl
    rw [hstep]
    refine { rest := rfl, self := ⟨th.fixedNames, ht⟩, others := fun _ _ => rfl, given := fun q w hm o ho => ?_, names := fun _ _ _ => rfl }
    obtain ⟨rfl, rfl⟩ : q = p ∧ w = v := by simpa using hm
    exact absurd ⟨o, ho⟩ hp

/-- A result's values reach the names that wait for it, where none of its names is spilled or released. -/
theorem applyNames_given (t : Tid) (seq : Nat) (names : List (Pos × Word)) : ∀ (s : State) (th : Thread), s.thread t = some th →
    (names.map (·.1)).Nodup → (∀ e ∈ names, s.isSpilled t e.1 = false) → (∀ e ∈ names, (s.laneCell t e.1).rel = false) →
    NamesGiven s t th seq names (applyNames s t seq names) := by
  induction names with
  | nil =>
    intro s th ht _ _ _
    exact { rest := rfl, self := ⟨th.fixedNames, ht⟩, others := fun _ _ => rfl, given := fun _ _ h => (List.not_mem_nil h).elim,
            names := fun _ _ _ => rfl }
  | cons e names ih =>
    intro s th ht hn hs hl
    obtain ⟨he, hn'⟩ := List.nodup_cons.1 hn
    have hne : ∀ x ∈ names, e.1 ≠ x.1 := fun x hx h => he (List.mem_map.2 ⟨x, hx, h.symm⟩)
    have h1 := applyName_given ht seq e.1 e.2 (hs e List.mem_cons_self) (hl e List.mem_cons_self)
    have hspill : ∀ x ∈ names, (applyNames s t seq [(e.1, e.2)]).isSpilled t x.1 = s.isSpilled t x.1 := by
      intro x hx
      simp only [applyNames, List.foldl_cons, List.foldl_nil, spillResult, hs e List.mem_cons_self, Bool.false_eq_true, if_false]
      split
      · split
        · exact isSpilled_setLaneCell s t (hne x hx) _
        · rfl
      · rfl
    obtain ⟨s1, hs1⟩ : ∃ s1, s1 = applyNames s t seq [(e.1, e.2)] := ⟨_, rfl⟩
    have hstep : applyNames s t seq (e :: names) = applyNames s1 t seq names := by rw [hs1]; rfl
    rw [← hs1] at h1 hspill
    obtain ⟨fx, hfx⟩ := h1.self
    have hlane : ∀ x ∈ names, s1.laneCell t x.1 = s.laneCell t x.1 := fun x hx =>
      h1.names t x.1 fun _ => .inl (by simpa using Ne.symm (hne x hx))
    have h2 := ih s1 _ hfx hn' (fun x hx => (hspill x hx).trans (hs x (List.mem_cons_of_mem _ hx)))
      (fun x hx => by rw [hlane x hx]; exact hl x (List.mem_cons_of_mem _ hx))
    rw [hstep]
    refine { rest := ?_, self := ?_, others := fun u hu => (h2.others u hu).trans (h1.others u hu), given := fun p v hm old hold => ?_,
             names := fun u p hu => ?_ }
    · rw [h2.rest, h1.rest]
    · obtain ⟨fx2, hfx2⟩ := h2.self
      exact ⟨fx2, hfx2⟩
    · rcases List.mem_cons.1 hm with rfl | hm
      · rw [h2.names t p fun _ => .inl he, h1.given p v (by simp) old hold]
      · have hp := hlane (p, v) hm
        rw [h2.given p v hm old (by rw [hp]; exact hold), hp]
    · have hp : s1.laneCell u p = s.laneCell u p := h1.names u p fun hut => by
        rcases hu hut with h | h
        · exact .inl fun hm => h (by simp at hm; simp [hm])
        · exact .inr h
      refine (h2.names u p fun hut => ?_).trans hp
      rcases hu hut with h | h
      · exact .inl fun hm => h (List.mem_cons_of_mem _ hm)
      · subst hut; exact .inr (by rw [hp]; exact h)

/-! ### The completion (R41, R45, R115, R378) -/

/-- The walkers of a thread once a result has gone to the element that was pushed for it. -/
theorem pushValue_rest (th : Thread) (k : Fin 4) (seq : Nat) (v : Word) :
    pushValue th k seq v = { th with stores := (pushValue th k seq v).stores } := by
  unfold pushValue
  split <;> rfl

/-- What a completion leaves of its thread, but for fixed storage. -/
structure ThreadDone (th : Thread) (seq : Nat) (o : Out) (th' : Thread) : Prop where
  rest : th' = { th with preds := th'.preds, predPend := th'.predPend, fpst := th.fpst ||| o.fpst, outs := th.outs.filter (·.seq != seq),
                         fixedNames := th'.fixedNames, stores := th'.stores, deferred := th.deferred.orElse fun _ => o.late }
  unpushed : o.push = none → th'.stores = th.stores
  pushed : ∀ k w, o.push = some k → th.stores.get k.val = some w → th'.stores = th.stores.set k.val (w.giveValue seq o.value)
  preds : ∀ k b, (k, b) ∈ o.preds → th.predPend.get k = some seq → k ≠ 7 → getPred th'.preds k = b
  kept : ∀ k, (k ∉ o.preds.map (·.1) ∨ th.predPend.get k ≠ some seq) → getPred th'.preds k = getPred th.preds k

/-- The thread of an instruction that completes, its names written. -/
def completedThread (seq : Nat) (o : Out) (x : Thread) : Thread :=
  let y := applyPreds (o.push.elim x fun k => pushValue x k seq o.value) seq o.preds
  { y with fpst := y.fpst ||| o.fpst, outs := y.outs.filter (·.seq != seq), deferred := y.deferred.orElse fun _ => o.late }

theorem complete_eq {s : State} {t : Tid} {th : Thread} {seq : Nat} {o : Out} (ht : s.thread t = some th)
    (ho : th.outs.find? (·.seq == seq) = some o) :
    complete s t seq = (applyNames s t seq o.names).modThread t (completedThread seq o) := by
  unfold complete
  simp only [ht, ho]
  rfl

theorem completedThread_done (seq : Nat) (o : Out) (x : Thread) (hp : (o.preds.map (·.1)).Nodup) :
    ThreadDone x seq o (completedThread seq o x) ∧ (completedThread seq o x).fixedNames = x.fixedNames := by
  obtain ⟨y, hy⟩ : ∃ y, y = o.push.elim x fun k => pushValue x k seq o.value := ⟨_, rfl⟩
  have hrest : y = { x with stores := y.stores } := by
    rw [hy]
    cases o.push with
    | none => rfl
    | some k => exact pushValue_rest x k seq o.value
  obtain ⟨a1, a2, a3⟩ := applyPreds_facts seq o.preds y hp
  have hc : completedThread seq o x = { applyPreds y seq o.preds with
      fpst := (applyPreds y seq o.preds).fpst ||| o.fpst, outs := (applyPreds y seq o.preds).outs.filter (·.seq != seq),
      deferred := (applyPreds y seq o.preds).deferred.orElse fun _ => o.late } := by rw [hy]; rfl
  have hst : (completedThread seq o x).stores = y.stores := by rw [hc, a1]
  have hpr : (completedThread seq o x).preds = (applyPreds y seq o.preds).preds := by rw [hc]
  refine ⟨{ rest := ?_, unpushed := fun hpn => ?_, pushed := fun k w hk hw => ?_, preds := fun k b hm hpd h7 => ?_, kept := fun k hk => ?_ }, ?_⟩
  · rw [hc, a1, hrest]
  · rw [hst, hy, hpn]; rfl
  · rw [hst, hy, hk]
    simp only [Option.elim_some, pushValue, hw]
  · rw [hpr]; exact a2 k b hm (by rw [hrest]; exact hpd) h7
  · rw [hpr, a3 k (by rw [hrest]; exact hk), hrest]
  · rw [hc, a1, hrest]

/-- An outstanding instruction none of whose names is spilled or released completes. -/
theorem complete_live {s : State} {t : Tid} {th : Thread} {seq : Nat} {o : Out} (ht : s.thread t = some th)
    (ho : th.outs.find? (·.seq == seq) = some o) (hn : (o.names.map (·.1)).Nodup) (hp : (o.preds.map (·.1)).Nodup)
    (hs : ∀ e ∈ o.names, s.isSpilled t e.1 = false) (hl : ∀ e ∈ o.names, (s.laneCell t e.1).rel = false) :
    let s' := complete s t seq
    s' = { s with cells := s'.cells, threads := s'.threads } ∧ (∃ th', s'.thread t = some th' ∧ ThreadDone th seq o th') ∧
    (∀ u, u ≠ t → s'.thread u = s.thread u) ∧
    (∀ p v, (p, v) ∈ o.names → ∀ old, (s.laneCell t p).pend = some (seq, old) →
      s'.laneCell t p = { s.laneCell t p with val := v, pend := none }) ∧
    (∀ u p, (u = t → p ∉ o.names.map (·.1) ∨ ∀ old, (s.laneCell t p).pend ≠ some (seq, old)) → s'.readPos u p = s.readPos u p) := by
  have hg := applyNames_given t seq o.names s th ht hn hs hl
  rw [complete_eq ht ho]
  obtain ⟨s1, hs1⟩ : ∃ s1, s1 = applyNames s t seq o.names := ⟨_, rfl⟩
  rw [← hs1] at hg ⊢
  obtain ⟨fx, hfx⟩ := hg.self
  have hdone := (completedThread_done seq o { th with fixedNames := fx } hp).1
  have hlane : ∀ u p, (s1.modThread t (completedThread seq o)).laneCell u p = s1.laneCell u p :=
    State.laneCell_modThread s1 t _ fun x => (completedThread_done seq o x hp).2
  refine ⟨?_, ⟨completedThread seq o { th with fixedNames := fx }, ?_, ⟨hdone.rest, hdone.unpushed, hdone.pushed, hdone.preds, hdone.kept⟩⟩,
    fun u hu => ?_, fun p v hm old hold => ?_, fun u p hu => ?_⟩
  · rw [State.modThread_rest, hg.rest]
  · rw [State.thread_modThread, if_pos rfl, hfx]; rfl
  · rw [State.thread_modThread, if_neg fun h => hu h.symm, hg.others u hu]
  · rw [hlane, hg.given p v hm old hold]
  · exact State.readPos_congr ((hlane u p).trans (hg.names u p hu))

/-! ### A completion that finds its cell released (R26) -/

/-- Lane 0 of warp slot 0 of core 0. -/
def lane0 : Tid := .core 0 0 0

/-- An instruction of fixed latency that gives v0 the value 1, due in cycle 0. -/
def dueOut : Out :=
  { seq := 0, pc := 8, ready := 0, last := some 0, held := false, flag := none, names := [(.v 0, 1)], push := none, value := 1, preds := [],
    fpst := 0, late := none, awaits := [], todo := none, acq := false, tile := false }

/-- A cell released in every lane, whose lane 0 still waits for the instruction. -/
def releasedCell : Cell := { Cell.empty with l0 := { val := 0, rel := true, pend := some (0, none) } }

/-- The state that still lists the released cell. -/
def keptCell : State :=
  { State.reset with threads := [(lane0, { Thread.start 0 0 0 0 0 8 with outs := [dueOut] })],
                     cells := [({ core := 0, slot := 0, quad := 0, pos := .v 0 }, releasedCell)] }

/-- The write finds the cell released in all four lanes, and takes it out of the table with its value. -/
theorem complete_keptCell_drops : (complete keptCell lane0 0).laneCell lane0 (.v 0) = LaneCell.empty := by decide

/-- Refutes O21: in `keptCell`, v0 waits for the instruction and its cell is released in every lane. Once the instruction has completed,
the cell is gone (R26) and v0's lane holds 0, where the statement has 1. The statement puts no condition on the release bits of the names;
where they are clear, `complete_live` has what it says of a completion. -/
theorem not_resultsBecomeReadable : ¬ Obligations.ResultsBecomeReadable := by
  intro h
  obtain ⟨-, -, -, -, -, hnames, -⟩ := h keptCell lane0 _ 0 dueOut rfl rfl rfl
  obtain ⟨s', th', rfl, -, -, -, -, -, -, hval, -⟩ := hnames (by decide) (by decide) (by decide)
  have hv := hval (.v 0) 1 (by decide) none (by decide)
  rw [complete_keptCell_drops] at hv
  exact absurd hv (by decide)

end Sys2Proof.Machine
end

section
/-!
Cross-lane forms (R152 to R159): what each writes as a function of the executing lanes' A, and the butterfly of R118 as a fold.
-/
namespace Sys2Proof.Machine

/-! ### Forms that read every executing lane (R153, R155 to R159) -/

/-- A class 0x5 form other than SHFL completes with what its lanes compute, however that is written. -/
theorem completes_warp {i : Instr} {h : Hdr} {n : Nat} {f : Env → Tid → List (List Word) → Res} {F : LaneFn}
    (he : ∀ s, exec i s = .next (issue (warpForm i h n f) s)) (hF : ∀ env t th vs, f env t vs = F env t th vs)
    (hf : ∀ env t vs, (f env t vs).next = none ∧ (f env t vs).late = none ∧ (f env t vs).fault = none) : Completes i h (.fixed n) F (rd := warpReads i) := by
  obtain rfl : (fun env t _ vs => f env t vs) = F := by funext env t th vs; exact hF env t th vs
  exact completes_plain he (fun env t _ vs => (hf env t vs).1) (fun env t _ vs => (hf env t vs).2.1) fun env t _ vs => (hf env t vs).2.2

/-- A lane votes true when it executes and word 0 of its A is not zero. -/
theorem votes_eq (env : Env) (i : Instr) (l : Nat) :
    votes env i l = match (aWords env i l).map (·.headD 0) with | some x => x != 0 | none => false := by
  unfold votes
  cases aWords env i l <;> rfl

theorem voteFn_eq (cc : Fin 3) (n yes : Nat) :
    voteFn cc.val n yes = [yes == n, yes != 0, yes == n || yes == 0].getD cc.val false := by
  match cc with
  | ⟨0, _⟩ => rfl
  | ⟨1, _⟩ => rfl
  | ⟨2, _⟩ => rfl

theorem lanesOr_eq (env : Env) (i : Instr) (w : Nat) (ident : Word) :
    lanesOr env i w ident = (List.range w).map fun l => ((aWords env i l).map (·.headD 0)).getD ident := by
  unfold lanesOr
  refine List.map_congr_left fun l _ => ?_
  cases aWords env i l <;> rfl

theorem laneMask_congr {f g : Nat → Bool} (w : Nat) (h : ∀ l, f l = g l) :
    laneMask w f = BitVec.ofNat 32 (natOfBits ((List.range w).map g)) := by
  obtain rfl : f = g := funext h
  rfl

theorem executes_eq (env : Env) (l : Nat) : executes env l = env.exec.any fun u => u.lane == l :=
  List.isSome_find?

theorem scanLane_eq (excl : Bool) (lane : Nat) (e : Word) (xs : List Word) :
    (if excl then (if lane == 0 then e else xs.getD (lane - 1) 0) else xs.getD lane 0) =
      if !excl then xs.getD lane 0 else if lane = 0 then e else xs.getD (lane - 1) 0 := by
  cases excl <;> simp

/-! ### The NaN of a SCAN (R107) -/

/-- The halves of a packed word are the element rule's results, where these fit in 16 bits. -/
theorem perElem_half {ty : FTy} (hty : ty ≠ .f32) (f : Fmt → Nat → Nat → Nat → FR) (a b c : Word) {k : Nat} (hk : k < 2)
    (hf : ∀ x y z, x < 2 ^ 16 → (f (fmtOf ty) x y z).bits < 2 ^ 16) :
    (perElem ty f a b c).1.toNat / 2 ^ (16 * k) % 2 ^ 16 =
      (f (fmtOf ty) (a.toNat / 2 ^ (16 * k) % 2 ^ 16) (b.toNat / 2 ^ (16 * k) % 2 ^ 16) (c.toNat / 2 ^ (16 * k) % 2 ^ 16)).bits := by
  have hlo := hf (a.toNat / 2 ^ (16 * 0) % 2 ^ 16) (b.toNat / 2 ^ (16 * 0) % 2 ^ 16) (c.toNat / 2 ^ (16 * 0) % 2 ^ 16)
    (Nat.mod_lt _ (by decide))
  have hhi := hf (a.toNat / 2 ^ (16 * 1) % 2 ^ 16) (b.toNat / 2 ^ (16 * 1) % 2 ^ 16) (c.toNat / 2 ^ (16 * 1) % 2 ^ 16)
    (Nat.mod_lt _ (by decide))
  cases ty
  case f32 => exact absurd rfl hty
  all_goals
    obtain rfl | rfl : k = 0 ∨ k = 1 := by omega
    all_goals
      simp only [perElem, w32, BitVec.toNat_ofNat]
      omega

theorem canonNan_lt {f : Fmt} (hn : f.nan < 2 ^ 16) {x : Nat} (hx : x < 2 ^ 16) : f.canonNan x < 2 ^ 16 := by
  unfold Fmt.canonNan
  split
  · exact hn
  · exact hx

theorem scanNan_flat {so : ScanOp} (h : scanTy so = none) (x : Word) : scanNan so x = x := by
  simp only [scanNan, h]

theorem scanNan_f32 {so : ScanOp} (h : scanTy so = some .f32) (x : Word) :
    scanNan so x = if (f32v x).isNan then 0x7FC0_0000 else x := by
  simp only [scanNan, h, perElem, FR.word, Fmt.canonNan]
  show BitVec.ofNat 32 (if (f32v x).isNan then Fmt.f32.nan else x.toNat) = _
  split
  · rfl
  · exact BitVec.ofNat_toNat _ _ |>.trans (BitVec.setWidth_eq x)

theorem scanNan_half {so : ScanOp} {ty : FTy} (h : scanTy so = some ty) (hty : ty ≠ .f32) (hn : (fmtOf ty).nan < 2 ^ 16) (x : Word)
    {k : Nat} (hk : k < 2) :
    (scanNan so x).toNat / 2 ^ (16 * k) % 2 ^ 16 = (fmtOf ty).canonNan (x.toNat / 2 ^ (16 * k) % 2 ^ 16) := by
  simp only [scanNan, h]
  exact perElem_half hty _ x 0 0 hk fun _ _ _ hx => canonNan_lt hn hx

theorem scanNan_packed {so : ScanOp} {f : Fmt} (hs : (so, f) ∈ [(ScanOp.addF16x2, Fmt.f16), (.addBf16x2, .bf16)]) (x : Word) {k : Nat}
    (hk : k < 2) : (scanNan so x).toNat / 2 ^ (16 * k) % 2 ^ 16 = f.canonNan (x.toNat / 2 ^ (16 * k) % 2 ^ 16) := by
  simp only [List.mem_cons, Prod.mk.injEq, List.not_mem_nil, or_false] at hs
  rcases hs with ⟨rfl, rfl⟩ | ⟨rfl, rfl⟩
  · exact scanNan_half (ty := .f16x2) rfl (by decide) (by decide) x hk
  · exact scanNan_half (ty := .bf16x2) rfl (by decide) (by decide) x hk

/-! ### SHFL's operand (R154) -/

theorem nameGroup_one (x : Name) : nameGroup x 1 = [x] := by
  cases x <;> simp [nameGroup, namePlus]

/-- A name with a position is read from its cell. -/
theorem readName_of_pos {s : State} {un : Unfilled} {t : Tid} {th : Thread} {k : Nat} {n : Name} {p : Pos} (h : th.pos n = some p) :
    readName s un t th k n = readCell s un t p := by
  cases n <;> simp_all [Thread.pos, readName]

/-- The word that a name of one cell gives where no fill has failed. -/
theorem readOp_pos_words {s : State} {t : Tid} {th : Thread} {k : Nat} {a : Src} {p : Pos} (h : th.pos a.name = some p) :
    (readOp s [] t th k (a, 1, .none)).words = [if s.rowBad t p then 0 else (s.readPos t p).getD 0] := by
  simp only [readOp, nameGroup_one, List.foldl_cons, List.foldl_nil, readName_of_pos h, readCell, List.find?_nil]
  cases s.readPos t p with
  | none => simp [OpRead.add]
  | some x => cases hb : s.rowBad t p <;> simp [OpRead.add]

/-- What SHFL reads for A: of the thread that stands in the lane named, zero where none does or it has exited. -/
def shuffled (env : Env) (i : Instr) (u : Tid) : OpRead :=
  let zero : OpRead := { words := [0], void := false, bad := none }
  match env.pre.thread u with
  | none => zero
  | some uh => if uh.status == .exited then zero else (laneRead env i u 0).getD zero

theorem shflReads_eq {i : Instr} {env : Env} {t : Tid} {th : Thread} {ra rb : OpRead} (h : readOps env.pre t th i.srcs env.un = [ra, rb]) :
    shflReads i env t th = [shuffled env i (t.mate ((rb.words.headD 0).toNat % 32 % t.width)), rb] := by
  unfold shflReads
  rw [h]
  rfl

theorem shuffled_none {env : Env} {i : Instr} {u : Tid} (h : env.pre.thread u = none) : (shuffled env i u).words = [0] := by
  simp only [shuffled, h]

theorem shuffled_exited {env : Env} {i : Instr} {u : Tid} {x : Thread} (h : env.pre.thread u = some x) (hx : x.status = .exited) :
    (shuffled env i u).words = [0] := by
  simp [shuffled, h, hx]

theorem shuffled_pos {env : Env} {h : Hdr} {d : Name} {a b : Src} {q : Pat} {u : Tid} {x : Thread} {k : Pos}
    (hu : env.pre.thread u = some x) (hx : x.status ≠ .exited) (hk : x.pos a.name = some k) (hun : env.un = []) :
    (shuffled env (.shfl h d a b q) u).words = [if env.pre.rowBad u k then 0 else (env.pre.readPos u k).getD 0] := by
  have hr : laneRead env (.shfl h d a b q) u 0 = some (readOp env.pre [] u x 0 (a, 1, .none)) := by
    simp only [laneRead, hu, hun]
    rfl
  simp only [shuffled, hu, hr, beq_iff_eq, hx, if_false, Option.getD_some]
  exact readOp_pos_words hk

/-! ### The butterfly as a fold (R118, R156, R157) -/

section
variable {α : Type} {op : α → α → α} {e : α}

/-- With an associative operation and its identity, a fold starts from the identity. -/
theorem foldl_from (ha : ∀ x y z, op (op x y) z = op x (op y z)) (hr : ∀ x, op x e = x) (x : α) (l : List α) :
    l.foldl op x = op x (l.foldl op e) := by
  have : Std.Associative op := ⟨ha⟩
  calc l.foldl op x = l.foldl op (op x e) := by rw [hr]
    _ = op x (l.foldl op e) := List.foldl_assoc

theorem foldl_append_of (ha : ∀ x y z, op (op x y) z = op x (op y z)) (hr : ∀ x, op x e = x) (l m : List α) :
    (l ++ m).foldl op e = op (l.foldl op e) (m.foldl op e) := by
  rw [List.foldl_append, foldl_from ha hr]

end

theorem orAll_zero {β : Type} (l : List β) (f : β → Flags) (h : ∀ x ∈ l, f x = 0) : orAll (l.map f) = 0 := by
  induction l with
  | nil => rfl
  | cons x l ih =>
    have hx := h x List.mem_cons_self
    have hl := ih fun y hy => h y (List.mem_cons_of_mem x hy)
    simp only [orAll, List.map_cons, List.foldl_cons, hx] at hl ⊢
    exact hl

/-- After the butterfly's steps up to distance m / 2, each lane i that m divides holds the fold of lanes i to i + m − 1; no flag is up. -/
structure Blocks (op : Word → Word → Word) (e : Word) (xs : List Word) (m : Nat) (a : List Word × Flags) : Prop where
  length : a.1.length = xs.length
  block : ∀ i, i < xs.length → m ∣ i → a.1.getD i default = ((xs.drop i).take m).foldl op e
  flags : a.2 = 0

section
variable {op : Word → Word → Word} {e : Word}

theorem blocks_one (hl : ∀ x, op e x = x) (xs : List Word) : Blocks op e xs 1 (xs, 0) where
  length := rfl
  block i hi _ := by
    rw [List.drop_eq_getElem_cons hi]
    simp only [List.take_succ_cons, List.take_zero, List.foldl_cons, List.foldl_nil, hl]
    simp [hi]
  flags := rfl

/-- One step of the butterfly joins the blocks of neighbours. -/
theorem Blocks.step (ha : ∀ x y z, op (op x y) z = op x (op y z)) (hr : ∀ x, op x e = x) {xs : List Word} {m : Nat}
    {a : List Word × Flags} (h : Blocks op e xs m a) (hd : 2 * m ∣ xs.length) :
    Blocks op e xs (2 * m) (bflyStep (flatOp op) a m) := by
  refine ⟨by simp [bflyStep, h.length], fun i hi hdi => ?_, ?_⟩
  · have hin : i + m < xs.length := by
      obtain ⟨k, rfl⟩ := hdi
      obtain ⟨n, hn⟩ := hd
      rw [hn] at hi ⊢
      have hk : k + 1 ≤ n := Nat.lt_of_mul_lt_mul_left hi
      have := Nat.mul_le_mul_left (2 * m) hk
      rw [Nat.mul_succ] at this
      omega
    have hmi : m ∣ i := Nat.dvd_trans (Nat.dvd_mul_left m 2) hdi
    have hval : (bflyStep (flatOp op) a m).1.getD i default = op (a.1.getD i default) (a.1.getD (i + m) default) := by
      simp [bflyStep, h.length, hi, hin, Nat.mod_eq_zero_of_dvd hdi, flatOp]
    rw [hval, h.block i hi hmi, h.block (i + m) hin (Nat.dvd_add hmi (Nat.dvd_refl m)), ← foldl_append_of ha hr, Nat.two_mul, List.take_add,
      List.drop_drop]
  · simp only [bflyStep, h.flags, List.map_map]
    rw [orAll_zero]
    · rfl
    · intro i _
      simp only [Function.comp_apply, flatOp]
      split <;> rfl

theorem Blocks.steps (ha : ∀ x y z, op (op x y) z = op x (op y z)) (hl : ∀ x, op e x = x) (hr : ∀ x, op x e = x) {xs : List Word} (n : Nat)
    (hd : 2 ^ n ∣ xs.length) :
    Blocks op e xs (2 ^ n) (((List.range n).map (2 ^ ·)).foldl (bflyStep (flatOp op)) (xs, 0)) := by
  induction n with
  | zero => exact blocks_one hl xs
  | succ n ih =>
    have hd' : 2 * 2 ^ n ∣ xs.length := by rwa [← Nat.pow_succ']
    rw [List.range_succ, List.map_append, List.foldl_append, Nat.pow_succ']
    exact (ih (Nat.dvd_trans (Nat.dvd_mul_left _ 2) hd')).step ha hr hd'

/-- In a warp of 32, 8 or 1 lanes the distances are the powers of two below it. -/
theorem distances_width {w : Nat} (h : w = 32 ∨ w = 8 ∨ w = 1) : ∃ n, w = 2 ^ n ∧ distances w = (List.range n).map (2 ^ ·) := by
  rcases h with rfl | rfl | rfl
  · exact ⟨5, rfl, rfl⟩
  · exact ⟨3, rfl, rfl⟩
  · exact ⟨0, rfl, rfl⟩

/-- The butterfly of a monoid's operation is the fold, without a flag. -/
theorem bfly_flat (ha : ∀ x y z, op (op x y) z = op x (op y z)) (hl : ∀ x, op e x = x) (hr : ∀ x, op x e = x) {xs : List Word}
    (hw : xs.length = 32 ∨ xs.length = 8 ∨ xs.length = 1) : bfly (flatOp op) xs = (xs.foldl op e, 0) := by
  obtain ⟨n, hn, hd⟩ := distances_width hw
  have h := Blocks.steps ha hl hr n (xs := xs) (hn ▸ Nat.dvd_refl _)
  have h0 := h.block 0 (by omega) (Nat.dvd_zero _)
  rw [List.drop_zero, ← hn, List.take_length] at h0
  have hf := h.flags
  simp only [bfly, hd, hf]
  rw [← h0, List.headD_eq_head?_getD, List.head?_eq_getElem?, List.getD_eq_getElem?_getD]

end

/-! ### The word rows of R156 -/

/-- The lesser of two words, as unsigned numbers, and the greater. -/
def minWord (x y : Word) : Word := if x.ult y then x else y
def maxWord (x y : Word) : Word := if x.ult y then y else x

theorem toNat_minWord (x y : Word) : (minWord x y).toNat = min x.toNat y.toNat := by
  simp only [minWord, BitVec.ult, decide_eq_true_eq]
  split <;> omega

theorem toNat_maxWord (x y : Word) : (maxWord x y).toNat = max x.toNat y.toNat := by
  simp only [maxWord, BitVec.ult, decide_eq_true_eq]
  split <;> omega

theorem toNat_foldl {f : Word → Word → Word} {g : Nat → Nat → Nat} (h : ∀ x y, (f x y).toNat = g x.toNat y.toNat) (xs : List Word) (e : Word) :
    (xs.foldl f e).toNat = xs.foldl (fun m x => g m x.toNat) e.toNat :=
  (List.foldl_hom BitVec.toNat fun x y => (h x y).symm).symm

section
variable {xs : List Word} (hw : xs.length = 32 ∨ xs.length = 8 ∨ xs.length = 1) (rm : RM)
include hw

theorem bfly_addB32 : bfly (redRow .addB32 rm).1 xs = (xs.foldl (· + ·) 0, 0) :=
  bfly_flat BitVec.add_assoc BitVec.zero_add BitVec.add_zero hw

theorem bfly_andB32 : bfly (redRow .andB32 rm).1 xs = (xs.foldl (· &&& ·) 0xFFFF_FFFF, 0) :=
  bfly_flat BitVec.and_assoc (fun _ => BitVec.allOnes_and) (fun _ => BitVec.and_allOnes) hw

theorem bfly_orB32 : bfly (redRow .orB32 rm).1 xs = (xs.foldl (· ||| ·) 0, 0) :=
  bfly_flat BitVec.or_assoc (fun _ => BitVec.zero_or) (fun _ => BitVec.or_zero) hw

theorem bfly_xorB32 : bfly (redRow .xorB32 rm).1 xs = (xs.foldl (· ^^^ ·) 0, 0) :=
  bfly_flat BitVec.xor_assoc (fun _ => BitVec.zero_xor) (fun _ => BitVec.xor_zero) hw

theorem bfly_minN32 : bfly (redRow .minN32 rm).1 xs = (xs.foldl minWord 0xFFFF_FFFF, 0) := by
  have hmax : ∀ x : Word, x.toNat ≤ 0xFFFF_FFFF := fun x => Nat.le_of_lt_succ x.isLt
  refine bfly_flat (op := minWord) (fun x y z => ?_) (fun x => ?_) (fun x => ?_) hw <;> apply BitVec.eq_of_toNat_eq <;> simp only [toNat_minWord]
  · exact Nat.min_assoc _ _ _
  · exact Nat.min_eq_right (hmax x)
  · exact Nat.min_eq_left (hmax x)

theorem bfly_maxN32 : bfly (redRow .maxN32 rm).1 xs = (xs.foldl maxWord 0, 0) := by
  refine bfly_flat (op := maxWord) (fun x y z => ?_) (fun x => ?_) (fun x => ?_) hw <;> apply BitVec.eq_of_toNat_eq <;> simp only [toNat_maxWord]
  · exact Nat.max_assoc _ _ _
  · exact Nat.max_eq_right (Nat.zero_le _)
  · exact Nat.max_eq_left (Nat.zero_le _)

theorem bfly_word_flags {o : RedOp} (ho : o = .addB32 ∨ o = .andB32 ∨ o = .orB32 ∨ o = .xorB32 ∨ o = .minN32 ∨ o = .maxN32) :
    (bfly (redRow o rm).1 xs).2 = 0 := by
  rcases ho with rfl | rfl | rfl | rfl | rfl | rfl
  · rw [bfly_addB32 hw]
  · rw [bfly_andB32 hw]
  · rw [bfly_orB32 hw]
  · rw [bfly_xorB32 hw]
  · rw [bfly_minN32 hw]
  · rw [bfly_maxN32 hw]

end

/-- Settles O20: each form is the issue of a form whose lanes only compute; SHFL's A by the cases of the lane that B names; the word
rows by joining the butterfly's blocks. -/
theorem crossLaneFormsComplete : Obligations.CrossLaneFormsComplete := by
  unfold Obligations.CrossLaneFormsComplete
  refine ⟨fun h d a b q u p rm ro so excl live => ?_, fun h d a b q env t th ra rb hab => ?_, fun o rm xs hw => ?_⟩
  · refine ⟨?shfl, fun cc => ?vote, ?ballot, ?matchl, ?redx, ?redxc, ?scan, ?nan, ?lmask⟩
    case shfl =>
      exact completes_plain (fun _ => rfl) (fun _ _ _ _ => rfl) (fun _ _ _ _ => rfl) fun _ _ _ _ => rfl
    case vote =>
      refine completes_warp (fun _ => rfl) (fun env t _ _ => ?_) fun _ _ _ => ⟨rfl, rfl, rfl⟩
      have hyes := congrArg (fun f => ((List.range t.width).filter f).length) (funext (votes_eq env (.vote h cc p a)))
      exact congrArg (fun v => ({ preds := [(p, v)] } : Res)) ((congrArg (voteFn cc.val _) hyes).trans (voteFn_eq cc _ _))
    case ballot =>
      refine completes_warp (fun _ => rfl) (fun env t _ _ => ?_) fun _ _ _ => ⟨rfl, rfl, rfl⟩
      exact congrArg (fun m => ({ out := [m] } : Res)) (laneMask_congr _ (votes_eq env _))
    case matchl =>
      refine completes_warp (fun _ => rfl) (fun env t _ vs => ?_) fun _ _ _ => ⟨rfl, rfl, rfl⟩
      refine congrArg (fun m => ({ out := [m] } : Res)) (laneMask_congr _ fun l => ?_)
      dsimp only
      cases aWords env (.matchl h u) l <;> rfl
    case redx =>
      refine completes_warp (fun _ => rfl) (fun env t _ _ => ?_) fun _ _ _ => ⟨rfl, rfl, rfl⟩
      simp only [lanesOr_eq]
    case redxc =>
      exact completes_warp (fun _ => rfl) (fun _ _ _ _ => rfl) fun _ _ _ => ⟨rfl, rfl, rfl⟩
    case scan =>
      refine completes_warp (fun _ => rfl) (fun env t _ _ => ?_) fun _ _ _ => ⟨rfl, rfl, rfl⟩
      simp only [lanesOr_eq, scanLane_eq]
    case nan =>
      refine fun x => ⟨fun hs => ?_, fun hs => ?_, fun f hs k hk => ?_⟩
      · refine scanNan_flat ?_ x
        simp only [List.mem_cons, List.not_mem_nil, or_false] at hs
        rcases hs with rfl | rfl | rfl | rfl <;> rfl
      · refine scanNan_f32 ?_ x
        rcases hs with rfl | rfl <;> rfl
      · exact scanNan_packed hs x hk
    case lmask =>
      refine completes_warp (fun _ => rfl) (fun env t _ _ => ?_) fun _ _ _ => ⟨rfl, rfl, rfl⟩
      exact congrArg (fun m => ({ out := [m] } : Res)) (laneMask_congr _ fun l => by rw [executes_eq])
  · simp only [shflReads_eq hab, List.map_cons, List.map_nil, List.getElem?_cons_zero, List.getElem?_cons_succ, Option.some.injEq]
    exact ⟨trivial, shuffled_none, fun x hx => ⟨shuffled_exited hx, fun hne k hk hun => shuffled_pos hx hne hk hun⟩⟩
  · refine ⟨?add, ?and, ?or, ?xor, ?min, ?max, ?flags⟩
    case add => rintro rfl; rw [bfly_addB32 hw]
    case and => rintro rfl; rw [bfly_andB32 hw]
    case or => rintro rfl; rw [bfly_orB32 hw]
    case xor => rintro rfl; rw [bfly_xorB32 hw]
    case min => rintro rfl; rw [bfly_minN32 hw]; exact toNat_foldl toNat_minWord xs _
    case max => rintro rfl; rw [bfly_maxN32 hw]; exact toNat_foldl toNat_maxWord xs _
    case flags => exact bfly_word_flags hw rm

end Sys2Proof.Machine
end

section
/-!
Integer forms: the completion of a form whose lanes only compute, the elements of a word and the 64-bit value of a pair (R59, R163 to R165).
-/
namespace Sys2Proof.Machine

/-! ### Completion of the forms that only compute (R59) -/

section
variable {i : Instr} {h : Hdr} {lat : Lat}

/-- A form completes with the words that its lanes compute. -/
theorem completes_out {f F : Thread → List (List Word) → List Word}
    (he : ∀ s, exec i s = .next (issue { i := i, h := h, lat := lat, lane := fun _ s _ th vs => (s, { out := f th vs }) } s))
    (hF : ∀ th vs, f th vs = F th vs) : Completes i h lat (fun _ _ th vs => { out := F th vs }) := by
  obtain rfl : f = F := funext fun th => funext (hF th)
  exact completes_plain he (fun _ _ _ _ => rfl) (fun _ _ _ _ => rfl) fun _ _ _ _ => rfl

/-- A form completes with the predicates that its lanes compute. -/
theorem completes_preds {f F : Thread → List (List Word) → List (Fin 8 × Bool)}
    (he : ∀ s, exec i s = .next (issue { i := i, h := h, lat := lat, lane := fun _ s _ th vs => (s, { preds := f th vs }) } s))
    (hF : ∀ th vs, f th vs = F th vs) : Completes i h lat (fun _ _ th vs => { preds := F th vs }) := by
  obtain rfl : f = F := funext fun th => funext (hF th)
  exact completes_plain he (fun _ _ _ _ => rfl) (fun _ _ _ _ => rfl) fun _ _ _ _ => rfl

end

/-! ### Values of words and pairs (R163) -/

@[simp] theorem pairOf_loOf_hiOf (x : DWord) : pairOf (loOf x) (hiOf x) = x := by
  refine BitVec.eq_of_getLsbD_eq fun j hj => ?_
  simp only [pairOf, loOf, hiOf, BitVec.getLsbD_append, BitVec.getLsbD_setWidth, BitVec.getLsbD_ushiftRight]
  split
  · simp [*]
  · rw [show 32 + (j - 32) = j by omega]
    simp only [show j - 32 < 32 by omega, decide_true, Bool.true_and]

theorem op_eq_opk (vs : List (List Word)) (n : Nat) : op vs n = opk vs n 0 := by
  unfold op opk
  cases vs.getD n [] <;> rfl

/-- Reading w bits in two's complement subtracts 2^w from the values of the upper half. -/
theorem sext_eq {w c : Nat} (hw : 0 < w) (hc : c < 2 ^ w) : sext w c = if 2 ^ (w - 1) ≤ c then (c : Int) - (2 ^ w : Nat) else c := by
  obtain ⟨w, rfl⟩ : ∃ n, w = n + 1 := ⟨w - 1, by omega⟩
  have hd : c / 2 ^ w < 2 := Nat.div_lt_of_lt_mul (by rwa [← Nat.pow_succ])
  have hiff : c / 2 ^ w % 2 = 1 ↔ 2 ^ w ≤ c := by
    rw [Nat.mod_eq_of_lt hd, ← Nat.one_le_div_iff (Nat.two_pow_pos w)]
    omega
  simp only [sext, Nat.add_sub_cancel, beq_iff_eq, hiff]

theorem sext_eq_toInt {w c : Nat} (hw : 0 < w) (hc : c < 2 ^ w) : sext w c = (BitVec.ofNat w c).toInt := by
  rw [sext_eq hw hc, BitVec.toInt_eq_toNat_cond, BitVec.toNat_ofNat, Nat.mod_eq_of_lt hc]
  obtain ⟨w, rfl⟩ : ∃ n, w = n + 1 := ⟨w - 1, by omega⟩
  have hp : 2 ^ (w + 1) = 2 * 2 ^ w := Nat.pow_succ'
  rw [Nat.add_sub_cancel]
  by_cases h : 2 ^ w ≤ c
  · rw [if_pos h, if_neg (by omega)]
  · rw [if_neg h, if_pos (by omega)]

/-- A word's value, as a pair's is `pairI`. -/
def wordI (signed : Bool) (x : Word) : Int := if signed then x.toInt else x.toNat

/-- The one element of a word of a 32-bit element type is its value. -/
theorem elemI_word (signed : Bool) (x : Word) : elemI 32 signed x 0 = wordI signed x := by
  have hx : x.toNat / 2 ^ (32 * 0) % 2 ^ 32 = x.toNat := by have := x.isLt; omega
  simp only [elemI, wordI, hx, sext_eq_toInt (by decide : 0 < 32) x.isLt, BitVec.ofNat_toNat, BitVec.setWidth_eq]

/-! ### Elements packed in a word (R163, R164) -/

theorem codeOf_lt (w : Nat) (x : Int) : codeOf w x < 2 ^ w := by
  have hp : (0 : Int) < (2 ^ w : Nat) := by exact_mod_cast Nat.two_pow_pos w
  have := Int.emod_lt_of_pos x hp
  have := Int.emod_nonneg x (Int.ne_of_gt hp)
  unfold codeOf
  omega

/-- The number with these digits in base B, the lowest first. -/
def packDigits (B : Nat) (l : List Nat) : Nat := l.foldr (fun d a => d + B * a) 0

theorem packDigits_lt {B : Nat} {l : List Nat} (hl : ∀ d ∈ l, d < B) : packDigits B l < B ^ l.length := by
  induction l with
  | nil => exact Nat.one_pos
  | cons d l ih =>
    have hd := hl d List.mem_cons_self
    have hr := Nat.mul_le_mul_left B (ih fun x hx => hl x (List.mem_cons_of_mem d hx))
    rw [Nat.succ_eq_add_one, Nat.mul_add_one] at hr
    rw [List.length_cons, Nat.pow_succ']
    show d + B * packDigits B l < _
    omega

/-- A number packed from digits below B has them as its digits. -/
theorem digit_packDigits {B : Nat} {l : List Nat} (hl : ∀ d ∈ l, d < B) {i : Nat} (hi : i < l.length) :
    packDigits B l / B ^ i % B = l[i] := by
  induction l generalizing i with
  | nil => exact absurd hi (Nat.not_lt_zero i)
  | cons d l ih =>
    have hd := hl d List.mem_cons_self
    show (d + B * packDigits B l) / B ^ i % B = _
    cases i with
    | zero => rw [Nat.pow_zero, Nat.div_one, Nat.add_mul_mod_self_left, Nat.mod_eq_of_lt hd, List.getElem_cons_zero]
    | succ i =>
      rw [Nat.pow_succ', ← Nat.div_div_eq_div_mul, Nat.add_mul_div_left d _ (Nat.lt_of_le_of_lt (Nat.zero_le d) hd), Nat.div_eq_of_lt hd,
        Nat.zero_add, List.getElem_cons_succ]
      exact ih (fun x hx => hl x (List.mem_cons_of_mem d hx)) (Nat.lt_of_succ_lt_succ hi)

/-- The codes of w bits that exact results are placed as, clamped or wrapped. -/
def placedCodes (w : Nat) (signed sat : Bool) (l : List Int) : List Nat := l.map fun x => codeOf w (if sat then clampTo w signed x else x)

theorem placedCodes_lt {w : Nat} {signed sat : Bool} {l : List Int} : ∀ d ∈ placedCodes w signed sat l, d < 2 ^ w := by
  intro d hd
  obtain ⟨x, _, rfl⟩ := List.mem_map.1 hd
  exact codeOf_lt w _

theorem packI_eq_packDigits (w : Nat) (signed sat : Bool) (l : List Int) :
    packI w signed sat l = w32 (packDigits (2 ^ w) (placedCodes w signed sat l)) := by
  rw [packI, packDigits, placedCodes, List.foldr_map]

/-- Where the elements fill the word, element i is the code of the i-th value, clamped or wrapped. -/
theorem element_packI {w : Nat} {signed sat : Bool} {l : List Int} (hl : w * l.length = 32) {i : Nat} (hi : i < l.length) :
    (packI w signed sat l).toNat / 2 ^ (w * i) % 2 ^ w = codeOf w (if sat then clampTo w signed l[i] else l[i]) := by
  have hlen : (placedCodes w signed sat l).length = l.length := List.length_map _
  have hbound : packDigits (2 ^ w) (placedCodes w signed sat l) < 2 ^ 32 := by
    have := packDigits_lt (placedCodes_lt (w := w) (signed := signed) (sat := sat) (l := l))
    rwa [hlen, ← Nat.pow_mul, hl] at this
  rw [packI_eq_packDigits, w32, BitVec.toNat_ofNat, Nat.mod_eq_of_lt hbound, Nat.pow_mul, digit_packDigits placedCodes_lt (hlen ▸ hi)]
  exact List.getElem_map _

theorem tyWidth_pos (ty : ITy) : 0 < tyWidth ty := by cases ty <;> decide

/-- The elements of a 32-bit type fill the word. -/
theorem tyWidth_mul_elements {ty : ITy} (h : ty.is64 = false) : tyWidth ty * (32 / tyWidth ty) = 32 := by
  revert h; cases ty <;> decide

/-- Each element of a form of a 32-bit type is its own result, clamped or wrapped. -/
theorem element_mapI {ty : ITy} (h64 : ty.is64 = false) (sat : Bool) (f : Int → Int → Int) (a b : Word) {i : Nat}
    (hi : i < 32 / tyWidth ty) :
    let x := f (elemI (tyWidth ty) ty.signed a i) (elemI (tyWidth ty) ty.signed b i)
    (mapI ty sat f a b).toNat / 2 ^ (tyWidth ty * i) % 2 ^ tyWidth ty =
      codeOf (tyWidth ty) (if sat then clampTo (tyWidth ty) ty.signed x else x) := by
  intro x
  simp only [mapI]
  rw [element_packI (by rw [List.length_map, List.length_range, tyWidth_mul_elements h64])
    (by rwa [List.length_map, List.length_range])]
  simp only [List.getElem_map, List.getElem_range, x]

theorem elemI_eq {w : Nat} (hw : 0 < w) (signed : Bool) (x : Word) (i : Nat) :
    elemI w signed x i = if signed ∧ 2 ^ (w - 1) ≤ x.toNat / 2 ^ (w * i) % 2 ^ w
      then ((x.toNat / 2 ^ (w * i) % 2 ^ w : Nat) : Int) - (2 ^ w : Nat) else (x.toNat / 2 ^ (w * i) % 2 ^ w : Nat) := by
  simp only [elemI, sext_eq hw (Nat.mod_lt _ (Nat.two_pow_pos w))]
  cases signed <;> simp

/-! ### IADD, ISUB, IMIN, IMAX, IABS -/

/-- Settles O8: an element is a digit of the packed word, a pair the sum placed in 64 bits. -/
theorem elementsAndPairs : Obligations.ElementsAndPairs := by
  unfold Obligations.ElementsAndPairs
  refine ⟨fun h ty sat o u => ⟨?_, ?_, ?_, ?_, ?_⟩, fun ty sat f b vs h64 => ?elements, fun ty sat f a b i h64 hi => ?element,
    fun ty sat f x y r p k h64 => ?pair⟩
  iterate 5 exact completes_out (fun _ => rfl) fun _ _ => rfl
  case elements => simp only [addFn, h64, Bool.false_eq_true, if_false]
  case element =>
    intro w elem x lo up
    refine (element_mapI h64 sat f a b hi).trans ?_
    simp only [elemI_eq (tyWidth_pos ty)]
    rfl
  case pair =>
    intro out
    have hp : ∀ v : DWord, pairOut (placeInt 64 ty.signed sat (f (pairI ty.signed x) (pairI ty.signed v))) = out v := by
      intro v
      simp only [out, pairI]
      cases ty.signed <;> rfl
    have hx : ∀ l, opPair ([loOf x, hiOf x] :: l) 0 = x := fun _ => pairOf_loOf_hiOf x
    have hy : opPair [[loOf x, hiOf x], [loOf y, hiOf y]] 1 = y := pairOf_loOf_hiOf y
    simp only [addFn, h64, if_true, hx, hy, bPair, hp, and_self]

end Sys2Proof.Machine
end

section
/-!
The other integer and address forms (R166 to R168, R173, R174): each form's function in the terms of its rule.
-/
namespace Sys2Proof.Machine

/-! ### Products (R166, R167) -/

theorem imulFn_eq (ty : ITy) (sat wide : Bool) (a b : Word) : imulFn ty sat wide a b =
    if wide then pairOut (BitVec.ofInt 64 (wordI ty.signed a * wordI ty.signed b)) else [mapI ty sat (· * ·) a b] := by
  simp only [imulFn, elemI_word]

theorem imadFn_eq (ty : ITy) (sat wide : Bool) (a b : Word) (vs : List (List Word)) : imadFn ty sat wide a b (vs.getD 2 []) =
    if wide then pairOut (placeInt 64 ty.signed sat (wordI ty.signed a * wordI ty.signed b + pairI ty.signed (opPair vs 2)))
    else [packI (tyWidth ty) ty.signed sat ((List.range (32 / tyWidth ty)).map fun i =>
      elemI (tyWidth ty) ty.signed a i * elemI (tyWidth ty) ty.signed b i + elemI (tyWidth ty) ty.signed (op vs 2) i)] := by
  simp only [imadFn, elemI_word, op_eq_opk]
  rfl

theorem idot4Fn_eq (ty : ITy) (sat : Bool) (a b c : Word) : idot4Fn ty sat a b c =
    placeInt 32 ty.signed sat (((List.range (32 / tyWidth ty)).map fun i =>
      elemI (tyWidth ty) ty.signed a i * elemI (tyWidth ty) ty.signed b i).foldl (· + ·) (wordI ty.signed c)) := by
  simp only [idot4Fn, elemI_word, List.foldl_map]

/-- ICMP's condition is the entry of its selector in R168's table. -/
theorem condI_eq (cc : Fin 8) (sg : Bool) (a b : Word) :
    condI cc.val sg a b = [a == b, a != b, if sg then a.slt b else a.ult b, if sg then a.sle b else a.ule b,
      if sg then b.slt a else b.ult a, if sg then b.sle a else b.ule a, a &&& b != 0, a &&& b == 0].getD cc.val false := by
  match cc with
  | 0 | 1 | 2 | 3 | 4 | 5 | 6 | 7 => rfl

/-! ### MOVK, LEA and ISEL (R169, R173, R174) -/

/-- MOVK keeps a half by the mask of the low half or by its complement. -/
theorem exists_movkMask (half : Bool) (k : BitVec 16) (old : Word) : ∃ m : Word, (∀ j < 32, m.getLsbD j = decide (j < 16)) ∧
    movkFn half k old = if half then (old &&& m) ||| (k.setWidth 32 <<< 16) else (old &&& ~~~m) ||| k.setWidth 32 := by
  refine ⟨(BitVec.allOnes 16).setWidth 32, fun j hj => ?_, by cases half <;> rfl⟩
  rw [BitVec.getLsbD_setWidth, BitVec.getLsbD_allOnes, decide_eq_true hj, Bool.true_and]

/-- MOVK replaces one half of a word (R174). -/
theorem movkFn_eq (half : Bool) (k : BitVec 16) (old : Word) :
    movkFn half k old = if half then k ++ old.extractLsb' 0 16 else old.extractLsb' 16 16 ++ k := by
  obtain ⟨m, hm, hmovk⟩ := exists_movkMask half k old
  rw [hmovk]
  refine BitVec.eq_of_getLsbD_eq fun j hj => ?_
  have hk : 16 ≤ j → k.getLsbD j = false := BitVec.getLsbD_of_ge k j
  cases half
  case false =>
    simp only [Bool.false_eq_true, if_false, BitVec.getLsbD_or, BitVec.getLsbD_and, BitVec.getLsbD_not, hm j hj, hj,
      BitVec.getLsbD_setWidth, BitVec.getLsbD_append, BitVec.getLsbD_extractLsb']
    by_cases h : j < 16
    · simp [h]
    · simp [h, hk (by omega), show 16 + (j - 16) = j by omega, show j - 16 < 16 by omega]
  case true =>
    simp only [if_true, BitVec.getLsbD_or, BitVec.getLsbD_and, hm j hj, hj, BitVec.getLsbD_shiftLeft, BitVec.getLsbD_setWidth,
      BitVec.getLsbD_append, BitVec.getLsbD_extractLsb']
    by_cases h : j < 16
    · simp [h]
    · simp [h, show j - 16 < 32 by omega]

theorem leaFn_eq (sg : Bool) (b : BSrc) (vs : List (List Word)) : leaFn sg b vs = opPair vs 0 + match b with
    | .imm k => k.signExtend 64
    | .reg _ _ => if sg then (op vs 1).signExtend 64 else (op vs 1).setWidth 64 := by
  cases b <;> rfl

/-- ISEL's test of C in the words of its rule. -/
theorem ite_bne_zero (a b c : Word) : (if c != 0 then a else b) = if c = 0 then b else a := by
  by_cases h : c = 0 <;> simp [h]

/-- Settles O10: each form's result by the equation of its function above. -/
theorem integerFormsComplete : Obligations.IntegerFormsComplete := by
  unfold Obligations.IntegerFormsComplete
  intro h ty sat wide sg o t u placed w elem int pair
  refine ⟨?imul, ?imulh, ?imad, ?idot4, fun p => ?icmp, ?isel, ?lea, ?mov, fun d k => ?movi, fun d k => ?movk⟩
  case imul => exact completes_out (fun _ => rfl) fun _ vs => imulFn_eq ty sat wide _ _
  case imulh => exact completes_out (fun _ => rfl) fun _ _ => rfl
  case imad => exact completes_out (fun _ => rfl) fun _ vs => imadFn_eq ty sat wide _ _ vs
  case idot4 => exact completes_out (fun _ => rfl) fun _ vs => congrArg ([·]) (idot4Fn_eq ty sat _ _ _)
  case icmp => exact completes_preds (fun _ => rfl) fun _ vs => congrArg (fun c => [(p.p, c)]) (condI_eq p.cc sg _ _)
  case isel => exact completes_out (fun _ => rfl) fun _ vs => congrArg ([·]) (ite_bne_zero _ _ _)
  case lea => exact completes_out (fun _ => rfl) fun _ vs => congrArg pairOut (leaFn_eq sg o.b vs)
  case mov => exact completes_out (fun _ => rfl) fun _ _ => rfl
  case movi => exact completes_out (fun _ => rfl) fun _ _ => rfl
  case movk => exact completes_out (fun _ => rfl) fun _ vs => congrArg ([·]) (movkFn_eq sg k _)

end Sys2Proof.Machine
end

section
/-!
Counts, the reversal, bit fields and shifts (R170 to R172, R177, R178), bit by bit.
-/
namespace Sys2Proof.Machine

/-! ### Counts and the reversal (R170) -/

theorem toNat_popcFn (a : Word) : (popcFn a).toNat = ((List.range 32).filter fun j => a.getLsbD j).length := by
  have hle := List.length_filter_le (fun j => a.getLsbD j) (List.range 32)
  rw [List.length_range] at hle
  exact Nat.mod_eq_of_lt (by omega)

theorem bitLen_le_iff {m n : Nat} : bitLen m ≤ n ↔ m < 2 ^ n := by
  by_cases hm : m = 0
  · subst hm
    exact ⟨fun _ => Nat.two_pow_pos n, fun _ => Nat.zero_le n⟩
  · simp only [bitLen, beq_iff_eq, hm, if_false, Nat.succ_le_iff, Nat.log2_lt hm]

theorem testBit_bitLen {m : Nat} (h : 0 < bitLen m) : m.testBit (bitLen m - 1) = true := by
  by_cases hm : m = 0
  · subst hm; exact absurd h (by decide)
  · simp only [bitLen, beq_iff_eq, hm, if_false, Nat.add_sub_cancel]
    exact Nat.testBit_log2 hm

theorem toNat_clzFn (a : Word) : (clzFn a).toNat = 32 - bitLen a.toNat :=
  Nat.mod_eq_of_lt (by omega)

/-- CLZ counts the zeros above the highest one. -/
theorem clzFn_bits (a : Word) : (clzFn a).toNat ≤ 32 ∧ (∀ j, 32 - (clzFn a).toNat ≤ j → a.getLsbD j = false) ∧
    ((clzFn a).toNat < 32 → a.getLsbD (31 - (clzFn a).toNat) = true) := by
  have hle := bitLen_le_iff.2 a.isLt
  rw [toNat_clzFn]
  refine ⟨by omega, fun j hj => ?_, fun h0 => ?_⟩
  · exact Nat.testBit_lt_two_pow (bitLen_le_iff.1 (by omega))
  · rw [show 31 - (32 - bitLen a.toNat) = bitLen a.toNat - 1 by omega]
    exact testBit_bitLen (by omega)

theorem testBit_natOfBits (l : List Bool) (j : Nat) : (natOfBits l).testBit j = l.getD j false := by
  induction l generalizing j with
  | nil => exact Nat.zero_testBit j
  | cons b l ih =>
    cases j with
    | zero => cases b <;> simp [natOfBits, Nat.testBit_zero]
    | succ j =>
      have hb : ((if b then 1 else 0) + 2 * natOfBits l) / 2 = natOfBits l := by split <;> omega
      rw [natOfBits, Nat.testBit_add_one, hb, ih]
      rfl

theorem brevFn_bit (a : Word) {j : Nat} (hj : j < 32) : (brevFn a).getLsbD j = a.getLsbD (31 - j) := by
  rw [brevFn, w32, BitVec.getLsbD_ofNat, testBit_natOfBits]
  simp [List.getD_eq_getElem?_getD, hj]

/-! ### Bit fields (R171, R172) -/

/-- The place and the length of the field that a control word names. -/
def fieldPos (c : Word) : Nat := c.toNat % 256
def fieldLen (c : Word) : Nat := min (c.toNat / 256 % 256) 32

theorem fieldLen_le (c : Word) : fieldLen c ≤ 32 := Nat.min_le_right _ _

theorem bfiFn_eq (a b c : Word) : bfiFn a b c =
    let m := w32 ((2 ^ fieldLen c - 1) * 2 ^ fieldPos c)
    (a &&& ~~~m) ||| (w32 (b.toNat * 2 ^ fieldPos c) &&& m) := rfl

theorem bfiFn_bit (a b c : Word) {j : Nat} (hj : j < 32) : (bfiFn a b c).getLsbD j =
    if fieldPos c ≤ j ∧ j < fieldPos c + fieldLen c then b.getLsbD (j - fieldPos c) else a.getLsbD j := by
  simp only [bfiFn_eq, w32, BitVec.getLsbD_or, BitVec.getLsbD_and, BitVec.getLsbD_not, BitVec.getLsbD_ofNat, Nat.testBit_mul_two_pow,
    Nat.testBit_two_pow_sub_one, BitVec.testBit_toNat, hj, decide_true, Bool.true_and]
  by_cases hp : fieldPos c ≤ j
  · by_cases hn : j < fieldPos c + fieldLen c
    · simp [hp, hn, show j - fieldPos c < fieldLen c by omega]
    · simp [hp, hn, show ¬ j - fieldPos c < fieldLen c by omega]
  · simp [hp]

/-- Bit k of a word extended without end. -/
def extBit (signed : Bool) (a : Word) (k : Nat) : Bool := if k < 32 then a.getLsbD k else signed && a.getLsbD 31

/-- A word shifted right by p, filled with its sign or with zeros. -/
def shiftedRight (signed : Bool) (a : Word) (p : Nat) : Word := if signed then a.sshiftRight p else a >>> p

theorem shiftedRight_bit (signed : Bool) (a : Word) (p : Nat) {j : Nat} (hj : j < 32) :
    (shiftedRight signed a p).getLsbD j = extBit signed a (p + j) := by
  unfold extBit
  cases signed
  · simp only [shiftedRight, Bool.false_eq_true, if_false, BitVec.getLsbD_ushiftRight, Bool.false_and]
    split
    · rfl
    · exact BitVec.getLsbD_of_ge a _ (by omega)
  · simp only [shiftedRight, if_true, BitVec.getLsbD_sshiftRight, BitVec.msb_eq_getLsbD_last, Bool.true_and,
      show ¬ 32 ≤ j by omega, decide_false, Bool.not_false]

/-- A word's value and its code agree mod a power of two that is within the word. -/
theorem toInt_emod_two_pow (x : Word) {n : Nat} (hn : n ≤ 32) : x.toInt % (2 ^ n : Nat) = (x.toNat % 2 ^ n : Nat) := by
  have hd : ((2 ^ n : Nat) : Int) ∣ (2 ^ 32 : Nat) := by exact_mod_cast Nat.pow_dvd_pow 2 hn
  rw [BitVec.toInt_eq_toNat_bmod, ← Int.emod_emod_of_dvd _ hd, Int.bmod_emod, Int.emod_emod_of_dvd _ hd]
  rfl

/-- Division by 2^p is the shift: the field's code is the low part of the word shifted. -/
theorem shiftedRight_field (signed : Bool) (a : Word) (p : Nat) {n : Nat} (hn : n ≤ 32) :
    (wordI signed a / (2 ^ p : Nat) % (2 ^ n : Nat)).toNat = (shiftedRight signed a p).toNat % 2 ^ n := by
  cases signed
  · rw [shiftedRight, wordI, if_neg Bool.false_ne_true, if_neg Bool.false_ne_true, BitVec.toNat_ushiftRight, Nat.shiftRight_eq_div_pow]
    rfl
  · rw [shiftedRight, wordI, if_pos rfl, if_pos rfl, ← Int.shiftRight_eq_div_pow, ← BitVec.toInt_sshiftRight,
      toInt_emod_two_pow _ hn, Int.toNat_natCast]

/-- BFE takes the low bits of the word shifted, and extends them. -/
theorem bfeFn_eq (signed : Bool) (a b : Word) (hn : fieldLen b ≠ 0) : bfeFn signed a b =
    let field := (shiftedRight signed a (fieldPos b)).setWidth (fieldLen b)
    if signed then field.signExtend 32 else field.setWidth 32 := by
  have hcode : (wordI signed a / (2 ^ fieldPos b : Nat) % (2 ^ fieldLen b : Nat)).toNat =
      ((shiftedRight signed a (fieldPos b)).setWidth (fieldLen b)).toNat := by
    rw [shiftedRight_field signed a _ (fieldLen_le b), BitVec.toNat_setWidth]
  have hdef : bfeFn signed a b = if fieldLen b == 0 then 0 else
      let f := (wordI signed a / (2 ^ fieldPos b : Nat) % (2 ^ fieldLen b : Nat)).toNat
      if signed then BitVec.ofInt 32 (sext (fieldLen b) f) else w32 f := rfl
  simp only [hdef, hcode, beq_iff_eq, hn, if_false, sext_eq_toInt (Nat.pos_of_ne_zero hn) (BitVec.isLt _), w32,
    BitVec.ofNat_toNat, BitVec.setWidth_eq]
  rfl

theorem bfeFn_bit (signed : Bool) (a b : Word) {j : Nat} (hj : j < 32) : (bfeFn signed a b).getLsbD j =
    if fieldLen b = 0 then false else if j < fieldLen b then extBit signed a (fieldPos b + j)
    else signed && extBit signed a (fieldPos b + fieldLen b - 1) := by
  by_cases hn : fieldLen b = 0
  · rw [if_pos hn, show bfeFn signed a b = 0 from if_pos (beq_iff_eq.2 hn)]
    exact BitVec.getLsbD_zero
  · have hle := fieldLen_le b
    rw [if_neg hn, bfeFn_eq signed a b hn, Nat.add_sub_assoc (by omega), ← shiftedRight_bit signed a _ hj,
      ← shiftedRight_bit signed a _ (show fieldLen b - 1 < 32 by omega)]
    cases signed
    · by_cases h : j < fieldLen b
      · simp only [Bool.false_eq_true, if_false, BitVec.getLsbD_setWidth, hj, h, if_true, decide_true, Bool.true_and]
      · simp only [Bool.false_eq_true, if_false, BitVec.getLsbD_setWidth, h, decide_false, Bool.false_and, Bool.and_false]
    · rw [if_pos rfl, BitVec.getLsbD_signExtend, BitVec.msb_eq_getLsbD_last, BitVec.getLsbD_setWidth, BitVec.getLsbD_setWidth]
      by_cases h : j < fieldLen b
      · simp only [h, hj, if_true, decide_true, Bool.true_and]
      · simp only [h, hj, if_false, show fieldLen b - 1 < fieldLen b by omega, decide_true, Bool.true_and]

/-! ### Shifts (R177, R178) -/

theorem shlFn_bit (a b : Word) {j : Nat} (hj : j < 32) : (shlFn a b).getLsbD j = (decide (shAmt b ≤ j) && a.getLsbD (j - shAmt b)) := by
  unfold shlFn
  split
  · simp only [BitVec.getLsbD_shiftLeft, hj, decide_true, Bool.true_and, ← decide_not, Nat.not_lt]
  · rw [decide_eq_false (by omega)]; exact BitVec.getLsbD_zero

theorem shrFn_bit (a b : Word) (j : Nat) : (shrFn a b).getLsbD j = a.getLsbD (j + shAmt b) := by
  unfold shrFn
  split
  · rw [BitVec.getLsbD_ushiftRight, Nat.add_comm]
  · rw [BitVec.getLsbD_of_ge a _ (by omega)]; exact BitVec.getLsbD_zero

theorem sarFn_bit (a b : Word) {j : Nat} (hj : j < 32) :
    (sarFn a b).getLsbD j = if j + shAmt b < 32 then a.getLsbD (j + shAmt b) else a.getLsbD 31 := by
  have h := shiftedRight_bit true a (min (shAmt b) 32) hj
  rw [extBit, Bool.true_and] at h
  refine (h : (sarFn a b).getLsbD j = _).trans ?_
  by_cases hs : j + shAmt b < 32
  · rw [if_pos hs, if_pos (by omega), show min (shAmt b) 32 + j = j + shAmt b by omega]
  · rw [if_neg hs, if_neg (by omega)]

theorem rotFn_bit (a b : Word) {j : Nat} (hj : j < 32) : (rotFn a b).getLsbD j = a.getLsbD ((j + 32 - shAmt b % 32) % 32) := by
  have hr : shAmt b % 32 < 32 := Nat.mod_lt _ (by decide)
  rw [rotFn, BitVec.getLsbD_rotateLeft, Nat.mod_mod]
  by_cases h : j < shAmt b % 32
  · rw [decide_eq_true h, cond_true]; congr 1; omega
  · rw [decide_eq_false h, cond_false, decide_eq_true hj, Bool.true_and]; congr 1; omega

theorem fshfFn_bit (a b c : Word) {j : Nat} (hj : j < 32) : (fshfFn a b c).getLsbD j =
    if c.toNat % 64 + j < 32 then a.getLsbD (c.toNat % 64 + j) else b.getLsbD (c.toNat % 64 + j - 32) := by
  simp only [fshfFn, loOf, pairOf, BitVec.getLsbD_setWidth, hj, decide_true, Bool.true_and, BitVec.getLsbD_ushiftRight, BitVec.getLsbD_append]

/-- Settles O9: the bits of each form's result by its lemma above. -/
theorem bitFieldsAndShifts : Obligations.BitFieldsAndShifts := by
  unfold Obligations.BitFieldsAndShifts
  refine ⟨fun h sg o t u => ⟨?_, ?_, ?_, ?_, ?_, ?_, ?_, ?_, ?_, ?_⟩, fun a j hj => brevFn_bit a hj, toNat_popcFn, clzFn_bits,
    fun a b c j hj => bfiFn_bit a b c hj, fun sg a b j hj => bfeFn_bit sg a b hj,
    fun a b c j hj => ⟨⟨shlFn_bit a b hj, shrFn_bit a b j, sarFn_bit a b hj, rotFn_bit a b hj⟩, fshfFn_bit a b c hj⟩⟩
  iterate 10 exact completes_out (fun _ => rfl) fun _ _ => rfl

end Sys2Proof.Machine
end

section
/-!
Logic and predicate forms (R175, R176, R179, R180).
-/
namespace Sys2Proof.Machine

theorem fn2_bit (f : BitVec 4) (a b : Word) {j : Nat} (hj : j < 32) :
    (fn2 f a b).getLsbD j = f.getLsbD (2 * (a.getLsbD j).toNat + (b.getLsbD j).toNat) := by
  have hpick : ∀ (k : Nat) (m : Word), (if f.getLsbD k then m else 0).getLsbD j = (f.getLsbD k && m.getLsbD j) := by
    intro k m
    cases f.getLsbD k <;> simp
  simp only [fn2, BitVec.getLsbD_or, hpick, BitVec.getLsbD_and, BitVec.getLsbD_not, hj]
  cases a.getLsbD j <;> cases b.getLsbD j <;> simp

theorem bmuxFn_bit (f1 f0 : BitVec 4) (a b c : Word) {j : Nat} (hj : j < 32) :
    (bmuxFn f1 f0 a b c).getLsbD j = if c.getLsbD j then (fn2 f1 a b).getLsbD j else (fn2 f0 a b).getLsbD j := by
  simp only [bmuxFn, BitVec.getLsbD_or, BitVec.getLsbD_and, BitVec.getLsbD_not, hj]
  cases c.getLsbD j <;> simp

theorem getPred_eq (p : BitVec 7) (k : Fin 8) : getPred p k = if k = 7 then true else p.getLsbD k.val := by
  unfold getPred
  by_cases h : k = 7 <;> simp [h]

theorem plopFn_eq (fn : Fin 8) (a b : Bool) :
    plopFn fn.val a b = [a && b, a || b, a != b, a && !b, a || !b, !(a && b), !(a || b), a == b].getD fn.val false := by
  match fn with
  | 0 | 1 | 2 | 3 | 4 | 5 | 6 | 7 => rfl

/-- Settles O11: a two-input function picks one bit of its code, and BMUX one of two functions. -/
theorem logicFormsComplete : Obligations.LogicFormsComplete := by
  unfold Obligations.LogicFormsComplete
  refine ⟨fun a b c j f1 f0 hj => ?bits, fun h o =>
    ⟨?_, ?_, ?_, ?_, fun f1 f0 d a b c => ?_, fun fn pd pa pb => ?plop, fun d => ?_, fun a => ?g2p⟩⟩
  case bits => rw [bmuxFn_bit f1 f0 a b c hj, fn2_bit f1 a b hj, fn2_bit f0 a b hj]
  case plop =>
    refine completes_preds (fun _ => rfl) fun th _ => ?_
    rw [plopFn_eq, getPred_eq, getPred_eq]
  case g2p => exact completes_preds (fun _ => rfl) fun _ _ => rfl
  all_goals exact completes_out (fun _ => rfl) fun _ _ => rfl

end Sys2Proof.Machine
end
